-- ==== Sys2Proof/Word.lean ====
section
/-!
DEFINITION. The word types of the model: the byte of the serial links, and tables of a fixed size.

A `Table n α` holds one entry for each index of `Fin n`; it is read and written through `Table.read`
and `Table.write` only, so that every claim about a table rests on the two laws below.
-/

namespace Sys2Proof

/-- One byte of a frame on a serial link. -/
abbrev Byte := BitVec 8

/-- A number as the byte that carries it (the low eight bits). -/
def byteOf (n : Nat) : Byte := BitVec.ofNat 8 n

/-- A table with one entry for each of `n` indexes. -/
abbrev Table (n : Nat) (α : Type) := Vector α n

/-- The entry at an index. -/
def Table.read {α : Type} {n : Nat} (t : Table n α) (i : Fin n) : α := t[i.val]

/-- The table with the entry at one index replaced. -/
def Table.write {α : Type} {n : Nat} (t : Table n α) (i : Fin n) (a : α) : Table n α :=
  t.set i.val a

/-- The table whose every entry is `a`. -/
def Table.fill {α : Type} (n : Nat) (a : α) : Table n α := Vector.replicate n a

/-- The table with `f` applied to every entry. -/
def Table.mapEach {α β : Type} {n : Nat} (f : α → β) (t : Table n α) : Table n β := Vector.map f t

@[simp] theorem Table.read_write_same {α : Type} {n : Nat} (t : Table n α) (i : Fin n) (a : α) :
    (t.write i a).read i = a := by
  simp [Table.read, Table.write]

theorem Table.read_write_ne {α : Type} {n : Nat} (t : Table n α) {i j : Fin n} (a : α)
    (h : i ≠ j) : (t.write i a).read j = t.read j := by
  have h' : i.val ≠ j.val := fun e => h (Fin.ext e)
  simp [Table.read, Table.write, h']

theorem Table.read_write {α : Type} {n : Nat} (t : Table n α) (i j : Fin n) (a : α) :
    (t.write i a).read j = if i = j then a else t.read j := by
  by_cases h : i = j
  · subst h; simp
  · simp [Table.read_write_ne t a h, h]

@[simp] theorem Table.read_fill {α : Type} {n : Nat} (a : α) (i : Fin n) :
    (Table.fill n a).read i = a := by
  simp [Table.read, Table.fill]

@[simp] theorem Table.read_mapEach {α β : Type} {n : Nat} (f : α → β) (t : Table n α) (i : Fin n) :
    (Table.mapEach f t).read i = f (t.read i) := by
  simp [Table.read, Table.mapEach]

@[simp] theorem Table.write_read_self {α : Type} {n : Nat} (t : Table n α) (i : Fin n) :
    t.write i (t.read i) = t := by
  simp [Table.read, Table.write]

/-- Two tables that read the same at every index are equal. -/
theorem Table.ext_read {α : Type} {n : Nat} {t u : Table n α} (h : ∀ i, t.read i = u.read i) :
    t = u := by
  apply Vector.ext
  intro i hi
  exact h ⟨i, hi⟩

end Sys2Proof
end

