-- ==== Sys2Proof/Config.lean ====
section
/-!
DEFINITION. The fixed numbers of the Gandrow 816: sizes of its lists, lengths of its fixed timers,
the ranges of its settings, and the values the log fixes where the spec gives none.
-/

namespace Sys2Proof.Config

/-- Entries a riser's outbound queue holds (R77). -/
def riserQueueRoom : Nat := 32
/-- Outstanding solicited requests of one riser (R79, R80). -/
def outstandingRoom : Nat := 4
/-- Tags of one riser (R69). -/
def tagCount : Nat := 16
/-- Outstanding requests at which the survey stops polling (R94). -/
def surveyOutstandingLimit : Nat := 2
/-- Frames the host request buffer holds (R168). -/
def requestBufferRoom : Nat := 4
/-- Notices the notice queue holds (R187). -/
def noticeQueueRoom : Nat := 32

/-- The reply timer of a riser request, in ms (R78). -/
def replyTimeMs : Nat := 250
/-- The wake timer, in ms (R75). -/
def wakeTimeMs : Nat := 200
/-- The silence after which a part-received frame is discarded, in ms (R194). -/
def rxTimeoutMs : Nat := 20

/-- Last station address of a riser (R69). -/
def lastStation : Nat := 62
/-- Codes of the numbering plan: 0 to 9999 (R34). -/
def codeCount : Nat := 10000

/-- DESIGN CHOICE (log entry 2): ms that one idle step of the model lets pass. -/
def idleStepMs : Nat := 1

end Sys2Proof.Config
end

