-- ==== Sys2Proof/Syntax.lean ====
section
/-!
DEFINITION. The commands of the Gandrow 816: one constructor of `Instr` for each row of
spec/opcode_table.json, with the operands its rule names.

Operands that are wires of the part (which port, which riser, which lock) are finite types.
Operands that are carried in a frame as a number (a request's fields, a station address, a code) are
natural numbers; `WellFormed` says which of them a frame can carry.
-/

namespace Sys2Proof

/-- A panel port, P0 to P7; also the lock of that port (R154). -/
abbrev PortIx := Fin 8
/-- A riser, 0 to 5. -/
abbrev RiserIx := Fin 6
/-- A place of the call table. Slot number n of the spec (1 to 16) is index n - 1. -/
abbrev SlotIx := Fin 16
/-- A flat of the flat table, 0 to 255. -/
abbrev FlatIx := Fin 256
/-- A window of the numbering plan, 0 to 7. -/
abbrev WindowIx := Fin 8

/-- A call reference: slot and generation (section 1.1). The generation wraps at 256 (R2). -/
structure Ref where
  slot : SlotIx
  gen  : BitVec 8
  deriving DecidableEq, Repr

/-- What a riser's line-sense input reports (R69). -/
inductive LineCondition where
  | good
  | short
  | openLine
  deriving DecidableEq, Repr

/-- One of the three kinds of serial link (section 11.1). -/
inductive Link where
  | host
  | panel (p : PortIx)
  | riser (r : RiserIx)
  deriving DecidableEq, Repr

/-- Bytes that arrive on one link, in the order they arrive (section 11.1). -/
structure LinkBytes where
  link  : Link
  bytes : List Byte
  deriving DecidableEq, Repr

/-- The commands. A command of the host link that carries a request names first the request number
of its frame (`num`), then the request's fields in the order of R196. -/
inductive Instr where
  -- starts and the host link (R167 to R181)
  | powerUp
  | resetPin
  | hostFrameReceived (bytes : List Byte)
  | hostRxTimeout
  | hostTxEnd
  | illegalRequest (kind num : Nat) (body : List Byte)
  -- host requests (R176, R196)
  | setPort (num port function intercept releaseTime : Nat)
  | setWindow (num window enabled base span stride rowSize firstFlat : Nat)
  | setFlat (num flat inService riser firstStation handsetCount divert doors : Nat)
  | setTimes (num flatRing deskRing pathWait talk : Nat)
  | setRoute (num event route : Nat)
  | setMode (num mode : Nat)
  | setRiser (num riser enable survey quietAllowed surveyStep quietIdle : Nat)
  | clearCheck (num ports : Nat)
  | setPrivacy (num flat privacy : Nat)
  | doorHold (num lock tag : Nat)
  | doorFree (num lock tag : Nat)
  | endCall (num slot generation : Nat)
  | queryCall (num slot : Nat)
  | queryWindow (num window : Nat)
  | queryFlat (num flat : Nat)
  | queryPort (num port : Nat)
  | queryLock (num lock : Nat)
  | queryRiser (num riser : Nat)
  | queryStation (num riser station : Nat)
  | riserSync (num riser : Nat)
  | restart (num startKind : Nat)
  -- frames from panels and desk sets (R126, R127)
  | panelCall (port : PortIx) (code : Nat)
  | panelConcierge (port : PortIx)
  | panelCancel (port : PortIx)
  | deskDial (port : PortIx) (code : Nat)
  | deskAnswer (port : PortIx)
  | deskClear (port : PortIx)
  | deskForward (port : PortIx)
  | deskDoor (port : PortIx)
  | panelFrameDiscard (port : PortIx)
  | panelRxTimeout (port : PortIx)
  -- events of a panel line (R121, R122, R132)
  | panelPresent (port : PortIx)
  | panelAbsent (port : PortIx)
  | panelTxEnd (port : PortIx)
  -- the riser line and its stations (R78 to R93)
  | riserTxEnd (riser : RiserIx)
  | stationReply (riser : RiserIx) (station tag result privacy : Nat)
  | stationLift (riser : RiserIx) (station : Nat)
  | stationHangup (riser : RiserIx) (station : Nat)
  | stationDoor (riser : RiserIx) (station : Nat)
  | stationPrivacyOn (riser : RiserIx) (station : Nat)
  | stationPrivacyOff (riser : RiserIx) (station : Nat)
  | unknownStationFrame (riser : RiserIx) (station kind : Nat)
  | riserBadFrame (riser : RiserIx)
  | riserRxTimeout (riser : RiserIx)
  | replyTimeout (riser : RiserIx) (tag : Nat)
  | idleTimeout (riser : RiserIx)
  | wakeTimeout (riser : RiserIx)
  | surveyStep (riser : RiserIx)
  | lineFault (riser : RiserIx) (condition : LineCondition)
  | lineRestored (riser : RiserIx)
  | overrun (riser : RiserIx)
  -- expiries of call timers and of release timers (R21, R160)
  | pathWaitExpiry (call : Ref)
  | ringExpiry (call : Ref)
  | deskRingExpiry (call : Ref)
  | talkExpiry (call : Ref)
  | releaseTimerExpiry (lock : PortIx)
  -- the last rows of the table
  | lineConditionChange (riser : RiserIx) (condition : LineCondition)
  | resetPinRelease
  | syncByteReceived (arrival : LinkBytes)
  deriving DecidableEq, Repr

end Sys2Proof
end

