-- ==== Sys2Proof/Decode.lean ====
section
/-!
DEFINITION. The table of commands gives no row any bits: a command of this part is a frame on one of
its links, an event on a pin or an expiry, never a word. So no word spells a command. The commands
that frames carry are read in Machine/HostFrames.lean and Machine/Wire.lean.
-/

namespace Sys2Proof

/-- The command that a word spells by the bits of spec/opcode_table.json: none, as it gives no bits. -/
def decodeTableWord (_nbits _w : Nat) : Option Instr := none

end Sys2Proof
end

