-- ==== Sys2Proof/Machine/State.lean ====
section
/-!
DEFINITION. The state of the Gandrow 816 as plain data, block by block in the order of the manual's
overview (CCU, DIR, PSW, RSC, PPU, DLU, HLP, NTU), the queue of waiting commands, and the state
right after reset.
-/

namespace Sys2Proof.Machine

/-! ## Call controller (R1, R4, R31, R138) -/

/-- Call kind (R1, R7). -/
inductive CallKind where
  | visitor
  | desk
  | outward
  deriving DecidableEq, Repr

/-- The side a call is being served toward (section 1.2). -/
inductive Leg where
  | flat
  | concierge
  deriving DecidableEq, Repr

/-- State of a live call (R4). -/
inductive CallState where
  | waiting
  | offering
  | ringing
  | connected
  deriving DecidableEq, Repr

/-- What a WAITING call waits for (R1). -/
inductive WaitingFor where
  | channel
  | desk
  deriving DecidableEq, Repr

/-- The timer kinds of a call (R21). -/
inductive TimerKind where
  | pathWait
  | ring
  | deskRing
  | talk
  deriving DecidableEq, Repr

/-- A running call timer: its kind and the clock value at which it expires (R1, R21). -/
structure CallTimer where
  kind   : TimerKind
  expiry : Nat
  deriving DecidableEq, Repr

/-- The two speech channels of a riser (R53). -/
inductive Side where
  | a
  | b
  deriving DecidableEq, Repr

/-- A riser channel, such as channel 2A. -/
structure Channel where
  riser : RiserIx
  side  : Side
  deriving DecidableEq, Repr

/-- Status of an offer (section 1.1). -/
inductive OfferStatus where
  | queued
  | sent
  | ringing
  | engaged
  | refused
  | noReply
  | noStation
  | unsupported
  | withdrawn
  | cancelled
  deriving DecidableEq, Repr

/-- An offer entry: station address, status, and the tag while the request is on the riser. -/
structure Offer where
  station : Nat
  status  : OfferStatus
  tag     : Option Nat
  deriving DecidableEq, Repr

/-- Why a translation fails (R37). -/
inductive TranslateCause where
  | noWindow
  | gap
  | beyondTable
  | vacant
  deriving DecidableEq, Repr

/-- End class together with the causes that go with it (R27). -/
inductive EndReason where
  | clearedAnswererHungUp
  | clearedCaller
  | clearedDesk
  | cancelled
  | forced
  | timeLimit
  | noAnswerFlat
  | noAnswerDesk
  | noPathChannel
  | noPathDesk
  | declinedEngaged
  | declinedPrivacy
  | declinedAllRefused
  | unreachableRiserOff
  | unreachableNoStation
  | unreachableNoReply
  | invalidCode (cause : TranslateCause)
  | faultPanelLost
  | faultDeskLost
  | faultRiserFault
  | faultRiserOverrun
  deriving DecidableEq, Repr

/-- The record of a live call (R1). The reference is the slot of the record and its generation; the
end class and cause of R1 are written when the record is removed, and stand in `Slot.lastEnd`. -/
structure Call where
  kind        : CallKind
  origin      : PortIx
  code        : Option Nat
  flat        : Option FlatIx
  leg         : Leg
  state       : CallState
  waitingFor  : Option WaitingFor
  deskVisited : Bool
  channel     : Option Channel
  deskPort    : Option PortIx
  offers      : List Offer
  answerer    : Option Nat
  timer       : Option CallTimer
  deriving DecidableEq, Repr

/-- One slot of the call table: its generation, the last end while it is FREE, and the live call if
any (R1, R2). -/
structure Slot where
  generation : BitVec 8
  lastEnd    : Option EndReason
  call       : Option Call
  deriving DecidableEq, Repr

/-- The call time settings, in seconds (R31). -/
structure Times where
  flatRing : Nat
  deskRing : Nat
  pathWait : Nat
  talk     : Nat
  deriving DecidableEq, Repr

/-- The call controller: call table, time settings and intercept mode. -/
structure Ccu where
  slots     : Table 16 Slot
  times     : Times
  intercept : Bool
  deriving DecidableEq, Repr

/-! ## Directory unit (R34, R42) -/

/-- A window of the numbering plan (R34). -/
structure Window where
  enabled   : Bool
  base      : Nat
  span      : Nat
  stride    : Nat
  rowSize   : Nat
  firstFlat : Nat
  deriving DecidableEq, Repr

/-- A flat record (R42). `doors` is a port set: bit n stands for port Pn (R196). -/
structure Flat where
  inService     : Bool
  riser         : RiserIx
  firstStation  : Nat
  handsetCount  : Nat
  divert        : Bool
  doors         : BitVec 8
  hostPrivacy   : Bool
  privacy       : Bool
  deriving DecidableEq, Repr

/-- The directory: windows and flat table. `flatServed` is the model's own record of what the last
sentence of R51 turns on: whether a flat has been put in service since the last cold start (log entry
26). -/
structure Dir where
  windows    : Table 8 Window
  flats      : Table 256 Flat
  flatServed : Bool
  deriving DecidableEq, Repr

/-! ## Path switch (R53, R55, R58, R61, R63) -/

/-- The role in which a call holds a panel speech port (R58). -/
inductive Role where
  | origin
  | desk
  deriving DecidableEq, Repr

/-- The hold on a panel speech port (R58). -/
structure Hold where
  call : Ref
  role : Role
  deriving DecidableEq, Repr

/-- The far endpoint of a join: the call's channel or its desk port (R63). -/
inductive JoinEnd where
  | channel (c : Channel)
  | desk (p : PortIx)
  deriving DecidableEq, Repr

/-- A join of the crosspoint: the call, its origin port and the far endpoint (R63). -/
structure Join where
  call   : Ref
  origin : PortIx
  other  : JoinEnd
  deriving DecidableEq, Repr

/-- What the path switch keeps for one riser: the holders of channels A and B (none: FREE) and the
channel wait queue, head first (R53, R55). -/
structure RiserPaths where
  holderA : Option Ref
  holderB : Option Ref
  queue   : List Ref
  deriving DecidableEq, Repr

/-- The path switch. -/
structure Psw where
  risers    : Table 6 RiserPaths
  holds     : Table 8 (Option Hold)
  joins     : List Join
  deskQueue : List Ref
  deriving DecidableEq, Repr

/-! ## Riser controllers (R69) -/

/-- Link states of a riser (R70). -/
inductive LinkState where
  | disabled
  | active
  | quiet
  | waking
  | faulted
  deriving DecidableEq, Repr

/-- Presence of a station (R69). -/
inductive Presence where
  | unknown
  | present
  | absent
  deriving DecidableEq, Repr

/-- An entry of the station table (R69). -/
structure Station where
  presence : Presence
  privacy  : Bool
  deriving DecidableEq, Repr

/-- Reasons of a CANCEL (R112). -/
inductive CancelReason where
  | answeredElsewhere
  | diverted
  | callerGone
  | cleared
  | timeLimit
  | noCall
  deriving DecidableEq, Repr

/-- Results of a release request (R157). -/
inductive DoorResult where
  | opened
  | alreadyOpen
  | denied
  | notAvailable
  deriving DecidableEq, Repr

/-- Frames for which no reply is expected (R77, R112 to R114, R93). `notSupported` carries the kind
byte received, with its mark (R200). -/
inductive Advisory where
  | cancel (station : Nat) (reason : CancelReason) (call : Option Ref)
  | join (station : Nat) (call : Ref) (side : Side)
  | doorResult (station : Nat) (result : DoorResult) (call : Option Ref)
  | notSupported (station : Nat) (kind : Nat)
  deriving DecidableEq, Repr

/-- Frames that expect a reply (R77, R111). -/
inductive Solicited where
  | offer (station : Nat) (call : Ref) (kind : CallKind) (origin : PortIx)
  | poll (station : Nat)
  deriving DecidableEq, Repr

/-- What stands in a riser's outbound queue (R77). A marker carries the number of its request. -/
inductive QueueEntry where
  | advisory (f : Advisory)
  | solicited (f : Solicited)
  | marker (num : Nat)
  deriving DecidableEq, Repr

/-- An entry of the outbound queue; `sending` while it is the frame in transmission (R78). -/
structure QueueItem where
  entry   : QueueEntry
  sending : Bool
  deriving DecidableEq, Repr

/-- An outstanding request (R80). Station, kind and call reference are those of its frame, which a
resend repeats (R82). `timer` is the expiry of its reply timer while that runs. -/
structure Outstanding where
  tag           : Nat
  frame         : Solicited
  attempt       : Nat
  cancelPending : Bool
  timer         : Option Nat
  deriving DecidableEq, Repr

/-- A frame on the riser line from the 816 (R111 to R114). -/
inductive RiserFrame where
  | advisory (f : Advisory)
  | solicited (tag : Nat) (f : Solicited)
  deriving DecidableEq, Repr

/-- The transmission in progress on a riser: an entry of the queue, or a resend (R78, R82). -/
inductive RiserTx where
  | entry (f : RiserFrame)
  | resend (f : RiserFrame)
  deriving DecidableEq, Repr

/-- A frame that is arriving on a panel or riser link: the bytes that have followed its sync byte, and
the clock value at which 20 ms have passed with no further byte (R194). -/
structure Reception where
  got    : List Byte
  expiry : Nat
  deriving DecidableEq, Repr

/-- A riser controller (R69). `receiving` holds the station frame that is arriving, none while the
receiver hunts for a sync byte (R78, R194, R200). `overrunDue` is set from a frame that
found the queue full until the overrun processing (R90). -/
structure Riser where
  link         : LinkState
  line         : LineCondition
  survey       : Bool
  quietAllowed : Bool
  surveyStepMs : Nat
  quietIdleS   : Nat
  queue        : List QueueItem
  outstanding  : List Outstanding
  resends      : List Nat
  freeTags     : List Nat
  stations     : Table 62 Station
  surveyPos    : Nat
  idleTimer    : Option Nat
  runOut       : Bool
  stepTimer    : Option Nat
  wakeTimer    : Option Nat
  tx           : Option RiserTx
  receiving    : Option Reception
  overrunDue   : Bool
  deriving DecidableEq, Repr

/-! ## Panel port unit (R118) -/

/-- Function of a port (R119). -/
inductive PortFunction where
  | off
  | entrance
  | concierge
  deriving DecidableEq, Repr

/-- Display states (R128). -/
inductive Display where
  | ready
  | calling
  | wait
  | ringing
  | speak
  | doorOpen
  | noAnswer
  | busy
  | declined
  | invalid
  | service
  | fault
  | notAvailable
  deriving DecidableEq, Repr

/-- Ring levels; RING(on) carries the call it rings for (R130, R140). -/
inductive RingLevel where
  | off
  | on (origin : PortIx) (kind : CallKind) (flat : Option FlatIx)
  deriving DecidableEq, Repr

/-- A claim on a lock (R154). -/
inductive Claim where
  | call (c : Ref)
  | host (tag : Nat)
  deriving DecidableEq, Repr

/-- The thirteen routable event kinds (section 10.1). -/
inductive EventKind where
  | callStarted
  | callAnswered
  | callEndedNormal
  | callEndedUnanswered
  | callEndedFault
  | callRefused
  | doorReleased
  | doorSecured
  | doorDenied
  | panelChange
  | stationChange
  | privacyChange
  | riserChange
  deriving DecidableEq, Repr

/-- The panel frames that are start requests (R6, R201). -/
inductive StartRequest where
  | call
  | concierge
  | dial
  deriving DecidableEq, Repr

/-- Why a lock secured (R165). -/
inductive SecureCause where
  | expired
  | freed
  deriving DecidableEq, Repr

/-- Causes of RISER_CHANGE (R70). -/
inductive RiserCause where
  | enabled
  | disabled
  | short
  | openLine
  | restored
  | overrun
  deriving DecidableEq, Repr

/-- An event with the fields of R192. -/
inductive Event where
  | callStarted (call : Ref) (kind : CallKind) (origin : PortIx) (code : Option Nat)
  | callAnswered (call : Ref) (answerer : Option Nat) (deskPort : Option PortIx)
  | callEnded (call : Ref) (kind : CallKind) (origin : PortIx) (code : Option Nat)
      (flat : Option FlatIx) (answerer : Option Nat) (why : EndReason)
  | callRefused (port : PortIx) (request : StartRequest)
  | doorReleased (lock : PortIx) (claim : Claim) (releaseTime : Option Nat)
  | doorSecured (lock : PortIx) (claim : Claim) (cause : SecureCause)
  | doorDenied (lock : PortIx) (call : Ref) (flat : FlatIx) (station : Nat)
  | panelChange (port : PortIx) (function : PortFunction) (present : Bool) (check : Bool)
  | stationChange (riser : RiserIx) (station : Nat) (presence : Presence)
  | privacyChange (flat : FlatIx) (privacy : Bool)
  | riserChange (riser : RiserIx) (link : LinkState) (cause : RiserCause)
  deriving DecidableEq, Repr

/-- A frame on a panel line from the 816 (R198). -/
inductive PanelFrame where
  | display (d : Display)
  | ring (level : RingLevel)
  | alert (e : Event)
  deriving DecidableEq, Repr

/-- A port record (R118), with the frame its transmitter is sending (R132) and the panel frame that is
arriving, none while the receiver hunts for a sync byte (R194, R198). -/
structure Port where
  function    : PortFunction
  intercept   : Bool
  present     : Bool
  check       : Bool
  lastDisplay : Display
  displaySlot : Option Display
  ringSlot    : Option RingLevel
  alertSlot   : Option Event
  tx          : Option PanelFrame
  receiving   : Option Reception
  deriving DecidableEq, Repr

/-! ## Door lock unit (R154) -/

/-- State of a lock (R154). -/
inductive LockState where
  | secure
  | released
  deriving DecidableEq, Repr

/-- A lock record (R154). `timer` is the expiry of the release timer while that runs. -/
structure Lock where
  state       : LockState
  claim       : Option Claim
  releaseTime : Nat
  timer       : Option Nat
  deriving DecidableEq, Repr

/-! ## Notice unit and host link port (R184, R187, R167 to R173) -/

/-- Routes of the route map (R184). -/
inductive Route where
  | none
  | host
  | desk
  | both
  deriving DecidableEq, Repr

/-- Start kinds (R178). -/
inductive StartKind where
  | cold
  | warm
  deriving DecidableEq, Repr

/-- Causes of a start (R181). -/
inductive StartCause where
  | powerUp
  | resetPin
  | host
  deriving DecidableEq, Repr

/-- What a notice reports: a routed event, or a start (R181, R192). -/
inductive NoticeContent where
  | event (e : Event)
  | start (kind : StartKind) (cause : StartCause)
  deriving DecidableEq, Repr

/-- A notice with its lost mark (R188). -/
structure Notice where
  lostMark : Bool
  content  : NoticeContent
  deriving DecidableEq, Repr

/-- The notice unit: route map, notice queue (head first), lost flag. -/
structure Ntu where
  routes  : Table 13 Route
  notices : List Notice
  lost    : Bool
  deriving DecidableEq, Repr

/-- Statuses of a reply (R171). -/
inductive Status where
  | ok
  | adjusted
  | illegal
  | badValue
  | notExecutable
  | busy
  | conflict
  | notFree
  | notOwner
  deriving DecidableEq, Repr

/-- Outcome of a marker (R87). -/
inductive MarkerOutcome where
  | drained
  | flushed
  deriving DecidableEq, Repr

/-- The settings of a riser as replies carry them (R71, R96). -/
structure RiserSettings where
  enable       : Bool
  survey       : Bool
  quietAllowed : Bool
  surveyStepMs : Nat
  quietIdleS   : Nat
  deriving DecidableEq, Repr

/-- What QUERY RISER reports (R96). -/
structure RiserReport where
  link        : LinkState
  line        : LineCondition
  settings    : RiserSettings
  entries     : Nat
  advisories  : Nat
  solicited   : Nat
  markers     : Nat
  outstanding : Nat
  surveyPos   : Nat
  present     : Nat
  absent      : Nat
  unknown     : Nat
  holderA     : Option Ref
  holderB     : Option Ref
  waiting     : List Ref
  deriving DecidableEq, Repr

/-- What QUERY PORT reports (R136). -/
structure PortReport where
  function       : PortFunction
  intercept      : Bool
  present        : Bool
  check          : Bool
  lastDisplay    : Display
  displayWaiting : Bool
  ringWaiting    : Bool
  alertWaiting   : Bool
  releaseTime    : Nat
  hold           : Option Hold
  deriving DecidableEq, Repr

/-- What QUERY LOCK reports (R165). -/
structure LockReport where
  state       : LockState
  claim       : Option Claim
  releaseTime : Nat
  secondsLeft : Option Nat
  usable      : Bool
  deriving DecidableEq, Repr

/-- The body of a reply with status OK or ADJUSTED, as its owning rule gives it (R171). -/
inductive ReplyBody where
  | none
  | port (function : PortFunction) (intercept : Bool) (releaseTime : Nat)
  | window (w : Window)
  | flat (f : Flat)
  | times (t : Times)
  | routes (r : Table 13 Route)
  | mode (m : Bool)
  | riser (settings : RiserSettings) (link : LinkState)
  | checks (flags : Table 8 Bool)
  | privacy (hostPrivacy flatPrivacy : Bool)
  | ref (r : Ref)
  | liveCall (r : Ref) (c : Call) (secondsLeft : Option Nat)
  | freeSlot (r : Ref) (lastEnd : Option EndReason)
  | portReport (p : PortReport)
  | lockReport (l : LockReport)
  | riserReport (r : RiserReport)
  | station (s : Station)
  | sync (riser : RiserIx) (outcome : MarkerOutcome)
  | start (k : StartKind)
  deriving DecidableEq, Repr

/-- A reply: the request's kind byte (without the reply mark), its number, status and body (R171). -/
structure Reply where
  kind   : Nat
  num    : Nat
  status : Status
  body   : ReplyBody
  deriving DecidableEq, Repr

/-- A reply of the ready list; `immediate` unless it is a delayed reply (R172, R175). -/
structure ReadyReply where
  reply     : Reply
  immediate : Bool
  deriving DecidableEq, Repr

/-- A good frame of the host link: kind, request number and body (R195). -/
structure HostFrame where
  kind : Byte
  num  : Byte
  body : List Byte
  deriving DecidableEq, Repr

/-- The receiver of a link: HUNTING, or RECEIVING with the bytes that followed the sync byte (R167,
R198, R200). -/
inductive LinkRx where
  | hunting
  | receiving (got : List Byte)
  deriving DecidableEq, Repr

/-- The host transmitter (R173). -/
inductive HostTx where
  | idle
  | reply (r : Reply)
  | notice (n : Notice)
  deriving DecidableEq, Repr

/-- A pending RISER SYNC: request number and riser (R174). -/
structure PendingSync where
  num   : Nat
  riser : RiserIx
  deriving DecidableEq, Repr

/-- The host link port. `rxDeadline` is the clock value at which 20 ms have passed with no byte while
a frame is being received (R167). -/
structure Hlp where
  rx         : LinkRx
  rxDeadline : Option Nat
  buffer     : List HostFrame
  startDue   : Option StartKind
  syncs      : List PendingSync
  ready      : List ReadyReply
  tx         : HostTx
  deriving DecidableEq, Repr

/-! ## The machine -/

/-- The state of the part. `pending` is the queue of commands that wait, first in, first out.
`clock` is the model's own millisecond clock, against which every expiry is kept (log entry 2).
`resetHeld` is the level of the reset pin: true while it is driven (R179). -/
structure State where
  pending   : List Instr
  clock     : Nat
  resetHeld : Bool
  ccu       : Ccu
  dir       : Dir
  psw       : Psw
  risers    : Table 6 Riser
  ports     : Table 8 Port
  locks     : Table 8 Lock
  hlp       : Hlp
  ntu       : Ntu
  deriving DecidableEq, Repr

/-- Nothing in the manual stops the part with a fault, so no command of this model ends in one. The
type has no constructor (safe: there is no behaviour it cuts off). -/
inductive Fault where
  deriving DecidableEq, Repr

/-- Why a command has no meaning in the model. -/
inductive Refusal where
  /-- Raised by an arm of `exec` for a command the model does not cover; no arm of this model raises
  it (safe: it would stop the model, never give a false next state). -/
  | notModelled (mnemonic : String)
  deriving DecidableEq, Repr

/-! ## Values after a cold start -/

/-- R32: FREE, generation 0, no last end class or cause. -/
def Slot.cold : Slot := { generation := 0, lastEnd := none, call := none }

/-- R31: the cold start values of the time settings. -/
def Times.cold : Times := { flatRing := 30, deskRing := 20, pathWait := 15, talk := 120 }

/-- R32, R138. -/
def Ccu.cold : Ccu := { slots := Table.fill 16 Slot.cold, times := Times.cold, intercept := false }

/-- R36, R51. -/
def Window.cold : Window :=
  { enabled := false, base := 0, span := 0, stride := 0, rowSize := 0, firstFlat := 0 }

/-- R50, R51. -/
def Flat.cold : Flat :=
  { inService := false, riser := 0, firstStation := 0, handsetCount := 0, divert := false,
    doors := 0, hostPrivacy := false, privacy := false }

/-- R51. -/
def Dir.cold : Dir :=
  { windows := Table.fill 8 Window.cold, flats := Table.fill 256 Flat.cold, flatServed := false }

/-- R67: both channels FREE, the queue empty. -/
def RiserPaths.cold : RiserPaths := { holderA := none, holderB := none, queue := [] }

/-- R67. -/
def Psw.cold : Psw :=
  { risers := Table.fill 6 RiserPaths.cold, holds := Table.fill 8 none, joins := [],
    deskQueue := [] }

/-- R97: every station UNKNOWN with privacy flag clear. -/
def Station.cold : Station := { presence := .unknown, privacy := false }

/-- R97, R98: the free-tag list 0 to 15 in order. -/
def allTags : List Nat := List.range Config.tagCount

/-- R97, for a line-sense input that reports `line`. -/
def Riser.cold (line : LineCondition) : Riser :=
  { link := .disabled, line := line, survey := false, quietAllowed := false, surveyStepMs := 500,
    quietIdleS := 60, queue := [], outstanding := [], resends := [], freeTags := allTags,
    stations := Table.fill 62 Station.cold, surveyPos := 1, idleTimer := none, runOut := false,
    stepTimer := none, wakeTimer := none, tx := none, receiving := none, overrunDue := false }

/-- R137, for a line-sense input that reports `present`. -/
def Port.cold (present : Bool) : Port :=
  { function := .off, intercept := false, present := present, check := true,
    lastDisplay := .ready, displaySlot := none, ringSlot := none, alertSlot := none, tx := none,
    receiving := none }

/-- R166: SECURE, no claim, release time 5 s. -/
def Lock.cold : Lock := { state := .secure, claim := none, releaseTime := 5, timer := none }

/-- R180: the host link port after any start. -/
def Hlp.started : Hlp :=
  { rx := .hunting, rxDeadline := none, buffer := [], startDue := none, syncs := [], ready := [],
    tx := .idle }

/-- R181, R193: the notice queue after a start holds the START notice alone, with no lost mark. -/
def Ntu.started (routes : Table 13 Route) (kind : StartKind) (cause : StartCause) : Ntu :=
  { routes := routes, notices := [{ lostMark := false, content := .start kind cause }],
    lost := false }

/-- R186: every event kind routed to the host. -/
def coldRoutes : Table 13 Route := Table.fill 13 .host

/-- The part right after the cold start that power-up causes (R32, R51, R67, R97, R137, R138, R166,
R180, R181, R186, R193). DESIGN CHOICE (log entry 1): every panel's line sense reports ABSENT and
every riser's GOOD, the clock stands at 0 and the reset pin is not driven; the spec says only that
presence and line condition are as sensed. -/
def State.reset : State :=
  { pending := [], clock := 0, resetHeld := false, ccu := Ccu.cold, dir := Dir.cold,
    psw := Psw.cold, risers := Table.fill 6 (Riser.cold .good),
    ports := Table.fill 8 (Port.cold false), locks := Table.fill 8 Lock.cold, hlp := Hlp.started,
    ntu := Ntu.started coldRoutes .cold .powerUp }

end Sys2Proof.Machine
end

