-- ==== Sys2Proof/Machine/Operands.lean ====
section
/-!
DEFINITION. The operand forms: how the number in a request's field becomes a port, a riser, a named
value or a clamped setting (R194, R196, R201), and how a station address names its entry.
-/

namespace Sys2Proof.Machine

/-- Yes or no, on or off (R201); any other byte is no defined code (R194). -/
def yesNo? : Nat → Option Bool
  | 0 => some false
  | 1 => some true
  | _ => none

/-- Port function codes (R201). -/
def function? : Nat → Option PortFunction
  | 0 => some .off
  | 1 => some .entrance
  | 2 => some .concierge
  | _ => none

/-- Route codes (R201). -/
def route? : Nat → Option Route
  | 0 => some .none
  | 1 => some .host
  | 2 => some .desk
  | 3 => some .both
  | _ => none

/-- Routable event kind codes, 40h to 4Ch; START (4Fh) is not one of them (R185, R201). -/
def eventKind? : Nat → Option EventKind
  | 0x40 => some .callStarted
  | 0x41 => some .callAnswered
  | 0x42 => some .callEndedNormal
  | 0x43 => some .callEndedUnanswered
  | 0x44 => some .callEndedFault
  | 0x45 => some .callRefused
  | 0x46 => some .doorReleased
  | 0x47 => some .doorSecured
  | 0x48 => some .doorDenied
  | 0x49 => some .panelChange
  | 0x4A => some .stationChange
  | 0x4B => some .privacyChange
  | 0x4C => some .riserChange
  | _ => none

/-- Start kind codes (R201). -/
def startKind? : Nat → Option StartKind
  | 1 => some .cold
  | 2 => some .warm
  | _ => none

/-- P0 to P7 (also lock 0 to 7). -/
def port? (n : Nat) : Option PortIx := if h : n < 8 then some ⟨n, h⟩ else none

/-- Riser 0 to 5. -/
def riser? (n : Nat) : Option RiserIx := if h : n < 6 then some ⟨n, h⟩ else none

/-- Window 0 to 7. -/
def window? (n : Nat) : Option WindowIx := if h : n < 8 then some ⟨n, h⟩ else none

/-- Flat 0 to 255. -/
def flat? (n : Nat) : Option FlatIx := if h : n < 256 then some ⟨n, h⟩ else none

/-- Slot 1 to 16, as the index of the call table. -/
def slot? (n : Nat) : Option SlotIx :=
  if h : 1 ≤ n ∧ n ≤ 16 then some ⟨n - 1, by omega⟩ else none

/-- The entry of station address 1 to 62 in the station table. -/
def station? (a : Nat) : Option (Fin 62) :=
  if h : 1 ≤ a ∧ a ≤ 62 then some ⟨a - 1, by omega⟩ else none

/-- A host claim's tag, 1 to 255 (R162). -/
def tagInRange (t : Nat) : Bool := decide (1 ≤ t) && decide (t ≤ 255)

/-- To clamp: the nearer limit in place of a value outside the range (Terms). -/
def clamp (lo hi v : Nat) : Nat := if v < lo then lo else if hi < v then hi else v

/-- The call time settings as R31 stores them. -/
def clampTimes (flatRing deskRing pathWait talk : Nat) : Times :=
  { flatRing := clamp 5 120 flatRing, deskRing := clamp 5 120 deskRing,
    pathWait := clamp 2 60 pathWait, talk := clamp 10 600 talk }

/-- R35, first stage: whether every field is inside the range R34 gives. -/
def windowInRange (base span stride rowSize firstFlat : Nat) : Bool :=
  decide (base ≤ 9999) && decide (1 ≤ span) && decide (span ≤ 10000) && decide (1 ≤ stride) &&
    decide (stride ≤ 1000) && decide (1 ≤ rowSize) && decide (rowSize ≤ 64) &&
    decide (firstFlat ≤ 255)

/-- R35, second stage: the window as adjusted. -/
def adjustWindow (enabled : Bool) (base span stride rowSize firstFlat : Nat) : Window :=
  { enabled := enabled, base := base,
    span := if 10000 < base + span then 10000 - base else span, stride := stride,
    rowSize := if stride < rowSize then stride else rowSize, firstFlat := firstFlat }

/-- R43: the value checks on the station range of a flat. -/
def stationRangeInRange (first count : Nat) : Bool :=
  decide (1 ≤ first) && decide (first ≤ Config.lastStation) && decide (1 ≤ count) &&
    decide (count ≤ 4) && decide (first + count - 1 ≤ Config.lastStation)

/-- The result of a REPLY to an OFFER, read against the codes of R201; any value that is not one of
the four completes the offer UNSUPPORTED (R81). -/
def offerResult : Nat → OfferStatus
  | 2 => .ringing
  | 3 => .engaged
  | 4 => .refused
  | _ => .unsupported

/-- The privacy level of a REPLY: 00h for off, any other value for on (R200). -/
def privacyLevel (b : Nat) : Bool := decide (b ≠ 0)

/-- Whether bit n of a port set stands for a port in it (R196). -/
def inPortSet (set : BitVec 8) (p : PortIx) : Bool := set.getLsbD p.val

end Sys2Proof.Machine
end

