-- ==== Sys2Proof/Machine/Ops.lean ====
section
/-!
DEFINITION. The named operations over the state that every block shares: reading and writing one
record of a table, looking up a live call, routing an event (NTU), placing a display or a ring level
(PPU), starting timers, and making a reply ready (HLP).
-/

namespace Sys2Proof.Machine

/-! ## Records of the tables -/

/-- The record of a riser controller. -/
def State.riser (s : State) (r : RiserIx) : Riser := s.risers.read r
/-- A riser controller's record changed by `f`. -/
def State.modifyRiser (s : State) (r : RiserIx) (f : Riser → Riser) : State :=
  { s with risers := s.risers.write r (f (s.risers.read r)) }

/-- The record of a port. -/
def State.port (s : State) (p : PortIx) : Port := s.ports.read p
/-- A port record changed by `f`. -/
def State.modifyPort (s : State) (p : PortIx) (f : Port → Port) : State :=
  { s with ports := s.ports.write p (f (s.ports.read p)) }

/-- The record of a lock. -/
def State.lock (s : State) (p : PortIx) : Lock := s.locks.read p
/-- A lock record replaced. -/
def State.setLock (s : State) (p : PortIx) (l : Lock) : State :=
  { s with locks := s.locks.write p l }

/-- A flat record. -/
def State.flat (s : State) (i : FlatIx) : Flat := s.dir.flats.read i
/-- A flat record replaced. -/
def State.setFlat (s : State) (i : FlatIx) (f : Flat) : State :=
  { s with dir := { s.dir with flats := s.dir.flats.write i f } }
/-- R51: a flat record has been stored; one in service ends the time in which no flat has been. -/
def State.noteServed (s : State) (inService : Bool) : State :=
  { s with dir := { s.dir with flatServed := s.dir.flatServed || inService } }
/-- A window replaced. -/
def State.setWindow (s : State) (i : WindowIx) (w : Window) : State :=
  { s with dir := { s.dir with windows := s.dir.windows.write i w } }

/-- The path switch's record of a riser. -/
def State.paths (s : State) (r : RiserIx) : RiserPaths := s.psw.risers.read r
/-- The path switch's record of a riser replaced. -/
def State.setPaths (s : State) (r : RiserIx) (p : RiserPaths) : State :=
  { s with psw := { s.psw with risers := s.psw.risers.write r p } }

/-- The holder of a channel, none when it is FREE (R53). -/
def RiserPaths.holder (p : RiserPaths) : Side → Option Ref
  | .a => p.holderA
  | .b => p.holderB
/-- The holder of a channel replaced. -/
def RiserPaths.setHolder (p : RiserPaths) (side : Side) (h : Option Ref) : RiserPaths :=
  match side with
  | .a => { p with holderA := h }
  | .b => { p with holderB := h }
/-- The holder of a channel replaced. -/
def State.setHolder (s : State) (c : Channel) (h : Option Ref) : State :=
  s.setPaths c.riser ((s.paths c.riser).setHolder c.side h)
/-- A riser's channel wait queue replaced (R55). -/
def State.setChannelQueue (s : State) (r : RiserIx) (q : List Ref) : State :=
  s.setPaths r { s.paths r with queue := q }

/-- The hold on a panel speech port (R58). -/
def State.hold (s : State) (p : PortIx) : Option Hold := s.psw.holds.read p
/-- The hold on a panel speech port replaced. -/
def State.setHold (s : State) (p : PortIx) (h : Option Hold) : State :=
  { s with psw := { s.psw with holds := s.psw.holds.write p h } }
/-- The desk wait queue replaced (R61). -/
def State.setDeskQueue (s : State) (q : List Ref) : State :=
  { s with psw := { s.psw with deskQueue := q } }
/-- R63: a join is made. -/
def State.makeJoin (s : State) (j : Join) : State :=
  { s with psw := { s.psw with joins := s.psw.joins ++ [j] } }
/-- R64: any join of a call is removed. -/
def State.removeJoin (s : State) (r : Ref) : State :=
  { s with psw := { s.psw with joins := s.psw.joins.filter (fun j => j.call ≠ r) } }
/-- R65: a call is removed from whichever wait queue holds it, and the gap is closed. -/
def State.leaveQueues (s : State) (r : Ref) : State :=
  { s with psw := { s.psw with
      risers := Table.mapEach
        (fun p => { p with queue := p.queue.filter (fun x => x ≠ r) }) s.psw.risers
      deskQueue := s.psw.deskQueue.filter (fun x => x ≠ r) } }

/-! ## Live calls (R2, R3) -/

/-- A slot of the call table. -/
def State.slot (s : State) (i : SlotIx) : Slot := s.ccu.slots.read i
/-- A slot replaced. -/
def State.setSlot (s : State) (i : SlotIx) (x : Slot) : State :=
  { s with ccu := { s.ccu with slots := s.ccu.slots.write i x } }

/-- R3: the live call a reference matches; none when the reference is stale. -/
def State.call? (s : State) (r : Ref) : Option Call :=
  if (s.slot r.slot).generation = r.gen then (s.slot r.slot).call else none

/-- The record of the call in a slot replaced. -/
def State.setCall (s : State) (r : Ref) (c : Call) : State :=
  s.setSlot r.slot { s.slot r.slot with call := some c }

/-- The record of a live call changed by `f`; nothing for a stale reference. -/
def State.modifyCall (s : State) (r : Ref) (f : Call → Call) : State :=
  match s.call? r with
  | some c => s.setCall r (f c)
  | none => s

/-- The live calls with their references, slot 1 first. -/
def State.liveCalls (s : State) : List (Ref × Call) :=
  (List.finRange 16).filterMap fun i =>
    match (s.slot i).call with
    | some c => some ({ slot := i, gen := (s.slot i).generation }, c)
    | none => none

/-- The live call that holds a panel speech port, with its role (R58, section 7.3). -/
def State.callAt (s : State) (p : PortIx) : Option (Role × Ref × Call) :=
  match s.hold p with
  | none => none
  | some h =>
    match s.call? h.call with
    | none => none
    | some c => some (h.role, h.call, c)

/-! ## Timers (R21): expiries on the model's clock, in ms -/

/-- The expiry of a timer of so many seconds started now. -/
def State.inSeconds (s : State) (secs : Nat) : Nat := s.clock + secs * 1000
/-- The expiry of a timer of so many milliseconds started now. -/
def State.inMs (s : State) (ms : Nat) : Nat := s.clock + ms
/-- Whole seconds left until an expiry, rounded up (R30, R165). -/
def State.secondsLeft (s : State) (expiry : Nat) : Nat := (expiry - s.clock + 999) / 1000
/-- DESIGN CHOICE (log entry 3): an expiry is taken at its time or later, so the clock stands at
least at the expiry from then on. -/
def State.advanceTo (s : State) (expiry : Nat) : State := { s with clock := max s.clock expiry }

/-- The call timer of a kind, started now with its setting (R21). -/
def State.callTimer (s : State) : TimerKind → CallTimer
  | .pathWait => { kind := .pathWait, expiry := s.inSeconds s.ccu.times.pathWait }
  | .ring => { kind := .ring, expiry := s.inSeconds s.ccu.times.flatRing }
  | .deskRing => { kind := .deskRing, expiry := s.inSeconds s.ccu.times.deskRing }
  | .talk => { kind := .talk, expiry := s.inSeconds s.ccu.times.talk }

/-! ## Ends of calls (R27) -/

/-- The CANCEL reason R27 gives for an end class. -/
def EndReason.cancelReason : EndReason → CancelReason
  | .clearedAnswererHungUp => .cleared
  | .clearedCaller => .cleared
  | .clearedDesk => .cleared
  | .cancelled => .callerGone
  | .forced => .cleared
  | .timeLimit => .timeLimit
  | .noAnswerFlat => .callerGone
  | .noAnswerDesk => .callerGone
  | .noPathChannel => .callerGone
  | .noPathDesk => .callerGone
  | .declinedEngaged => .callerGone
  | .declinedPrivacy => .callerGone
  | .declinedAllRefused => .callerGone
  | .unreachableRiserOff => .callerGone
  | .unreachableNoStation => .callerGone
  | .unreachableNoReply => .callerGone
  | .invalidCode _ => .callerGone
  | .faultPanelLost => .callerGone
  | .faultDeskLost => .callerGone
  | .faultRiserFault => .callerGone
  | .faultRiserOverrun => .callerGone

/-- The origin display R27 gives for an end class. -/
def EndReason.display : EndReason → Display
  | .clearedAnswererHungUp => .ready
  | .clearedCaller => .ready
  | .clearedDesk => .ready
  | .cancelled => .ready
  | .forced => .ready
  | .timeLimit => .ready
  | .noAnswerFlat => .noAnswer
  | .noAnswerDesk => .noAnswer
  | .noPathChannel => .busy
  | .noPathDesk => .busy
  | .declinedEngaged => .declined
  | .declinedPrivacy => .declined
  | .declinedAllRefused => .declined
  | .unreachableRiserOff => .noAnswer
  | .unreachableNoStation => .noAnswer
  | .unreachableNoReply => .noAnswer
  | .invalidCode _ => .invalid
  | .faultPanelLost => .fault
  | .faultDeskLost => .fault
  | .faultRiserFault => .fault
  | .faultRiserOverrun => .fault

/-- The event kind R27 gives for an end class. -/
def EndReason.eventKind : EndReason → EventKind
  | .clearedAnswererHungUp => .callEndedNormal
  | .clearedCaller => .callEndedNormal
  | .clearedDesk => .callEndedNormal
  | .cancelled => .callEndedNormal
  | .forced => .callEndedNormal
  | .timeLimit => .callEndedNormal
  | .noAnswerFlat => .callEndedUnanswered
  | .noAnswerDesk => .callEndedUnanswered
  | .noPathChannel => .callEndedUnanswered
  | .noPathDesk => .callEndedUnanswered
  | .declinedEngaged => .callEndedUnanswered
  | .declinedPrivacy => .callEndedUnanswered
  | .declinedAllRefused => .callEndedUnanswered
  | .unreachableRiserOff => .callEndedUnanswered
  | .unreachableNoStation => .callEndedUnanswered
  | .unreachableNoReply => .callEndedUnanswered
  | .invalidCode _ => .callEndedUnanswered
  | .faultPanelLost => .callEndedFault
  | .faultDeskLost => .callEndedFault
  | .faultRiserFault => .callEndedFault
  | .faultRiserOverrun => .callEndedFault

/-- The two causes for which end processing queues no riser frame (R28). -/
def EndReason.isRiserFailure : EndReason → Bool
  | .faultRiserFault => true
  | .faultRiserOverrun => true
  | _ => false

/-! ## Notice unit (R184 to R191) -/

/-- The kind under which an event is routed. -/
def Event.kind : Event → EventKind
  | .callStarted .. => .callStarted
  | .callAnswered .. => .callAnswered
  | .callEnded _ _ _ _ _ _ why => why.eventKind
  | .callRefused .. => .callRefused
  | .doorReleased .. => .doorReleased
  | .doorSecured .. => .doorSecured
  | .doorDenied .. => .doorDenied
  | .panelChange .. => .panelChange
  | .stationChange .. => .stationChange
  | .privacyChange .. => .privacyChange
  | .riserChange .. => .riserChange

/-- The place of an event kind in the route map, in the order of the codes (R201). -/
def EventKind.index : EventKind → Fin 13
  | .callStarted => 0
  | .callAnswered => 1
  | .callEndedNormal => 2
  | .callEndedUnanswered => 3
  | .callEndedFault => 4
  | .callRefused => 5
  | .doorReleased => 6
  | .doorSecured => 7
  | .doorDenied => 8
  | .panelChange => 9
  | .stationChange => 10
  | .privacyChange => 11
  | .riserChange => 12

/-- The route of an event kind (R184). -/
def State.routeOf (s : State) (k : EventKind) : Route := s.ntu.routes.read k.index

/-- R187, R188: a notice is offered to the notice queue. With room it is added at the tail, carries
the lost mark if the lost flag is set, and clears the flag; without room it is discarded and the
flag is set. -/
def Ntu.offer (n : Ntu) (c : NoticeContent) : Ntu :=
  if n.notices.length < Config.noticeQueueRoom then
    { n with notices := n.notices ++ [{ lostMark := n.lost, content := c }], lost := false }
  else
    { n with lost := true }

/-- R131: a port takes an alert when its function is CONCIERGE and it is PRESENT. -/
def Port.takeAlert (e : Event) (p : Port) : Port :=
  if p.function = .concierge ∧ p.present = true then { p with alertSlot := some e } else p

/-- R190: an alert is written to each of the eight ports. -/
def State.writeAlerts (s : State) (e : Event) : State :=
  { s with ports := Table.mapEach (Port.takeAlert e) s.ports }

/-- An event offered to the notice queue. -/
def State.offerNotice (s : State) (e : Event) : State :=
  { s with ntu := s.ntu.offer (.event e) }

/-- R184: the notice unit routes a raised event by the route its kind holds at that moment. -/
def State.emit (s : State) (e : Event) : State :=
  match s.routeOf e.kind with
  | .none => s
  | .host => s.offerNotice e
  | .desk => s.writeAlerts e
  | .both => (s.offerNotice e).writeAlerts e

/-! ## Panel port unit (R129, R130) -/

/-- R129: a display state is placed in a port's slot and written as its last display; nothing for a
port whose function is OFF. -/
def Port.place (d : Display) (p : Port) : Port :=
  if p.function = .off then p else { p with displaySlot := some d, lastDisplay := d }

/-- R130: a ring level is placed in the ring slot of a PRESENT port whose function is CONCIERGE. -/
def Port.placeRing (l : RingLevel) (p : Port) : Port :=
  if p.function = .concierge ∧ p.present = true then { p with ringSlot := some l } else p

/-- R129 at a port of the part. -/
def State.display (s : State) (p : PortIx) (d : Display) : State := s.modifyPort p (Port.place d)
/-- R130 at a port of the part. -/
def State.ring (s : State) (p : PortIx) (l : RingLevel) : State :=
  s.modifyPort p (Port.placeRing l)

/-- R121, R125, R135: SERVICE when the check flag is set, READY when it is clear. -/
def Port.idleDisplay (p : Port) : Display := if p.check then .service else .ready

/-! ## Host link port (R169 to R172) -/

/-- A reply is made ready (R172). -/
def State.makeReady (s : State) (r : Reply) (immediate : Bool) : State :=
  { s with hlp := { s.hlp with
      ready := s.hlp.ready ++ [{ reply := r, immediate := immediate }] } }

/-- R171: the body goes with OK and ADJUSTED only. -/
def replyBody (st : Status) (b : ReplyBody) : ReplyBody :=
  match st with
  | .ok => b
  | .adjusted => b
  | _ => .none

/-- R172: the immediate reply of a request. -/
def State.reply (s : State) (kind num : Nat) (st : Status) (b : ReplyBody) : State :=
  s.makeReady { kind := kind, num := num, status := st, body := replyBody st b } true

/-- R169, second and third condition, with the reset pin not driven (R179): no immediate reply is
waiting in the ready list and no start is due. -/
def State.canTake (s : State) : Bool :=
  !s.resetHeld && s.hlp.startDue.isNone && !(s.hlp.ready.any (fun x => x.immediate))

/-- R175: a marker completes: a matching pending sync is removed and its delayed reply is placed at
the tail of the ready list. Pending syncs of one number and riser are alike, so any may go. -/
def State.syncDone (s : State) (r : RiserIx) (num : Nat) (o : MarkerOutcome) : State :=
  let p : PendingSync := { num := num, riser := r }
  if s.hlp.syncs.contains p then
    { s with hlp := { s.hlp with
        syncs := s.hlp.syncs.erase p
        ready := s.hlp.ready ++
          [{ reply := { kind := 0x14, num := num, status := .ok, body := .sync r o },
             immediate := false }] } }
  else s

end Sys2Proof.Machine
end

