-- ==== Sys2Proof/Machine/Flags.lean ====
section
/-!
DEFINITION. The conditions and derived values the blocks read of one another: usable locks, eligible
desks, riser states that can carry a call, station presence and privacy, the privacy aggregate, and
the output pins, each computed from the state that owns it.
-/

namespace Sys2Proof.Machine

/-- R155: a lock is usable while its port's function is ENTRANCE. -/
def State.usable (s : State) (p : PortIx) : Bool := decide ((s.port p).function = .entrance)

/-- R59: an eligible desk: CONCIERGE, PRESENT, check clear, speech port FREE. -/
def State.eligible (s : State) (p : PortIx) : Bool :=
  decide ((s.port p).function = .concierge) && (s.port p).present && !(s.port p).check &&
    (s.hold p).isNone

/-- R22: at least one panel port has function CONCIERGE. -/
def State.hasDesk (s : State) : Bool :=
  (List.finRange 8).any fun p => decide ((s.port p).function = .concierge)

/-- R119, R126: the port is PRESENT and its function is the one the frame belongs to. -/
def State.takesFrame (s : State) (p : PortIx) (f : PortFunction) : Bool :=
  (s.port p).present && decide ((s.port p).function = f)

/-- R9 check 3, R54: the riser is DISABLED or FAULTED. -/
def LinkState.isOff : LinkState → Bool
  | .disabled => true
  | .faulted => true
  | _ => false

/-- R71: a live call holds a channel of the riser or waits for one. -/
def State.riserInUse (s : State) (r : RiserIx) : Bool :=
  (s.paths r).holderA.isSome || (s.paths r).holderB.isSome || !(s.paths r).queue.isEmpty

/-- The station table entry of an address; an address outside 1 to 62 has none and reads as UNKNOWN
with its flag clear. -/
def Riser.station (x : Riser) (a : Nat) : Station :=
  match station? a with
  | some i => x.stations.read i
  | none => Station.cold

/-- R42: the stations of a flat, in ascending order. -/
def Flat.stations (f : Flat) : List Nat := List.range' f.firstStation f.handsetCount

/-- R42: whether an address is a station of the flat. -/
def Flat.hasStation (f : Flat) (a : Nat) : Bool :=
  decide (f.firstStation ≤ a) && decide (a < f.firstStation + f.handsetCount)

/-- R48: the privacy aggregate: host privacy OR the privacy flags of the flat's stations. -/
def State.aggregate (s : State) (f : Flat) : Bool :=
  f.hostPrivacy || f.stations.any fun a => ((s.riser f.riser).station a).privacy

/-- R47: the in-service flat on a riser whose stations include an address, or none. -/
def State.stationFlat? (s : State) (r : RiserIx) (a : Nat) : Option FlatIx :=
  (List.finRange 256).find? fun i =>
    (s.flat i).inService && decide ((s.flat i).riser = r) && (s.flat i).hasStation a

/-- The wake output of a riser (R70): driven in WAKING, off in every other state. -/
def Riser.wakeOutput (x : Riser) : Bool := decide (x.link = .waking)

/-- The door-release output of a lock (R154): driven while RELEASED. -/
def Lock.output (l : Lock) : Bool := decide (l.state = .released)

/-- The settings of a riser as replies carry them (R71, R96). -/
def Riser.settings (x : Riser) : RiserSettings :=
  { enable := decide (x.link ≠ .disabled), survey := x.survey, quietAllowed := x.quietAllowed,
    surveyStepMs := x.surveyStepMs, quietIdleS := x.quietIdleS }

end Sys2Proof.Machine
end

