-- ==== Sys2Proof/Machine/Directory.lean ====
section
/-!
DEFINITION. The directory unit: translating a code (R37 to R41), keeping each flat's privacy equal
to its aggregate (R48), and the checks of SET FLAT (R43 to R46).
-/

namespace Sys2Proof.Machine

/-- R38: whether an enabled window covers a code. -/
def Window.covers (w : Window) (c : Nat) : Bool :=
  w.enabled && decide (w.base ≤ c) && decide (c + 1 ≤ w.base + w.span)

/-- R38: the first enabled window, in ascending number, that covers the code. -/
def Dir.matchingWindow (d : Dir) (c : Nat) : Option Window :=
  ((List.finRange 8).map fun i => d.windows.read i).find? fun w => w.covers c

/-- R39, R40: the row, the unit and the flat index formed, in full. -/
def Window.row (w : Window) (c : Nat) : Nat := (c - w.base) / w.stride
/-- R39. -/
def Window.unit (w : Window) (c : Nat) : Nat := (c - w.base) - w.row c * w.stride
/-- R40. -/
def Window.flatFormed (w : Window) (c : Nat) : Nat :=
  w.firstFlat + w.row c * w.rowSize + w.unit c

/-- R37 to R41, R51: translation of a code to a flat index, or its failure cause. With no window loaded
R38 gives NO_WINDOW; until a flat has been put in service R51 gives it for every code.
DESIGN CHOICE (log entry 26), unsafe: in that time R51 goes before the stages of R38 to R41, which would
give GAP, BEYOND_TABLE or VACANT for a code inside an enabled window; afterwards those stages decide,
with no flat in service any more too. -/
def Dir.translate (d : Dir) (c : Nat) : Except TranslateCause FlatIx :=
  match d.matchingWindow c with
  | none => .error .noWindow
  | some w =>
    if d.flatServed = false then .error .noWindow
    else if w.rowSize ≤ w.unit c then .error .gap
    else
      match flat? (w.flatFormed c) with
      | none => .error .beyondTable
      | some i => if (d.flats.read i).inService then .ok i else .error .vacant

/-- R48: one flat's privacy is worked out again; a change is stored and raises PRIVACY_CHANGE. -/
def State.recomputeFlat (s : State) (i : FlatIx) : State :=
  let f := s.flat i
  let v := s.aggregate f
  if v = f.privacy then s
  else (s.setFlat i { f with privacy := v }).emit (.privacyChange i v)

/-- R48: the flats a change of station flags is used by, in ascending flat index. -/
def State.recomputeFlats (s : State) (which : Flat → Bool) : State :=
  ((List.finRange 256).filter fun i => which (s.flat i)).foldl State.recomputeFlat s

/-- R48, R108: the flag of one station of a riser has changed. -/
def State.stationFlagChanged (s : State) (r : RiserIx) (a : Nat) : State :=
  s.recomputeFlats fun f => decide (f.riser = r) && f.hasStation a

/-- R73, R88: the flags of all stations of a riser were cleared. -/
def State.riserFlagsCleared (s : State) (r : RiserIx) : State :=
  s.recomputeFlats fun f => decide (f.riser = r)

/-- R44: a live call has this flat in its flat field. -/
def State.flatBusy (s : State) (i : FlatIx) : Bool :=
  s.liveCalls.any fun rc => decide (rc.2.flat = some i)

/-- R45: a station range shares an address with another in-service flat on the same riser. -/
def State.flatConflict (s : State) (i : FlatIx) (r : RiserIx) (first count : Nat) : Bool :=
  (List.finRange 256).any fun j =>
    decide (j ≠ i) && (s.flat j).inService && decide ((s.flat j).riser = r) &&
      (List.range' first count).any fun a => (s.flat j).hasStation a

/-- R46: the six fields of an accepted SET FLAT stored, host privacy kept; the aggregate is worked
out again when the riser or the station range differs from the old one (R51: whether a flat has been in
service is noted). -/
def State.storeFlat (s : State) (i : FlatIx) (inService : Bool) (r : RiserIx)
    (first count : Nat) (divert : Bool) (doors : BitVec 8) : State :=
  let old := s.flat i
  let s1 := (s.setFlat i
    { old with inService := inService, riser := r, firstStation := first, handsetCount := count,
               divert := divert, doors := doors }).noteServed inService
  if old.riser = r ∧ old.firstStation = first ∧ old.handsetCount = count then s1
  else s1.recomputeFlat i

end Sys2Proof.Machine
end

