-- ==== Sys2Proof/Machine/RiserOps.lean ====
section
/-!
DEFINITION. The shared operations of a riser controller: timers and link states (R70 to R76), the
outbound queue (R77), the sending rule and tags (R78 to R80), cancel-pending marks (R83), withdrawal
(R84), and the station table (R92, R105).
-/

namespace Sys2Proof.Machine

/-! ## Timers and link states -/

/-- R74: the idle timer, which runs while the riser is ACTIVE, starts or restarts there; that clears the
run-out mark. -/
def State.startIdle (s : State) (r : RiserIx) : State :=
  if (s.riser r).link = .active then
    s.modifyRiser r fun x => { x with idleTimer := some (s.inSeconds x.quietIdleS), runOut := false }
  else s

/-- R71, R94: the survey step timer starts. -/
def State.startStep (s : State) (r : RiserIx) : State :=
  s.modifyRiser r fun x => { x with stepTimer := some (s.inMs x.surveyStepMs) }

/-- R72, R75, R76, R89, R90: the riser becomes ACTIVE: the wake timer stops, the idle timer starts
and, if survey is on, the step timer starts. -/
def State.enterActive (s : State) (r : RiserIx) : State :=
  s.modifyRiser r fun x =>
    { x with
      link := .active
      wakeTimer := none
      idleTimer := some (s.inSeconds x.quietIdleS)
      runOut := false
      stepTimer := if x.survey then some (s.inMs x.surveyStepMs) else x.stepTimer }

/-- R75: a QUIET riser starts a wake. In every other state nothing changes. -/
def State.startWake (s : State) (r : RiserIx) : State :=
  if (s.riser r).link = .quiet then
    s.modifyRiser r fun x => { x with link := .waking, wakeTimer := some (s.inMs Config.wakeTimeMs) }
  else s

/-- R74: from ACTIVE to QUIET when the run-out mark is set, quiet is allowed, the queue and the
outstanding table are empty and no call uses a channel of the riser. -/
def State.goQuiet (s : State) (r : RiserIx) : State :=
  let x := s.riser r
  if x.link = .active ∧ x.runOut = true ∧ x.quietAllowed = true ∧ x.queue = [] ∧
      x.outstanding = [] ∧ s.riserInUse r = false then
    s.modifyRiser r fun x =>
      { x with link := .quiet, idleTimer := none, stepTimer := none, runOut := false }
  else s

/-! ## Queue entries -/

/-- The entry is a frame, not a marker. -/
def QueueEntry.isFrame : QueueEntry → Bool
  | .marker _ => false
  | _ => true
/-- The entry is an advisory frame. -/
def QueueEntry.isAdvisory : QueueEntry → Bool
  | .advisory _ => true
  | _ => false
/-- The entry is a solicited frame. -/
def QueueEntry.isSolicited : QueueEntry → Bool
  | .solicited _ => true
  | _ => false
/-- The entry is a marker. -/
def QueueEntry.isMarker : QueueEntry → Bool
  | .marker _ => true
  | _ => false

/-- The station a solicited frame is for. -/
def Solicited.station : Solicited → Nat
  | .offer a .. => a
  | .poll a => a
/-- The frame is a POLL. -/
def Solicited.isPoll : Solicited → Bool
  | .poll _ => true
  | _ => false
/-- The frame is the OFFER of a call to a station. -/
def Solicited.isOfferOf (f : Solicited) (a : Nat) (c : Ref) : Bool :=
  match f with
  | .offer b d .. => decide (b = a) && decide (d = c)
  | .poll _ => false

/-- R77, R90: whether a frame offered to the riser now finds no place: the queue holds 32 entries,
or overrun processing is due. -/
def Riser.noPlace (x : Riser) : Bool :=
  x.overrunDue || decide (Config.riserQueueRoom ≤ x.queue.length)

/-- R77, R75, R90: a frame is offered to a riser's outbound queue. On a riser that is off it is not
queued; without a place it is not queued and overrun processing becomes due; otherwise it is added
at the tail and, on a QUIET riser, starts a wake. The answer says whether it was queued. -/
def State.offerFrame (s : State) (r : RiserIx) (e : QueueEntry) : State × Bool :=
  if (s.riser r).link.isOff then (s, false)
  else if (s.riser r).noPlace then (s.modifyRiser r fun x => { x with overrunDue := true }, false)
  else
    ((s.modifyRiser r fun x =>
        { x with queue := x.queue ++ [{ entry := e, sending := false }] }).startWake r, true)

/-- R83: the cancel-pending mark on the outstanding OFFER of a call to a station; a resend that is
due is cancelled and its reply timer starts. -/
def Riser.markCancel (x : Riser) (retryAt : Nat) (a : Nat) (c : Ref) : Riser :=
  { x with
    outstanding := x.outstanding.map fun o =>
      if o.frame.isOfferOf a c then
        { o with
          cancelPending := true
          timer := if x.resends.contains o.tag then some retryAt else o.timer }
      else o
    resends := x.resends.filter fun t =>
      !(x.outstanding.any fun o => decide (o.tag = t) && o.frame.isOfferOf a c) }

/-- R77, R83: an advisory is queued at a riser, or discarded; a queued CANCEL that names a call sets
its mark. -/
def State.advise (s : State) (r : RiserIx) (f : Advisory) : State :=
  match s.offerFrame r (.advisory f) with
  | (s1, true) =>
    match f with
    | .cancel a _ (some c) =>
      s1.modifyRiser r fun x => x.markCancel (s.inMs Config.replyTimeMs) a c
    | _ => s1
  | (s1, false) => s1

/-! ## Completions as the call record takes them (R13) -/

/-- R13: whether a completion names this entry of a call with this answerer. -/
def Offer.isNamedBy (o : Offer) (answerer : Option Nat) (a : Nat) (tag : Option Nat) : Bool :=
  match tag with
  | some t =>
    decide (o.station = a) && decide (o.tag = some t) && decide (o.status = .sent) &&
      decide (answerer ≠ some a)
  | none => decide (o.station = a) && decide (o.status = .queued)

/-- R14, R15: the entries a completion names marked with its result; their request has left the
riser, so they hold no tag. -/
def Call.markOffers (c : Call) (a : Nat) (tag : Option Nat) (result : OfferStatus) : Call :=
  { c with offers := c.offers.map fun o =>
      if o.isNamedBy c.answerer a tag then { o with status := result, tag := none } else o }

/-- R15: a completion with the fault mark marks its offer and leads to no end. -/
def State.completeFaulted (s : State) (call : Ref) (a : Nat) (tag : Option Nat)
    (result : OfferStatus) : State :=
  s.modifyCall call fun c => c.markOffers a tag result

/-- R77, R90: a solicited frame is offered to a riser; when it is not queued it completes NO_STATION
at once, with the fault mark and no tag. -/
def State.solicit (s : State) (r : RiserIx) (f : Solicited) : State × Bool :=
  match s.offerFrame r (.solicited f) with
  | (s1, true) => (s1, true)
  | (s1, false) =>
    match f with
    | .offer a c _ _ => (s1.completeFaulted c a none .noStation, false)
    | .poll _ => (s1, false)

/-! ## Withdrawal (R84) -/

/-- The answer to a withdrawal: done, or refused with the tag of the outstanding request, or refused
with no tag. -/
inductive Withdrawal where
  | done
  | alreadySent (tag : Nat)
  | gone
  deriving DecidableEq, Repr

/-- The entry is the OFFER of a call to a station, not in transmission. -/
def QueueItem.isWaitingOffer (i : QueueItem) (a : Nat) (c : Ref) : Bool :=
  !i.sending &&
    match i.entry with
    | .solicited f => f.isOfferOf a c
    | _ => false

/-- R84: a QUEUED OFFER is withdrawn by riser, station and call reference. -/
def State.withdraw (s : State) (r : RiserIx) (a : Nat) (c : Ref) : State × Withdrawal :=
  let x := s.riser r
  if x.queue.any fun i => i.isWaitingOffer a c then
    (s.modifyRiser r fun x => { x with queue := x.queue.eraseP fun i => i.isWaitingOffer a c },
      .done)
  else
    match x.outstanding.find? fun o => o.frame.isOfferOf a c with
    | some o => (s, .alreadySent o.tag)
    | none => (s, .gone)

/-! ## The sending rule and the start of a transmission (R78 to R80) -/

/-- The first entry that satisfies `p`, marked as in transmission. -/
def markSending (p : QueueEntry → Bool) : List QueueItem → Option (QueueEntry × List QueueItem)
  | [] => none
  | i :: q =>
    if p i.entry then some (i.entry, { i with sending := true } :: q)
    else
      match markSending p q with
      | none => none
      | some (e, q') => some (e, i :: q')

/-- R79: the oldest frame if it is sendable; when it is a stalled solicited frame, the oldest
advisory in its place. -/
def sendingRule (maySolicit : Bool) (q : List QueueItem) : Option (QueueEntry × List QueueItem) :=
  match q.find? fun i => i.entry.isFrame with
  | none => none
  | some i =>
    if i.entry.isSolicited && !maySolicit then markSending QueueEntry.isAdvisory q
    else markSending QueueEntry.isFrame q

/-- R13: the sending report marks the QUEUED offer of a live call SENT with its tag. -/
def State.sendingReport (s : State) (call : Ref) (a tag : Nat) : State :=
  s.modifyCall call fun c =>
    { c with offers := c.offers.map fun o =>
        if o.station = a ∧ o.status = .queued then { o with status := .sent, tag := some tag }
        else o }

/-- R80: what the start of a transmission of a solicited frame does: it takes the tag at the head of
the free-tag list and an outstanding record is made; the sending report of an OFFER is handed over. -/
def State.startSolicited (s : State) (r : RiserIx) (f : Solicited) (tag : Nat)
    (rest : List Nat) (q : List QueueItem) : State :=
  let s1 := s.modifyRiser r fun x =>
    { x with
      queue := q
      freeTags := rest
      outstanding := x.outstanding ++
        [{ tag := tag, frame := f, attempt := 1, cancelPending := false, timer := none }]
      tx := some (.entry (.solicited tag f)) }
  match f with
  | .offer a c _ _ => s1.sendingReport c a tag
  | .poll _ => s1

/-- The frame a resend repeats (R82). -/
def Riser.frameOf (x : Riser) (tag : Nat) : Option Solicited :=
  (x.outstanding.find? fun o => decide (o.tag = tag)).map fun o => o.frame

/-- R78: whenever the riser is ACTIVE and the line is free, the next transmission starts: a resend
that is due, in the order the timers expired, else the entry the sending rule chooses. -/
def State.startTransmission (s : State) (r : RiserIx) : State :=
  let x := s.riser r
  if x.link = .active ∧ x.tx = none ∧ x.receiving = none then
    match x.resends with
    | tag :: rest =>
      match x.frameOf tag with
      | some f =>
        s.modifyRiser r fun x => { x with resends := rest, tx := some (.resend (.solicited tag f)) }
      | none => s
    | [] =>
      match sendingRule
          (decide (x.outstanding.length < Config.outstandingRoom)) x.queue with
      | some (.advisory f, q) =>
        s.modifyRiser r fun x => { x with queue := q, tx := some (.entry (.advisory f)) }
      | some (.solicited f, q) =>
        match x.freeTags with
        | tag :: rest => s.startSolicited r f tag rest q
        | [] => s
      | _ => s
  else s

/-! ## Markers (R86, R87) -/

/-- The markers that no ADVISORY entry stands ahead of, in queue order, and the queue without
them. -/
def drainMarkers : List QueueItem → List Nat × List QueueItem
  | [] => ([], [])
  | i :: q =>
    match i.entry with
    | .marker n => let d := drainMarkers q; (n :: d.1, d.2)
    | .advisory _ => ([], i :: q)
    | .solicited _ => let d := drainMarkers q; (d.1, i :: d.2)

/-- R87: markers complete as soon as no ADVISORY entry stands ahead of them. -/
def State.completeMarkers (s : State) (r : RiserIx) : State :=
  let d := drainMarkers (s.riser r).queue
  d.1.foldl (fun s n => s.syncDone r n .drained) (s.modifyRiser r fun x => { x with queue := d.2 })

/-! ## Tags and outstanding records -/

/-- An outstanding record is removed: its reply timer stops, a resend that is due is not sent, and
its tag returns to the tail of the free-tag list (R81, R82). -/
def Riser.dropRequest (x : Riser) (tag : Nat) : Riser :=
  { x with
    outstanding := x.outstanding.filter fun o => decide (o.tag ≠ tag)
    resends := x.resends.filter fun t => decide (t ≠ tag)
    freeTags := x.freeTags ++ [tag] }

/-- An outstanding record changed by `f`. -/
def Riser.modifyRequest (x : Riser) (tag : Nat) (f : Outstanding → Outstanding) : Riser :=
  { x with outstanding := x.outstanding.map fun o => if o.tag = tag then f o else o }

/-! ## The station table (R92, R105) -/

/-- An entry of the station table changed by `f`; nothing for an address outside 1 to 62. -/
def Riser.modifyStation (x : Riser) (a : Nat) (f : Station → Station) : Riser :=
  match station? a with
  | some i => { x with stations := x.stations.write i (f (x.stations.read i)) }
  | none => x

/-- R105: a station's privacy flag takes a level; a change is passed to the directory. -/
def State.setStationPrivacy (s : State) (r : RiserIx) (a : Nat) (v : Bool) : State :=
  if ((s.riser r).station a).privacy = v then s
  else
    (s.modifyRiser r fun x => x.modifyStation a fun t => { t with privacy := v }).stationFlagChanged
      r a

/-- R92: a valid frame sets its station PRESENT; STATION_CHANGE is raised if it was ABSENT. -/
def State.stationHeard (s : State) (r : RiserIx) (a : Nat) : State :=
  let was := ((s.riser r).station a).presence
  let s1 := s.modifyRiser r fun x => x.modifyStation a fun t => { t with presence := .present }
  if was = .absent then s1.emit (.stationChange r a .present) else s1

/-- R92: a NO_REPLY completion with no fault mark and no cancel-pending mark sets its station
ABSENT, raises STATION_CHANGE if it was PRESENT, and clears its privacy flag. -/
def State.stationLost (s : State) (r : RiserIx) (a : Nat) : State :=
  let was := ((s.riser r).station a).presence
  let s1 := s.modifyRiser r fun x => x.modifyStation a fun t => { t with presence := .absent }
  let s2 := if was = .present then s1.emit (.stationChange r a .absent) else s1
  s2.setStationPrivacy r a false

/-- R73, R88, R90: every station of the riser becomes UNKNOWN with its privacy flag clear, and the
directory recomputes flat privacy. -/
def State.forgetStations (s : State) (r : RiserIx) : State :=
  (s.modifyRiser r fun x => { x with stations := Table.fill 62 Station.cold }).riserFlagsCleared r

/-! ## Emptying a riser (R73, R88, R90) -/

/-- R73, R88: an outstanding request completes NO_REPLY with the fault mark. -/
def State.completeOutstandingFaulted (s : State) (o : Outstanding) : State :=
  match o.frame with
  | .offer a c _ _ => s.completeFaulted c a (some o.tag) .noReply
  | .poll _ => s

/-- R73, R88: a queue entry leaves at a flush: a SOLICITED entry completes NO_STATION with the fault
mark and no tag, a MARKER completes FLUSHED, an ADVISORY is discarded. A solicited entry in
transmission has an outstanding record, which has completed it already. -/
def State.flushEntry (r : RiserIx) (s : State) (i : QueueItem) : State :=
  match i.entry with
  | .advisory _ => s
  | .marker n => s.syncDone r n .flushed
  | .solicited (.offer a c _ _) => if i.sending then s else s.completeFaulted c a none .noStation
  | .solicited (.poll _) => s

/-- R73, R88: every outstanding request completes in the order sent and its tag returns to the tail
of the free-tag list; then the queue is taken in order; both end empty. -/
def State.flushRiser (s : State) (r : RiserIx) : State :=
  let x := s.riser r
  let s1 := x.outstanding.foldl State.completeOutstandingFaulted s
  let s2 := x.queue.foldl (State.flushEntry r) s1
  s2.modifyRiser r fun y =>
    { y with
      queue := []
      outstanding := []
      resends := []
      freeTags := y.freeTags ++ x.outstanding.map fun o => o.tag
      tx := none }

end Sys2Proof.Machine
end

