-- ==== Sys2Proof/Machine/Calls.lean ====
section
/-!
DEFINITION. The shared operations of a call's life: taking back offers (R13, R17, R23, R28), desk grants (R62,
R140), end processing (R28, R29), channel grants and the grant loop (R11, R56), entering a leg (R9,
R10, R139), starting a call (R6 to R8, R12), completions (R14 to R16), and calls ended by a riser
failure (R57).
-/

namespace Sys2Proof.Machine

/-! ## Entering a state (R4, R5, R21) -/

/-- The display R5 gives for a call that enters a state. -/
def CallState.display : CallState → Display
  | .waiting => .wait
  | .offering => .calling
  | .ringing => .ringing
  | .connected => .speak

/-- A call enters a state with that state's timer, if it has one; its origin display follows. -/
def State.enterState (s : State) (r : Ref) (c : Call) (st : CallState) (w : Option WaitingFor)
    (t : Option TimerKind) : State :=
  (s.setCall r { c with state := st, waitingFor := w, timer := t.map s.callTimer }).display
    c.origin st.display

/-! ## Taking back offers (R13) -/

/-- R13: a QUEUED offer is withdrawn. A withdrawal refused as already sent leaves it as SENT with the
tag the refusal carries, if any, so that it is taken back with a CANCEL next. -/
def State.withdrawOffer (r : RiserIx) (call : Ref) (s : State) (o : Offer) : State × Offer :=
  match o.status with
  | .queued =>
    match s.withdraw r o.station call with
    | (s1, .done) => (s1, { o with status := .withdrawn })
    | (s1, .alreadySent t) => (s1, { o with status := .sent, tag := some t })
    | (s1, .gone) => (s1, { o with status := .sent })
  | _ => (s, o)

/-- R13: a SENT or RINGING offer is taken back: a CANCEL to the station is queued and the offer is
CANCELLED, its tag kept. Offers that have completed keep their status. -/
def State.cancelOffer (r : RiserIx) (call : Ref) (why : CancelReason) (s : State) (o : Offer) :
    State × Offer :=
  match o.status with
  | .sent => (s.advise r (.cancel o.station why (some call)), { o with status := .cancelled })
  | .ringing => (s.advise r (.cancel o.station why (some call)), { o with status := .cancelled })
  | _ => (s, o)

/-- One operation on each offer of a list, ascending by station (R1), with the new entries. -/
def State.eachOffer (f : State → Offer → State × Offer) : List Offer → State → State × List Offer
  | [], s => (s, [])
  | o :: os, s =>
    let one := f s o
    let rest := State.eachOffer f os one.1
    (rest.1, one.2 :: rest.2)

/-- R17 step 5, R23: the offers taken back in the order of those rules: the SENT and RINGING ones with
a CANCEL, then the QUEUED ones withdrawn, and any whose withdrawal was refused with a CANCEL. The
offers for which `skip` holds are left as they are. -/
def State.takeBackAll (s : State) (r : RiserIx) (call : Ref) (why : CancelReason)
    (skip : Offer → Bool) (os : List Offer) : State × List Offer :=
  let spare (f : State → Offer → State × Offer) (t : State) (o : Offer) : State × Offer :=
    if skip o then (t, o) else f t o
  let a := State.eachOffer (spare (State.cancelOffer r call why)) os s
  let b := State.eachOffer (spare (State.withdrawOffer r call)) a.2 a.1
  State.eachOffer (spare (State.cancelOffer r call why)) b.2 b.1

/-- R28: the frame one offer gets at its call's end: a CANCEL to the answerer, except when it hung up,
and to every other station whose offer is SENT or RINGING. -/
def State.cancelAtEnd (r : RiserIx) (call : Ref) (why : EndReason) (answerer : Option Nat)
    (s : State) (o : Offer) : State :=
  if answerer = some o.station then
    if why = .clearedAnswererHungUp then s
    else s.advise r (.cancel o.station why.cancelReason (some call))
  else (State.cancelOffer r call why.cancelReason s o).1

/-- R28: at a call's end every QUEUED offer is withdrawn first, which frees its place in the queue;
then the CANCEL frames go out in ascending station order. -/
def State.takeBackAtEnd (s : State) (r : RiserIx) (call : Ref) (why : EndReason)
    (answerer : Option Nat) (os : List Offer) : State :=
  let a := State.eachOffer (State.withdrawOffer r call) os s
  a.2.foldl (State.cancelAtEnd r call why answerer) a.1

/-- The riser of a call's flat, if it has a flat. -/
def State.riserOfCall (s : State) (c : Call) : Option RiserIx := c.flat.map fun i => (s.flat i).riser

/-! ## Desk grants (R60, R62, R140) -/

/-- R140: the desk grant handling, with the port becoming HELD with role DESK (R60, R62). -/
def State.grantDesk (s : State) (r : Ref) (c : Call) (p : PortIx) : State :=
  let s1 := s.setHold p (some { call := r, role := .desk })
  let s2 := (s1.ring p (.on c.origin c.kind c.flat)).display p .ringing
  s2.enterState r { c with deskPort := some p } .ringing none (some .deskRing)

/-- R62: a desk is granted to the head of the desk wait queue, whose entries are given; an entry that
names no live call, which R61 says cannot stand there, is passed over (log entry 20). -/
def State.serveDeskFrom (p : PortIx) : List Ref → State → State
  | [], s => s
  | r :: rest, s =>
    let s1 := s.setDeskQueue rest
    match s1.call? r with
    | some c => s1.grantDesk r c p
    | none => State.serveDeskFrom p rest s1

/-- R62: the desk grant rule runs for a port; an eligible desk is granted. -/
def State.serveDesk (s : State) (p : PortIx) : State :=
  if s.eligible p then State.serveDeskFrom p s.psw.deskQueue s else s

/-- R58: a port is released, and the desk grant rule runs for it. -/
def State.releasePort (s : State) (p : PortIx) : State := (s.setHold p none).serveDesk p

/-- R149: RING(off) and READY are placed at a desk port before it is released. -/
def State.releaseDesk (s : State) (p : PortIx) : State :=
  ((s.ring p .off).display p .ready).releasePort p

/-! ## End processing (R28, R29) -/

/-- R28 and the first part of R29: frames to the handsets, the join, the origin display, the event,
and the slot becoming FREE. -/
def State.endRecord (s : State) (r : Ref) (c : Call) (why : EndReason) : State :=
  let s1 :=
    if why.isRiserFailure then s
    else
      match s.riserOfCall c with
      | none => s
      | some x => s.takeBackAtEnd x r why c.answerer c.offers
  let s2 := (s1.removeJoin r).display c.origin why.display
  let s3 := s2.emit (.callEnded r c.kind c.origin c.code c.flat c.answerer why)
  s3.setSlot r.slot { generation := r.gen, lastEnd := some why, call := none }

/-- R29: the call's desk port and its origin port are released, in that order, and the call leaves
any wait queue it is in. -/
def State.releasePorts (s : State) (r : Ref) (c : Call) : State :=
  let s1 := match c.deskPort with
    | some p => s.releaseDesk p
    | none => s
  (s1.releasePort c.origin).leaveQueues r

/-! ## Flat-leg entry checks (R9) -/

/-- R9 check 1: another live call is on its FLAT leg for the flat and is past WAITING. -/
def State.engaged (s : State) (r : Ref) (i : FlatIx) : Bool :=
  s.liveCalls.any fun rc =>
    decide (rc.1.slot ≠ r.slot) && decide (rc.2.leg = .flat) && decide (rc.2.flat = some i) &&
      decide (rc.2.state ≠ .waiting)

/-- R9 check 4: every station of the flat is ABSENT. -/
def State.allAbsent (s : State) (f : Flat) : Bool :=
  f.stations.all fun a => decide (((s.riser f.riser).station a).presence = .absent)

/-- R9: the flat-leg entry checks in order; the first failure gives the end. -/
def State.entryCheck (s : State) (r : Ref) (i : FlatIx) : Option EndReason :=
  if s.engaged r i then some .declinedEngaged
  else if (s.flat i).privacy then some .declinedPrivacy
  else if (s.riser (s.flat i).riser).link.isOff then some .unreachableRiserOff
  else if s.allAbsent (s.flat i) then some .unreachableNoStation
  else none

/-! ## Channel grants (R11, R56) -/

/-- R11, R109: the stations offered: those of the flat that are not ABSENT, in ascending order. -/
def State.offeredStations (s : State) (f : Flat) : List Nat :=
  f.stations.filter fun a => decide (((s.riser f.riser).station a).presence ≠ .absent)

/-- R11: an OFFER is queued for each entry, in ascending station order. -/
def State.queueOffers (s : State) (r : RiserIx) (call : Ref) (kind : CallKind) (origin : PortIx)
    (stations : List Nat) : State :=
  stations.foldl (fun t a => (t.solicit r (.offer a call kind origin)).1) s

/-- R11: a granted call that passes its checks builds its offers, queues the OFFERs and enters
OFFERING; no call timer runs. -/
def State.offerFlat (s : State) (r : Ref) (c : Call) (i : FlatIx) : State :=
  let f := s.flat i
  let stations := s.offeredStations f
  let offers := stations.map fun a => ({ station := a, status := .queued, tag := none } : Offer)
  let s1 := s.setCall r { c with offers := offers, timer := none, waitingFor := none }
  let s2 := s1.queueOffers f.riser r c.kind c.origin stations
  (s2.modifyCall r fun d => { d with state := .offering }).display c.origin .calling

/-- R11: the grant handling. The channel becomes HELD by the call; the answer is the end reason when
a check fails, and then the call has not ended yet. -/
def State.grantChannel (s : State) (r : Ref) (c : Call) (ch : Channel) :
    State × Option EndReason :=
  let c1 := { c with timer := none, waitingFor := none, channel := some ch }
  let s1 := (s.setHolder ch (some r)).setCall r c1
  match c1.flat with
  | none => (s1, some .unreachableNoStation)
  | some i =>
    match s1.entryCheck r i with
    | some why => (s1, some why)
    | none => (s1.offerFlat r c1 i, none)

/-- R56: the turns of the loop that serves a released channel. Each turn takes the head of the
queue; a call that fails its re-check ends, with its ports released, before the loop goes on. The
first argument bounds the turns by the length of the queue. -/
def State.serveChannel : Nat → Channel → State → State
  | 0, ch, s => s.setHolder ch none
  | n + 1, ch, s =>
    match (s.paths ch.riser).queue with
    | [] => s.setHolder ch none
    | r :: rest =>
      let s1 := s.setChannelQueue ch.riser rest
      match s1.call? r with
      | none => State.serveChannel n ch s1
      | some c =>
        match s1.grantChannel r c ch with
        | (s2, none) => s2
        | (s2, some why) =>
          match s2.call? r with
          | none => State.serveChannel n ch s2
          | some d => State.serveChannel n ch ((s2.endRecord r d why).releasePorts r d)

/-- R56: a call releases its channel. -/
def State.releaseChannel (s : State) (ch : Channel) : State :=
  State.serveChannel (s.paths ch.riser).queue.length ch s

/-- R28, R29: the end of a live call; nothing for a stale reference. -/
def State.endCall (s : State) (r : Ref) (why : EndReason) : State :=
  match s.call? r with
  | none => s
  | some c =>
    let s1 := s.endRecord r c why
    let s2 := match c.channel with
      | some ch => s1.releaseChannel ch
      | none => s1
    s2.releasePorts r c

/-! ## Entering a leg (R10, R54, R139) -/

/-- R54: a channel is granted at once, with the grant handling of R11. -/
def State.grantNow (s : State) (r : Ref) (c : Call) (ch : Channel) : State :=
  match s.grantChannel r c ch with
  | (s1, none) => s1
  | (s1, some why) => s1.endCall r why

/-- R10, R54: a channel request. -/
def State.requestChannel (s : State) (r : Ref) (c : Call) (x : RiserIx) : State :=
  if (s.riser x).link.isOff then s.endCall r .unreachableRiserOff
  else if (s.paths x).holderA = none then s.grantNow r c { riser := x, side := .a }
  else if (s.paths x).holderB = none then s.grantNow r c { riser := x, side := .b }
  else
    (s.setChannelQueue x ((s.paths x).queue ++ [r])).enterState r c .waiting (some .channel)
      (some .pathWait)

/-- R9, R10: a call tries its flat: the entry checks, then a channel request. -/
def State.enterFlatLeg (s : State) (r : Ref) (c : Call) (i : FlatIx) : State :=
  match s.entryCheck r i with
  | some why => s.endCall r why
  | none => s.requestChannel r c (s.flat i).riser

/-- R60: the lowest-numbered eligible desk. -/
def State.lowestDesk (s : State) : Option PortIx := (List.finRange 8).find? fun p => s.eligible p

/-- R60, R139: a call enters its concierge leg and requests a desk. -/
def State.enterConciergeLeg (s : State) (r : Ref) (c : Call) : State :=
  let c1 := { c with leg := .concierge, deskVisited := true, timer := none, waitingFor := none }
  let s1 := s.setCall r c1
  match s1.lowestDesk with
  | some p => s1.grantDesk r c1 p
  | none =>
    (s1.setDeskQueue (s1.psw.deskQueue ++ [r])).enterState r c1 .waiting (some .desk)
      (some .pathWait)

/-! ## Starting a call (R6 to R8, R12) -/

/-- The lowest-numbered FREE slot (R2). -/
def State.freeSlot? (s : State) : Option SlotIx :=
  (List.finRange 16).find? fun i => (s.slot i).call.isNone

/-- The call kind of a start request (R7). -/
def StartRequest.callKind : StartRequest → CallKind
  | .call => .visitor
  | .concierge => .desk
  | .dial => .outward

/-- R7: the record of a new call. Its state is written by the continuation within the same event. -/
def Call.fresh (kind : CallKind) (origin : PortIx) (code : Option Nat) : Call :=
  { kind := kind, origin := origin, code := code, flat := none,
    leg := if kind = .desk then .concierge else .flat, state := .waiting, waitingFor := none,
    deskVisited := false, channel := none, deskPort := none, offers := [], answerer := none,
    timer := none }

/-- R2, R7: a slot is taken, the record written, the origin port held and CALL_STARTED raised. -/
def State.createCall (s : State) (i : SlotIx) (c : Call) : State × Ref :=
  let g := (s.slot i).generation + 1
  let r : Ref := { slot := i, gen := g }
  let s1 := s.setSlot i { generation := g, lastEnd := none, call := some c }
  let s2 := s1.setHold c.origin (some { call := r, role := .origin })
  (s2.emit (.callStarted r c.kind c.origin c.code), r)

/-- R8: a VISITOR call goes to the concierge first when intercept mode is on and its port's
intercept flag is set. -/
def State.intercepts (s : State) (c : Call) : Bool :=
  decide (c.kind = .visitor) && s.ccu.intercept && (s.port c.origin).intercept

/-- R8, R12: how a new call continues within its start event. -/
def State.continueCall (s : State) (r : Ref) (c : Call) : State :=
  match c.code with
  | none => s.enterConciergeLeg r c
  | some code =>
    match s.dir.translate code with
    | .error cause => s.endCall r (.invalidCode cause)
    | .ok i =>
      let c1 := { c with flat := some i }
      let s1 := s.setCall r c1
      if s1.intercepts c1 then s1.enterConciergeLeg r c1 else s1.enterFlatLeg r c1 i

/-- R6, R7: a start request from a port: refused while the check flag is set, discarded while the
speech port is held, otherwise a call is created and continues. With every slot taken, which R2
says cannot be, nothing is created. -/
def State.startCall (s : State) (p : PortIx) (q : StartRequest) (code : Option Nat) : State :=
  if (s.port p).check then (s.display p .service).emit (.callRefused p q)
  else if (s.hold p).isSome then s.display p .busy
  else
    match s.freeSlot? with
    | none => s
    | some i =>
      let c := Call.fresh q.callKind p code
      let made := s.createCall i c
      made.1.continueCall made.2 c

/-! ## The answer (R17, R18) and the station's call (R99) -/

/-- R17: the station has an offer with status SENT or RINGING in this call, which is OFFERING or
RINGING on its FLAT leg and has no answerer. -/
def State.mayAnswer (s : State) (x : RiserIx) (a : Nat) (c : Call) : Bool :=
  decide (c.leg = .flat) && (decide (c.state = .offering) || decide (c.state = .ringing)) &&
    c.answerer.isNone && decide (s.riserOfCall c = some x) &&
    c.offers.any fun o =>
      decide (o.station = a) && (decide (o.status = .sent) || decide (o.status = .ringing))

/-- R99: the station's call: CONNECTED on its FLAT leg, served by the riser, answered by the
station. -/
def State.isStationsCall (s : State) (x : RiserIx) (a : Nat) (c : Call) : Bool :=
  decide (c.leg = .flat) && decide (c.state = .connected) && decide (c.answerer = some a) &&
    decide (s.riserOfCall c = some x)

/-- R99: the station's call, if any. -/
def State.stationsCall? (s : State) (x : RiserIx) (a : Nat) : Option (Ref × Call) :=
  s.liveCalls.find? fun rc => s.isStationsCall x a rc.2

/-- R18: a call CONNECTED on its FLAT leg for a flat. -/
def State.connectedTo? (s : State) (i : FlatIx) : Option (Ref × Call) :=
  s.liveCalls.find? fun rc =>
    decide (rc.2.leg = .flat) && decide (rc.2.state = .connected) && decide (rc.2.flat = some i)

/-- R17: taking the answer, steps 1 to 6. -/
def State.takeAnswer (s : State) (x : RiserIx) (a : Nat) (r : Ref) (c : Call) : State :=
  let c1 := { c with answerer := some a, timer := none, state := .connected }
  let s1 := s.setCall r c1
  let s2 := match c.channel with
    | some ch =>
      (s1.makeJoin { call := r, origin := c.origin, other := .channel ch }).advise x
        (.join a r ch.side)
    | none => s1
  let back := s2.takeBackAll x r .answeredElsewhere (fun o => decide (o.station = a)) c1.offers
  let s3 := back.1.setCall r { c1 with offers := back.2, timer := some (back.1.callTimer .talk) }
  (s3.display c.origin .speak).emit (.callAnswered r (some a) none)

/-- R18, R100, R101: a LIFT that is not an answer is turned away or ignored. -/
def State.turnAway (s : State) (x : RiserIx) (a : Nat) : State :=
  match s.stationsCall? x a with
  | some _ => s
  | none =>
    match s.stationFlat? x a with
    | none => s.advise x (.cancel a .noCall none)
    | some i =>
      match s.connectedTo? i with
      | some rc => s.advise x (.cancel a .answeredElsewhere (some rc.1))
      | none => s.advise x (.cancel a .noCall none)

/-- R17, R18: a LIFT as the call controller takes it. -/
def State.lift (s : State) (x : RiserIx) (a : Nat) : State :=
  match s.liveCalls.find? fun rc => s.mayAnswer x a rc.2 with
  | some rc => s.takeAnswer x a rc.1 rc.2
  | none => s.turnAway x a

/-! ## Completions (R14 to R16) -/

/-- R15: some offer of the call is still in progress. -/
def Call.inProgress (c : Call) : Bool :=
  c.offers.any fun o =>
    decide (o.status = .queued) || decide (o.status = .sent) || decide (o.status = .ringing)

/-- R15: the end of a call that has failed on every handset. -/
def Call.failure (c : Call) : EndReason :=
  if c.offers.any fun o => decide (o.status = .engaged) || decide (o.status = .refused) then
    .declinedAllRefused
  else .unreachableNoReply

/-- R14, R15, R16: a completion without the fault mark, as the call controller takes it. -/
def State.complete (s : State) (x : RiserIx) (call : Ref) (a : Nat) (tag : Option Nat)
    (result : OfferStatus) : State :=
  match s.call? call with
  | none => if result = .ringing then s.advise x (.cancel a .noCall (some call)) else s
  | some c =>
    if c.offers.any fun o => o.isNamedBy c.answerer a tag then
      let c1 := c.markOffers a tag result
      if c.state = .offering then
        if result = .ringing then s.enterState call c1 .ringing none (some .ring)
        else if c1.inProgress then s.setCall call c1
        else (s.setCall call c1).endCall call c1.failure
      else s.setCall call c1
    else s

/-! ## Calls ended by a riser failure (R57) -/

/-- R57: the affected calls: the channel wait queue from head to tail, then the holder of channel A,
then the holder of channel B. A call named a second time would have ended already, and its end is
then a stale reference's: nothing. -/
def RiserPaths.affected (p : RiserPaths) : List Ref :=
  p.queue ++ p.holderA.toList ++ p.holderB.toList

/-- R26, R57: every affected call ends with the fault cause, in that order. -/
def State.failCalls (s : State) (x : RiserIx) (why : EndReason) : State :=
  (s.paths x).affected.foldl (fun t r => t.endCall r why) s

/-- R88 steps 1 to 6, shared by a line fault and an overrun: `link` is the state RISER_CHANGE
carries. -/
def State.failRiser (s : State) (x : RiserIx) (link : LinkState) (cause : RiserCause)
    (why : EndReason) : State :=
  let s1 := s.modifyRiser x fun y =>
    { y with link := .faulted, idleTimer := none, stepTimer := none, wakeTimer := none, tx := none,
             overrunDue := false }
  let s2 := (s1.flushRiser x).emit (.riserChange x link cause)
  (s2.failCalls x why).forgetStations x

/-- R90: overrun processing, which returns the riser to ACTIVE. -/
def State.overrunNow (s : State) (x : RiserIx) : State :=
  (s.failRiser x .active .overrun .faultRiserOverrun).enterActive x

end Sys2Proof.Machine
end

