-- ==== Sys2Proof/WellFormed.lean ====
section
/-!
DEFINITION. Which commands a link can carry: each number fits the field of its frame (R196, R198,
R200). A well-formed command may still hold a value its rule refuses or discards; a command that is
not well-formed names no frame and no event that can reach the part.
-/

namespace Sys2Proof

/-- The number fits a one-byte field. -/
def fitsByte (n : Nat) : Bool := decide (n < 256)
/-- The number fits a two-byte field. -/
def fitsTwo (n : Nat) : Bool := decide (n < 65536)
/-- The number is a station address, 1 to 62 (R69). -/
def isStation (a : Nat) : Bool := decide (1 ≤ a) && decide (a ≤ Config.lastStation)
/-- The number is four decimal digits, 0000 to 9999 (R126). -/
def isCode (c : Nat) : Bool := decide (c < Config.codeCount)
/-- The frame kinds a station sends that the riser controller knows, 01h to 06h (R200). -/
def isKnownStationKind (k : Nat) : Bool := decide (1 ≤ k % 128) && decide (k % 128 ≤ 6)
/-- The body size R196 gives for a request kind; none for a byte that is no request kind. -/
def requestBodySize : Nat → Option Nat
  | 0x01 => some 4
  | 0x02 => some 10
  | 0x03 => some 7
  | 0x04 => some 8
  | 0x05 => some 2
  | 0x06 => some 1
  | 0x07 => some 8
  | 0x08 => some 1
  | 0x09 => some 2
  | 0x0A => some 2
  | 0x0B => some 2
  | 0x0C => some 2
  | 0x0D => some 1
  | 0x0E => some 1
  | 0x0F => some 1
  | 0x10 => some 1
  | 0x11 => some 1
  | 0x12 => some 1
  | 0x13 => some 2
  | 0x14 => some 1
  | 0x15 => some 1
  | _ => none

/-- Whether a command names a frame or an event that can reach the part. -/
def Instr.wellFormed : Instr → Bool
  | .powerUp => true
  | .resetPin => true
  | .hostFrameReceived _ => true
  | .hostRxTimeout => true
  | .hostTxEnd => true
  | .illegalRequest k n b =>
      fitsByte k && fitsByte n && decide (b.length ≤ 62) && (requestBodySize k != some b.length)
  | .setPort n p f i t => fitsByte n && fitsByte p && fitsByte f && fitsByte i && fitsByte t
  | .setWindow n w e b sp st rs ff =>
      fitsByte n && fitsByte w && fitsByte e && fitsTwo b && fitsTwo sp && fitsTwo st &&
        fitsByte rs && fitsByte ff
  | .setFlat n f i r a c d p =>
      fitsByte n && fitsByte f && fitsByte i && fitsByte r && fitsByte a && fitsByte c &&
        fitsByte d && fitsByte p
  | .setTimes n a b c d => fitsByte n && fitsTwo a && fitsTwo b && fitsTwo c && fitsTwo d
  | .setRoute n e r => fitsByte n && fitsByte e && fitsByte r
  | .setMode n m => fitsByte n && fitsByte m
  | .setRiser n r e s q a b =>
      fitsByte n && fitsByte r && fitsByte e && fitsByte s && fitsByte q && fitsTwo a && fitsTwo b
  | .clearCheck n p => fitsByte n && fitsByte p
  | .setPrivacy n f p => fitsByte n && fitsByte f && fitsByte p
  | .doorHold n l t => fitsByte n && fitsByte l && fitsByte t
  | .doorFree n l t => fitsByte n && fitsByte l && fitsByte t
  | .endCall n s g => fitsByte n && fitsByte s && fitsByte g
  | .queryCall n x => fitsByte n && fitsByte x
  | .queryWindow n x => fitsByte n && fitsByte x
  | .queryFlat n x => fitsByte n && fitsByte x
  | .queryPort n x => fitsByte n && fitsByte x
  | .queryLock n x => fitsByte n && fitsByte x
  | .queryRiser n x => fitsByte n && fitsByte x
  | .queryStation n r a => fitsByte n && fitsByte r && fitsByte a
  | .riserSync n r => fitsByte n && fitsByte r
  | .restart n k => fitsByte n && fitsByte k
  | .panelCall _ c => isCode c
  | .panelConcierge _ => true
  | .panelCancel _ => true
  | .deskDial _ c => isCode c
  | .deskAnswer _ => true
  | .deskClear _ => true
  | .deskForward _ => true
  | .deskDoor _ => true
  | .panelFrameDiscard _ => true
  | .panelRxTimeout _ => true
  | .panelPresent _ => true
  | .panelAbsent _ => true
  | .panelTxEnd _ => true
  | .riserTxEnd _ => true
  | .stationReply _ a t x p => isStation a && fitsByte t && fitsByte x && fitsByte p
  | .stationLift _ a => isStation a
  | .stationHangup _ a => isStation a
  | .stationDoor _ a => isStation a
  | .stationPrivacyOn _ a => isStation a
  | .stationPrivacyOff _ a => isStation a
  | .unknownStationFrame _ a k => isStation a && fitsByte k && !isKnownStationKind k
  | .riserBadFrame _ => true
  | .riserRxTimeout _ => true
  | .replyTimeout _ t => decide (t < Config.tagCount)
  | .idleTimeout _ => true
  | .wakeTimeout _ => true
  | .surveyStep _ => true
  | .lineFault _ c => decide (c ≠ .good)
  | .lineRestored _ => true
  | .overrun _ => true
  | .pathWaitExpiry _ => true
  | .ringExpiry _ => true
  | .deskRingExpiry _ => true
  | .talkExpiry _ => true
  | .releaseTimerExpiry _ => true
  | .lineConditionChange _ _ => true
  | .resetPinRelease => true
  | .syncByteReceived _ => true

end Sys2Proof
end

