-- ==== Sys2Proof/Machine/HostFrames.lean ====
section
/-!
DEFINITION. The bytes of the receive side: the CRC (R194), the receiver of every link (R167, R198,
R200), the requests that host frames carry (R196) and, after them, the frame that carries a request.
-/

namespace Sys2Proof.Machine

/-! ## The check (R194) -/

/-- One bit of the CRC register for the generator x^16 + x^12 + x^5 + 1. -/
def crcBit (r : BitVec 16) : BitVec 16 :=
  if r.getLsbD 15 then (r <<< 1) ^^^ 0x1021#16 else r <<< 1

/-- One byte taken into the CRC register, most significant bit first. -/
def crcByte (r : BitVec 16) (b : Byte) : BitVec 16 :=
  let r0 := r ^^^ ((b.setWidth 16) <<< 8)
  crcBit (crcBit (crcBit (crcBit (crcBit (crcBit (crcBit (crcBit r0)))))))

/-- The CRC-16 of a frame, from the length byte on; the register starts at FFFFh. -/
def crc16 (bytes : List Byte) : BitVec 16 := bytes.foldl crcByte 0xFFFF#16

/-- The two check bytes, the high byte first. -/
def crcBytes (bytes : List Byte) : List Byte :=
  let c := crc16 bytes
  [(c >>> 8).setWidth 8, c.setWidth 8]

/-- The sync byte of every frame (R194). -/
def syncByte : Byte := 0xA5#8

/-- A whole frame around what its length counts: sync, length, those bytes, check (R194). -/
def sealFrame (inner : List Byte) : List Byte :=
  let counted := byteOf inner.length :: inner
  syncByte :: (counted ++ crcBytes counted)

/-! ## The receivers (R167, R194, R198, R200) -/

/-- R196: a host frame is in range when its length is 2 to 64. -/
def hostLengthInRange (n : Nat) : Bool := decide (2 ≤ n) && decide (n ≤ 64)

/-- R198: a panel frame is in range when its length is 1 to 40. -/
def panelLengthInRange (n : Nat) : Bool := decide (1 ≤ n) && decide (n ≤ 40)

/-- R200: a frame of a station is in range when its length is 2 to 32. -/
def stationLengthInRange (n : Nat) : Bool := decide (2 ≤ n) && decide (n ≤ 32)

/-- A HUNTING receiver passes over every byte that is not the sync byte. -/
def huntByte (b : Byte) : LinkRx := if b = syncByte then .receiving [] else .hunting

/-- R167, R198, R200: a receiver takes one byte, on any of the links; the answer holds what followed
the sync byte when the byte completes a frame. A length out of range makes the frame bad at once, and
the receiver hunts again from the byte after the rejected sync byte, which is the length byte
itself. -/
def LinkRx.take (inRange : Nat → Bool) (rx : LinkRx) (b : Byte) : LinkRx × Option (List Byte) :=
  match rx with
  | .hunting => (huntByte b, none)
  | .receiving [] => if inRange b.toNat then (.receiving [b], none) else (huntByte b, none)
  | .receiving (len :: got) =>
    let all := len :: (got ++ [b])
    if all.length = len.toNat + 3 then (.hunting, some all) else (.receiving all, none)

/-- What the length byte of a complete frame counts, when the frame is good (R194); `got` is
everything after the sync byte. -/
def goodInner? (got : List Byte) : Option (List Byte) :=
  let counted := got.take (got.length - 2)
  if crcBytes counted = got.drop (got.length - 2) then
    match counted with
    | len :: inner => if inner.length = len.toNat then some inner else none
    | [] => none
  else none

/-- The host frame that a complete frame is, when it is good (R195). -/
def goodFrame? (got : List Byte) : Option HostFrame :=
  match goodInner? got with
  | some (kind :: num :: body) => some { kind := kind, num := num, body := body }
  | _ => none

/-- R167: the host receiver takes one byte; the answer holds a good frame when the byte completes
one. -/
def rxByte (rx : LinkRx) (b : Byte) : LinkRx × Option HostFrame :=
  let one := rx.take hostLengthInRange b
  (one.1, one.2.bind goodFrame?)

/-- R167: the host receiver takes bytes in the order they arrive; the good frames in the order they
end. -/
def rxBytes : LinkRx → List Byte → LinkRx × List HostFrame
  | rx, [] => (rx, [])
  | rx, b :: bs =>
    let one := rxByte rx b
    let rest := rxBytes one.1 bs
    (rest.1, one.2.toList ++ rest.2)

/-- R168: a good frame is added at the tail of the request buffer when fewer than four are there,
and discarded otherwise. -/
def Hlp.offerFrame (h : Hlp) (f : HostFrame) : Hlp :=
  if h.buffer.length < Config.requestBufferRoom then { h with buffer := h.buffer ++ [f] } else h

/-! ## Requests (R170, R196) -/

/-- A two-byte field, most significant byte first (R194). -/
def two (hi lo : Byte) : Nat := hi.toNat * 256 + lo.toNat

/-- R170, R196: the request a good frame carries; ILLEGAL when its kind is none of the request kinds
or its body is not the size the kind requires. -/
def requestOf (f : HostFrame) : Instr :=
  let n := f.num.toNat
  let illegal := Instr.illegalRequest f.kind.toNat n f.body
  match f.kind.toNat with
  | 0x01 => match f.body with
    | [a, b, c, d] => .setPort n a.toNat b.toNat c.toNat d.toNat
    | _ => illegal
  | 0x02 => match f.body with
    | [w, e, b1, b0, s1, s0, t1, t0, r, ff] =>
      .setWindow n w.toNat e.toNat (two b1 b0) (two s1 s0) (two t1 t0) r.toNat ff.toNat
    | _ => illegal
  | 0x03 => match f.body with
    | [a, b, c, d, e, g, h] =>
      .setFlat n a.toNat b.toNat c.toNat d.toNat e.toNat g.toNat h.toNat
    | _ => illegal
  | 0x04 => match f.body with
    | [a1, a0, b1, b0, c1, c0, d1, d0] =>
      .setTimes n (two a1 a0) (two b1 b0) (two c1 c0) (two d1 d0)
    | _ => illegal
  | 0x05 => match f.body with
    | [a, b] => .setRoute n a.toNat b.toNat
    | _ => illegal
  | 0x06 => match f.body with
    | [a] => .setMode n a.toNat
    | _ => illegal
  | 0x07 => match f.body with
    | [r, e, s, q, a1, a0, b1, b0] =>
      .setRiser n r.toNat e.toNat s.toNat q.toNat (two a1 a0) (two b1 b0)
    | _ => illegal
  | 0x08 => match f.body with
    | [a] => .clearCheck n a.toNat
    | _ => illegal
  | 0x09 => match f.body with
    | [a, b] => .setPrivacy n a.toNat b.toNat
    | _ => illegal
  | 0x0A => match f.body with
    | [a, b] => .doorHold n a.toNat b.toNat
    | _ => illegal
  | 0x0B => match f.body with
    | [a, b] => .doorFree n a.toNat b.toNat
    | _ => illegal
  | 0x0C => match f.body with
    | [a, b] => .endCall n a.toNat b.toNat
    | _ => illegal
  | 0x0D => match f.body with
    | [a] => .queryCall n a.toNat
    | _ => illegal
  | 0x0E => match f.body with
    | [a] => .queryWindow n a.toNat
    | _ => illegal
  | 0x0F => match f.body with
    | [a] => .queryFlat n a.toNat
    | _ => illegal
  | 0x10 => match f.body with
    | [a] => .queryPort n a.toNat
    | _ => illegal
  | 0x11 => match f.body with
    | [a] => .queryLock n a.toNat
    | _ => illegal
  | 0x12 => match f.body with
    | [a] => .queryRiser n a.toNat
    | _ => illegal
  | 0x13 => match f.body with
    | [a, b] => .queryStation n a.toNat b.toNat
    | _ => illegal
  | 0x14 => match f.body with
    | [a] => .riserSync n a.toNat
    | _ => illegal
  | 0x15 => match f.body with
    | [a] => .restart n a.toNat
    | _ => illegal
  | _ => illegal

/-- A number as a two-byte field, most significant byte first (R194). -/
def twoBytes (n : Nat) : List Byte := [byteOf (n / 256), byteOf n]

/-- The frame that carries a request, by R196; none for a command that is no request. -/
def frameOf : Instr → Option HostFrame
  | .illegalRequest k n b => some ⟨byteOf k, byteOf n, b⟩
  | .setPort n a b c d => some ⟨0x01, byteOf n, [byteOf a, byteOf b, byteOf c, byteOf d]⟩
  | .setWindow n w e b s t r ff =>
    some ⟨0x02, byteOf n,
      [byteOf w, byteOf e] ++ twoBytes b ++ twoBytes s ++ twoBytes t ++ [byteOf r, byteOf ff]⟩
  | .setFlat n a b c d e g h =>
    some ⟨0x03, byteOf n,
      [byteOf a, byteOf b, byteOf c, byteOf d, byteOf e, byteOf g, byteOf h]⟩
  | .setTimes n a b c d =>
    some ⟨0x04, byteOf n, twoBytes a ++ twoBytes b ++ twoBytes c ++ twoBytes d⟩
  | .setRoute n a b => some ⟨0x05, byteOf n, [byteOf a, byteOf b]⟩
  | .setMode n a => some ⟨0x06, byteOf n, [byteOf a]⟩
  | .setRiser n r e s q a b =>
    some ⟨0x07, byteOf n,
      [byteOf r, byteOf e, byteOf s, byteOf q] ++ twoBytes a ++ twoBytes b⟩
  | .clearCheck n a => some ⟨0x08, byteOf n, [byteOf a]⟩
  | .setPrivacy n a b => some ⟨0x09, byteOf n, [byteOf a, byteOf b]⟩
  | .doorHold n a b => some ⟨0x0A, byteOf n, [byteOf a, byteOf b]⟩
  | .doorFree n a b => some ⟨0x0B, byteOf n, [byteOf a, byteOf b]⟩
  | .endCall n a b => some ⟨0x0C, byteOf n, [byteOf a, byteOf b]⟩
  | .queryCall n a => some ⟨0x0D, byteOf n, [byteOf a]⟩
  | .queryWindow n a => some ⟨0x0E, byteOf n, [byteOf a]⟩
  | .queryFlat n a => some ⟨0x0F, byteOf n, [byteOf a]⟩
  | .queryPort n a => some ⟨0x10, byteOf n, [byteOf a]⟩
  | .queryLock n a => some ⟨0x11, byteOf n, [byteOf a]⟩
  | .queryRiser n a => some ⟨0x12, byteOf n, [byteOf a]⟩
  | .queryStation n a b => some ⟨0x13, byteOf n, [byteOf a, byteOf b]⟩
  | .riserSync n a => some ⟨0x14, byteOf n, [byteOf a]⟩
  | .restart n a => some ⟨0x15, byteOf n, [byteOf a]⟩
  | _ => none

/-- The bytes of a request frame on the wire (R195). -/
def HostFrame.bytes (f : HostFrame) : List Byte := sealFrame (f.kind :: f.num :: f.body)

end Sys2Proof.Machine
end

