-- ==== Sys2Proof/Machine/Settle.lean ====
section
/-!
DEFINITION. What the transmitters and the riser controllers do at the end of every event, with no
further command: complete markers, start the next transmission on every free line, let an idle riser
go QUIET (R74, R78, R87, R132, R173).
DESIGN CHOICE (log entry 5): a line that is free is looked at when the event has been taken whole.
-/

namespace Sys2Proof.Machine

/-- R74, R78, R87 at one riser. -/
def State.settleRiser (s : State) (r : RiserIx) : State :=
  ((s.completeMarkers r).startTransmission r).goQuiet r

/-- R74, R78, R87 at every riser. -/
def State.settleRisers (s : State) : State := (List.finRange 6).foldl State.settleRiser s

/-- R132: the transmitter of a port whose line is free starts a frame from the first of the ring,
display and alert slots that is not empty, and empties it. -/
def Port.startTransmission (p : Port) : Port :=
  if p.tx = none ∧ p.present = true ∧ p.function ≠ .off then
    match p.ringSlot, p.displaySlot, p.alertSlot with
    | some l, _, _ => { p with ringSlot := none, tx := some (.ring l) }
    | none, some d, _ => { p with displaySlot := none, tx := some (.display d) }
    | none, none, some e => { p with alertSlot := none, tx := some (.alert e) }
    | none, none, none => p
  else p

/-- R132 at every port. -/
def State.settlePanels (s : State) : State :=
  { s with ports := Table.mapEach Port.startTransmission s.ports }

/-- R173: whenever it is IDLE, and the reset pin is not driven (R179), the host transmitter starts
the reply at the head of the ready list, else the notice at the head of the notice queue. -/
def State.settleHost (s : State) : State :=
  if s.resetHeld = false ∧ s.hlp.tx = .idle then
    match s.hlp.ready, s.ntu.notices with
    | x :: rest, _ => { s with hlp := { s.hlp with ready := rest, tx := .reply x.reply } }
    | [], n :: rest =>
      { s with hlp := { s.hlp with tx := .notice n }, ntu := { s.ntu with notices := rest } }
    | [], [] => s
  else s

/-- R74, R78, R87 at one riser, and the host transmitter, which a marker that completes may give a
reply to send. -/
def State.settleLine (s : State) (r : RiserIx) : State := (s.settleRiser r).settleHost

/-- The panel and host transmitters. -/
def State.settleLinks (s : State) : State := s.settlePanels.settleHost

/-- All of them, after an event that may touch every block. -/
def State.settle (s : State) : State := s.settleRisers.settleLinks

/-- R90: overrun processing that is due is the riser controller's next event: it is taken whole
before whatever event of that riser is taken now. -/
def State.overrunFirst (s : State) (r : RiserIx) : State :=
  if (s.riser r).overrunDue then (s.overrunNow r).settle else s

/-- R90 for a request whose riser field may be out of range. -/
def State.overrunFirst? (s : State) (n : Nat) : State :=
  match riser? n with
  | some r => s.overrunFirst r
  | none => s

end Sys2Proof.Machine
end

