-- ==== Sys2Proof/Machine/Starts.lean ====
section
/-!
DEFINITION. Starts: what a cold start and a warm start set every block to, and the commands POWER_UP,
RESET_PIN and RESET_PIN_RELEASE (R32, R33, R51, R52, R67, R68, R97, R98, R137, R166, R178 to R181,
R186, R193).
-/

namespace Sys2Proof.Machine

/-- A cold start: every block at its first values. Presence and line condition are as the line-sense
inputs report them (R97, R137); the queue of waiting commands, the clock and the reset pin belong to
the outside. -/
def State.coldStart (s : State) (cause : StartCause) : State :=
  { State.reset with
    pending := s.pending
    clock := s.clock
    resetHeld := s.resetHeld
    risers := Table.mapEach (fun x => Riser.cold x.line) s.risers
    ports := Table.mapEach (fun p => Port.cold p.present) s.ports
    ntu := Ntu.started coldRoutes .cold cause }

/-- R33: the call is discarded, the generation kept, the last end cleared. -/
def Slot.warm (x : Slot) : Slot := { x with lastEnd := none, call := none }

/-- R98: one riser controller through a warm start at a clock value. DESIGN CHOICE (log entry 10):
overrun processing that is still due is dropped with the queue that gave rise to it. -/
def Riser.warm (clock : Nat) (x : Riser) : Riser :=
  let link : LinkState :=
    if x.link = .disabled then .disabled else if x.line = .good then .active else .faulted
  { x with
    link := link
    queue := []
    outstanding := []
    resends := []
    freeTags := allTags
    stations := Table.mapEach (fun t => { t with presence := .unknown }) x.stations
    surveyPos := 1
    idleTimer := if link = .active then some (clock + x.quietIdleS * 1000) else none
    runOut := false
    stepTimer := if link = .active ∧ x.survey = true then some (clock + x.surveyStepMs) else none
    wakeTimer := none
    tx := none
    receiving := none
    overrunDue := false }

/-- R137: one port through a warm start. -/
def Port.warm (p : Port) : Port :=
  { p with
    lastDisplay := .ready
    displaySlot := if p.present = true ∧ p.function ≠ .off then some .ready else none
    ringSlot := if p.present = true ∧ p.function = .concierge then some .off else none
    alertSlot := none
    tx := none
    receiving := none }

/-- R166: a HOST claim is kept with its lock RELEASED; a CALL claim is dropped. -/
def Lock.warm (l : Lock) : Lock :=
  match l.claim with
  | some (.call _) => { l with state := .secure, claim := none, timer := none }
  | _ => l

/-- A warm start: calls and everything in flight are discarded, the configuration is kept. -/
def State.warmStart (s : State) (cause : StartCause) : State :=
  { s with
    ccu := { s.ccu with slots := Table.mapEach Slot.warm s.ccu.slots }
    psw := Psw.cold
    risers := Table.mapEach (Riser.warm s.clock) s.risers
    ports := Table.mapEach Port.warm s.ports
    locks := Table.mapEach Lock.warm s.locks
    hlp := Hlp.started
    ntu := Ntu.started s.ntu.routes .warm cause }

/-- A start of either kind. -/
def State.start (s : State) (k : StartKind) (cause : StartCause) : State :=
  match k with
  | .cold => s.coldStart cause
  | .warm => s.warmStart cause

/-- POWER_UP (R179). -/
def execPowerUp (s : State) : Host.Outcome State Fault Refusal :=
  .next ((s.coldStart .powerUp).settleHost)

/-- RESET_PIN (R179): the pin is driven; a cold start, and the host link stays silent while it is
held. -/
def execResetPin (s : State) : Host.Outcome State Fault Refusal :=
  .next ({ s with resetHeld := true }.coldStart .resetPin).settleHost

/-- RESET_PIN_RELEASE (R179): the receiver takes bytes again and the transmitter may send the START
notice. -/
def execResetPinRelease (s : State) : Host.Outcome State Fault Refusal :=
  .next { s with resetHeld := false }.settleHost

end Sys2Proof.Machine
end

