-- ==== Sys2Proof/Machine/HostLink.lean ====
section
/-!
DEFINITION. What the host link port does with one request: taking it or putting its frame in the
buffer (R168, R169), the reply (R171, R172), the ILLEGAL reply (R170), RISER SYNC (R86, R174), RESTART
(R178); and a host frame whose bytes stop (R167).
-/

namespace Sys2Proof.Machine

/-! ## One request -/

/-- R169, R171, R172: a request that is taken: its owning block acts on the state as it then stands,
and its immediate reply is made ready within the same event. -/
def State.answer (s : State) (kind num : Nat) (settle : State → State)
    (act : State → State × Status × ReplyBody) : State :=
  settle ((act s).1.reply kind num (act s).2.1 (act s).2.2)

/-- R168, R169: the command of a request is the end of the good frame that carries it. With the buffer
empty and the conditions of R169 met it is taken at once; otherwise its frame joins the buffer, or is
discarded when four frames are there; while the reset pin is held no byte of it is taken (R179).
DESIGN CHOICE (log entry 4): the receiver itself is not looked at. -/
def State.onRequest (s : State) (c : Instr) (take : State → State) : State :=
  if s.canTake && s.hlp.buffer.isEmpty then take s
  else if s.resetHeld then s
  else
    match frameOf c with
    | some f => { s with hlp := s.hlp.offerFrame f }
    | none => s

/-! ## ILLEGAL, RISER SYNC, RESTART -/

/-- An ILLEGAL request (R170), taken: no block acts. -/
def State.takeIllegalRequest (kind num : Nat) (s : State) : State :=
  s.answer kind num State.settleHost fun t => (t, .illegal, .none)

/-- ILLEGAL_REQUEST (R170): the reply carries the kind as received and the status ILLEGAL, and no
state changes. A kind and body that make a request of R196 are not ILLEGAL, and nothing is taken. -/
def execIllegalRequest (kind num : Nat) (body : List Byte) (s : State) :
    Host.Outcome State Fault Refusal :=
  .next (if requestBodySize kind = some body.length then s
    else s.onRequest (.illegalRequest kind num body) fun t => t.takeIllegalRequest kind num)

/-- R86: a marker is added at the tail of a riser's queue, with its pending sync (R174). -/
def State.placeMarker (s : State) (r : RiserIx) (num : Nat) : State :=
  let s1 := s.modifyRiser r fun x =>
    { x with queue := x.queue ++ [{ entry := .marker num, sending := false }] }
  { s1 with hlp := { s1.hlp with syncs := s1.hlp.syncs ++ [{ num := num, riser := r }] } }

/-- R86, R174, R175: RISER SYNC as the riser controller decides it. A refusal and a marker that
completes at once give an immediate reply; otherwise the reply is held. -/
def State.riserSync (s : State) (riser num : Nat) : State :=
  match riser? riser with
  | none => s.reply 0x14 num .badValue .none
  | some r =>
    if (s.riser r).link = .disabled then s.reply 0x14 num .notExecutable .none
    else if Config.riserQueueRoom ≤ (s.riser r).queue.length then s.reply 0x14 num .busy .none
    else if (s.riser r).queue.any fun i => i.entry.isAdvisory then s.placeMarker r num
    else s.reply 0x14 num .ok (.sync r .drained)

/-- RISER_SYNC (R174), taken. -/
def State.takeRiserSync (num riser : Nat) (s : State) : State :=
  ((s.overrunFirst? riser).riserSync riser num).settleHost

/-- RISER_SYNC (R174). -/
def execRiserSync (num riser : Nat) (s : State) : Host.Outcome State Fault Refusal :=
  .next (s.onRequest (.riserSync num riser) fun t => t.takeRiserSync num riser)

/-- RESTART (R178), taken: the reply is made ready and a start is due. -/
def State.takeRestart (num startKind : Nat) (s : State) : State :=
  s.answer 0x15 num State.settleHost fun t =>
    match startKind? startKind with
    | none => (t, .badValue, .none)
    | some k => ({ t with hlp := { t.hlp with startDue := some k } }, .ok, .start k)

/-- RESTART (R178). -/
def execRestart (num startKind : Nat) (s : State) : Host.Outcome State Fault Refusal :=
  .next (s.onRequest (.restart num startKind) fun t => t.takeRestart num startKind)

/-! ## Silence on the host link -/

/-- R194: the clock value at which a receiver that has just taken a byte gives a frame up. -/
def State.rxDeadline (s : State) : Nat := s.inMs Config.rxTimeoutMs

/-- HOST_RX_TIMEOUT (R167): a frame whose bytes stop is discarded and the receiver hunts again. -/
def execHostRxTimeout (s : State) : Host.Outcome State Fault Refusal :=
  .next (match s.hlp.rxDeadline with
    | some e => { s with hlp := { s.hlp with rx := .hunting, rxDeadline := none } }.advanceTo e
    | none => { s with hlp := { s.hlp with rx := .hunting } })

end Sys2Proof.Machine
end

