-- ==== Sys2Proof/Machine/Doors.lean ====
section
/-!
DEFINITION. The door lock unit: release requests for a call (R157 to R159), the release timer (R160),
and the host's holds (R162, R163).
-/

namespace Sys2Proof.Machine

/-- R158, R159: the release timer of a lock started now with its release time, under a CALL claim. -/
def State.openFor (s : State) (p : PortIx) (call : Ref) : State :=
  s.setLock p
    { s.lock p with
      state := .released
      claim := some (.call call)
      timer := some (s.inSeconds (s.lock p).releaseTime) }

/-- R157: a release request for a call, for the lock of its origin port. A request from a handset
names the call's flat and the station; a desk's does not and skips the permission check. -/
def State.releaseRequest (s : State) (call : Ref) (p : PortIx)
    (handset : Option (FlatIx × Nat)) : State × DoorResult :=
  if s.usable p = false then (s, .notAvailable)
  else
    let denied := match handset with
      | some fa => !(inPortSet (s.flat fa.1).doors p)
      | none => false
    match handset, denied with
    | some fa, true => (s.emit (.doorDenied p call fa.1 fa.2), .denied)
    | _, _ =>
      if (s.lock p).state = .secure then
        (((s.openFor p call).emit
            (.doorReleased p (.call call) (some (s.lock p).releaseTime))).display p .doorOpen,
          .opened)
      else if (s.lock p).claim = some (.call call) then
        ((s.openFor p call).display p .doorOpen, .opened)
      else (s, .alreadyOpen)

/-- RELEASE_TIMER_EXPIRY (R160): the lock secures; a timer that is not running does not expire. -/
def execReleaseTimerExpiry (lock : PortIx) (s : State) : Host.Outcome State Fault Refusal :=
  .next (match (s.lock lock).timer, (s.lock lock).claim with
    | some e, some c =>
      (((s.advanceTo e).setLock lock
        { s.lock lock with state := .secure, claim := none, timer := none }).emit
          (.doorSecured lock c .expired)).settleLinks
    | _, _ => s)

/-- R162. -/
def State.doorHoldAct (s : State) (lock tag : Nat) : State × Status × ReplyBody :=
  match port? lock with
  | none => (s, .badValue, .none)
  | some p =>
    if tagInRange tag = false then (s, .badValue, .none)
    else if s.usable p = false then (s, .notExecutable, .none)
    else if (s.lock p).state = .secure then
      ((s.setLock p { s.lock p with state := .released, claim := some (.host tag),
                                    timer := none }).emit
        (.doorReleased p (.host tag) none), .ok, .none)
    else if (s.lock p).claim = some (.host tag) then (s, .ok, .none)
    else (s, .notFree, .none)

/-- DOOR_HOLD (R162), taken: the owning block acts and the reply is made ready. -/
def State.takeDoorHold (num lock tag : Nat) (s : State) : State :=
  s.answer 0x0A num State.settleLinks fun t =>
    t.doorHoldAct lock tag

/-- DOOR_HOLD (R162). -/
def execDoorHold (num lock tag : Nat) (s : State) : Host.Outcome State Fault Refusal :=
  .next (s.onRequest (.doorHold num lock tag) fun t =>
    t.takeDoorHold num lock tag)

/-- R163. -/
def State.doorFreeAct (s : State) (lock tag : Nat) : State × Status × ReplyBody :=
  match port? lock with
  | none => (s, .badValue, .none)
  | some p =>
    if tagInRange tag = false then (s, .badValue, .none)
    else if (s.lock p).claim = some (.host tag) then
      ((s.setLock p { s.lock p with state := .secure, claim := none, timer := none }).emit
        (.doorSecured p (.host tag) .freed), .ok, .none)
    else (s, .notOwner, .none)

/-- DOOR_FREE (R163), taken: the owning block acts and the reply is made ready. -/
def State.takeDoorFree (num lock tag : Nat) (s : State) : State :=
  s.answer 0x0B num State.settleLinks fun t =>
    t.doorFreeAct lock tag

/-- DOOR_FREE (R163). -/
def execDoorFree (num lock tag : Nat) (s : State) : Host.Outcome State Fault Refusal :=
  .next (s.onRequest (.doorFree num lock tag) fun t =>
    t.takeDoorFree num lock tag)

end Sys2Proof.Machine
end

