-- ==== Sys2Proof/Machine/Queries.lean ====
section
/-!
DEFINITION. END CALL and the QUERY requests (R26, R30, R36, R50, R66, R96, R136, R165, R177).
-/

namespace Sys2Proof.Machine

/-- R26, R177. -/
def State.endCallAct (s : State) (slot generation : Nat) : State × Status × ReplyBody :=
  match slot? slot with
  | none => (s, .badValue, .none)
  | some i =>
    if 255 < generation then (s, .badValue, .none)
    else
      let r : Ref := { slot := i, gen := byteOf generation }
      match s.call? r with
      | none => (s, .notExecutable, .none)
      | some _ => (s.endCall r .forced, .ok, .ref r)

/-- END_CALL (R177), taken: the owning block acts and the reply is made ready. -/
def State.takeEndCall (num slot generation : Nat) (s : State) : State :=
  s.answer 0x0C num State.settle fun t =>
    t.endCallAct slot generation

/-- END_CALL (R177). -/
def execEndCall (num slot generation : Nat) (s : State) : Host.Outcome State Fault Refusal :=
  .next (s.onRequest (.endCall num slot generation) fun t =>
    t.takeEndCall num slot generation)

/-- R30: a slot as it stands. -/
def State.callReport (s : State) (i : SlotIx) : ReplyBody :=
  let r : Ref := { slot := i, gen := (s.slot i).generation }
  match (s.slot i).call with
  | some c => .liveCall r c (c.timer.map fun t => s.secondsLeft t.expiry)
  | none => .freeSlot r (s.slot i).lastEnd

/-- QUERY_CALL (R30), taken: the owning block acts and the reply is made ready. -/
def State.takeQueryCall (num slot : Nat) (s : State) : State :=
  s.answer 0x0D num State.settleHost fun t =>
    match slot? slot with
    | some i => (t, .ok, t.callReport i)
    | none => (t, .badValue, .none)

/-- QUERY_CALL (R30). -/
def execQueryCall (num slot : Nat) (s : State) : Host.Outcome State Fault Refusal :=
  .next (s.onRequest (.queryCall num slot) fun t =>
    t.takeQueryCall num slot)

/-- QUERY_WINDOW (R36), taken: the owning block acts and the reply is made ready. -/
def State.takeQueryWindow (num window : Nat) (s : State) : State :=
  s.answer 0x0E num State.settleHost fun t =>
    match window? window with
    | some i => (t, .ok, .window (t.dir.windows.read i))
    | none => (t, .badValue, .none)

/-- QUERY_WINDOW (R36). -/
def execQueryWindow (num window : Nat) (s : State) : Host.Outcome State Fault Refusal :=
  .next (s.onRequest (.queryWindow num window) fun t =>
    t.takeQueryWindow num window)

/-- QUERY_FLAT (R50), taken: the owning block acts and the reply is made ready. -/
def State.takeQueryFlat (num flat : Nat) (s : State) : State :=
  s.answer 0x0F num State.settleHost fun t =>
    match flat? flat with
    | some i => (t, .ok, .flat (t.flat i))
    | none => (t, .badValue, .none)

/-- QUERY_FLAT (R50). -/
def execQueryFlat (num flat : Nat) (s : State) : Host.Outcome State Fault Refusal :=
  .next (s.onRequest (.queryFlat num flat) fun t =>
    t.takeQueryFlat num flat)

/-- R136. -/
def State.portReport (s : State) (p : PortIx) : PortReport :=
  let x := s.port p
  { function := x.function, intercept := x.intercept, present := x.present, check := x.check,
    lastDisplay := x.lastDisplay, displayWaiting := x.displaySlot.isSome,
    ringWaiting := x.ringSlot.isSome, alertWaiting := x.alertSlot.isSome,
    releaseTime := (s.lock p).releaseTime, hold := s.hold p }

/-- QUERY_PORT (R136), taken: the owning block acts and the reply is made ready. -/
def State.takeQueryPort (num port : Nat) (s : State) : State :=
  s.answer 0x10 num State.settleHost fun t =>
    match port? port with
    | some p => (t, .ok, .portReport (t.portReport p))
    | none => (t, .badValue, .none)

/-- QUERY_PORT (R136). -/
def execQueryPort (num port : Nat) (s : State) : Host.Outcome State Fault Refusal :=
  .next (s.onRequest (.queryPort num port) fun t =>
    t.takeQueryPort num port)

/-- R165. -/
def State.lockReport (s : State) (p : PortIx) : LockReport :=
  let l := s.lock p
  { state := l.state, claim := l.claim, releaseTime := l.releaseTime,
    secondsLeft := l.timer.map s.secondsLeft, usable := s.usable p }

/-- QUERY_LOCK (R165), taken: the owning block acts and the reply is made ready. -/
def State.takeQueryLock (num lock : Nat) (s : State) : State :=
  s.answer 0x11 num State.settleHost fun t =>
    match port? lock with
    | some p => (t, .ok, .lockReport (t.lockReport p))
    | none => (t, .badValue, .none)

/-- QUERY_LOCK (R165). -/
def execQueryLock (num lock : Nat) (s : State) : Host.Outcome State Fault Refusal :=
  .next (s.onRequest (.queryLock num lock) fun t =>
    t.takeQueryLock num lock)

/-- How many stations of a riser have a presence (R96). -/
def Riser.countPresence (x : Riser) (v : Presence) : Nat :=
  (List.finRange 62).countP fun i => decide ((x.stations.read i).presence = v)

/-- R66, R96. -/
def State.riserReport (s : State) (r : RiserIx) : RiserReport :=
  let x := s.riser r
  { link := x.link, line := x.line, settings := x.settings, entries := x.queue.length,
    advisories := x.queue.countP fun i => i.entry.isAdvisory,
    solicited := x.queue.countP fun i => i.entry.isSolicited,
    markers := x.queue.countP fun i => i.entry.isMarker,
    outstanding := x.outstanding.length, surveyPos := x.surveyPos,
    present := x.countPresence .present, absent := x.countPresence .absent,
    unknown := x.countPresence .unknown, holderA := (s.paths r).holderA,
    holderB := (s.paths r).holderB, waiting := (s.paths r).queue }

/-- QUERY_RISER (R96), taken: the owning block acts and the reply is made ready. -/
def State.takeQueryRiser (num riser : Nat) (s : State) : State :=
  (s.overrunFirst? riser).answer 0x12 num State.settleHost fun t =>
    match riser? riser with
    | some r => (t, .ok, .riserReport (t.riserReport r))
    | none => (t, .badValue, .none)

/-- QUERY_RISER (R96). -/
def execQueryRiser (num riser : Nat) (s : State) : Host.Outcome State Fault Refusal :=
  .next (s.onRequest (.queryRiser num riser) fun t =>
    t.takeQueryRiser num riser)

/-- QUERY_STATION (R96), taken: the owning block acts and the reply is made ready. -/
def State.takeQueryStation (num riser station : Nat) (s : State) : State :=
  (s.overrunFirst? riser).answer 0x13 num State.settleHost fun t =>
    match riser? riser, station? station with
    | some r, some a => (t, .ok, .station ((t.riser r).stations.read a))
    | _, _ => (t, .badValue, .none)

/-- QUERY_STATION (R96). -/
def execQueryStation (num riser station : Nat) (s : State) : Host.Outcome State Fault Refusal :=
  .next (s.onRequest (.queryStation num riser station) fun t =>
    t.takeQueryStation num riser station)

end Sys2Proof.Machine
end

