-- ==== Sys2Proof/Machine/Settings.lean ====
section
/-!
DEFINITION. The requests that set the configuration: SET PORT, SET WINDOW, SET FLAT, SET TIMES, SET
ROUTE, SET MODE, SET RISER, CLEAR CHECK and SET PRIVACY (R31, R35, R43 to R46, R49, R71 to R73, R125,
R133 to R135, R138, R185).
-/

namespace Sys2Proof.Machine

/-! ## SET PORT -/

/-- R135: what a change of function does to the port's slots and transmission. -/
def Port.changeFunction (p : Port) (f : PortFunction) : Port :=
  match f with
  | .off =>
    { p with function := .off, displaySlot := none, ringSlot := none, alertSlot := none, tx := none }
  | .entrance =>
    let q := { p with function := .entrance, alertSlot := none }
    if q.present then q.place q.idleDisplay else q
  | .concierge =>
    let q := { p with function := .concierge }
    if q.present then (q.placeRing .off).place q.idleDisplay else q

/-- R134, R135: an accepted SET PORT stored; a port that becomes an eligible desk is granted. -/
def State.storePort (s : State) (p : PortIx) (f : PortFunction) (intercept : Bool)
    (releaseTime : Nat) : State :=
  let changed := decide ((s.port p).function ≠ f)
  let s1 := s.setLock p { s.lock p with releaseTime := releaseTime }
  let s2 := s1.modifyPort p fun x => { x with intercept := intercept }
  if changed then
    let s3 := s2.modifyPort p fun x => x.changeFunction f
    if f = .concierge then s3.serveDesk p else s3
  else s2

/-- R133, R134. -/
def State.setPortAct (s : State) (port function intercept releaseTime : Nat) :
    State × Status × ReplyBody :=
  match port? port, function? function, yesNo? intercept with
  | some p, some f, some i =>
    if (s.hold p).isSome then (s, .busy, .none)
    else if (s.lock p).claim.isSome then (s, .busy, .none)
    else
      let t := clamp 1 30 releaseTime
      (s.storePort p f i t, if t = releaseTime then .ok else .adjusted, .port f i t)
  | _, _, _ => (s, .badValue, .none)

/-- SET_PORT (R133), taken: the owning block acts and the reply is made ready. -/
def State.takeSetPort (num port function intercept releaseTime : Nat) (s : State) : State :=
  s.answer 0x01 num State.settleLinks fun t =>
    t.setPortAct port function intercept releaseTime

/-- SET_PORT (R133). -/
def execSetPort (num port function intercept releaseTime : Nat) (s : State) :
    Host.Outcome State Fault Refusal :=
  .next (s.onRequest (.setPort num port function intercept releaseTime) fun t =>
    t.takeSetPort num port function intercept releaseTime)

/-! ## SET WINDOW -/

/-- R35. -/
def State.setWindowAct (s : State) (window enabled base span stride rowSize firstFlat : Nat) :
    State × Status × ReplyBody :=
  match window? window, yesNo? enabled with
  | some i, some e =>
    if windowInRange base span stride rowSize firstFlat then
      let w := adjustWindow e base span stride rowSize firstFlat
      (s.setWindow i w, if w.span = span ∧ w.rowSize = rowSize then .ok else .adjusted, .window w)
    else (s, .badValue, .none)
  | _, _ => (s, .badValue, .none)

/-- SET_WINDOW (R35), taken: the owning block acts and the reply is made ready. -/
def State.takeSetWindow (num window enabled base span stride rowSize firstFlat : Nat)
    (s : State) : State :=
  s.answer 0x02 num State.settleHost fun t =>
    t.setWindowAct window enabled base span stride rowSize firstFlat

/-- SET_WINDOW (R35). -/
def execSetWindow (num window enabled base span stride rowSize firstFlat : Nat) (s : State) :
    Host.Outcome State Fault Refusal :=
  .next (s.onRequest (.setWindow num window enabled base span stride rowSize firstFlat) fun t =>
    t.takeSetWindow num window enabled base span stride rowSize firstFlat)

/-! ## SET FLAT -/

/-- R43 to R46. -/
def State.setFlatAct (s : State) (flat inService riser first count divert doors : Nat) :
    State × Status × ReplyBody :=
  match flat? flat, yesNo? inService, riser? riser, yesNo? divert with
  | some i, some v, some r, some d =>
    if stationRangeInRange first count = false then (s, .badValue, .none)
    else if s.flatBusy i then (s, .busy, .none)
    else if v && s.flatConflict i r first count then (s, .conflict, .none)
    else
      let t := s.storeFlat i v r first count d (byteOf doors)
      (t, .ok, .flat (t.flat i))
  | _, _, _, _ => (s, .badValue, .none)

/-- SET_FLAT (R43), taken: the owning block acts and the reply is made ready. -/
def State.takeSetFlat (num flat inService riser firstStation handsetCount divert doors : Nat)
    (s : State) : State :=
  s.answer 0x03 num State.settleLinks fun t =>
    t.setFlatAct flat inService riser firstStation handsetCount divert doors

/-- SET_FLAT (R43). -/
def execSetFlat (num flat inService riser firstStation handsetCount divert doors : Nat)
    (s : State) : Host.Outcome State Fault Refusal :=
  .next (s.onRequest (.setFlat num flat inService riser firstStation handsetCount divert doors) fun t =>
    t.takeSetFlat num flat inService riser firstStation handsetCount divert doors)

/-! ## SET TIMES, SET ROUTE, SET MODE -/

/-- R31: the reply is OK with no value when every value was stored as given, and ADJUSTED with the
four stored values when any was clamped. -/
def State.setTimesAct (s : State) (flatRing deskRing pathWait talk : Nat) :
    State × Status × ReplyBody :=
  let t := clampTimes flatRing deskRing pathWait talk
  let s1 := { s with ccu := { s.ccu with times := t } }
  if t = { flatRing := flatRing, deskRing := deskRing, pathWait := pathWait, talk := talk } then
    (s1, .ok, .none)
  else (s1, .adjusted, .times t)

/-- SET_TIMES (R31), taken: the owning block acts and the reply is made ready. -/
def State.takeSetTimes (num flatRing deskRing pathWait talk : Nat) (s : State) : State :=
  s.answer 0x04 num State.settleHost fun t =>
    t.setTimesAct flatRing deskRing pathWait talk

/-- SET_TIMES (R31). -/
def execSetTimes (num flatRing deskRing pathWait talk : Nat) (s : State) :
    Host.Outcome State Fault Refusal :=
  .next (s.onRequest (.setTimes num flatRing deskRing pathWait talk) fun t =>
    t.takeSetTimes num flatRing deskRing pathWait talk)

/-- R185. -/
def State.setRouteAct (s : State) (event route : Nat) : State × Status × ReplyBody :=
  match eventKind? event, route? route with
  | some k, some r =>
    let m := s.ntu.routes.write k.index r
    ({ s with ntu := { s.ntu with routes := m } }, .ok, .routes m)
  | _, _ => (s, .badValue, .none)

/-- SET_ROUTE (R185), taken: the owning block acts and the reply is made ready. -/
def State.takeSetRoute (num event route : Nat) (s : State) : State :=
  s.answer 0x05 num State.settleHost fun t =>
    t.setRouteAct event route

/-- SET_ROUTE (R185). -/
def execSetRoute (num event route : Nat) (s : State) : Host.Outcome State Fault Refusal :=
  .next (s.onRequest (.setRoute num event route) fun t =>
    t.takeSetRoute num event route)

/-- R138. -/
def State.setModeAct (s : State) (mode : Nat) : State × Status × ReplyBody :=
  match yesNo? mode with
  | some m => ({ s with ccu := { s.ccu with intercept := m } }, .ok, .mode m)
  | none => (s, .badValue, .none)

/-- SET_MODE (R138), taken: the owning block acts and the reply is made ready. -/
def State.takeSetMode (num mode : Nat) (s : State) : State :=
  s.answer 0x06 num State.settleHost fun t =>
    t.setModeAct mode

/-- SET_MODE (R138). -/
def execSetMode (num mode : Nat) (s : State) : Host.Outcome State Fault Refusal :=
  .next (s.onRequest (.setMode num mode) fun t =>
    t.takeSetMode num mode)

/-! ## SET RISER -/

/-- R71: the four settings stored, the step timer started or stopped when survey changes in ACTIVE,
and a wake started when quiet is no longer allowed on a QUIET riser. -/
def State.storeRiser (s : State) (r : RiserIx) (survey quiet : Bool) (stepMs idleS : Nat) :
    State :=
  let was := s.riser r
  let s1 := s.modifyRiser r fun x =>
    { x with survey := survey, quietAllowed := quiet, surveyStepMs := stepMs, quietIdleS := idleS }
  let s2 :=
    if was.link = .active ∧ was.survey = false ∧ survey = true then s1.startStep r
    else if was.survey = true ∧ survey = false then
      s1.modifyRiser r fun x => { x with stepTimer := none }
    else s1
  if quiet = false then s2.startWake r else s2

/-- R72: a DISABLED riser becomes ACTIVE, or FAULTED on a bad line. -/
def State.enableRiser (s : State) (r : RiserIx) : State :=
  if (s.riser r).line = .good then (s.enterActive r).emit (.riserChange r .active .enabled)
  else
    (s.modifyRiser r fun x => { x with link := .faulted }).emit (.riserChange r .faulted .enabled)

/-- R73: an enabled riser is cleared out and becomes DISABLED. -/
def State.disableRiser (s : State) (r : RiserIx) : State :=
  let s1 := s.modifyRiser r fun x =>
    { x with idleTimer := none, stepTimer := none, wakeTimer := none, receiving := none }
  let s2 := (s1.flushRiser r).forgetStations r
  (s2.modifyRiser r fun x => { x with link := .disabled }).emit (.riserChange r .disabled .disabled)

/-- R71: the enable value applied. -/
def State.applyEnable (s : State) (r : RiserIx) (enable : Bool) : State :=
  if (s.riser r).link = .disabled then (if enable then s.enableRiser r else s)
  else (if enable then s else s.disableRiser r)

/-- R71 to R73; the conditions of going QUIET are tested again at a SET RISER (R74). -/
def State.setRiserAct (s : State) (riser enable survey quiet stepMs idleS : Nat) :
    State × Status × ReplyBody :=
  match riser? riser, yesNo? enable, yesNo? survey, yesNo? quiet with
  | some r, some e, some v, some q =>
    if e = false ∧ s.riserInUse r = true then (s, .busy, .none)
    else
      let a := clamp 100 5000 stepMs
      let b := clamp 10 600 idleS
      let t := ((s.storeRiser r v q a b).applyEnable r e).goQuiet r
      (t, if a = stepMs ∧ b = idleS then .ok else .adjusted,
        .riser (t.riser r).settings (t.riser r).link)
  | _, _, _, _ => (s, .badValue, .none)

/-- SET_RISER (R71), taken: the owning block acts and the reply is made ready. -/
def State.takeSetRiser (num riser enable survey quietAllowed surveyStep quietIdle : Nat)
    (s : State) : State :=
  (s.overrunFirst? riser).answer 0x07 num State.settle fun t =>
    t.setRiserAct riser enable survey quietAllowed surveyStep quietIdle

/-- SET_RISER (R71). -/
def execSetRiser (num riser enable survey quietAllowed surveyStep quietIdle : Nat) (s : State) :
    Host.Outcome State Fault Refusal :=
  .next (s.onRequest (.setRiser num riser enable survey quietAllowed surveyStep quietIdle) fun t =>
    t.takeSetRiser num riser enable survey quietAllowed surveyStep quietIdle)

/-! ## CLEAR CHECK -/

/-- R125, steps 1 and 2, at one port of the set. -/
def Port.clearCheck (p : Port) : Port :=
  if p.check then
    let q := { p with check := false }
    if q.present then q.place .ready else q
  else p

/-- The ports a CLEAR CHECK names whose flag is set, in ascending order. -/
def State.flaggedIn (s : State) (set : BitVec 8) : List PortIx :=
  (List.finRange 8).filter fun p => inPortSet set p && (s.port p).check

/-- R125. -/
def State.clearChecks (s : State) (set : BitVec 8) : State :=
  let cleared := s.flaggedIn set
  let s1 := cleared.foldl (fun t p => t.modifyPort p Port.clearCheck) s
  cleared.foldl State.serveDesk s1

/-- R125: the reply carries the check flags of all eight ports. -/
def State.clearCheckAct (s : State) (ports : Nat) : State × Status × ReplyBody :=
  let t := s.clearChecks (byteOf ports)
  (t, .ok, .checks (Table.mapEach (fun p => p.check) t.ports))

/-- CLEAR_CHECK (R125), taken: the owning block acts and the reply is made ready. -/
def State.takeClearCheck (num ports : Nat) (s : State) : State :=
  s.answer 0x08 num State.settleLinks fun t =>
    t.clearCheckAct ports

/-- CLEAR_CHECK (R125). -/
def execClearCheck (num ports : Nat) (s : State) : Host.Outcome State Fault Refusal :=
  .next (s.onRequest (.clearCheck num ports) fun t =>
    t.takeClearCheck num ports)

/-! ## SET PRIVACY -/

/-- R49. -/
def State.setPrivacyAct (s : State) (flat privacy : Nat) : State × Status × ReplyBody :=
  match flat? flat, yesNo? privacy with
  | some i, some v =>
    let t := (s.setFlat i { s.flat i with hostPrivacy := v }).recomputeFlat i
    (t, .ok, .privacy (t.flat i).hostPrivacy (t.flat i).privacy)
  | _, _ => (s, .badValue, .none)

/-- SET_PRIVACY (R49), taken: the owning block acts and the reply is made ready. -/
def State.takeSetPrivacy (num flat privacy : Nat) (s : State) : State :=
  s.answer 0x09 num State.settleLinks fun t =>
    t.setPrivacyAct flat privacy

/-- SET_PRIVACY (R49). -/
def execSetPrivacy (num flat privacy : Nat) (s : State) : Host.Outcome State Fault Refusal :=
  .next (s.onRequest (.setPrivacy num flat privacy) fun t =>
    t.takeSetPrivacy num flat privacy)

end Sys2Proof.Machine
end

