-- ==== Sys2Proof/Machine/Requests.lean ====
section
/-!
DEFINITION. The request buffer at work: requests taken from its head as soon as the conditions of R169
hold, which they come to do when a frame has been received (R167, R168) and when a frame on the host
line ends (R173, R178).
-/

namespace Sys2Proof.Machine

/-- R169: a request handed to its owning block, and its reply; nothing for a command that is no
request. -/
def State.takeRequest (c : Instr) (s : State) : State :=
  match c with
  | .illegalRequest kind num _ => s.takeIllegalRequest kind num
  | .setPort num port function intercept releaseTime =>
    s.takeSetPort num port function intercept releaseTime
  | .setWindow num window enabled base span stride rowSize firstFlat =>
    s.takeSetWindow num window enabled base span stride rowSize firstFlat
  | .setFlat num flat inService riser firstStation handsetCount divert doors =>
    s.takeSetFlat num flat inService riser firstStation handsetCount divert doors
  | .setTimes num flatRing deskRing pathWait talk =>
    s.takeSetTimes num flatRing deskRing pathWait talk
  | .setRoute num event route => s.takeSetRoute num event route
  | .setMode num mode => s.takeSetMode num mode
  | .setRiser num riser enable survey quietAllowed surveyStep quietIdle =>
    s.takeSetRiser num riser enable survey quietAllowed surveyStep quietIdle
  | .clearCheck num ports => s.takeClearCheck num ports
  | .setPrivacy num flat privacy => s.takeSetPrivacy num flat privacy
  | .doorHold num lock tag => s.takeDoorHold num lock tag
  | .doorFree num lock tag => s.takeDoorFree num lock tag
  | .endCall num slot generation => s.takeEndCall num slot generation
  | .queryCall num slot => s.takeQueryCall num slot
  | .queryWindow num window => s.takeQueryWindow num window
  | .queryFlat num flat => s.takeQueryFlat num flat
  | .queryPort num port => s.takeQueryPort num port
  | .queryLock num lock => s.takeQueryLock num lock
  | .queryRiser num riser => s.takeQueryRiser num riser
  | .queryStation num riser station => s.takeQueryStation num riser station
  | .riserSync num riser => s.takeRiserSync num riser
  | .restart num startKind => s.takeRestart num startKind
  | _ => s

/-- R169: requests are taken from the head of the buffer while the three conditions hold; the first
argument bounds how many. -/
def State.takeRequests : Nat → State → State
  | 0, s => s
  | n + 1, s =>
    if s.canTake then
      match s.hlp.buffer with
      | [] => s
      | f :: rest =>
        State.takeRequests n
          (State.takeRequest (requestOf f) { s with hlp := { s.hlp with buffer := rest } })
    else s

/-- R169: every request that may be taken now is taken, in order. -/
def State.serveBuffer (s : State) : State := State.takeRequests s.hlp.buffer.length s

/-- R168, R169: a good frame ends at the receiver: it joins the buffer or is discarded, and what may be
taken is taken. -/
def State.frameReceived (s : State) (f : HostFrame) : State :=
  ({ s with hlp := s.hlp.offerFrame f }).serveBuffer

/-- R167, R168, R169: bytes arrive on the host receive wire. -/
def State.hostBytes (s : State) (bytes : List Byte) : State :=
  let got := rxBytes s.hlp.rx bytes
  let s1 := { s with hlp := { s.hlp with
      rx := got.1
      rxDeadline :=
        if got.1 = .hunting then none
        else if bytes.isEmpty then s.hlp.rxDeadline else some s.rxDeadline } }
  got.2.foldl State.frameReceived s1

/-- HOST_FRAME_RECEIVED (R167 to R169): the bytes of a frame arrive. While the reset pin is held the
receiver takes no bytes (R179). -/
def execHostFrameReceived (bytes : List Byte) (s : State) : Host.Outcome State Fault Refusal :=
  .next (if s.resetHeld then s else s.hostBytes bytes)

/-- R178: the RESTART reply with status OK, at the end of whose transmission a due start happens. -/
def Reply.isRestartOk (r : Reply) : Bool := decide (r.kind = 0x15) && decide (r.status = .ok)

/-- The host transmitter becomes IDLE, chooses afresh (R173), and what may be taken is taken (R169). -/
def State.hostLineFree (s : State) : State :=
  ({ s with hlp := { s.hlp with tx := .idle } }.settleHost).serveBuffer

/-- HOST_TX_END (R173, R178): the frame on the line ends; a start that is due happens when it was
the RESTART reply; the transmitter chooses afresh.
DESIGN CHOICE (log entry 5): after a start the START notice goes on the line within this event, so a
request that arrives just after the start is answered after it, where R183 lets its reply go first. -/
def execHostTxEnd (s : State) : Host.Outcome State Fault Refusal :=
  .next (match s.hlp.tx with
    | .idle => s
    | .notice _ => s.hostLineFree
    | .reply r =>
      match s.hlp.startDue, r.isRestartOk with
      | some k, true => (s.start k .host).settle
      | _, _ => s.hostLineFree)

end Sys2Proof.Machine
end

