-- ==== Sys2Proof/Machine/Panels.lean ====
section
/-!
DEFINITION. Frames from entrance panels and desk sets, and the events of a panel line (R20, R121 to
R123, R126, R127, R132, R141 to R148, R150, R151, R194).
-/

namespace Sys2Proof.Machine

/-- A frame from a panel has ended, so no frame is arriving on that line. -/
def State.panelFrameEnd (s : State) (p : PortIx) : State :=
  s.modifyPort p fun x => { x with receiving := none }

/-- R126: a frame from a port is taken when the port is PRESENT and has the function the frame
belongs to, and otherwise it is discarded with no effect. -/
def State.onPanelFrame (s : State) (p : PortIx) (f : PortFunction) (settle act : State → State) :
    State :=
  let t := s.panelFrameEnd p
  if t.takesFrame p f then settle (act t) else t

/-- R20: the caller's cancel of a live call. -/
def State.callersCancel (s : State) (r : Ref) (c : Call) : State :=
  s.endCall r (if c.state = .connected then .clearedCaller else .cancelled)

/-! ## Entrance panels -/

/-- PANEL_CALL (R7, R8): a start request for a VISITOR call. A code that is not four decimal digits
makes the frame a discarded one (R126). -/
def execPanelCall (port : PortIx) (code : Nat) (s : State) : Host.Outcome State Fault Refusal :=
  .next (s.onPanelFrame port .entrance State.settle fun t =>
    if isCode code then t.startCall port .call (some code) else t)

/-- PANEL_CONCIERGE (R150): a start request for a DESK call. -/
def execPanelConcierge (port : PortIx) (s : State) : Host.Outcome State Fault Refusal :=
  .next (s.onPanelFrame port .entrance State.settleLinks fun t => t.startCall port .concierge none)

/-- PANEL_CANCEL (R20): the caller's cancel, or discarded. -/
def execPanelCancel (port : PortIx) (s : State) : Host.Outcome State Fault Refusal :=
  .next (s.onPanelFrame port .entrance State.settle fun t =>
    match t.callAt port with
    | some (.origin, r, c) => t.callersCancel r c
    | _ => t)

/-! ## Desk sets -/

/-- DESK_DIAL (R151): a start request for an OUTWARD call. -/
def execDeskDial (port : PortIx) (code : Nat) (s : State) : Host.Outcome State Fault Refusal :=
  .next (s.onPanelFrame port .concierge State.settle fun t =>
    if isCode code then t.startCall port .dial (some code) else t)

/-- R141: the desk's answer, steps 1 to 6. -/
def State.deskAnswer (s : State) (p : PortIx) (r : Ref) (c : Call) : State :=
  let s1 := s.ring p .off
  let s2 := (s1.setCall r { c with state := .connected, timer := some (s1.callTimer .talk) }).makeJoin
    { call := r, origin := c.origin, other := .desk p }
  ((s2.display c.origin .speak).display p .speak).emit (.callAnswered r none (some p))

/-- DESK_ANSWER (R141, R142). -/
def execDeskAnswer (port : PortIx) (s : State) : Host.Outcome State Fault Refusal :=
  .next (s.onPanelFrame port .concierge State.settleLinks fun t =>
    match t.callAt port with
    | some (.desk, r, c) =>
      if c.leg = .concierge ∧ c.state = .ringing then t.deskAnswer port r c else t
    | _ => t.display port .notAvailable)

/-- DESK_CLEAR (R20, R143). -/
def execDeskClear (port : PortIx) (s : State) : Host.Outcome State Fault Refusal :=
  .next (s.onPanelFrame port .concierge State.settle fun t =>
    match t.callAt port with
    | some (.desk, r, c) =>
      if c.leg = .concierge ∧ c.state = .connected then t.endCall r .clearedDesk else t
    | some (.origin, r, c) => t.callersCancel r c
    | none => t)

/-- R145: the forward, steps 1 to 6. -/
def State.forward (s : State) (p : PortIx) (r : Ref) (c : Call) (i : FlatIx) : State :=
  let c1 := { c with timer := none, deskPort := none }
  let s1 := ((s.setCall r c1).removeJoin r).releaseDesk p
  let c2 := { c1 with leg := .flat }
  (s1.setCall r c2).enterFlatLeg r c2 i

/-- DESK_FORWARD (R145, R146). -/
def execDeskForward (port : PortIx) (s : State) : Host.Outcome State Fault Refusal :=
  .next (s.onPanelFrame port .concierge State.settle fun t =>
    match t.callAt port with
    | some (.desk, r, c) =>
      match c.flat with
      | some i =>
        if c.kind = .visitor ∧ c.leg = .concierge ∧ c.state = .connected then t.forward port r c i
        else t.display port .notAvailable
      | none => t.display port .notAvailable
    | _ => t.display port .notAvailable)

/-- R147: how the result of a desk's release request is shown at the desk. -/
def DoorResult.deskDisplay : DoorResult → Display
  | .opened => .doorOpen
  | .alreadyOpen => .doorOpen
  | .denied => .notAvailable
  | .notAvailable => .notAvailable

/-- DESK_DOOR (R147, R148). -/
def execDeskDoor (port : PortIx) (s : State) : Host.Outcome State Fault Refusal :=
  .next (s.onPanelFrame port .concierge State.settleLinks fun t =>
    match t.callAt port with
    | some (.desk, r, c) =>
      if c.leg = .concierge ∧ c.state = .connected then
        let d := t.releaseRequest r c.origin none
        d.1.display port d.2.deskDisplay
      else t.display port .notAvailable
    | _ => t.display port .notAvailable)

/-! ## The panel line -/

/-- PANEL_FRAME_DISCARD (R126): a discarded frame has no effect; its reception is over. -/
def execPanelFrameDiscard (port : PortIx) (s : State) : Host.Outcome State Fault Refusal :=
  .next (s.panelFrameEnd port)

/-- PANEL_RX_TIMEOUT (R194): a part-received panel frame is discarded. -/
def execPanelRxTimeout (port : PortIx) (s : State) : Host.Outcome State Fault Refusal :=
  .next (match (s.port port).receiving with
    | some x => (s.panelFrameEnd port).advanceTo x.expiry
    | none => s)

/-- PANEL_PRESENT (R121); a report that repeats the presence changes nothing. -/
def execPanelPresent (port : PortIx) (s : State) : Host.Outcome State Fault Refusal :=
  .next (if (s.port port).present then s
    else
      let t := s.modifyPort port fun x => { x with present := true, check := true }
      (((t.emit (.panelChange port (s.port port).function true true)).display port .service).ring
        port .off).settleLinks)

/-- R122, steps 1 and 2: the port goes ABSENT. -/
def Port.goAbsent (x : Port) : Port :=
  { x with present := false, check := true, displaySlot := none, ringSlot := none,
           alertSlot := none, tx := none, receiving := none }

/-- The end of a call whose port was lost (R122 step 4). -/
def Role.lostReason : Role → EndReason
  | .origin => .faultPanelLost
  | .desk => .faultDeskLost

/-- PANEL_ABSENT (R122); a report that repeats the presence changes nothing. -/
def execPanelAbsent (port : PortIx) (s : State) : Host.Outcome State Fault Refusal :=
  .next (if (s.port port).present then
      let t := (s.modifyPort port Port.goAbsent).emit
        (.panelChange port (s.port port).function false true)
      (match t.callAt port with
        | some (role, r, _) => t.endCall r role.lostReason
        | none => t).settle
    else s)

/-- PANEL_TX_END (R132): a frame ends, and the slots are examined afresh. -/
def execPanelTxEnd (port : PortIx) (s : State) : Host.Outcome State Fault Refusal :=
  .next (if (s.port port).tx = none then s
    else s.modifyPort port fun x => Port.startTransmission { x with tx := none })

end Sys2Proof.Machine
end

