-- ==== Sys2Proof/Machine/Stations.lean ====
section
/-!
DEFINITION. The riser line and the frames of stations (R70, R74, R76, R78, R81, R88, R89, R91 to R93,
R99 to R106).
-/

namespace Sys2Proof.Machine

/-! ## Taking a station's frame -/

/-- R91, R92, R76, R74: what every frame that is taken does first: the line is free again, a QUIET
or WAKING riser becomes ACTIVE, the station is PRESENT, and the idle timer restarts unless the frame
is a reply to a POLL. -/
def State.takeStationFrame (s : State) (r : RiserIx) (a : Nat) (restartsIdle : Bool) : State :=
  let s1 := s.modifyRiser r fun x => { x with receiving := none }
  let s2 :=
    if (s.riser r).link = .quiet ∨ (s.riser r).link = .waking then s1.enterActive r else s1
  let s3 := s2.stationHeard r a
  if restartsIdle then s3.startIdle r else s3

/-- R91: a bad frame is discarded and has no effect; the line is free again. -/
def State.badStationFrame (s : State) (r : RiserIx) : State :=
  (s.modifyRiser r fun x => { x with receiving := none }).settleLine r

/-- R91, R78: a station's frame is ignored on a riser that does not receive, and its bytes are
discarded while the 816 transmits; with a source address outside 1 to 62 it is a bad frame; else it
is taken. -/
def State.onStationFrame (s : State) (r : RiserIx) (a : Nat) (act : State → State) : State :=
  let t := s.overrunFirst r
  if (t.riser r).link.isOff ∨ (t.riser r).tx ≠ none then t
  else if isStation a then (act t).settle
  else t.badStationFrame r

/-- The outstanding request a REPLY matches, on tag and station together (R81). -/
def Riser.matching (x : Riser) (tag a : Nat) : Option Outstanding :=
  x.outstanding.find? fun o => decide (o.tag = tag) && decide (o.frame.station = a)

/-- R81, R106: a REPLY that is taken. -/
def State.takeReply (s : State) (r : RiserIx) (a tag result privacy : Nat) : State :=
  match (s.riser r).matching tag a with
  | none => s.takeStationFrame r a true
  | some o =>
    let s1 := s.takeStationFrame r a (!o.frame.isPoll)
    let s2 := s1.setStationPrivacy r a (privacyLevel privacy)
    let s3 := s2.modifyRiser r fun x => x.dropRequest tag
    match o.frame with
    | .offer _ c _ _ => s3.complete r c a (some tag) (offerResult result)
    | .poll _ => s3

/-- STATION_REPLY (R81, R106). -/
def execStationReply (riser : RiserIx) (station tag result privacy : Nat) (s : State) :
    Host.Outcome State Fault Refusal :=
  .next (s.onStationFrame riser station fun t => t.takeReply riser station tag result privacy)

/-- STATION_LIFT (R17, R18, R100). -/
def execStationLift (riser : RiserIx) (station : Nat) (s : State) :
    Host.Outcome State Fault Refusal :=
  .next (s.onStationFrame riser station fun t =>
    (t.takeStationFrame riser station true).lift riser station)

/-- R19, R102: a HANGUP as the call controller takes it. -/
def State.hangup (s : State) (r : RiserIx) (a : Nat) : State :=
  match s.stationsCall? r a with
  | some rc => s.endCall rc.1 .clearedAnswererHungUp
  | none => s

/-- STATION_HANGUP (R19, R102). -/
def execStationHangup (riser : RiserIx) (station : Nat) (s : State) :
    Host.Outcome State Fault Refusal :=
  .next (s.onStationFrame riser station fun t =>
    (t.takeStationFrame riser station true).hangup riser station)

/-- R103, R104: a DOOR report as the call controller takes it. -/
def State.handsetDoor (s : State) (r : RiserIx) (a : Nat) : State :=
  match s.stationsCall? r a with
  | some (call, c) =>
    match c.flat with
    | some i =>
      let d := s.releaseRequest call c.origin (some (i, a))
      d.1.advise r (.doorResult a d.2 (some call))
    | none => s.advise r (.doorResult a .notAvailable none)
  | none => s.advise r (.doorResult a .notAvailable none)

/-- STATION_DOOR (R103, R104). -/
def execStationDoor (riser : RiserIx) (station : Nat) (s : State) :
    Host.Outcome State Fault Refusal :=
  .next (s.onStationFrame riser station fun t =>
    (t.takeStationFrame riser station true).handsetDoor riser station)

/-- STATION_PRIVACY_ON (R105). -/
def execStationPrivacyOn (riser : RiserIx) (station : Nat) (s : State) :
    Host.Outcome State Fault Refusal :=
  .next (s.onStationFrame riser station fun t =>
    (t.takeStationFrame riser station true).setStationPrivacy riser station true)

/-- STATION_PRIVACY_OFF (R105). -/
def execStationPrivacyOff (riser : RiserIx) (station : Nat) (s : State) :
    Host.Outcome State Fault Refusal :=
  .next (s.onStationFrame riser station fun t =>
    (t.takeStationFrame riser station true).setStationPrivacy riser station false)

/-- R93, R200: the reply-wanted mark is the top bit of the kind byte. -/
def replyWanted (kind : Nat) : Bool := decide (128 ≤ kind % 256)

/-- UNKNOWN_STATION_FRAME (R93). A kind byte of the six kinds a station sends is no unknown kind:
with a length that is not its kind's it is a bad frame (R91, R200). -/
def execUnknownStationFrame (riser : RiserIx) (station kind : Nat) (s : State) :
    Host.Outcome State Fault Refusal :=
  .next (s.onStationFrame riser station fun t =>
    if isKnownStationKind kind then t.badStationFrame riser
    else
      let t1 := t.takeStationFrame riser station true
      if replyWanted kind then t1.advise riser (.notSupported station kind) else t1)

/-- RISER_BAD_FRAME (R91). -/
def execRiserBadFrame (riser : RiserIx) (s : State) : Host.Outcome State Fault Refusal :=
  .next ((s.overrunFirst riser).badStationFrame riser)

/-- RISER_RX_TIMEOUT (R194): a part-received station frame is discarded. -/
def execRiserRxTimeout (riser : RiserIx) (s : State) : Host.Outcome State Fault Refusal :=
  let t := s.overrunFirst riser
  .next (match (t.riser riser).receiving with
    | some x => (t.advanceTo x.expiry).badStationFrame riser
    | none => t)

/-! ## The end of a transmission (R78, R82) -/

/-- R78, R82: the entry in transmission leaves the queue; the reply timer of a solicited frame or of
a resend starts; the idle timer restarts unless the frame was a POLL (R74). -/
def State.endTransmission (s : State) (r : RiserIx) (tx : RiserTx) : State :=
  let startTimer (tag : Nat) (x : Riser) : Riser :=
    x.modifyRequest tag fun o => { o with timer := some (s.inMs Config.replyTimeMs) }
  let leave (x : Riser) : Riser :=
    { x with queue := x.queue.eraseP (fun i => i.sending), tx := none }
  match tx with
  | .entry (.advisory _) => (s.modifyRiser r leave).startIdle r
  | .entry (.solicited tag f) =>
    let s1 := s.modifyRiser r fun x => startTimer tag (leave x)
    if f.isPoll then s1 else s1.startIdle r
  | .resend (.solicited tag f) =>
    let s1 := s.modifyRiser r fun x => startTimer tag { x with tx := none }
    if f.isPoll then s1 else s1.startIdle r
  | .resend (.advisory _) => s.modifyRiser r fun x => { x with tx := none }

/-- RISER_TX_END (R78). -/
def execRiserTxEnd (riser : RiserIx) (s : State) : Host.Outcome State Fault Refusal :=
  let t := s.overrunFirst riser
  .next (match (t.riser riser).tx with
    | some x => (t.endTransmission riser x).settleLine riser
    | none => t)

/-! ## The line-sense input (R72, R88, R89) -/

/-- R88: a line fault on an enabled riser. -/
def State.lineFaultNow (s : State) (r : RiserIx) (c : LineCondition) : State :=
  let cause : RiserCause := if c = .short then .short else .openLine
  (s.modifyRiser r fun x => { x with line := c, receiving := none }).failRiser r .faulted cause
    .faultRiserFault

/-- R88, R89: a report of a riser's line-sense input. On a DISABLED riser it is recorded and does
nothing else; on a FAULTED riser GOOD makes it ACTIVE and a change between SHORT and OPEN is
recorded; on a riser in working order SHORT or OPEN is a line fault. -/
def State.lineSense (s : State) (r : RiserIx) (c : LineCondition) : State :=
  let record := s.modifyRiser r fun x => { x with line := c }
  match (s.riser r).link with
  | .disabled => record
  | .faulted =>
    if c = .good then (record.enterActive r).emit (.riserChange r .active .restored) else record
  | _ => if c = .good then record else s.lineFaultNow r c

/-- LINE_FAULT (R88). -/
def execLineFault (riser : RiserIx) (condition : LineCondition) (s : State) :
    Host.Outcome State Fault Refusal :=
  .next (((s.overrunFirst riser).lineSense riser condition).settle)

/-- LINE_RESTORED (R89). -/
def execLineRestored (riser : RiserIx) (s : State) : Host.Outcome State Fault Refusal :=
  .next (((s.overrunFirst riser).lineSense riser .good).settle)

/-- LINE_CONDITION_CHANGE (R88). -/
def execLineConditionChange (riser : RiserIx) (condition : LineCondition) (s : State) :
    Host.Outcome State Fault Refusal :=
  .next (((s.overrunFirst riser).lineSense riser condition).settle)

/-- OVERRUN (R90): overrun processing that is due; with none due there is nothing to take. -/
def execOverrun (riser : RiserIx) (s : State) : Host.Outcome State Fault Refusal :=
  .next (s.overrunFirst riser)

end Sys2Proof.Machine
end

