-- ==== Sys2Proof/Machine/Timers.lean ====
section
/-!
DEFINITION. Expiries: the timers of a riser controller (R74, R75, R82, R83, R94) and of a call (R21,
R22 to R25, R144). A stopped timer does not expire (R21): an expiry of a timer that does not run
changes nothing.
-/

namespace Sys2Proof.Machine

/-! ## Riser timers -/

/-- R82, R83: the reply timer of a record at attempt 1 expires: the request becomes attempt 2, and
is due for resending unless its cancel-pending mark is set, when its timer starts again. -/
def State.secondAttempt (s : State) (r : RiserIx) (o : Outstanding) : State :=
  if o.cancelPending then
    s.modifyRiser r fun x => x.modifyRequest o.tag fun y =>
      { y with attempt := 2, timer := some (s.inMs Config.replyTimeMs) }
  else
    s.modifyRiser r fun x =>
      let y := x.modifyRequest o.tag fun y => { y with attempt := 2, timer := none }
      { y with resends := y.resends ++ [o.tag] }

/-- R82, R83, R92: the reply timer of a record at attempt 2 expires: the request completes NO_REPLY;
with a clear cancel-pending mark its station becomes ABSENT. DESIGN CHOICE (log entry 8): presence
changes before the completion is handed over, as R106 has it for a reply. -/
def State.noReply (s : State) (r : RiserIx) (o : Outstanding) : State :=
  let s1 := s.modifyRiser r fun x => x.dropRequest o.tag
  let s2 := if o.cancelPending then s1 else s1.stationLost r o.frame.station
  match o.frame with
  | .offer a c _ _ => s2.complete r c a (some o.tag) .noReply
  | .poll _ => s2

/-- REPLY_TIMEOUT (R82, R83). -/
def execReplyTimeout (riser : RiserIx) (tag : Nat) (s : State) :
    Host.Outcome State Fault Refusal :=
  let t := s.overrunFirst riser
  .next (match (t.riser riser).outstanding.find? fun o => decide (o.tag = tag) with
    | none => t
    | some o =>
      match o.timer with
      | none => t
      | some e =>
        (if o.attempt = 1 then (t.advanceTo e).secondAttempt riser o
          else (t.advanceTo e).noReply riser o).settle)

/-- IDLE_TIMEOUT (R74): the run-out mark is set. -/
def execIdleTimeout (riser : RiserIx) (s : State) : Host.Outcome State Fault Refusal :=
  let t := s.overrunFirst riser
  .next (match (t.riser riser).idleTimer with
    | some e =>
      ((t.advanceTo e).modifyRiser riser fun x =>
        { x with idleTimer := none, runOut := true }).settleLine riser
    | none => t)

/-- WAKE_TIMEOUT (R75): the wake output is turned off and the riser becomes ACTIVE. -/
def execWakeTimeout (riser : RiserIx) (s : State) : Host.Outcome State Fault Refusal :=
  let t := s.overrunFirst riser
  .next (match (t.riser riser).wakeTimer with
    | some e => ((t.advanceTo e).enterActive riser).settleLine riser
    | none => t)

/-- R94: the address after a survey position; 62 is followed by 1. -/
def nextSurvey (a : Nat) : Nat := if a < Config.lastStation then a + 1 else 1

/-- R94: whether the survey polls at this step. -/
def Riser.maySurvey (x : Riser) : Bool :=
  decide (x.link = .active) && x.survey && !(x.queue.any fun i => i.entry.isSolicited) &&
    decide (x.outstanding.length < Config.surveyOutstandingLimit) && !(x.runOut && x.quietAllowed)

/-- R94: a POLL to the survey position is queued and the position advances. -/
def State.surveyPoll (s : State) (r : RiserIx) : State :=
  if (s.riser r).maySurvey then
    match s.solicit r (.poll (s.riser r).surveyPos) with
    | (s1, true) => s1.modifyRiser r fun x => { x with surveyPos := nextSurvey x.surveyPos }
    | (s1, false) => s1
  else s

/-- SURVEY_STEP (R94). -/
def execSurveyStep (riser : RiserIx) (s : State) : Host.Outcome State Fault Refusal :=
  let t := s.overrunFirst riser
  .next (match (t.riser riser).stepTimer with
    | some e => (((t.advanceTo e).startStep riser).surveyPoll riser).settleLine riser
    | none => t)

/-! ## Call timers -/

/-- R21: a call timer expires: if it is the timer that runs, it stops and the rule of its kind is
applied; a stale reference or another timer changes nothing. -/
def State.onExpiry (s : State) (r : Ref) (k : TimerKind) (act : State → Call → State) : State :=
  match s.call? r with
  | none => s
  | some c =>
    match c.timer with
    | none => s
    | some t =>
      if t.kind = k then
        let c1 := { c with timer := none }
        (act ((s.advanceTo t.expiry).setCall r c1) c1).settle
      else s

/-- PATH_WAIT_EXPIRY (R25): the call leaves its wait queue and ends NO_PATH. -/
def execPathWaitExpiry (call : Ref) (s : State) : Host.Outcome State Fault Refusal :=
  .next (s.onExpiry call .pathWait fun t c =>
    (t.leaveQueues call).endCall call
      (if c.waitingFor = some .desk then .noPathDesk else .noPathChannel))

/-- R22: the divert decision. -/
def State.diverts (s : State) (c : Call) : Bool :=
  decide (c.kind = .visitor) && !c.deskVisited &&
    (match c.flat with
      | some i => (s.flat i).divert
      | none => false) && s.hasDesk

/-- R23: the divert, in its order: the offers are taken back, the channel is released, and the call
requests a desk. -/
def State.divert (s : State) (r : Ref) (c : Call) : State :=
  let back := match s.riserOfCall c with
    | some x => s.takeBackAll x r .diverted (fun _ => false) c.offers
    | none => (s, c.offers)
  let c1 := { c with offers := back.2 }
  let s1 := back.1.setCall r c1
  let s2 := match c.channel with
    | some ch => s1.releaseChannel ch
    | none => s1
  s2.enterConciergeLeg r { c1 with channel := none }

/-- RING_EXPIRY (R22, R23). -/
def execRingExpiry (call : Ref) (s : State) : Host.Outcome State Fault Refusal :=
  .next (s.onExpiry call .ring fun t c =>
    if t.diverts c then t.divert call c else t.endCall call .noAnswerFlat)

/-- DESK_RING_EXPIRY (R144). -/
def execDeskRingExpiry (call : Ref) (s : State) : Host.Outcome State Fault Refusal :=
  .next (s.onExpiry call .deskRing fun t _ => t.endCall call .noAnswerDesk)

/-- TALK_EXPIRY (R24). -/
def execTalkExpiry (call : Ref) (s : State) : Host.Outcome State Fault Refusal :=
  .next (s.onExpiry call .talk fun t _ => t.endCall call .timeLimit)

end Sys2Proof.Machine
end

