-- ==== Sys2Proof/Machine/Wire.lean ====
section
/-!
DEFINITION. The bytes on the three kinds of link beyond a host request: the codes of R201, the frames
the part sends (R171, R192, R195, R196, R198, R200), and the command that the bytes of a panel's or a
station's frame stand for (R198, R200).

State keeps frames as data. What stands here says which bytes each one is on its line.
-/

namespace Sys2Proof.Machine

/-! ## Fields (R194) -/

/-- Yes or no, on or off (R201). -/
def yesByte (b : Bool) : Byte := if b then 1 else 0

/-- An optional field: its presence byte, then the field or as many bytes of zero (R194). -/
def optionalField {α : Type} (width : Nat) (f : α → List Byte) : Option α → List Byte
  | some a => 1 :: f a
  | none => 0 :: List.replicate width 0

/-- A list field: its count byte, then the entries (R194). -/
def listField {α : Type} (f : α → List Byte) (l : List α) : List Byte :=
  byteOf l.length :: l.flatMap f

/-- A set of ports as one byte: bit n stands for port Pn (R196). -/
def portSetByte (t : Table 8 Bool) : Byte :=
  byteOf ((List.finRange 8).foldl (fun n i => if t.read i then n + 2 ^ i.val else n) 0)

/-- A call reference: the slot, 1 to 16, then the generation (R201). -/
def Ref.bytes (r : Ref) : List Byte := [byteOf (r.slot.val + 1), r.gen]

/-! ## Codes (R201) -/

/-- Status codes. -/
def Status.code : Status → Byte
  | .ok => 0x00
  | .adjusted => 0x01
  | .illegal => 0x02
  | .badValue => 0x03
  | .notExecutable => 0x04
  | .busy => 0x05
  | .conflict => 0x06
  | .notFree => 0x07
  | .notOwner => 0x08

/-- Call kind codes. -/
def CallKind.code : CallKind → Byte
  | .visitor => 0x01
  | .desk => 0x02
  | .outward => 0x03

/-- Leg codes. -/
def Leg.code : Leg → Byte
  | .flat => 0x01
  | .concierge => 0x02

/-- Call state codes; FREE is 00h. -/
def CallState.code : CallState → Byte
  | .waiting => 0x01
  | .offering => 0x02
  | .ringing => 0x03
  | .connected => 0x04

/-- Waiting-for codes. -/
def WaitingFor.code : WaitingFor → Byte
  | .channel => 0x01
  | .desk => 0x02

/-- Timer kind codes. -/
def TimerKind.code : TimerKind → Byte
  | .pathWait => 0x01
  | .ring => 0x02
  | .deskRing => 0x03
  | .talk => 0x04

/-- Channel codes. -/
def Side.code : Side → Byte
  | .a => 0x00
  | .b => 0x01

/-- A channel in a record or a reply: the riser, then A or B. -/
def Channel.bytes (c : Channel) : List Byte := [byteOf c.riser.val, c.side.code]

/-- End class codes. -/
def EndReason.classCode : EndReason → Byte
  | .clearedAnswererHungUp => 0x01
  | .clearedCaller => 0x01
  | .clearedDesk => 0x01
  | .cancelled => 0x02
  | .forced => 0x03
  | .timeLimit => 0x04
  | .noAnswerFlat => 0x05
  | .noAnswerDesk => 0x05
  | .noPathChannel => 0x06
  | .noPathDesk => 0x06
  | .declinedEngaged => 0x07
  | .declinedPrivacy => 0x07
  | .declinedAllRefused => 0x07
  | .unreachableRiserOff => 0x08
  | .unreachableNoStation => 0x08
  | .unreachableNoReply => 0x08
  | .invalidCode _ => 0x09
  | .faultPanelLost => 0x0A
  | .faultDeskLost => 0x0A
  | .faultRiserFault => 0x0A
  | .faultRiserOverrun => 0x0A

/-- Codes of the translation causes. -/
def TranslateCause.code : TranslateCause → Byte
  | .noWindow => 0x0C
  | .gap => 0x0D
  | .beyondTable => 0x0E
  | .vacant => 0x0F

/-- Cause codes; three classes have none. -/
def EndReason.causeCode : EndReason → Option Byte
  | .clearedAnswererHungUp => some 0x01
  | .clearedCaller => some 0x02
  | .clearedDesk => some 0x03
  | .cancelled => none
  | .forced => none
  | .timeLimit => none
  | .noAnswerFlat => some 0x04
  | .noAnswerDesk => some 0x03
  | .noPathChannel => some 0x05
  | .noPathDesk => some 0x03
  | .declinedEngaged => some 0x06
  | .declinedPrivacy => some 0x07
  | .declinedAllRefused => some 0x08
  | .unreachableRiserOff => some 0x09
  | .unreachableNoStation => some 0x0A
  | .unreachableNoReply => some 0x0B
  | .invalidCode c => some c.code
  | .faultPanelLost => some 0x10
  | .faultDeskLost => some 0x11
  | .faultRiserFault => some 0x12
  | .faultRiserOverrun => some 0x13

/-- Offer status codes. -/
def OfferStatus.code : OfferStatus → Byte
  | .queued => 0x00
  | .sent => 0x01
  | .ringing => 0x02
  | .engaged => 0x03
  | .refused => 0x04
  | .noReply => 0x05
  | .noStation => 0x06
  | .unsupported => 0x07
  | .withdrawn => 0x08
  | .cancelled => 0x09

/-- CANCEL reason codes. -/
def CancelReason.code : CancelReason → Byte
  | .answeredElsewhere => 0x01
  | .diverted => 0x02
  | .callerGone => 0x03
  | .cleared => 0x04
  | .timeLimit => 0x05
  | .noCall => 0x06

/-- Door result codes. -/
def DoorResult.code : DoorResult → Byte
  | .opened => 0x01
  | .alreadyOpen => 0x02
  | .denied => 0x03
  | .notAvailable => 0x04

/-- Link state codes. -/
def LinkState.code : LinkState → Byte
  | .disabled => 0x00
  | .active => 0x01
  | .quiet => 0x02
  | .waking => 0x03
  | .faulted => 0x04

/-- Line condition codes. -/
def lineCode : LineCondition → Byte
  | .good => 0x00
  | .short => 0x01
  | .openLine => 0x02

/-- Station presence codes. -/
def Presence.code : Presence → Byte
  | .unknown => 0x00
  | .present => 0x01
  | .absent => 0x02

/-- Marker outcome codes. -/
def MarkerOutcome.code : MarkerOutcome → Byte
  | .drained => 0x01
  | .flushed => 0x02

/-- Port function codes. -/
def PortFunction.code : PortFunction → Byte
  | .off => 0x00
  | .entrance => 0x01
  | .concierge => 0x02

/-- Display state codes. -/
def Display.code : Display → Byte
  | .ready => 0x00
  | .calling => 0x01
  | .wait => 0x02
  | .ringing => 0x03
  | .speak => 0x04
  | .doorOpen => 0x05
  | .noAnswer => 0x06
  | .busy => 0x07
  | .declined => 0x08
  | .invalid => 0x09
  | .service => 0x0A
  | .fault => 0x0B
  | .notAvailable => 0x0C

/-- Lock state codes. -/
def LockState.code : LockState → Byte
  | .secure => 0x00
  | .released => 0x01

/-- Hold role codes. -/
def Role.code : Role → Byte
  | .origin => 0x01
  | .desk => 0x02

/-- The hold on a speech port: the call reference, then the role. -/
def Hold.bytes (h : Hold) : List Byte := Ref.bytes h.call ++ [h.role.code]

/-- A claim: CALL and its reference, or HOST, 00h and the tag. -/
def Claim.bytes : Claim → List Byte
  | .call c => 0x01 :: Ref.bytes c
  | .host t => [0x02, 0x00, byteOf t]

/-- Event kind codes. -/
def EventKind.code : EventKind → Byte
  | .callStarted => 0x40
  | .callAnswered => 0x41
  | .callEndedNormal => 0x42
  | .callEndedUnanswered => 0x43
  | .callEndedFault => 0x44
  | .callRefused => 0x45
  | .doorReleased => 0x46
  | .doorSecured => 0x47
  | .doorDenied => 0x48
  | .panelChange => 0x49
  | .stationChange => 0x4A
  | .privacyChange => 0x4B
  | .riserChange => 0x4C

/-- Route codes. -/
def Route.code : Route → Byte
  | .none => 0x00
  | .host => 0x01
  | .desk => 0x02
  | .both => 0x03

/-- CALL_REFUSED request kind codes, the panel frame kinds. -/
def StartRequest.code : StartRequest → Byte
  | .call => 0x01
  | .concierge => 0x02
  | .dial => 0x11

/-- DOOR_SECURED cause codes. -/
def SecureCause.code : SecureCause → Byte
  | .expired => 0x01
  | .freed => 0x02

/-- RISER_CHANGE cause codes. -/
def RiserCause.code : RiserCause → Byte
  | .enabled => 0x01
  | .disabled => 0x02
  | .short => 0x03
  | .openLine => 0x04
  | .restored => 0x05
  | .overrun => 0x06

/-- Start kind codes. -/
def StartKind.code : StartKind → Byte
  | .cold => 0x01
  | .warm => 0x02

/-- Start cause codes. -/
def StartCause.code : StartCause → Byte
  | .powerUp => 0x01
  | .resetPin => 0x02
  | .host => 0x03

/-! ## Events, notices and alerts (R192, R195, R198) -/

/-- The end class, then the cause as an optional field. -/
def EndReason.bytes (e : EndReason) : List Byte :=
  e.classCode :: optionalField 1 (fun c => [c]) e.causeCode

/-- The fields of an event, in the order of R192. -/
def Event.fields : Event → List Byte
  | .callStarted c k o code =>
    Ref.bytes c ++ [k.code, byteOf o.val] ++ optionalField 2 twoBytes code
  | .callAnswered c a d =>
    Ref.bytes c ++ optionalField 1 (fun n => [byteOf n]) a ++
      optionalField 1 (fun p : PortIx => [byteOf p.val]) d
  | .callEnded c k o code flat a why =>
    Ref.bytes c ++ [k.code, byteOf o.val] ++ optionalField 2 twoBytes code ++
      optionalField 1 (fun i : FlatIx => [byteOf i.val]) flat ++
      optionalField 1 (fun n => [byteOf n]) a ++ why.bytes
  | .callRefused p q => [byteOf p.val, 0x01, q.code]
  | .doorReleased l c t =>
    byteOf l.val :: (optionalField 3 Claim.bytes (some c) ++
      optionalField 1 (fun n => [byteOf n]) t)
  | .doorSecured l c w => byteOf l.val :: (optionalField 3 Claim.bytes (some c) ++ [w.code])
  | .doorDenied l c i a => byteOf l.val :: (Ref.bytes c ++ [byteOf i.val, byteOf a])
  | .panelChange p f v k => [byteOf p.val, f.code, yesByte v, yesByte k]
  | .stationChange r a v => [byteOf r.val, byteOf a, v.code]
  | .privacyChange i v => [byteOf i.val, yesByte v]
  | .riserChange r l c => [byteOf r.val, l.code, c.code]

/-- A notice frame: its kind, request number 00h, the lost mark, then the fields (R195, R196). -/
def Notice.bytes (n : Notice) : List Byte :=
  match n.content with
  | .event e => sealFrame (e.kind.code :: 0x00 :: yesByte n.lostMark :: e.fields)
  | .start k c => sealFrame [0x4F, 0x00, yesByte n.lostMark, k.code, c.code]

/-- A frame on a panel line from the part (R198). RING(off) carries zeros after its level. -/
def PanelFrame.bytes : PanelFrame → List Byte
  | .display d => sealFrame [0x21, d.code]
  | .ring .off => sealFrame [0x22, 0x00, 0x00, 0x00, 0x00, 0x00]
  | .ring (.on o k f) =>
    sealFrame ([0x22, 0x01, byteOf o.val, k.code] ++
      optionalField 1 (fun i : FlatIx => [byteOf i.val]) f)
  | .alert e => sealFrame (0x23 :: e.kind.code :: e.fields)

/-! ## Replies (R171, R195, R196) -/

/-- The settings of a riser: enable, survey, quiet allowed, survey step in ms, quiet idle in s. -/
def RiserSettings.bytes (x : RiserSettings) : List Byte :=
  [yesByte x.enable, yesByte x.survey, yesByte x.quietAllowed] ++ twoBytes x.surveyStepMs ++
    twoBytes x.quietIdleS

/-- A window's six fields (R34, R196). -/
def Window.bytes (w : Window) : List Byte :=
  yesByte w.enabled :: (twoBytes w.base ++ twoBytes w.span ++ twoBytes w.stride ++
    [byteOf w.rowSize, byteOf w.firstFlat])

/-- A flat's fields in the order of R42 and R50. -/
def Flat.bytes (f : Flat) : List Byte :=
  [yesByte f.inService, byteOf f.riser.val, byteOf f.firstStation, byteOf f.handsetCount,
    yesByte f.divert, f.doors, yesByte f.hostPrivacy, yesByte f.privacy]

/-- The four time settings (R31, R196). -/
def Times.bytes (t : Times) : List Byte :=
  twoBytes t.flatRing ++ twoBytes t.deskRing ++ twoBytes t.pathWait ++ twoBytes t.talk

/-- An offer entry: station, status, and the tag as an optional field (R196). -/
def Offer.bytes (o : Offer) : List Byte :=
  [byteOf o.station, o.status.code] ++ optionalField 1 (fun t => [byteOf t]) o.tag

/-- QUERY CALL of a live call: the fields in the order of R1 (R196). -/
def liveCallBytes (r : Ref) (c : Call) (secondsLeft : Option Nat) : List Byte :=
  let port (p : PortIx) : List Byte := [byteOf p.val]
  Ref.bytes r ++ [c.kind.code, byteOf c.origin.val] ++ optionalField 2 twoBytes c.code ++
    optionalField 1 (fun i : FlatIx => [byteOf i.val]) c.flat ++ [c.leg.code, c.state.code] ++
    optionalField 1 (fun w : WaitingFor => [w.code]) c.waitingFor ++ [yesByte c.deskVisited] ++
    optionalField 2 Channel.bytes c.channel ++ optionalField 1 port c.deskPort ++
    listField Offer.bytes c.offers ++ optionalField 1 (fun a => [byteOf a]) c.answerer ++
    optionalField 3 (fun t : CallTimer => t.kind.code :: twoBytes (secondsLeft.getD 0)) c.timer ++
    optionalField 1 (fun b : Byte => [b]) none ++ optionalField 1 (fun b : Byte => [b]) none

/-- QUERY CALL of a FREE slot (R30, R196). -/
def freeSlotBytes (r : Ref) (last : Option EndReason) : List Byte :=
  Ref.bytes r ++ [0x00] ++ optionalField 1 (fun e : EndReason => [e.classCode]) last ++
    optionalField 1 (fun c : Byte => [c]) (last.bind EndReason.causeCode)

/-- QUERY PORT, in the order of R136. -/
def PortReport.bytes (p : PortReport) : List Byte :=
  [p.function.code, yesByte p.intercept, yesByte p.present, yesByte p.check, p.lastDisplay.code,
    yesByte p.displayWaiting, yesByte p.ringWaiting, yesByte p.alertWaiting, byteOf p.releaseTime] ++
    optionalField 3 Hold.bytes p.hold

/-- QUERY LOCK, in the order of R165. DESIGN CHOICE (log entry 16): the seconds left take one byte, wide
enough for a release time of 30 s; R196 and section 11.5 give them no width. -/
def LockReport.bytes (l : LockReport) : List Byte :=
  l.state.code :: (optionalField 3 Claim.bytes l.claim ++ [byteOf l.releaseTime] ++
    optionalField 1 (fun n => [byteOf n]) l.secondsLeft ++ [yesByte l.usable])

/-- QUERY RISER, in the order and the widths R196 sums up. -/
def RiserReport.bytes (x : RiserReport) : List Byte :=
  [x.link.code, lineCode x.line] ++ x.settings.bytes ++
    [byteOf x.entries, byteOf x.advisories, byteOf x.solicited, byteOf x.markers,
      byteOf x.outstanding, byteOf x.surveyPos, byteOf x.present, byteOf x.absent,
      byteOf x.unknown] ++
    optionalField 2 Ref.bytes x.holderA ++ optionalField 2 Ref.bytes x.holderB ++
    listField Ref.bytes x.waiting

/-- The fields of a reply after its status. -/
def ReplyBody.bytes : ReplyBody → List Byte
  | .none => []
  | .port f i t => [f.code, yesByte i, byteOf t]
  | .window w => w.bytes
  | .flat f => f.bytes
  | .times t => t.bytes
  | .routes m => (List.finRange 13).map fun i => (m.read i).code
  | .mode m => [yesByte m]
  | .riser x l => x.bytes ++ [l.code]
  | .checks t => [portSetByte t]
  | .privacy h f => [yesByte h, yesByte f]
  | .ref r => Ref.bytes r
  | .liveCall r c n => liveCallBytes r c n
  | .freeSlot r e => freeSlotBytes r e
  | .portReport p => p.bytes
  | .lockReport l => l.bytes
  | .riserReport x => x.bytes
  | .station t => [t.presence.code, yesByte t.privacy]
  | .sync r o => [byteOf r.val, o.code]
  | .start k => [k.code]

/-- A reply frame: the kind with the reply mark, the number, the status, the body (R195, R196). -/
def Reply.bytes (r : Reply) : List Byte :=
  sealFrame ((byteOf r.kind ||| 0x80#8) :: byteOf r.num :: r.status.code :: r.body.bytes)

/-- What the host transmit line carries while the transmitter is busy (R195). -/
def HostTx.bytes : HostTx → List Byte
  | .idle => []
  | .reply r => r.bytes
  | .notice n => n.bytes

/-! ## Riser frames from the part (R199, R200) -/

/-- Address, kind and body of a riser frame; a resend repeats it byte for byte (R82, R200). -/
def RiserFrame.bytes : RiserFrame → List Byte
  | .solicited t (.offer a c k o) =>
    sealFrame ([byteOf a, 0x41, byteOf t] ++ Ref.bytes c ++ [k.code, byteOf o.val])
  | .solicited t (.poll a) => sealFrame [byteOf a, 0x42, byteOf t]
  | .advisory (.cancel a w c) =>
    sealFrame ([byteOf a, 0x43, w.code] ++ optionalField 2 Ref.bytes c)
  | .advisory (.join a c side) => sealFrame ([byteOf a, 0x44] ++ Ref.bytes c ++ [side.code])
  | .advisory (.doorResult a d c) =>
    sealFrame ([byteOf a, 0x45, d.code] ++ optionalField 2 Ref.bytes c)
  | .advisory (.notSupported a k) => sealFrame [byteOf a, 0x46, byteOf k]

/-! ## Frames to the part on panel and riser links (R197 to R200) -/

/-- Four code digits, thousands first; none when a byte is above 09h (R198). -/
def codeOf (a b c d : Byte) : Option Nat :=
  if a.toNat ≤ 9 ∧ b.toNat ≤ 9 ∧ c.toNat ≤ 9 ∧ d.toNat ≤ 9 then
    some (a.toNat * 1000 + b.toNat * 100 + c.toNat * 10 + d.toNat)
  else none

/-- R126, R198: the command of a complete panel frame. A frame that is not good, of no kind a panel
sends, of another length, or whose code is not four decimal digits is a discarded one. -/
def panelCommandOf (p : PortIx) (got : List Byte) : Instr :=
  match goodInner? got with
  | some (kind :: body) =>
    match kind.toNat, body with
    | 0x01, [a, b, c, d] =>
      match codeOf a b c d with
      | some n => .panelCall p n
      | none => .panelFrameDiscard p
    | 0x02, [] => .panelConcierge p
    | 0x03, [] => .panelCancel p
    | 0x11, [a, b, c, d] =>
      match codeOf a b c d with
      | some n => .deskDial p n
      | none => .panelFrameDiscard p
    | 0x12, [] => .deskAnswer p
    | 0x13, [] => .deskClear p
    | 0x14, [] => .deskForward p
    | 0x15, [] => .deskDoor p
    | _, _ => .panelFrameDiscard p
  | _ => .panelFrameDiscard p

/-- R91, R93, R200: the command of a complete frame of a station. The kind is the kind byte without
the reply-wanted mark; a length that is wrong for a known kind makes the frame bad. -/
def stationCommandOf (r : RiserIx) (got : List Byte) : Instr :=
  match goodInner? got with
  | some (addr :: kind :: body) =>
    let a := addr.toNat
    if isStation a = false ∨ 30 < body.length then .riserBadFrame r
    else if isKnownStationKind kind.toNat = false then .unknownStationFrame r a kind.toNat
    else
      match kind.toNat % 128, body with
      | 1, [tag, result, privacy] => .stationReply r a tag.toNat result.toNat privacy.toNat
      | 2, [] => .stationLift r a
      | 3, [] => .stationHangup r a
      | 4, [] => .stationDoor r a
      | 5, [] => .stationPrivacyOn r a
      | 6, [] => .stationPrivacyOff r a
      | _, _ => .riserBadFrame r
  | _ => .riserBadFrame r

end Sys2Proof.Machine
end

