-- ==== Sys2Proof/Machine/Links.lean ====
section
/-!
DEFINITION. Bytes that arrive on a link (R194): the receivers of the host link (R167), of the panel
links (R198) and of the riser links (R200), byte by byte, and the command SYNC_BYTE_RECEIVED.
-/

namespace Sys2Proof.Machine

/-- The state an outcome leaves; every command of the part ends in a next state. -/
def State.after (s : State) (o : Host.Outcome State Fault Refusal) : State :=
  match o with
  | .next t => t
  | _ => s

/-- The receiver of a panel or riser link, from the frame that is arriving. -/
def linkRx (receiving : Option Reception) : LinkRx :=
  match receiving with
  | some x => .receiving x.got
  | none => .hunting

/-! ## Panel links -/

/-- R126, R198: a complete frame of a panel is taken or discarded. -/
def State.takePanelCommand (s : State) (c : Instr) : State :=
  match c with
  | .panelCall p code => s.after (execPanelCall p code s)
  | .panelConcierge p => s.after (execPanelConcierge p s)
  | .panelCancel p => s.after (execPanelCancel p s)
  | .deskDial p code => s.after (execDeskDial p code s)
  | .deskAnswer p => s.after (execDeskAnswer p s)
  | .deskClear p => s.after (execDeskClear p s)
  | .deskForward p => s.after (execDeskForward p s)
  | .deskDoor p => s.after (execDeskDoor p s)
  | .panelFrameDiscard p => s.after (execPanelFrameDiscard p s)
  | _ => s

/-- R123, R194, R198: one byte on a panel link. From an ABSENT port it is discarded; a length byte of 0
or above 40 ends the frame at once; the byte that completes a frame hands it on. -/
def State.panelByte (p : PortIx) (s : State) (b : Byte) : State :=
  if (s.port p).present then
    match (linkRx (s.port p).receiving).take panelLengthInRange b with
    | (.receiving got, _) =>
      s.modifyPort p fun x => { x with receiving := some { got := got, expiry := s.rxDeadline } }
    | (.hunting, none) => s.panelFrameEnd p
    | (.hunting, some got) => (s.panelFrameEnd p).takePanelCommand (panelCommandOf p got)
  else s

/-! ## Riser links -/

/-- R91, R93, R200: a complete frame of a station is taken, ignored or found bad. -/
def State.takeStationCommand (s : State) (c : Instr) : State :=
  match c with
  | .stationReply r a tag result privacy => s.after (execStationReply r a tag result privacy s)
  | .stationLift r a => s.after (execStationLift r a s)
  | .stationHangup r a => s.after (execStationHangup r a s)
  | .stationDoor r a => s.after (execStationDoor r a s)
  | .stationPrivacyOn r a => s.after (execStationPrivacyOn r a s)
  | .stationPrivacyOff r a => s.after (execStationPrivacyOff r a s)
  | .unknownStationFrame r a kind => s.after (execUnknownStationFrame r a kind s)
  | .riserBadFrame r => s.after (execRiserBadFrame r s)
  | _ => s

/-- R70, R78, R194, R200: one byte on a riser link. A riser that is off does not receive, and one that
transmits discards it. From the sync byte until the frame is complete or discarded the line is busy; a
length byte outside 2 to 32 makes the frame bad at once, and the line is free again. -/
def State.riserByte (r : RiserIx) (s : State) (b : Byte) : State :=
  let t := s.overrunFirst r
  if (t.riser r).link.isOff = false ∧ (t.riser r).tx = none then
    match (linkRx (t.riser r).receiving).take stationLengthInRange b with
    | (.receiving got, _) =>
      t.modifyRiser r fun x => { x with receiving := some { got := got, expiry := t.rxDeadline } }
    | (.hunting, none) => if (t.riser r).receiving = none then t else t.badStationFrame r
    | (.hunting, some got) =>
      (t.modifyRiser r fun x => { x with receiving := none }).takeStationCommand
        (stationCommandOf r got)
  else t

/-! ## Any link -/

/-- SYNC_BYTE_RECEIVED (R167, R194, R198, R200): bytes arrive on a link, and a hunting receiver starts
receiving a frame at the sync byte. The host receiver takes no bytes while the reset pin is held
(R179). DESIGN CHOICE (log entry 24): the operand is every byte that arrives, the sync byte and what
follows it, so that a frame may come in one command or byte by byte. -/
def execSyncByteReceived (arrival : LinkBytes) (s : State) : Host.Outcome State Fault Refusal :=
  .next (match arrival.link with
    | .host => if s.resetHeld then s else s.hostBytes arrival.bytes
    | .panel p => arrival.bytes.foldl (State.panelByte p) s
    | .riser r => arrival.bytes.foldl (State.riserByte r) s)

end Sys2Proof.Machine
end

