-- ==== Sys2Proof/Machine/Own.lean ====
section
/-!
DEFINITION. What the part does when no command waits: the event it takes of its own accord, and the
passing of time.
DESIGN CHOICE (log entry 2): overrun processing that is due comes first (R90), then the timer that has
been due longest; with none of them, a millisecond passes. (A request that may be taken needs no step:
it is taken in the event that lets it be, R169.)
-/

namespace Sys2Proof.Machine

/-- The first riser whose overrun processing is due (R90). -/
def State.overrunDue? (s : State) : Option Instr :=
  ((List.finRange 6).find? fun r => (s.riser r).overrunDue).map .overrun

/-- The command of a call timer's expiry (R21). -/
def TimerKind.expiryOf (k : TimerKind) (r : Ref) : Instr :=
  match k with
  | .pathWait => .pathWaitExpiry r
  | .ring => .ringExpiry r
  | .deskRing => .deskRingExpiry r
  | .talk => .talkExpiry r

/-- The running call timers with their expiries, slot 1 first. -/
def State.callTimers (s : State) : List (Nat × Instr) :=
  s.liveCalls.filterMap fun rc => rc.2.timer.map fun t => (t.expiry, t.kind.expiryOf rc.1)

/-- The running release timers (R160). -/
def State.lockTimers (s : State) : List (Nat × Instr) :=
  (List.finRange 8).filterMap fun p =>
    (s.lock p).timer.map fun e => (e, .releaseTimerExpiry p)

/-- The running timers of one riser: the idle, wake and step timers (R74, R75, R94), the reply timers
in the order of the outstanding table (R78), and the silence on the line (R194). -/
def State.riserTimers (s : State) (r : RiserIx) : List (Nat × Instr) :=
  let x := s.riser r
  (x.idleTimer.map fun e => (e, Instr.idleTimeout r)).toList ++
    (x.wakeTimer.map fun e => (e, Instr.wakeTimeout r)).toList ++
    (x.stepTimer.map fun e => (e, Instr.surveyStep r)).toList ++
    (x.outstanding.filterMap fun o => o.timer.map fun e => (e, Instr.replyTimeout r o.tag)) ++
    (x.receiving.map fun x => (x.expiry, Instr.riserRxTimeout r)).toList

/-- The frames that are arriving on the host link and on the panel links (R194). -/
def State.silenceTimers (s : State) : List (Nat × Instr) :=
  (s.hlp.rxDeadline.map fun e => (e, Instr.hostRxTimeout)).toList ++
    (List.finRange 8).filterMap fun p =>
      (s.port p).receiving.map fun x => (x.expiry, Instr.panelRxTimeout p)

/-- Every running timer with its expiry. -/
def State.timers (s : State) : List (Nat × Instr) :=
  s.callTimers ++ s.lockTimers ++ (List.finRange 6).flatMap s.riserTimers ++ s.silenceTimers

/-- The entry with the least expiry; of equal ones, the one listed first. -/
def earliest : List (Nat × Instr) → Option (Nat × Instr)
  | [] => none
  | x :: xs =>
    match earliest xs with
    | some y => if y.1 < x.1 then some y else some x
    | none => some x

/-- The timer that is due at the clock, if any. -/
def State.dueTimer? (s : State) : Option Instr :=
  match earliest s.timers with
  | some (e, c) => if e ≤ s.clock then some c else none
  | none => none

/-- The event the part takes of its own accord next. -/
def State.ownCommand? (s : State) : Option Instr :=
  match s.overrunDue? with
  | some c => some c
  | none => s.dueTimer?

/-- A millisecond passes with nothing due; a free line that has something to carry starts it. -/
def State.tick (s : State) : State := { s with clock := s.clock + Config.idleStepMs }.settle

end Sys2Proof.Machine
end

