-- ==== Sys2Proof/Machine/Dispatch.lean ====
section
/-! DEFINITION. The dispatch: one command, one meaning. -/

namespace Sys2Proof.Machine

/-- The effect of a command on everything but the queue of waiting commands. -/
def exec (i : Instr) (s : State) : Host.Outcome State Fault Refusal :=
  match i with
  | .powerUp => Sys2Proof.Machine.execPowerUp s
  | .resetPin => Sys2Proof.Machine.execResetPin s
  | .hostFrameReceived bytes => Sys2Proof.Machine.execHostFrameReceived bytes s
  | .hostRxTimeout => Sys2Proof.Machine.execHostRxTimeout s
  | .hostTxEnd => Sys2Proof.Machine.execHostTxEnd s
  | .illegalRequest kind num body => Sys2Proof.Machine.execIllegalRequest kind num body s
  | .setPort num port function intercept releaseTime => Sys2Proof.Machine.execSetPort num port function intercept releaseTime s
  | .setWindow num window enabled base span stride rowSize firstFlat => Sys2Proof.Machine.execSetWindow num window enabled base span stride rowSize firstFlat s
  | .setFlat num flat inService riser firstStation handsetCount divert doors => Sys2Proof.Machine.execSetFlat num flat inService riser firstStation handsetCount divert doors s
  | .setTimes num flatRing deskRing pathWait talk => Sys2Proof.Machine.execSetTimes num flatRing deskRing pathWait talk s
  | .setRoute num event route => Sys2Proof.Machine.execSetRoute num event route s
  | .setMode num mode => Sys2Proof.Machine.execSetMode num mode s
  | .setRiser num riser enable survey quietAllowed surveyStep quietIdle => Sys2Proof.Machine.execSetRiser num riser enable survey quietAllowed surveyStep quietIdle s
  | .clearCheck num ports => Sys2Proof.Machine.execClearCheck num ports s
  | .setPrivacy num flat privacy => Sys2Proof.Machine.execSetPrivacy num flat privacy s
  | .doorHold num lock tag => Sys2Proof.Machine.execDoorHold num lock tag s
  | .doorFree num lock tag => Sys2Proof.Machine.execDoorFree num lock tag s
  | .endCall num slot generation => Sys2Proof.Machine.execEndCall num slot generation s
  | .queryCall num slot => Sys2Proof.Machine.execQueryCall num slot s
  | .queryWindow num window => Sys2Proof.Machine.execQueryWindow num window s
  | .queryFlat num flat => Sys2Proof.Machine.execQueryFlat num flat s
  | .queryPort num port => Sys2Proof.Machine.execQueryPort num port s
  | .queryLock num lock => Sys2Proof.Machine.execQueryLock num lock s
  | .queryRiser num riser => Sys2Proof.Machine.execQueryRiser num riser s
  | .queryStation num riser station => Sys2Proof.Machine.execQueryStation num riser station s
  | .riserSync num riser => Sys2Proof.Machine.execRiserSync num riser s
  | .restart num startKind => Sys2Proof.Machine.execRestart num startKind s
  | .panelCall port code => Sys2Proof.Machine.execPanelCall port code s
  | .panelConcierge port => Sys2Proof.Machine.execPanelConcierge port s
  | .panelCancel port => Sys2Proof.Machine.execPanelCancel port s
  | .deskDial port code => Sys2Proof.Machine.execDeskDial port code s
  | .deskAnswer port => Sys2Proof.Machine.execDeskAnswer port s
  | .deskClear port => Sys2Proof.Machine.execDeskClear port s
  | .deskForward port => Sys2Proof.Machine.execDeskForward port s
  | .deskDoor port => Sys2Proof.Machine.execDeskDoor port s
  | .panelFrameDiscard port => Sys2Proof.Machine.execPanelFrameDiscard port s
  | .panelRxTimeout port => Sys2Proof.Machine.execPanelRxTimeout port s
  | .panelPresent port => Sys2Proof.Machine.execPanelPresent port s
  | .panelAbsent port => Sys2Proof.Machine.execPanelAbsent port s
  | .panelTxEnd port => Sys2Proof.Machine.execPanelTxEnd port s
  | .riserTxEnd riser => Sys2Proof.Machine.execRiserTxEnd riser s
  | .stationReply riser station tag result privacy => Sys2Proof.Machine.execStationReply riser station tag result privacy s
  | .stationLift riser station => Sys2Proof.Machine.execStationLift riser station s
  | .stationHangup riser station => Sys2Proof.Machine.execStationHangup riser station s
  | .stationDoor riser station => Sys2Proof.Machine.execStationDoor riser station s
  | .stationPrivacyOn riser station => Sys2Proof.Machine.execStationPrivacyOn riser station s
  | .stationPrivacyOff riser station => Sys2Proof.Machine.execStationPrivacyOff riser station s
  | .unknownStationFrame riser station kind => Sys2Proof.Machine.execUnknownStationFrame riser station kind s
  | .riserBadFrame riser => Sys2Proof.Machine.execRiserBadFrame riser s
  | .riserRxTimeout riser => Sys2Proof.Machine.execRiserRxTimeout riser s
  | .replyTimeout riser tag => Sys2Proof.Machine.execReplyTimeout riser tag s
  | .idleTimeout riser => Sys2Proof.Machine.execIdleTimeout riser s
  | .wakeTimeout riser => Sys2Proof.Machine.execWakeTimeout riser s
  | .surveyStep riser => Sys2Proof.Machine.execSurveyStep riser s
  | .lineFault riser condition => Sys2Proof.Machine.execLineFault riser condition s
  | .lineRestored riser => Sys2Proof.Machine.execLineRestored riser s
  | .overrun riser => Sys2Proof.Machine.execOverrun riser s
  | .pathWaitExpiry call => Sys2Proof.Machine.execPathWaitExpiry call s
  | .ringExpiry call => Sys2Proof.Machine.execRingExpiry call s
  | .deskRingExpiry call => Sys2Proof.Machine.execDeskRingExpiry call s
  | .talkExpiry call => Sys2Proof.Machine.execTalkExpiry call s
  | .releaseTimerExpiry lock => Sys2Proof.Machine.execReleaseTimerExpiry lock s
  | .lineConditionChange riser condition => Sys2Proof.Machine.execLineConditionChange riser condition s
  | .resetPinRelease => Sys2Proof.Machine.execResetPinRelease s
  | .syncByteReceived arrival => Sys2Proof.Machine.execSyncByteReceived arrival s

end Sys2Proof.Machine
end

