-- ==== Sys2Proof/Safety.lean ====
section
/-!
DEFINITION. What a safe run of the part is, in the terms claims use: the laws of the device, and what
a claim says of a state before and after a command (what is on its way out on each link, which records
are the same).

No command of this part ends in a fault or a refusal, so a run is safe when every state of it keeps
the laws.
-/

namespace Sys2Proof.Machine

/-! ## Laws of the device -/

/-- R80: the tags of a riser, free and outstanding, are the sixteen tags, each once. -/
def Riser.TagLaw (x : Riser) : Prop :=
  (x.freeTags ++ x.outstanding.map fun o => o.tag).Perm (List.range 16)

/-- R77, R80: a riser's queue holds at most 32 entries, and at most four requests are outstanding. -/
def Riser.RoomLaw (x : Riser) : Prop := x.queue.length ≤ 32 ∧ x.outstanding.length ≤ 4

/-- R72, R74, R75, R88, R89, R90, R94: an enabled riser is FAULTED exactly while its line condition is not
GOOD; the wake timer runs exactly in WAKING, the survey step timer exactly while the riser is ACTIVE
and survey is on; the idle timer runs exactly while the riser is ACTIVE and it has not set the run-out mark,
which is not set on a QUIET or a WAKING riser (on a riser that is off a mark may stand from before until
the next start of the timer, on its entry to ACTIVE, clears it); overrun processing is due on a working
riser only. -/
def Riser.LinkLaw (x : Riser) : Prop :=
  (x.link ≠ .disabled → (x.link = .faulted ↔ x.line ≠ .good)) ∧
  (x.wakeTimer ≠ none ↔ x.link = .waking) ∧
  (x.stepTimer ≠ none ↔ (x.link = .active ∧ x.survey = true)) ∧
  (x.idleTimer ≠ none ↔ (x.link = .active ∧ x.runOut = false)) ∧
  (x.link = .quiet ∨ x.link = .waking → x.runOut = false) ∧
  (x.overrunDue = true → x.link.isOff = false)

/-- R154: a lock with no claim is SECURE with no release timer; a CALL claim holds it RELEASED while
its timer runs; a HOST claim holds it RELEASED with no timer. The release time is 1 to 30 s. -/
def Lock.ClaimLaw (l : Lock) : Prop :=
  (match l.claim with
    | none => l.state = .secure ∧ l.timer = none
    | some (.call _) => l.state = .released ∧ l.timer ≠ none
    | some (.host _) => l.state = .released ∧ l.timer = none) ∧
  1 ≤ l.releaseTime ∧ l.releaseTime ≤ 30

/-- R123, R130, R131, R135: an ABSENT port sends nothing and holds no ring level and no alert; a port
whose function is OFF holds and sends nothing; only a CONCIERGE port holds an alert. -/
def Port.SlotLaw (p : Port) : Prop :=
  (p.present = false → p.tx = none ∧ p.ringSlot = none ∧ p.alertSlot = none) ∧
  (p.function = .off →
    p.tx = none ∧ p.displaySlot = none ∧ p.ringSlot = none ∧ p.alertSlot = none) ∧
  (p.function ≠ .concierge → p.alertSlot = none)

/-- The law of a riser controller, for each riser. -/
def State.EachRiser (L : Riser → Prop) (s : State) : Prop := ∀ r, L (s.riser r)

/-- R154, R155: every lock keeps its law, and a lock with a claim is usable. -/
def State.LockLaw (s : State) : Prop :=
  ∀ p, (s.lock p).ClaimLaw ∧ ((s.lock p).claim ≠ none → (s.port p).function = .entrance)

/-- R48: each flat's privacy is its host privacy OR the privacy flags of its stations. -/
def State.PrivacyLaw (s : State) : Prop :=
  ∀ i, (s.flat i).privacy =
    ((s.flat i).hostPrivacy ||
      (List.range' (s.flat i).firstStation (s.flat i).handsetCount).any fun a =>
        ((s.riser (s.flat i).riser).station a).privacy)

/-- R45: no two flats in service on one riser share a station address. -/
def State.SharingLaw (s : State) : Prop :=
  ∀ i j a, i ≠ j → (s.flat i).inService = true → (s.flat j).inService = true →
    (s.flat i).riser = (s.flat j).riser → a ∈ (s.flat i).stations → a ∉ (s.flat j).stations

/-- R55: a riser's channel wait queue is non-empty only while both channels are held. -/
def State.ChannelQueueLaw (s : State) : Prop :=
  ∀ r, (s.paths r).queue ≠ [] → (s.paths r).holderA ≠ none ∧ (s.paths r).holderB ≠ none

/-- R61: the desk wait queue is non-empty only while no port is an eligible desk. -/
def State.DeskQueueLaw (s : State) : Prop :=
  s.psw.deskQueue ≠ [] → ∀ p, s.eligible p = false

/-- R168, R172, R187: four frames, one immediate reply and 32 notices at most. -/
def State.HostLaw (s : State) : Prop :=
  s.hlp.buffer.length ≤ 4 ∧ (s.hlp.ready.filter fun x => x.immediate).length ≤ 1 ∧
    s.ntu.notices.length ≤ 32

/-- R169, R173, R179: a frame waits in the request buffer only while an immediate reply waits or a start
is due; a reply waits only while the host line is busy; while the reset pin is held nothing waits and
nothing is sent. -/
def State.HostLinkLaw (s : State) : Prop :=
  (s.hlp.startDue = none → (∀ x ∈ s.hlp.ready, x.immediate = false) → s.hlp.buffer = []) ∧
    (s.hlp.tx = .idle → s.hlp.ready = []) ∧
    (s.resetHeld = true → s.hlp.tx = .idle ∧ s.hlp.buffer = [] ∧ s.hlp.syncs = [] ∧
      s.hlp.startDue = none)

/-- R4, R9, R11, R17, R21, R25, R139 to R145: what the record of a live call holds in each state. A
WAITING call waits for a channel on its FLAT leg or for a desk on its CONCIERGE leg, with its path wait
timer; from OFFERING on a call on its FLAT leg has a channel, and on its CONCIERGE leg a desk port; the
timer is the one of its state, and none in OFFERING. A call on its FLAT leg has a flat. A call has an
answerer exactly while it is CONNECTED on its FLAT leg. -/
def Call.StateLaw (c : Call) : Prop :=
  (c.leg = .flat → c.flat ≠ none) ∧
  (c.answerer ≠ none ↔ c.leg = .flat ∧ c.state = .connected) ∧
  match c.state, c.leg with
  | .waiting, .flat => c.waitingFor = some .channel ∧ c.channel = none ∧ c.deskPort = none ∧
      c.timer.map (fun t => t.kind) = some .pathWait
  | .waiting, .concierge => c.waitingFor = some .desk ∧ c.channel = none ∧ c.deskPort = none ∧
      c.timer.map (fun t => t.kind) = some .pathWait
  | .offering, .flat => c.waitingFor = none ∧ c.channel ≠ none ∧ c.deskPort = none ∧
      c.timer = none
  | .offering, .concierge => False
  | .ringing, .flat => c.waitingFor = none ∧ c.channel ≠ none ∧ c.deskPort = none ∧
      c.timer.map (fun t => t.kind) = some .ring
  | .ringing, .concierge => c.waitingFor = none ∧ c.channel = none ∧ c.deskPort ≠ none ∧
      c.timer.map (fun t => t.kind) = some .deskRing
  | .connected, .flat => c.waitingFor = none ∧ c.channel ≠ none ∧ c.deskPort = none ∧
      c.timer.map (fun t => t.kind) = some .talk
  | .connected, .concierge => c.waitingFor = none ∧ c.channel = none ∧ c.deskPort ≠ none ∧
      c.timer.map (fun t => t.kind) = some .talk

/-- The records of the live calls are those of their states. -/
def State.CallLaw (s : State) : Prop := ∀ r c, s.call? r = some c → c.StateLaw

/-- R53, R54: a channel that is held is the channel of the live call that holds it; a call's channel is
held by that call and lies on the riser of its flat. -/
def State.ChannelLaw (s : State) : Prop :=
  (∀ ch r, (s.paths ch.riser).holder ch.side = some r →
    ∃ c, s.call? r = some c ∧ c.channel = some ch) ∧
    ∀ r c ch, s.call? r = some c → c.channel = some ch →
      (s.paths ch.riser).holder ch.side = some r ∧ s.riserOfCall c = some ch.riser

/-- R7, R58, R60: a speech port that is held is the origin or the desk port of the live call that holds
it, and every live call holds its origin port and its desk port. -/
def State.HoldLaw (s : State) : Prop :=
  (∀ p h, s.hold p = some h → ∃ c, s.call? h.call = some c ∧
    (match h.role with
      | .origin => c.origin = p
      | .desk => c.deskPort = some p)) ∧
    ∀ r c, s.call? r = some c → s.hold c.origin = some { call := r, role := .origin } ∧
      ∀ p, c.deskPort = some p → s.hold p = some { call := r, role := .desk }

/-- R4, R55, R61: the calls that wait for a channel of a riser stand in that riser's queue, those that
wait for a desk in the desk wait queue, each once; no other call stands in any. -/
def State.WaitLaw (s : State) : Prop :=
  (∀ x, (s.paths x).queue.Nodup ∧ ∀ r ∈ (s.paths x).queue, ∃ c, s.call? r = some c ∧
    c.state = .waiting ∧ c.waitingFor = some .channel ∧ s.riserOfCall c = some x) ∧
    (s.psw.deskQueue.Nodup ∧ ∀ r ∈ s.psw.deskQueue, ∃ c, s.call? r = some c ∧
      c.state = .waiting ∧ c.waitingFor = some .desk) ∧
    ∀ r c, s.call? r = some c → c.state = .waiting →
      (c.waitingFor = some .channel ∧
        ∃ x, s.riserOfCall c = some x ∧ r ∈ (s.paths x).queue) ∨
      (c.waitingFor = some .desk ∧ r ∈ s.psw.deskQueue)

/-- The paths, the ports and the wait queues agree with the call records. -/
def State.PathLaw (s : State) : Prop := s.CallLaw ∧ s.ChannelLaw ∧ s.HoldLaw ∧ s.WaitLaw

/-- R123, R130, R131, R135 at every port. -/
def State.SlotLaw (s : State) : Prop := ∀ p, (s.port p).SlotLaw

/-- A property that every step keeps, from whatever state it holds in. -/
def KeptByStep (L : State → Prop) : Prop := ∀ s t, L s → step s = .next t → L t

/-! ## What is on its way out -/

/-- The replies on the host line and in the ready list, in the order they leave (R172, R173). -/
def Hlp.replyLine (h : Hlp) : List Reply :=
  (match h.tx with
    | .reply r => [r]
    | _ => []) ++ h.ready.map fun x => x.reply

/-- The notices on the host line and in the notice queue, in the order they leave (R173, R187). -/
def State.noticeLine (s : State) : List Notice :=
  (match s.hlp.tx with
    | .notice n => [n]
    | _ => []) ++ s.ntu.notices

/-- The frames of a riser's outbound queue, head first; the one in transmission counts (R77, R78). -/
def Riser.frames (x : Riser) : List QueueEntry :=
  (x.queue.map fun i => i.entry).filter QueueEntry.isFrame

/-- The advisories of a riser's outbound queue, head first. -/
def Riser.advisories (x : Riser) : List QueueEntry :=
  (x.queue.map fun i => i.entry).filter QueueEntry.isAdvisory

/-- A port has been given a display state: it is its last display, and it waits in the slot or is on
the line (R129, R132). -/
def Port.Shows (p : Port) (d : Display) : Prop :=
  p.lastDisplay = d ∧ (p.displaySlot = some d ∨ p.tx = some (.display d))

/-- A ring level waits in a port's ring slot or is on the line (R130, R132). -/
def Port.Rings (p : Port) (l : RingLevel) : Prop := p.ringSlot = some l ∨ p.tx = some (.ring l)

/-! ## Before and after -/

/-- A request that arrives now is taken at once: no request waits before it, no immediate reply waits,
no start is due, and the reset pin is not held (R169, R179). -/
def State.Takes (s : State) : Prop := s.canTake = true ∧ s.hlp.buffer = []

/-- The host link keeps what it receives and what it has been told to do. -/
structure ReceiveKept (s t : State) : Prop where
  rx         : t.hlp.rx = s.hlp.rx
  rxDeadline : t.hlp.rxDeadline = s.hlp.rxDeadline

/-- R169 to R172: one request has been taken, and exactly this reply follows those that were on their
way; no other part of the host link is changed. -/
structure Answers (s t : State) (r : Reply) : Prop where
  line     : t.hlp.replyLine = s.hlp.replyLine ++ [r]
  buffer   : t.hlp.buffer = []
  startDue : t.hlp.startDue = s.hlp.startDue
  syncs    : t.hlp.syncs = s.hlp.syncs
  kept     : ReceiveKept s t

/-- The events were raised in this order, and no other: the notices on their way out and the lost
flag are what routing them one by one makes of them (R184 to R188). -/
structure Raises (s t : State) (es : List Event) : Prop where
  notices : t.noticeLine = (es.foldl State.emit s).noticeLine
  lost    : t.ntu.lost = (es.foldl State.emit s).ntu.lost
  routes  : t.ntu.routes = s.ntu.routes

/-- An offer that a sending report may have reached: the same, or SENT with a tag where it was QUEUED
(R13, R80). -/
def Offer.MayBeSent (o u : Offer) : Prop :=
  u = o ∨ (o.status = .queued ∧ ∃ t, u = { o with status := .sent, tag := some t })

/-- A record of which only offers differ, and those by a sending report. -/
def Call.SameButSending (c d : Call) : Prop :=
  d = { c with offers := d.offers } ∧ List.Forall₂ Offer.MayBeSent c.offers d.offers

/-- The same for a slot of the call table. -/
def Slot.SameButSending (x y : Slot) : Prop :=
  y.generation = x.generation ∧ y.lastEnd = x.lastEnd ∧
    (match x.call, y.call with
      | none, none => True
      | some c, some d => c.SameButSending d
      | _, _ => False)

/-- Two port records with the same settings, presence and check flag. -/
def Port.SameSettings (p q : Port) : Prop :=
  q.function = p.function ∧ q.intercept = p.intercept ∧ q.present = p.present ∧ q.check = p.check

/-- Two riser controllers with the same settings, line condition and station table. -/
def Riser.SameSettings (x y : Riser) : Prop :=
  y.line = x.line ∧ y.survey = x.survey ∧ y.quietAllowed = x.quietAllowed ∧
    y.surveyStepMs = x.surveyStepMs ∧ y.quietIdleS = x.quietIdleS ∧ y.stations = x.stations ∧
    y.surveyPos = x.surveyPos

/-! ## The end of an event: free lines are looked at (R74, R78, R87, R132, R173) -/

/-- R79: the entry that the sending rule gives, markers passed over: the oldest frame; when that is a
solicited one and four requests are outstanding, it is stalled, and the oldest advisory goes in its
place. -/
def Riser.nextFrame (x : Riser) : Option QueueEntry :=
  match x.frames.head? with
  | some (.solicited f) =>
    if x.outstanding.length < 4 then some (.solicited f) else x.frames.find? QueueEntry.isAdvisory
  | e => e

/-- R78, R79, R80, R82: a free line has been given what it may send next. A resend that is due goes first,
in the order of the expiries, and repeats the frame of its record; with none due the entry that the sending
rule gives goes out, a solicited one with the tag at the head of the free ones and a new record of attempt 1
with no timer yet. -/
structure RiserServed (x y : Riser) : Prop where
  active : x.link = .active
  free   : x.tx = none ∧ x.receiving = none
  sent   :
    (∃ tag f, x.resends = tag :: y.resends ∧ y.tx = some (.resend (.solicited tag f)) ∧
      x.frameOf tag = some f ∧ y.outstanding = x.outstanding ∧ y.freeTags = x.freeTags) ∨
    (∃ f, x.resends = [] ∧ y.resends = [] ∧ x.nextFrame = some (.advisory f) ∧
      y.tx = some (.entry (.advisory f)) ∧ y.outstanding = x.outstanding ∧
      y.freeTags = x.freeTags) ∨
    ∃ tag f, x.resends = [] ∧ y.resends = [] ∧ x.nextFrame = some (.solicited f) ∧
      y.tx = some (.entry (.solicited tag f)) ∧ x.freeTags = tag :: y.freeTags ∧
      x.outstanding.length < 4 ∧
      y.outstanding = x.outstanding ++
        [{ tag := tag, frame := f, attempt := 1, cancelPending := false, timer := none }]

/-- R78, R79, R82: the line of an ACTIVE riser that was free is not left idle: the resend that is due
first, else the entry that the sending rule gives, is in transmission. -/
structure NotLeftIdle (x y : Riser) : Prop where
  resend    : ∀ tag rest f, x.resends = tag :: rest → x.frameOf tag = some f →
    y.tx = some (.resend (.solicited tag f)) ∧ y.resends = rest
  advisory  : ∀ f, x.resends = [] → x.nextFrame = some (.advisory f) →
    y.tx = some (.entry (.advisory f))
  solicited : ∀ f tag rest, x.resends = [] → x.nextFrame = some (.solicited f) →
    x.freeTags = tag :: rest → y.tx = some (.entry (.solicited tag f)) ∧ y.freeTags = rest

/-- A line on which nothing has been started: its transmission, requests, resends and tags as they were. -/
def Riser.SameLine (x y : Riser) : Prop :=
  y.tx = x.tx ∧ y.outstanding = x.outstanding ∧ y.resends = x.resends ∧ y.freeTags = x.freeTags

/-- R74: the link state and the timers are the same, but on a riser that has gone QUIET: its run-out mark
was set, quiet is allowed, and it has nothing to send and no reply to wait for. -/
def Riser.SameOrQuiet (x y : Riser) : Prop :=
  (y.link = x.link ∧ y.idleTimer = x.idleTimer ∧ y.stepTimer = x.stepTimer ∧ y.runOut = x.runOut) ∨
  (x.link = .active ∧ x.runOut = true ∧ x.quietAllowed = true ∧ x.frames = [] ∧ x.outstanding = [] ∧
    y.link = .quiet ∧ y.idleTimer = none ∧ y.stepTimer = none ∧ y.runOut = false)

/-- What looking at the free lines leaves of one riser controller: at most one transmission has started,
its timers run on, and it may have gone QUIET. -/
structure RiserSettled (x y : Riser) : Prop where
  settings   : x.SameSettings y
  wakeTimer  : y.wakeTimer = x.wakeTimer
  receiving  : y.receiving = x.receiving
  overrunDue : y.overrunDue = x.overrunDue
  frames     : y.frames = x.frames
  line       : x.SameLine y ∨ RiserServed x y
  link       : x.SameOrQuiet y

/-- What it leaves of one port record. -/
structure PortSettled (p q : Port) : Prop where
  settings    : p.SameSettings q
  lastDisplay : q.lastDisplay = p.lastDisplay
  receiving   : q.receiving = p.receiving
  shows       : ∀ d, p.Shows d → q.Shows d
  rings       : ∀ l, p.Rings l → q.Rings l

/-- What looking at the free lines leaves of the state. -/
structure Settled (s t : State) : Prop where
  pending    : t.pending = s.pending
  clock      : t.clock = s.clock
  resetHeld  : t.resetHeld = s.resetHeld
  dir        : t.dir = s.dir
  psw        : t.psw = s.psw
  locks      : t.locks = s.locks
  times      : t.ccu.times = s.ccu.times
  intercept  : t.ccu.intercept = s.ccu.intercept
  routes     : t.ntu.routes = s.ntu.routes
  lost       : t.ntu.lost = s.ntu.lost
  rx         : t.hlp.rx = s.hlp.rx
  rxDeadline : t.hlp.rxDeadline = s.hlp.rxDeadline
  buffer     : t.hlp.buffer = s.hlp.buffer
  startDue   : t.hlp.startDue = s.hlp.startDue
  replies    : s.hlp.replyLine <+: t.hlp.replyLine
  notices    : t.noticeLine = s.noticeLine
  slots      : ∀ i, (s.slot i).SameButSending (t.slot i)
  ports      : ∀ p, PortSettled (s.port p) (t.port p)
  risers     : ∀ r, RiserSettled (s.riser r) (t.riser r)

/-- What no event of a call, a panel or a riser changes: what the host has set, what the host link
receives, and the wires of the outside. -/
structure ConfigKept (s t : State) : Prop where
  pending   : t.pending = s.pending
  resetHeld : t.resetHeld = s.resetHeld
  windows   : t.dir.windows = s.dir.windows ∧ t.dir.flatServed = s.dir.flatServed
  flats     : ∀ i, t.flat i = { s.flat i with privacy := (t.flat i).privacy }
  times     : t.ccu.times = s.ccu.times
  intercept : t.ccu.intercept = s.ccu.intercept
  routes    : t.ntu.routes = s.ntu.routes
  buffer    : t.hlp.buffer = s.hlp.buffer
  startDue  : t.hlp.startDue = s.hlp.startDue
  received  : ReceiveKept s t
  functions : ∀ p, (t.port p).function = (s.port p).function ∧
    (t.port p).intercept = (s.port p).intercept
  settings  : ∀ r, (t.riser r).survey = (s.riser r).survey ∧
    (t.riser r).quietAllowed = (s.riser r).quietAllowed ∧
    (t.riser r).surveyStepMs = (s.riser r).surveyStepMs ∧
    (t.riser r).quietIdleS = (s.riser r).quietIdleS
  lockTimes : ∀ p, (t.lock p).releaseTime = (s.lock p).releaseTime

/-- What an event of a call alone leaves as it was, beyond `ConfigKept`. -/
structure CallEventKept (s t : State) : Prop where
  config : ConfigKept s t
  dir    : t.dir = s.dir
  locks  : t.locks = s.locks
  ports  : ∀ p, (s.port p).SameSettings (t.port p)
  risers : ∀ r, (s.riser r).SameSettings (t.riser r)

/-- What a SET RISER for a riser leaves as it was: every other riser but for its line, the paths, the
locks, the calls but for their offers, and everything the host set elsewhere. -/
structure RiserRequestKept (s t : State) (r : RiserIx) : Prop where
  pending   : t.pending = s.pending
  clock     : t.clock = s.clock
  resetHeld : t.resetHeld = s.resetHeld
  psw       : t.psw = s.psw
  locks     : t.locks = s.locks
  windows   : t.dir.windows = s.dir.windows ∧ t.dir.flatServed = s.dir.flatServed
  flats     : ∀ i, t.flat i = { s.flat i with privacy := (t.flat i).privacy }
  times     : t.ccu.times = s.ccu.times
  intercept : t.ccu.intercept = s.ccu.intercept
  slots     : ∀ i, (t.slot i).generation = (s.slot i).generation ∧
    (t.slot i).lastEnd = (s.slot i).lastEnd ∧
    ((t.slot i).call.map fun c => { c with offers := [] }) =
      ((s.slot i).call.map fun c => { c with offers := [] })
  routes    : t.ntu.routes = s.ntu.routes
  ports     : ∀ p, (s.port p).SameSettings (t.port p) ∧
    (t.port p).lastDisplay = (s.port p).lastDisplay
  risers    : ∀ x, x ≠ r → RiserSettled (s.riser x) (t.riser x)

/-! ## Starts -/

/-- What every block holds after a cold start (R32, R51, R67, R97, R137, R138, R166, R186, R193). -/
structure ColdValues (s : State) : Prop where
  slots     : ∀ i, s.slot i = { generation := 0, lastEnd := none, call := none }
  times     : s.ccu.times = { flatRing := 30, deskRing := 20, pathWait := 15, talk := 120 }
  intercept : s.ccu.intercept = false
  served    : s.dir.flatServed = false
  windows   : ∀ i, s.dir.windows.read i =
    { enabled := false, base := 0, span := 0, stride := 0, rowSize := 0, firstFlat := 0 }
  flats     : ∀ i, s.flat i =
    { inService := false, riser := 0, firstStation := 0, handsetCount := 0, divert := false,
      doors := 0, hostPrivacy := false, privacy := false }
  paths     : ∀ r, s.paths r = { holderA := none, holderB := none, queue := [] }
  holds     : ∀ p, s.hold p = none
  joins     : s.psw.joins = []
  deskQueue : s.psw.deskQueue = []
  risers    : ∀ r, s.riser r =
    { link := .disabled, line := (s.riser r).line, survey := false, quietAllowed := false,
      surveyStepMs := 500, quietIdleS := 60, queue := [], outstanding := [], resends := [],
      freeTags := List.range 16, stations := (s.riser r).stations, surveyPos := 1,
      idleTimer := none, runOut := false, stepTimer := none, wakeTimer := none, tx := none,
      receiving := none, overrunDue := false }
  stations  : ∀ r a, (s.riser r).stations.read a = { presence := .unknown, privacy := false }
  ports     : ∀ p, s.port p =
    { function := .off, intercept := false, present := (s.port p).present, check := true,
      lastDisplay := .ready, displaySlot := none, ringSlot := none, alertSlot := none, tx := none,
      receiving := none }
  locks     : ∀ p, s.lock p = { state := .secure, claim := none, releaseTime := 5, timer := none }
  routes    : ∀ k, s.ntu.routes.read k = .host
  lost      : s.ntu.lost = false

/-- R180: the host link port after any start, but for what its transmitter has begun since. -/
structure LinkStarted (s : State) : Prop where
  rx         : s.hlp.rx = .hunting
  rxDeadline : s.hlp.rxDeadline = none
  buffer     : s.hlp.buffer = []
  startDue   : s.hlp.startDue = none
  syncs      : s.hlp.syncs = []
  replies    : s.hlp.replyLine = []

/-- What a warm start makes of a state (R33, R52, R68, R98, R132, R137, R166, R186, R193). On the panel
lines a desk set is sent RING(off) first and READY waits behind it; an entrance panel is sent READY. That
overrun processing still due is dropped is log entry 10, DESIGN CHOICE. -/
structure WarmValues (s t : State) : Prop where
  slots     : ∀ i, t.slot i =
    { generation := (s.slot i).generation, lastEnd := none, call := none }
  times     : t.ccu.times = s.ccu.times
  intercept : t.ccu.intercept = s.ccu.intercept
  dir       : t.dir = s.dir
  paths     : ∀ r, t.paths r = { holderA := none, holderB := none, queue := [] }
  holds     : ∀ p, t.hold p = none
  joins     : t.psw.joins = []
  deskQueue : t.psw.deskQueue = []
  risers    : ∀ r,
    let x := s.riser r
    let link : LinkState :=
      if x.link = .disabled then .disabled else if x.line = .good then .active else .faulted
    t.riser r =
      { link := link, line := x.line, survey := x.survey, quietAllowed := x.quietAllowed,
        surveyStepMs := x.surveyStepMs, quietIdleS := x.quietIdleS, queue := [], outstanding := [],
        resends := [], freeTags := List.range 16, stations := (t.riser r).stations, surveyPos := 1,
        idleTimer := if link = .active then some (s.clock + x.quietIdleS * 1000) else none,
        runOut := false,
        stepTimer :=
          if link = .active ∧ x.survey = true then some (s.clock + x.surveyStepMs) else none,
        wakeTimer := none, tx := none, receiving := none, overrunDue := false }
  stations  : ∀ r a, (t.riser r).stations.read a =
    { presence := .unknown, privacy := ((s.riser r).stations.read a).privacy }
  ports     : ∀ p,
    let x := s.port p
    let works := x.present = true ∧ x.function ≠ .off
    t.port p =
      { function := x.function, intercept := x.intercept, present := x.present, check := x.check,
        lastDisplay := .ready,
        displaySlot := if works ∧ x.function = .concierge then some .ready else none,
        ringSlot := none, alertSlot := none,
        tx :=
          if works then
            if x.function = .concierge then some (.ring .off) else some (.display .ready)
          else none,
        receiving := none }
  locks     : ∀ p, t.lock p =
    match (s.lock p).claim with
    | some (.call _) =>
      { state := .secure, claim := none, releaseTime := (s.lock p).releaseTime, timer := none }
    | _ => s.lock p
  routes    : t.ntu.routes = s.ntu.routes
  lost      : t.ntu.lost = false

/-! ## Events and their routes (R27, R184, R192, R201) -/

/-- R27, R201: what goes with each end class and cause: the CANCEL reason to handsets, the origin display
and the code of the event kind. -/
def EndReason.table : EndReason → CancelReason × Display × Nat
  | .clearedAnswererHungUp | .clearedCaller | .clearedDesk => (.cleared, .ready, 0x42)
  | .cancelled => (.callerGone, .ready, 0x42)
  | .forced => (.cleared, .ready, 0x42)
  | .timeLimit => (.timeLimit, .ready, 0x42)
  | .noAnswerFlat | .noAnswerDesk => (.callerGone, .noAnswer, 0x43)
  | .noPathChannel | .noPathDesk => (.callerGone, .busy, 0x43)
  | .declinedEngaged | .declinedPrivacy | .declinedAllRefused => (.callerGone, .declined, 0x43)
  | .unreachableRiserOff | .unreachableNoStation | .unreachableNoReply =>
    (.callerGone, .noAnswer, 0x43)
  | .invalidCode _ => (.callerGone, .invalid, 0x43)
  | .faultPanelLost | .faultDeskLost | .faultRiserFault | .faultRiserOverrun =>
    (.callerGone, .fault, 0x44)

/-- R192, R201: the code of an event's kind. -/
def Event.number : Event → Nat
  | .callStarted .. => 0x40
  | .callAnswered .. => 0x41
  | .callEnded _ _ _ _ _ _ why => why.table.2.2
  | .callRefused .. => 0x45
  | .doorReleased .. => 0x46
  | .doorSecured .. => 0x47
  | .doorDenied .. => 0x48
  | .panelChange .. => 0x49
  | .stationChange .. => 0x4A
  | .privacyChange .. => 0x4B
  | .riserChange .. => 0x4C

/-- R187, R188: the notice unit when an event has been offered to its queue: with fewer than 32 notices
there it is added at the tail, with the lost mark if the lost flag was set, which is cleared; with 32 it is
discarded and the flag is set. -/
def Ntu.offered (n : Ntu) (e : Event) : Ntu :=
  if n.notices.length < 32 then
    { n with notices := n.notices ++ [{ lostMark := n.lost, content := .event e }], lost := false }
  else { n with lost := true }

/-! ## Frames given to a riser (R75, R77, R83, R84) -/

/-- R83: the entry is a CANCEL that names the station and the call of this request's OFFER. -/
def QueueEntry.cancels : QueueEntry → Solicited → Bool
  | .advisory (.cancel a _ (some r)), f => f.isOfferOf a r
  | _, _ => false

/-- R84: the frames of a riser's queue once the waiting OFFER of a call to each of these stations has been
withdrawn. -/
def Riser.framesWithout (x : Riser) (r : Ref) (stations : List Nat) : List QueueEntry :=
  let left := stations.foldl (fun q a => q.eraseP fun i => i.isWaitingOffer a r) x.queue
  (left.map fun i => i.entry).filter QueueEntry.isFrame

/-- R83: the outstanding requests once these frames have been queued: an OFFER that a CANCEL among them
names is cancel-pending, and its reply timer starts if its resend was due. -/
def Riser.requestsGiven (x : Riser) (now : Nat) (es : List QueueEntry) : List Outstanding :=
  x.outstanding.map fun o =>
    if es.any fun e => e.cancels o.frame then
      { o with cancelPending := true
               timer := if o.tag ∈ x.resends then some (now + 250) else o.timer }
    else o

/-- R83: the resends still due then. -/
def Riser.resendsGiven (x : Riser) (es : List QueueEntry) : List Nat :=
  x.resends.filter fun t =>
    !x.outstanding.any fun o => decide (o.tag = t) && es.any fun e => e.cancels o.frame

/-- R75, R77, R83, R84: what an event leaves of a riser from which the waiting OFFERs of a call to some
stations are withdrawn and which is then given these frames: the queue without those OFFERs and with the
frames at its tail; the cancel-pending marks (where each outstanding request has a tag of its own, R80);
and a QUIET riser that is given a frame is WAKING, its wake timer at 200 ms. A free line may then have
started a transmission. -/
structure FramesGiven (x y : Riser) (now : Nat) (r : Ref) (withdrawn : List Nat)
    (es : List QueueEntry) : Prop where
  frames   : y.frames = x.framesWithout r withdrawn ++ es
  requests : (x.outstanding.map fun o => o.tag).Nodup →
    x.requestsGiven now es <+: y.outstanding ∧ y.resends <:+ x.resendsGiven es
  busy     : (x.outstanding.map fun o => o.tag).Nodup → x.link ≠ .active ∨ x.tx ≠ none →
    y.outstanding = x.requestsGiven now es ∧ y.resends = x.resendsGiven es
  wakes    : x.link = .quiet → es ≠ [] → y.link = .waking ∧ y.wakeTimer = some (now + 200)

/-- The stations of a call whose offer is still QUEUED. -/
def Call.queuedStations (c : Call) : List Nat :=
  (c.offers.filter fun o => decide (o.status = .queued)).map fun o => o.station

/-! ## Ends and offers of calls -/

/-- No call but this one waits for what its end would free, so that the end grants nothing. -/
def State.NoWaiters (s : State) (r : Ref) (c : Call) : Prop :=
  (∀ q ∈ s.psw.deskQueue, q = r) ∧
    ∀ ch, c.channel = some ch → ∀ q ∈ (s.paths ch.riser).queue, q = r

/-- R13, R28: the CANCEL frames that go with an end, in ascending order of station: to the answerer
unless it hung up, and to every other station whose offer is SENT or RINGING. -/
def Call.cancelsAtEnd (c : Call) (r : Ref) (why : EndReason) : List QueueEntry :=
  c.offers.filterMap fun o =>
    if c.answerer = some o.station then
      if why = .clearedAnswererHungUp then none
      else some (.advisory (.cancel o.station why.cancelReason (some r)))
    else if o.status = .sent ∨ o.status = .ringing then
      some (.advisory (.cancel o.station why.cancelReason (some r)))
    else none

/-- R84: the OFFER of a call to a station waits in a riser's queue, not in transmission. -/
def Riser.HoldsOffer (x : Riser) (a : Nat) (r : Ref) : Prop :=
  ∃ k o, { entry := .solicited (.offer a r k o), sending := false } ∈ x.queue

/-- R27, R28, R29: the call has ended for this reason, and nothing but what it held has changed. At its
riser the OFFERs still QUEUED are withdrawn and the CANCEL frames are given (R75, R83, R84). -/
structure Ended (s t : State) (r : Ref) (c : Call) (why : EndReason) : Prop where
  slot      : t.slot r.slot = { generation := r.gen, lastEnd := some why, call := none }
  others    : ∀ i, i ≠ r.slot → (s.slot i).SameButSending (t.slot i)
  origin    : t.hold c.origin = none
  desk      : ∀ p, c.deskPort = some p → t.hold p = none
  holds     : ∀ p, p ≠ c.origin → c.deskPort ≠ some p → t.hold p = s.hold p
  channels  : ∀ x, t.paths x =
    { holderA := if c.channel = some { riser := x, side := .a } then none else (s.paths x).holderA
      holderB := if c.channel = some { riser := x, side := .b } then none else (s.paths x).holderB
      queue := (s.paths x).queue.filter fun q => q ≠ r }
  joins     : t.psw.joins = s.psw.joins.filter fun j => j.call ≠ r
  deskQueue : t.psw.deskQueue = s.psw.deskQueue.filter fun q => q ≠ r
  shows     : (s.port c.origin).function ≠ .off → c.deskPort ≠ some c.origin →
    (t.port c.origin).Shows why.display
  deskShows : ∀ p, c.deskPort = some p → (s.port p).function ≠ .off → (t.port p).Shows .ready
  deskRings : ∀ p, c.deskPort = some p → (s.port p).function = .concierge →
    (s.port p).present = true → (t.port p).Rings .off
  raises    : Raises s t [.callEnded r c.kind c.origin c.code c.flat c.answerer why]
  cancels   : ∀ x, s.riserOfCall c = some x → why.isRiserFailure = false →
    (s.riser x).link.isOff = false → (s.riser x).overrunDue = false →
    (s.riser x).queue.length + (c.cancelsAtEnd r why).length ≤
      32 + (c.offers.filter fun o => decide (o.status = .queued)).length →
    (∀ o ∈ c.offers, o.status = .queued → (s.riser x).HoldsOffer o.station r) →
    (c.offers.map fun o => o.station).Nodup →
    FramesGiven (s.riser x) (t.riser x) t.clock r c.queuedStations (c.cancelsAtEnd r why)

/-- R11, R42, R109: the stations a flat's call is offered to: those not ABSENT, in ascending order. -/
def State.stationsToOffer (s : State) (i : FlatIx) : List Nat :=
  (List.range' (s.flat i).firstStation (s.flat i).handsetCount).filter fun a =>
    decide (((s.riser (s.flat i).riser).station a).presence ≠ .absent)

/-- R11, R75: the call was granted the channel and offers its flat; a QUIET riser wakes. -/
structure Offering (s t : State) (r : Ref) (c : Call) (i : FlatIx) (ch : Channel) : Prop where
  record  : ∃ os, t.call? r = some
      { c with flat := some i, leg := .flat, state := .offering, waitingFor := none,
               timer := none, channel := some ch, offers := os } ∧
    os.map (fun o => o.station) = s.stationsToOffer i ∧
    ∀ o ∈ os, o.status = .queued ∧ o.tag = none ∨ o.status = .sent ∧ o.tag ≠ none
  channel : t.paths ch.riser = (s.paths ch.riser).setHolder ch.side (some r)
  others  : ∀ x, x ≠ ch.riser → t.paths x = s.paths x
  given   : FramesGiven (s.riser ch.riser) (t.riser ch.riser) t.clock r []
    ((s.stationsToOffer i).map fun a => .solicited (.offer a r c.kind c.origin))
  shows   : (s.port c.origin).function ≠ .off → (t.port c.origin).Shows .calling

/-- R9: a call passes the flat-leg entry checks: no other call past WAITING on its FLAT leg for the flat,
privacy off, a riser in working order, a station that is not ABSENT. -/
structure PassesChecks (s : State) (r : Ref) (i : FlatIx) : Prop where
  alone   : ∀ j d, j ≠ r.slot → (s.slot j).call = some d → d.leg = .flat → d.flat = some i →
    d.state = .waiting
  privacy : (s.flat i).privacy = false
  link    : (s.riser (s.flat i).riser).link.isOff = false
  heard   : s.stationsToOffer i ≠ []

/-- R9: the flat-leg entry checks fail, and the call meets the end that the first failed check gives. -/
def FlatLegFails (s : State) (r : Ref) (i : FlatIx) (ends : EndReason → Prop) : Prop :=
  let engaged := ∃ j d, j ≠ r.slot ∧ (s.slot j).call = some d ∧ d.leg = .flat ∧ d.flat = some i ∧
    d.state ≠ .waiting
  let off := (s.riser (s.flat i).riser).link.isOff
  (engaged → ends .declinedEngaged) ∧
  (¬ engaged → (s.flat i).privacy = true → ends .declinedPrivacy) ∧
  (¬ engaged → (s.flat i).privacy = false → off = true → ends .unreachableRiserOff) ∧
  (¬ engaged → (s.flat i).privacy = false → off = false → s.stationsToOffer i = [] →
    ends .unreachableNoStation)

/-- R10, R25, R55: the call waits at the tail of the channel wait queue of its flat's riser, with its
path wait timer started, and the panel shows WAIT. No riser, no other path and no desk is touched. -/
structure WaitsForChannel (s t : State) (r : Ref) (c : Call) (i : FlatIx) : Prop where
  record  : t.call? r = some
      { c with flat := some i, leg := .flat, state := .waiting, waitingFor := some .channel
               timer := some { kind := .pathWait
                               expiry := s.clock + s.ccu.times.pathWait * 1000 } }
  queued  : t.paths (s.flat i).riser = { s.paths (s.flat i).riser with
      queue := (s.paths (s.flat i).riser).queue ++ [r] }
  others  : ∀ x, x ≠ (s.flat i).riser → t.paths x = s.paths x
  frames  : ∀ x, (t.riser x).frames = (s.riser x).frames
  shows   : (s.port c.origin).function ≠ .off → (t.port c.origin).Shows .wait

/-- R9, R54, R77: what a call needs to be offered to its flat at once: it passes the checks, a channel is
FREE, and there is room for the frames. -/
structure MayOffer (s : State) (r : Ref) (i : FlatIx) (ch : Channel) : Prop where
  checks  : PassesChecks s r i
  riser   : ch.riser = (s.flat i).riser
  free    : (s.paths ch.riser).holder ch.side = none
  first   : ch.side = .b → (s.paths ch.riser).holderA ≠ none
  overrun : (s.riser ch.riser).overrunDue = false
  room    : (s.riser ch.riser).queue.length + (s.stationsToOffer i).length ≤ 32

/-- R60, R62, R140: a desk port has been granted to a call: it is held with role DESK, rings for the
call and shows RINGING; the call is RINGING there with its desk ring timer started. -/
structure DeskGranted (s t : State) (p : PortIx) (r : Ref) (c : Call) : Prop where
  hold   : t.hold p = some { call := r, role := .desk }
  record : t.call? r = some
      { c with state := .ringing, waitingFor := none, deskPort := some p
               timer := some { kind := .deskRing
                               expiry := s.clock + s.ccu.times.deskRing * 1000 } }
  rings  : (t.port p).Rings (.on c.origin c.kind c.flat)
  shows  : (t.port p).Shows .ringing
  origin : (s.port c.origin).function ≠ .off → (t.port c.origin).Shows .ringing

/-! ## A station heard (R74, R76, R91, R92) -/

/-- A riser that has received a frame of a station, before the frame is handled by its kind: the station is
PRESENT, a QUIET or WAKING riser is ACTIVE with its timers started, and a frame that restarts the idle
timer has done so. -/
def Riser.heard (x : Riser) (now a : Nat) (restarts : Bool) : Riser :=
  let wakes := x.link = .quiet ∨ x.link = .waking
  { x with
    link := .active
    receiving := none
    wakeTimer := if wakes then none else x.wakeTimer
    idleTimer := if restarts ∨ wakes then some (now + x.quietIdleS * 1000) else x.idleTimer
    runOut := if restarts ∨ wakes then false else x.runOut
    stepTimer := if wakes ∧ x.survey then some (now + x.surveyStepMs) else x.stepTimer
    stations := (x.modifyStation a fun t => { t with presence := .present }).stations }

/-- The state in which that frame is then handled: the riser has received it, and STATION_CHANGE has been
raised if the station was ABSENT. -/
def State.heard (s : State) (x : RiserIx) (a : Nat) (restarts : Bool) : State :=
  let t : State := { s with risers := s.risers.write x ((s.riser x).heard s.clock a restarts) }
  if ((s.riser x).station a).presence = .absent then t.emit (.stationChange x a .present) else t

/-- R74: an ACTIVE riser at the end of an event that left its timers alone. It is QUIET if its run-out mark
was set, quiet is allowed and it has nothing left to do; otherwise it stays ACTIVE and its timers run on. -/
def Riser.QuietIf (x y : Riser) (idle : Prop) : Prop :=
  let goes := x.runOut = true ∧ x.quietAllowed = true ∧ idle
  (goes → y.link = .quiet ∧ y.idleTimer = none ∧ y.stepTimer = none ∧ y.runOut = false) ∧
    (¬ goes → y.link = .active ∧ y.idleTimer = x.idleTimer ∧ y.stepTimer = x.stepTimer ∧
      y.runOut = x.runOut)

/-! ## A station's privacy flag (R48, R105 to R108) -/

/-- R48: the privacy of a flat on this riser with the flag of one station at this value. -/
def Flat.privacyWith (f : Flat) (x : Riser) (a : Nat) (v : Bool) : Bool :=
  f.hostPrivacy || f.stations.any fun b => if b = a then v else (x.station b).privacy

/-- R48, R108: the PRIVACY_CHANGE events when the flag of a station takes a value: none when it has that
value already, else one for each flat of the station whose privacy differs then, in ascending order. -/
def State.flagEvents (s : State) (x : RiserIx) (a : Nat) (v : Bool) : List Event :=
  if ((s.riser x).station a).privacy = v then [] else
    (List.finRange 256).filterMap fun i =>
      let w := (s.flat i).privacyWith (s.riser x) a v
      if (s.flat i).riser = x ∧ a ∈ (s.flat i).stations ∧ (s.flat i).privacy ≠ w then
        some (.privacyChange i w) else none

/-- R48, R105: the flag of a station has taken a value; the privacy of each flat the station belongs to
follows a change of it, and no other station of the riser and nothing else of the directory changes. -/
structure FlagTaken (s t : State) (x : RiserIx) (a : Nat) (v : Bool) : Prop where
  flag    : ((t.riser x).station a).privacy = v
  others  : ∀ b, b ≠ a → (t.riser x).station b = (s.riser x).station b
  flats   : ∀ i, t.flat i =
    if ((s.riser x).station a).privacy ≠ v ∧ (s.flat i).riser = x ∧ a ∈ (s.flat i).stations then
      { s.flat i with privacy := (s.flat i).privacyWith (s.riser x) a v }
    else s.flat i
  windows : t.dir.windows = s.dir.windows ∧ t.dir.flatServed = s.dir.flatServed
  same    : ((s.riser x).station a).privacy = v → t.dir = s.dir

/-! ## Completions (R13 to R16) -/

/-- The SENT offer with this tag that a completion names. -/
def Offer.Named (o : Offer) (a tag : Nat) : Prop :=
  o.station = a ∧ o.tag = some tag ∧ o.status = .sent

/-- R14, R15: the record with the offer a completion names marked with the result. That it loses its tag
is DEDUCED (log entry 25). -/
def Call.marked (c : Call) (a tag : Nat) (result : OfferStatus) : Call :=
  { c with offers := c.offers.map fun o =>
      if o.station = a ∧ o.tag = some tag ∧ o.status = .sent then
        { o with status := result, tag := none } else o }

/-- An offer is in progress while it is QUEUED, SENT or RINGING (R15). -/
def Offer.Open (o : Offer) : Prop := o.status = .queued ∨ o.status = .sent ∨ o.status = .ringing

/-- R15: a completion with a result other than RINGING has been taken. A call that is OFFERING and has no
other offer in progress has ended, DECLINED / ALL_REFUSED when some offer is ENGAGED or REFUSED and
UNREACHABLE / NO_REPLY otherwise (with no call waiting for what is freed); any other call has the mark
and goes on. -/
def CompletionTaken (u t : State) (r : Ref) (c : Call) (a tag : Nat) (result : OfferStatus) : Prop :=
  let d := c.marked a tag result
  (c.state = .offering → (∀ o ∈ d.offers, ¬ o.Open) → u.NoWaiters r c →
    ((∃ o ∈ d.offers, o.status = .engaged ∨ o.status = .refused) →
      Ended u t r d .declinedAllRefused) ∧
    ((∀ o ∈ d.offers, o.status ≠ .engaged ∧ o.status ≠ .refused) →
      Ended u t r d .unreachableNoReply)) ∧
  ((c.state ≠ .offering ∨ ∃ o ∈ d.offers, o.Open) →
    (∃ e, t.call? r = some e ∧ d.SameButSending e) ∧
    (∀ j, j ≠ r.slot → (u.slot j).SameButSending (t.slot j)) ∧ t.psw = u.psw ∧ Raises u t [])

/-! ## A riser emptied (R57, R73, R88, R90) -/

/-- R57: the calls on a riser, in the order a failure of the riser ends them. -/
def State.callsOn (s : State) (x : RiserIx) : List Ref :=
  (s.paths x).queue ++ (s.paths x).holderA.toList ++ (s.paths x).holderB.toList

/-- The CALL_ENDED events of calls that end for one reason, in order. -/
def State.endEvents (s : State) (why : EndReason) (rs : List Ref) : List Event :=
  rs.filterMap fun r => (s.call? r).map fun d =>
    .callEnded r d.kind d.origin d.code d.flat d.answerer why

/-- R48: the PRIVACY_CHANGE events when the flags of all stations of a riser are cleared: one for each
flat of the riser whose privacy is not its host privacy, in ascending order. -/
def State.privacyEvents (s : State) (x : RiserIx) : List Event :=
  (List.finRange 256).filterMap fun i =>
    if (s.flat i).riser = x ∧ (s.flat i).privacy ≠ (s.flat i).hostPrivacy then
      some (.privacyChange i (s.flat i).hostPrivacy) else none

/-- R73, R88, R90: a riser has been emptied: no entry, no request, nothing in transmission, its tags at
the tail of the free ones, its stations UNKNOWN. -/
structure RiserEmptied (x y : Riser) : Prop where
  queue       : y.queue = []
  outstanding : y.outstanding = []
  resends     : y.resends = []
  tx          : y.tx = none
  freeTags    : y.freeTags = x.freeTags ++ x.outstanding.map fun o => o.tag
  stations    : ∀ a, y.stations.read a = { presence := .unknown, privacy := false }

/-- R57: every call on a riser has ended for this reason, and nothing but the riser, what those calls
held, the offers of other calls and the privacy of the riser's flats has changed. -/
structure RiserFailed (s t : State) (x : RiserIx) (why : EndReason) : Prop where
  ended     : ∀ r ∈ s.callsOn x, ∀ d, s.call? r = some d →
    t.slot r.slot = { generation := r.gen, lastEnd := some why, call := none } ∧
      t.hold d.origin = none ∧
      ((s.port d.origin).function ≠ .off → (t.port d.origin).Shows why.display)
  others    : ∀ j, (∀ r ∈ s.callsOn x, r.slot ≠ j) →
    (t.slot j).generation = (s.slot j).generation ∧ (t.slot j).lastEnd = (s.slot j).lastEnd ∧
      ((t.slot j).call.map fun c => { c with offers := [] }) =
        ((s.slot j).call.map fun c => { c with offers := [] })
  paths     : t.paths x = { holderA := none, holderB := none, queue := [] }
  elsewhere : ∀ y, y ≠ x → t.paths y = s.paths y
  holds     : ∀ p, (∀ r ∈ s.callsOn x, ∀ d, s.call? r = some d → d.origin ≠ p) →
    t.hold p = s.hold p
  joins     : t.psw.joins = s.psw.joins.filter fun j => j.call ∉ s.callsOn x
  deskQueue : t.psw.deskQueue = s.psw.deskQueue
  flats     : ∀ i, t.flat i =
    if (s.flat i).riser = x then { s.flat i with privacy := (s.flat i).hostPrivacy } else s.flat i
  config    : ConfigKept s t
  clock     : t.clock = s.clock
  locks     : t.locks = s.locks
  ports     : ∀ p, (s.port p).SameSettings (t.port p)
  risers    : ∀ y, y ≠ x → RiserSettled (s.riser y) (t.riser y)

/-- R73: an offer after the completions of a riser that is cleared out: NO_REPLY when its request was
outstanding, NO_STATION when its OFFER waited in the queue, and otherwise as it was. -/
def Offer.cleared (o : Offer) (x : Riser) (r : Ref) (answerer : Option Nat) : Offer :=
  if o.status = .sent ∧ answerer ≠ some o.station ∧
      (x.outstanding.any fun q => q.frame.isOfferOf o.station r && decide (o.tag = some q.tag)) then
    { o with status := .noReply, tag := none }
  else if o.status = .queued ∧ (x.queue.any fun i => i.isWaitingOffer o.station r) then
    { o with status := .noStation, tag := none }
  else o

/-- The number of a marker. -/
def QueueItem.marker? (i : QueueItem) : Option Nat :=
  match i.entry with
  | .marker n => some n
  | _ => none

/-- The numbers of the markers in a riser's queue, head first. -/
def Riser.markers (x : Riser) : List Nat := x.queue.filterMap QueueItem.marker?

/-- R87: the markers that no advisory stands ahead of, which complete at once. -/
def Riser.markersFree (x : Riser) : List Nat :=
  (x.queue.takeWhile fun i => !i.entry.isAdvisory).filterMap QueueItem.marker?

/-- R87: the markers that an advisory stands ahead of, which wait. -/
def Riser.markersHeld (x : Riser) : List Nat :=
  (x.queue.dropWhile fun i => !i.entry.isAdvisory).filterMap QueueItem.marker?

end Sys2Proof.Machine
end

