-- ==== Sys2Proof/Certificates/Slice0/Obligations.lean ====
section
/-!
DEFINITION. The statements for the provers. Each says, for every state and every operand that meets
its hypotheses, what a command leaves; the vocabulary is that of Safety.lean.

Three phrases return. `s.Takes`: a request that arrives now is taken at once, for none waits before it
and the conditions of R169 hold. `Settled u t`: `t` is `u` after the free lines have been looked at, and
nothing else. `Raises s t es`: the events `es` were raised in this order, and no other.
-/

open Sys2Proof Sys2Proof.Machine

/-! ## The machine -/

/-- A step with a command waiting is `exec` of the command at the front, on the state with the rest
of the queue. The model's choice (log entry 2): with no command waiting the part takes its own next
event, and with none due a millisecond passes and the free lines are looked at. -/
def Obligations.StepRunsFrontCommand : Prop :=
  (∀ (c : Instr) (rest : List Instr) (s : State), s.pending = c :: rest →
     step s = exec c { s with pending := rest }) ∧
  (∀ s : State, s.pending = [] →
     (∀ c, s.ownCommand? = some c → step s = exec c s) ∧
     (s.ownCommand? = none → step s = .next { s with clock := s.clock + 1 }.settle))

/-- Every command, in every state, ends in a next state, and it leaves the commands that wait behind
it as they are. -/
def Obligations.ExecKeepsWaitingCommands : Prop :=
  ∀ (c : Instr) (s : State), ∃ t, exec c s = .next t ∧ t.pending = s.pending

/-- The state after reset, block by block, as the cold start tables give it. That every panel is
ABSENT, every riser line GOOD, no command waiting and the clock 0 is the model's choice (log entry
1). -/
def Obligations.ResetIsColdStart : Prop :=
  ColdValues State.reset ∧ LinkStarted State.reset ∧ State.reset.hlp.tx = .idle ∧
    State.reset.ntu.notices = [{ lostMark := false, content := .start .cold .powerUp }] ∧
    (∀ r, (State.reset.riser r).line = .good) ∧ (∀ p, (State.reset.port p).present = false) ∧
    State.reset.pending = [] ∧ State.reset.clock = 0 ∧ State.reset.resetHeld = false

/-- The state after reset keeps every law of the device. -/
def Obligations.ResetKeepsEveryLaw : Prop :=
  let s := State.reset
  s.EachRiser Riser.TagLaw ∧ s.EachRiser Riser.RoomLaw ∧ s.EachRiser Riser.LinkLaw ∧
    s.LockLaw ∧ s.PrivacyLaw ∧ s.SharingLaw ∧ s.ChannelQueueLaw ∧
    s.DeskQueueLaw ∧ s.HostLaw ∧ s.HostLinkLaw ∧ s.SlotLaw ∧ s.PathLaw

/-! ## Laws that every step keeps, from every state in which they hold -/

/-- R80, R81: no step loses or doubles a tag of a riser. -/
def Obligations.EveryStepKeepsTags : Prop := KeptByStep (State.EachRiser Riser.TagLaw)

/-- R77, R80: no step lets a riser's queue pass 32 entries or its outstanding requests pass four.
R168, R172, R187: the request buffer, the immediate replies and the notice queue keep their room.
R169, R173, R179: after every step a request waits only while a reply or a start holds it up, a reply
waits only behind a frame on the line, and nothing waits while the reset pin is held. -/
def Obligations.EveryStepKeepsRoom : Prop :=
  (KeptByStep (State.EachRiser Riser.RoomLaw)) ∧
  (KeptByStep State.HostLaw) ∧
  (KeptByStep State.HostLinkLaw)

/-- R70, R72, R74, R75, R88, R89, R90, R94: link state, line condition, idle timer, run-out mark, wake timer
and step timer of a riser agree after every step. -/
def Obligations.EveryStepKeepsLinkLaw : Prop := KeptByStep (State.EachRiser Riser.LinkLaw)

/-- R154, R155: state, claim and release timer of a lock agree, and a lock with a claim is usable. -/
def Obligations.EveryStepKeepsLockLaw : Prop := KeptByStep State.LockLaw

/-- R48, the law of the device: each flat's privacy is its host privacy OR its stations' flags. -/
def Obligations.EveryStepKeepsFlatPrivacy : Prop := KeptByStep State.PrivacyLaw

/-- R45: no step puts one station into two flats in service. -/
def Obligations.EveryStepKeepsStationsApart : Prop := KeptByStep State.SharingLaw

/-- R55, the law of the device: a channel wait queue is non-empty only while both channels are held.
R4, R53, R54, R55, R58, R60, R61: the paths and the call records agree. A channel or a speech port that
is held is held by the live call that names it, every live call holds its origin port, its channel on
its flat's riser and its desk port, a WAITING call stands in exactly one wait queue and no other call
in any, and each record holds what its state gives it. R17: a call has an answerer exactly while it is
CONNECTED on its FLAT leg. -/
def Obligations.EveryStepKeepsChannelQueueLaw : Prop :=
  (KeptByStep State.ChannelQueueLaw) ∧
  (KeptByStep State.PathLaw)

/-- R61, the law of the device: the desk wait queue is non-empty only while no port is an eligible
desk. -/
def Obligations.EveryStepKeepsDeskQueueLaw : Prop := KeptByStep State.DeskQueueLaw

/-- R123, R130, R131, R135: no step gives an ABSENT or OFF port something to send. -/
def Obligations.EveryStepKeepsPortSlots : Prop := KeptByStep State.SlotLaw

/-! ## Frames on the links -/

/-- R170, R196: the frame that carries a well-formed request is read back as that request. -/
def Obligations.RequestFrameRoundTrip : Prop :=
  ∀ (c : Instr) (f : HostFrame), c.wellFormed = true → frameOf c = some f → requestOf f = c

/-- R167, R194, R195: a hunting receiver that is given the bytes of a frame in range takes exactly
that frame and hunts again; with any other two check bytes it takes none. -/
def Obligations.ReceiverTakesWholeFrames : Prop :=
  ∀ f : HostFrame, f.body.length ≤ 62 →
    rxBytes .hunting f.bytes = (.hunting, [f]) ∧
    ∀ hi lo : Byte,
      [hi, lo] ≠ crcBytes (byteOf (f.body.length + 2) :: f.kind :: f.num :: f.body) →
      rxBytes .hunting
          (syncByte :: byteOf (f.body.length + 2) :: f.kind :: f.num :: (f.body ++ [hi, lo])) =
        (.hunting, [])

/-- R126, R198: every frame of a panel or a desk set is read as its command, whatever the digits; a
code byte above 09h makes it a discarded frame. R91, R93, R199, R200: every frame of a station with
an address of the riser is read as its command, with the reply-wanted mark set or clear; any other
kind is an unknown frame; an address outside 1 to 62 makes it bad. -/
def Obligations.PanelAndStationFramesAreRead : Prop :=
  (∀ p : PortIx,
     (∀ a b c d : Byte, a.toNat ≤ 9 → b.toNat ≤ 9 → c.toNat ≤ 9 → d.toNat ≤ 9 →
       let code := a.toNat * 1000 + b.toNat * 100 + c.toNat * 10 + d.toNat
       panelCommandOf p (sealFrame [0x01, a, b, c, d]).tail = .panelCall p code ∧
         panelCommandOf p (sealFrame [0x11, a, b, c, d]).tail = .deskDial p code) ∧
     (∀ a b c d : Byte, ¬ (a.toNat ≤ 9 ∧ b.toNat ≤ 9 ∧ c.toNat ≤ 9 ∧ d.toNat ≤ 9) →
       panelCommandOf p (sealFrame [0x01, a, b, c, d]).tail = .panelFrameDiscard p ∧
         panelCommandOf p (sealFrame [0x11, a, b, c, d]).tail = .panelFrameDiscard p) ∧
     panelCommandOf p (sealFrame [0x02]).tail = .panelConcierge p ∧
     panelCommandOf p (sealFrame [0x03]).tail = .panelCancel p ∧
     panelCommandOf p (sealFrame [0x12]).tail = .deskAnswer p ∧
     panelCommandOf p (sealFrame [0x13]).tail = .deskClear p ∧
     panelCommandOf p (sealFrame [0x14]).tail = .deskForward p ∧
     panelCommandOf p (sealFrame [0x15]).tail = .deskDoor p) ∧
  (∀ (r : RiserIx) (a : Byte) (mark : Byte), mark = 0x00 ∨ mark = 0x80 →
     (1 ≤ a.toNat → a.toNat ≤ 62 →
       (∀ tag result privacy : Byte,
         stationCommandOf r (sealFrame [a, mark ||| 0x01, tag, result, privacy]).tail =
           .stationReply r a.toNat tag.toNat result.toNat privacy.toNat) ∧
       stationCommandOf r (sealFrame [a, mark ||| 0x02]).tail = .stationLift r a.toNat ∧
       stationCommandOf r (sealFrame [a, mark ||| 0x03]).tail = .stationHangup r a.toNat ∧
       stationCommandOf r (sealFrame [a, mark ||| 0x04]).tail = .stationDoor r a.toNat ∧
       stationCommandOf r (sealFrame [a, mark ||| 0x05]).tail = .stationPrivacyOn r a.toNat ∧
       stationCommandOf r (sealFrame [a, mark ||| 0x06]).tail = .stationPrivacyOff r a.toNat ∧
       (∀ (kind : Byte) (body : List Byte), ¬ (1 ≤ kind.toNat % 128 ∧ kind.toNat % 128 ≤ 6) →
         body.length ≤ 30 →
         stationCommandOf r (sealFrame (a :: kind :: body)).tail =
           .unknownStationFrame r a.toNat kind.toNat)) ∧
     (¬ (1 ≤ a.toNat ∧ a.toNat ≤ 62) → ∀ (kind : Byte) (body : List Byte), body.length ≤ 30 →
       stationCommandOf r (sealFrame (a :: kind :: body)).tail = .riserBadFrame r))

/-! ## Frames of events -/

/-- A frame of a panel, an event of a panel line, a frame of a station, an event of a riser, or an
expiry leaves what the host has set, the request buffer and what the host link is receiving as they
are; of the flat table it may change the derived privacy only. The frames by which calls are made,
answered, forwarded and cleared at panels and desks, and the expiries of call timers, touch no
flat, no lock, no port's settings or presence, and no riser's settings, line or stations. -/
def Obligations.EventsKeepOtherBlocks : Prop :=
  (∀ (c : Instr) (s t : State), exec c s = .next t →
     (match c with
       | .panelCall .. | .panelConcierge .. | .panelCancel .. | .deskDial .. | .deskAnswer ..
       | .deskClear .. | .deskForward .. | .deskDoor .. | .panelFrameDiscard ..
       | .panelRxTimeout .. | .panelPresent .. | .panelAbsent .. | .panelTxEnd ..
       | .riserTxEnd .. | .stationReply .. | .stationLift .. | .stationHangup ..
       | .stationDoor .. | .stationPrivacyOn .. | .stationPrivacyOff ..
       | .unknownStationFrame .. | .riserBadFrame .. | .riserRxTimeout .. | .replyTimeout ..
       | .idleTimeout .. | .wakeTimeout .. | .surveyStep .. | .lineFault .. | .lineRestored ..
       | .overrun .. | .lineConditionChange .. | .pathWaitExpiry .. | .ringExpiry ..
       | .deskRingExpiry .. | .talkExpiry .. | .releaseTimerExpiry .. => True
       | _ => False) →
     ConfigKept s t) ∧
  (∀ (c : Instr) (s t : State), exec c s = .next t →
     (match c with
       | .panelCall .. | .panelConcierge .. | .panelCancel .. | .deskDial .. | .deskAnswer ..
       | .deskClear .. | .deskForward .. | .pathWaitExpiry .. | .ringExpiry ..
       | .deskRingExpiry .. | .talkExpiry .. => True
       | _ => False) →
     CallEventKept s t)

/-! ## Starts and the host link -/

/-- R179: POWER_UP and RESET_PIN set every block to its cold start values whatever the part was
doing. Presence and line condition stay as sensed; the START notice is the one thing on its way
out; while the reset pin is held nothing is sent. That POWER_UP leaves the level of the reset pin as it
was, with what is sent while it is held, is the model's choice (log entry 11, DESIGN CHOICE). R173,
R179: RESET_PIN_RELEASE lets the host link work again; with its transmitter idle and no reply ready,
the notice at the head of the queue starts. Nothing else changes. -/
def Obligations.PowerUpAndResetPinStartCold : Prop :=
  (∀ s : State,
     (∃ t, exec .powerUp s = .next t ∧ ColdValues t ∧ LinkStarted t ∧
       t.noticeLine = [{ lostMark := false, content := .start .cold .powerUp }] ∧
       (s.resetHeld = false → t.hlp.tx ≠ .idle) ∧ (s.resetHeld = true → t.hlp.tx = .idle) ∧
       (∀ r, (t.riser r).line = (s.riser r).line) ∧
       (∀ p, (t.port p).present = (s.port p).present) ∧
       t.pending = s.pending ∧ t.clock = s.clock ∧ t.resetHeld = s.resetHeld) ∧
     ∃ t, exec .resetPin s = .next t ∧ ColdValues t ∧ LinkStarted t ∧
       t.ntu.notices = [{ lostMark := false, content := .start .cold .resetPin }] ∧
       t.hlp.tx = .idle ∧ (∀ r, (t.riser r).line = (s.riser r).line) ∧
       (∀ p, (t.port p).present = (s.port p).present) ∧
       t.pending = s.pending ∧ t.clock = s.clock ∧ t.resetHeld = true) ∧
  (∀ s : State,
     ∃ t, exec .resetPinRelease s = .next t ∧ t.resetHeld = false ∧
       t = { s with resetHeld := false, hlp := { s.hlp with ready := t.hlp.ready, tx := t.hlp.tx },
                    ntu := { s.ntu with notices := t.ntu.notices } } ∧
       t.noticeLine = s.noticeLine ∧ t.hlp.replyLine = s.hlp.replyLine ∧
       ∀ n rest, s.hlp.tx = .idle → s.hlp.ready = [] → s.ntu.notices = n :: rest →
         t.hlp.tx = .notice n ∧ t.ntu.notices = rest)

/-- R167, R168, R169: the bytes of a good frame that a hunting receiver takes. With nothing before it and
the conditions of R169 met the request is taken at once: the frame does what the request's own command
does. With the conditions not met the frame joins the request buffer, or is discarded whole when four
frames are there. While the reset pin is held no byte is taken (R179). The command of a request stands
for the end of its good frame (log entry 4, DESIGN CHOICE), so it joins the buffer, is discarded or
changes nothing in the same cases. -/
def Obligations.HostFrameIsBufferedOrDiscarded : Prop :=
  (∀ (f : HostFrame) (s : State), f.body.length ≤ 62 → s.hlp.rx = .hunting →
     (s.Takes → exec (.hostFrameReceived f.bytes) s =
       exec (requestOf f) { s with hlp := { s.hlp with rxDeadline := none } }) ∧
     (s.resetHeld = false → s.canTake = false → s.hlp.buffer.length < 4 →
       exec (.hostFrameReceived f.bytes) s =
         .next { s with hlp := { s.hlp with rxDeadline := none
                                            buffer := s.hlp.buffer ++ [f] } }) ∧
     (s.resetHeld = false → s.canTake = false → 4 ≤ s.hlp.buffer.length →
       exec (.hostFrameReceived f.bytes) s =
         .next { s with hlp := { s.hlp with rxDeadline := none } }) ∧
     (s.resetHeld = true → exec (.hostFrameReceived f.bytes) s = .next s)) ∧
  (∀ (c : Instr) (f : HostFrame) (s : State), c.wellFormed = true → frameOf c = some f →
     (s.resetHeld = false → s.canTake = false → s.hlp.buffer.length < 4 →
       exec c s = .next { s with hlp := { s.hlp with buffer := s.hlp.buffer ++ [f] } }) ∧
     (s.resetHeld = false → s.canTake = false → 4 ≤ s.hlp.buffer.length →
       exec c s = .next s) ∧
     (s.resetHeld = true → exec c s = .next s))

/-- R167, R194, R198, R200: a sync byte begins a frame at a hunting receiver, and every byte that
follows joins it and starts its 20 ms afresh. On a panel link and a riser link the bytes of a whole
frame whose check is right do what the command read from them does; a frame with any other two check
bytes is discarded as a bad frame (R91, R126). A length byte out of range makes the frame bad at once,
and hunting goes on from the byte after the rejected sync byte. Bytes from an ABSENT port, and on a
riser that is off or transmitting, are discarded (R70, R78, R123; that they begin nothing is DEDUCED,
log entry 24); while the reset pin is held the host receiver takes no byte (R179; the pin's level is log
entry 11, DESIGN CHOICE). R167, R194: after 20 ms with no byte a part-received frame is given up, on the
host link, on a panel link and on a riser link. That the clock is brought up to the expiry is the
model's choice (log entry 3). -/
def Obligations.SyncBytesAndSilence : Prop :=
  (∀ s : State,
     (s.hlp.rx = .hunting → s.resetHeld = false →
       exec (.syncByteReceived ⟨.host, [syncByte]⟩) s =
         .next { s with hlp := { s.hlp with rx := .receiving []
                                            rxDeadline := some (s.clock + 20) } }) ∧
     (∀ bytes, exec (.syncByteReceived ⟨.host, bytes⟩) s = exec (.hostFrameReceived bytes) s) ∧
     (s.resetHeld = true → ∀ bytes, exec (.syncByteReceived ⟨.host, bytes⟩) s = .next s)) ∧
  (∀ (p : PortIx) (s : State),
     let arriving := fun (got : List Byte) =>
       ({ s with ports := s.ports.write p
                   { s.port p with receiving := some { got := got, expiry := s.clock + 20 } } } : State)
     ((s.port p).present = false → ∀ bytes, exec (.syncByteReceived ⟨.panel p, bytes⟩) s = .next s) ∧
     ((s.port p).present = true → (s.port p).receiving = none →
       exec (.syncByteReceived ⟨.panel p, [syncByte]⟩) s = .next (arriving []) ∧
       (∀ len : Byte, len.toNat = 0 ∨ 40 < len.toNat →
         exec (.syncByteReceived ⟨.panel p, [syncByte, len]⟩) s =
           .next (if len = syncByte then arriving [] else s)) ∧
       (∀ (inner : List Byte) (c d : Byte), 1 ≤ inner.length → inner.length ≤ 40 →
         let counted := BitVec.ofNat 8 inner.length :: inner
         exec (.syncByteReceived ⟨.panel p, syncByte :: (counted ++ [c, d])⟩) s =
           exec (if crcBytes counted = [c, d] then panelCommandOf p (counted ++ [c, d])
             else .panelFrameDiscard p) s)) ∧
     ∀ x, (s.port p).present = true → (s.port p).receiving = some x →
       (∀ b : Byte, x.got = [] → 1 ≤ b.toNat → b.toNat ≤ 40 →
         exec (.syncByteReceived ⟨.panel p, [b]⟩) s = .next (arriving [b])) ∧
       (∀ len got, x.got = len :: got → x.got.length + 1 < len.toNat + 3 → ∀ b : Byte,
         exec (.syncByteReceived ⟨.panel p, [b]⟩) s = .next (arriving (x.got ++ [b])))) ∧
  (∀ (r : RiserIx) (s : State), (s.riser r).overrunDue = false →
     let arriving := fun (got : List Byte) =>
       ({ s with risers := s.risers.write r
                   { s.riser r with receiving := some { got := got, expiry := s.clock + 20 } } } : State)
     ((s.riser r).link.isOff = true ∨ (s.riser r).tx ≠ none →
       ∀ bytes, exec (.syncByteReceived ⟨.riser r, bytes⟩) s = .next s) ∧
     ((s.riser r).link.isOff = false → (s.riser r).tx = none → (s.riser r).receiving = none →
       exec (.syncByteReceived ⟨.riser r, [syncByte]⟩) s = .next (arriving []) ∧
       exec (.syncByteReceived ⟨.riser r, [syncByte, syncByte]⟩) s = .next (arriving []) ∧
       (∀ len : Byte, len ≠ syncByte → len.toNat < 2 ∨ 32 < len.toNat →
         ∃ t, exec (.syncByteReceived ⟨.riser r, [syncByte, len]⟩) s = .next t ∧ Settled s t) ∧
       (∀ (inner : List Byte) (c d : Byte), 2 ≤ inner.length → inner.length ≤ 32 →
         let counted := BitVec.ofNat 8 inner.length :: inner
         exec (.syncByteReceived ⟨.riser r, syncByte :: (counted ++ [c, d])⟩) s =
           exec (if crcBytes counted = [c, d] then stationCommandOf r (counted ++ [c, d])
             else .riserBadFrame r) s)) ∧
     ∀ x, (s.riser r).link.isOff = false → (s.riser r).tx = none →
       (s.riser r).receiving = some x →
       (∀ b : Byte, x.got = [] → 2 ≤ b.toNat → b.toNat ≤ 32 →
         exec (.syncByteReceived ⟨.riser r, [b]⟩) s = .next (arriving [b])) ∧
       (∀ len got, x.got = len :: got → x.got.length + 1 < len.toNat + 3 → ∀ b : Byte,
         exec (.syncByteReceived ⟨.riser r, [b]⟩) s = .next (arriving (x.got ++ [b])))) ∧
  (∀ s : State,
     (∀ e got, s.hlp.rx = .receiving got → s.hlp.rxDeadline = some e →
       exec .hostRxTimeout s =
         .next { s with clock := max s.clock e
                        hlp := { s.hlp with rx := .hunting, rxDeadline := none } }) ∧
     (∀ p x, (s.port p).receiving = some x →
       exec (.panelRxTimeout p) s =
         .next { s with clock := max s.clock x.expiry
                        ports := s.ports.write p { s.port p with receiving := none } }) ∧
     ∀ r x, (s.riser r).overrunDue = false → (s.riser r).receiving = some x →
       ∃ t, exec (.riserRxTimeout r) s = .next t ∧
         Settled { s with clock := max s.clock x.expiry
                          risers := s.risers.write r { s.riser r with receiving := none } } t)

/-- R173: when the frame on the host line ends, and no start happens, the reply at the head of the
ready list starts; with none, the notice at the head of the notice queue; with neither, the line is
idle. R169: the requests that may then be taken are taken within the same event, in the order of the
buffer, each as its own command takes it, until one of the conditions fails. R178: the start that a
RESTART made due happens when its reply has been sent. R97: a cold start sets every block to its first
values. R33, R98, R132, R137: a warm start discards calls and frames in flight and keeps the configuration;
it starts the idle and step timers of the risers that work and sets the panels back to READY, what is
placed for a panel going on its line at once (that it drops overrun processing still due is log entry 10,
DESIGN CHOICE). Either way the START notice alone is on its way out (that it goes on the line within this
event, before any reply, is log entry 5, DESIGN CHOICE). -/
def Obligations.HostLineEndStartsNextFrameOrStart : Prop :=
  (∀ s : State, s.hlp.tx ≠ .idle → s.resetHeld = false →
     (∀ r, s.hlp.tx = .reply r → r.kind = 0x15 → r.status = .ok → s.hlp.startDue = none) →
     let next := fun (u : State) => exec .hostTxEnd s = .next u.serveBuffer
     (∀ x rest, s.hlp.ready = x :: rest →
       next { s with hlp := { s.hlp with ready := rest, tx := .reply x.reply } }) ∧
     (∀ n rest, s.hlp.ready = [] → s.ntu.notices = n :: rest →
       next { s with hlp := { s.hlp with tx := .notice n }
                     ntu := { s.ntu with notices := rest } }) ∧
     (s.hlp.ready = [] → s.ntu.notices = [] →
       next { s with hlp := { s.hlp with tx := .idle } })) ∧
  (∀ s : State,
     (s.hlp.buffer = [] ∨ s.canTake = false → s.serveBuffer = s) ∧
     ∀ f rest t, s.canTake = true → s.hlp.buffer = f :: rest →
       exec (requestOf f) { s with hlp := { s.hlp with buffer := [] } } = .next t →
       s.serveBuffer = State.serveBuffer { t with hlp := { t.hlp with buffer := rest } }) ∧
  (∀ (s : State) (r : Reply), s.hlp.tx = .reply r → r.kind = 0x15 → r.status = .ok →
     (s.hlp.startDue = some .cold →
       ∃ t, exec .hostTxEnd s = .next t ∧ ColdValues t ∧ LinkStarted t ∧
         t.noticeLine = [{ lostMark := false, content := .start .cold .host }] ∧
         (∀ x, (t.riser x).line = (s.riser x).line) ∧
         (∀ p, (t.port p).present = (s.port p).present) ∧ t.pending = s.pending ∧
         t.clock = s.clock ∧ t.resetHeld = s.resetHeld) ∧
     (s.hlp.startDue = some .warm →
       ∃ t, exec .hostTxEnd s = .next t ∧ WarmValues s t ∧ LinkStarted t ∧
         t.noticeLine = [{ lostMark := false, content := .start .warm .host }] ∧
         t.pending = s.pending ∧ t.clock = s.clock ∧ t.resetHeld = s.resetHeld))

/-- R170: an ILLEGAL request is answered ILLEGAL with its kind and number and no body, and changes
no state. R178: a valid RESTART records the start that is due and is answered OK with the start
kind; any other start kind is refused BAD_VALUE and nothing happens. -/
def Obligations.IllegalRequestAndRestart : Prop :=
  (∀ (kind num : Nat) (body : List Byte) (s : State),
     s.Takes → requestBodySize kind ≠ some body.length →
     ∃ t, exec (.illegalRequest kind num body) s = .next t ∧
       t = { s with hlp := t.hlp, ntu := t.ntu } ∧ Raises s t [] ∧
       Answers s t { kind := kind, num := num, status := .illegal, body := .none }) ∧
  (∀ (num k : Nat) (s : State), s.Takes →
     ∃ t, exec (.restart num k) s = .next t ∧ t = { s with hlp := t.hlp, ntu := t.ntu } ∧
       Raises s t [] ∧ t.hlp.buffer = [] ∧ t.hlp.syncs = s.hlp.syncs ∧ ReceiveKept s t ∧
       (if k = 1 then
         t.hlp.startDue = some .cold ∧
           t.hlp.replyLine = s.hlp.replyLine ++ [⟨0x15, num, .ok, .start .cold⟩]
       else if k = 2 then
         t.hlp.startDue = some .warm ∧
           t.hlp.replyLine = s.hlp.replyLine ++ [⟨0x15, num, .ok, .start .warm⟩]
       else
         t.hlp.startDue = s.hlp.startDue ∧
           t.hlp.replyLine = s.hlp.replyLine ++ [⟨0x15, num, .badValue, .none⟩]))

/-- R86, R174, R175: RISER SYNC. A riser out of range, a DISABLED riser and a full queue are refused.
Behind an advisory a marker is placed, the sync is pending and no reply is made; with no advisory in
the queue the marker completes DRAINED at once. -/
def Obligations.RiserSyncPlacesMarker : Prop :=
  ∀ (num n : Nat) (s : State), s.Takes →
    (6 ≤ n → ∃ t, exec (.riserSync num n) s = .next t ∧
      t = { s with hlp := t.hlp, ntu := t.ntu } ∧ Raises s t [] ∧
      Answers s t ⟨0x14, num, .badValue, .none⟩) ∧
    ∀ r : RiserIx, r.val = n → (s.riser r).overrunDue = false →
      ((s.riser r).link = .disabled → ∃ t, exec (.riserSync num n) s = .next t ∧
        t = { s with hlp := t.hlp, ntu := t.ntu } ∧ Raises s t [] ∧
        Answers s t ⟨0x14, num, .notExecutable, .none⟩) ∧
      ((s.riser r).link ≠ .disabled → 32 ≤ (s.riser r).queue.length →
        ∃ t, exec (.riserSync num n) s = .next t ∧
          t = { s with hlp := t.hlp, ntu := t.ntu } ∧ Raises s t [] ∧
          Answers s t ⟨0x14, num, .busy, .none⟩) ∧
      ((s.riser r).link ≠ .disabled → (s.riser r).queue.length < 32 →
        (s.riser r).advisories = [] →
        ∃ t, exec (.riserSync num n) s = .next t ∧
          t = { s with hlp := t.hlp, ntu := t.ntu } ∧ Raises s t [] ∧
          Answers s t ⟨0x14, num, .ok, .sync r .drained⟩) ∧
      ((s.riser r).link ≠ .disabled → (s.riser r).queue.length < 32 →
        (s.riser r).advisories ≠ [] →
        ∃ t, exec (.riserSync num n) s = .next t ∧
          t = { s with risers := s.risers.write r { s.riser r with queue := (s.riser r).queue ++
                          [{ entry := .marker num, sending := false }] }
                       hlp := t.hlp, ntu := t.ntu } ∧
          Raises s t [] ∧ t.hlp.replyLine = s.hlp.replyLine ∧ t.hlp.buffer = [] ∧
          t.hlp.syncs = s.hlp.syncs ++ [{ num := num, riser := r }] ∧
          t.hlp.startDue = s.hlp.startDue ∧ ReceiveKept s t)

/-! ## Settings -/

/-- R133, R134, R135: SET PORT. A value out of range, a held speech port and a lock with a claim are
refused and change nothing (that an intercept value of 2 or more is out of range is DEDUCED from
section 11.1, log entry 17). Otherwise the function, the intercept flag and the release time, brought
within 1 to 30 s, are stored; a change to OFF empties the port, a change to another function gives a
PRESENT port SERVICE or READY. R62: a port that becomes an eligible desk is granted to the call at the
head of the desk wait queue. -/
def Obligations.SetPortStoresSettings : Prop :=
  ∀ (num port fn ic rt : Nat) (s : State),
    s.Takes →
    ((8 ≤ port ∨ 3 ≤ fn ∨ 2 ≤ ic) → ∃ t, exec (.setPort num port fn ic rt) s = .next t ∧
      t = { s with ports := Table.mapEach Port.startTransmission s.ports
                   hlp := t.hlp, ntu := t.ntu } ∧ Raises s t [] ∧
      Answers s t ⟨0x01, num, .badValue, .none⟩) ∧
    ∀ p : PortIx, p.val = port → fn < 3 → ic < 2 →
      (s.hold p ≠ none ∨ (s.lock p).claim ≠ none →
        ∃ t, exec (.setPort num port fn ic rt) s = .next t ∧
          t = { s with ports := Table.mapEach Port.startTransmission s.ports
                       hlp := t.hlp, ntu := t.ntu } ∧ Raises s t [] ∧
          Answers s t ⟨0x01, num, .busy, .none⟩) ∧
      (s.hold p = none → (s.lock p).claim = none →
        let f : PortFunction := if fn = 0 then .off else if fn = 1 then .entrance else .concierge
        let i : Bool := decide (ic = 1)
        let v := max 1 (min rt 30)
        let locks := s.locks.write p { s.lock p with releaseTime := v }
        let becomesDesk := f ≠ (s.port p).function ∧ f = .concierge ∧ (s.port p).present = true ∧
          (s.port p).check = false
        let settings := fun (t : State) =>
          (t.port p).function = f ∧ (t.port p).intercept = i ∧
            (t.port p).present = (s.port p).present ∧ (t.port p).check = (s.port p).check ∧
            Raises s t [] ∧
            Answers s t ⟨0x01, num, if v = rt then .ok else .adjusted, .port f i v⟩
        (¬ becomesDesk ∨ s.psw.deskQueue = [] →
          ∃ t, exec (.setPort num port fn ic rt) s = .next t ∧
            t = { s with locks := locks, ports := t.ports, hlp := t.hlp, ntu := t.ntu } ∧
            settings t ∧
            (f ≠ (s.port p).function → f = .off → (t.port p).displaySlot = none ∧
              (t.port p).ringSlot = none ∧ (t.port p).alertSlot = none ∧ (t.port p).tx = none) ∧
            (f ≠ (s.port p).function → f ≠ .off → (s.port p).present = true →
              (t.port p).Shows (if (s.port p).check then .service else .ready)) ∧
            (f ≠ (s.port p).function → f = .concierge → (s.port p).present = true →
              (t.port p).Rings .off) ∧
            (f = (s.port p).function →
              t.port p = ({ s.port p with intercept := i } : Port).startTransmission) ∧
            (∀ q, q ≠ p → t.port q = (s.port q).startTransmission)) ∧
        (becomesDesk → ∀ w rest c, s.psw.deskQueue = w :: rest → s.call? w = some c →
          ∃ t, exec (.setPort num port fn ic rt) s = .next t ∧
            t = { s with locks := locks, ccu := t.ccu, psw := t.psw, ports := t.ports
                         hlp := t.hlp, ntu := t.ntu } ∧
            settings t ∧ DeskGranted s t p w c ∧ t.psw.deskQueue = rest ∧
            t.psw.joins = s.psw.joins ∧ (∀ x, t.paths x = s.paths x) ∧
            (∀ q, q ≠ p → t.hold q = s.hold q) ∧ (∀ j, j ≠ w.slot → t.slot j = s.slot j) ∧
            t.ccu.times = s.ccu.times ∧ t.ccu.intercept = s.ccu.intercept ∧
            (∀ q, q ≠ p → q ≠ c.origin → t.port q = (s.port q).startTransmission)))

/-- R35: SET WINDOW checks the ranges, adjusts a span that passes 9999 and a row longer than the
stride, stores all six fields and answers with the stored window; a field out of range is refused
BAD_VALUE and the window keeps its contents. -/
def Obligations.SetWindowAdjustsAndStores : Prop :=
  ∀ (num w e base span stride row first : Nat) (s : State),
    s.Takes →
    (∀ i : WindowIx, i.val = w → e < 2 → base ≤ 9999 → 1 ≤ span → span ≤ 10000 → 1 ≤ stride →
      stride ≤ 1000 → 1 ≤ row → row ≤ 64 → first ≤ 255 →
      let x : Window :=
        { enabled := decide (e = 1), base := base, span := min span (10000 - base)
          stride := stride, rowSize := min row stride, firstFlat := first }
      ∃ t, exec (.setWindow num w e base span stride row first) s = .next t ∧
        t = { s with dir := { s.dir with windows := s.dir.windows.write i x }
                     hlp := t.hlp, ntu := t.ntu } ∧ Raises s t [] ∧
        Answers s t ⟨0x02, num,
          if span ≤ 10000 - base ∧ row ≤ stride then .ok else .adjusted, .window x⟩) ∧
    (8 ≤ w ∨ 2 ≤ e ∨ 9999 < base ∨ span = 0 ∨ 10000 < span ∨ stride = 0 ∨ 1000 < stride ∨
        row = 0 ∨ 64 < row ∨ 255 < first →
      ∃ t, exec (.setWindow num w e base span stride row first) s = .next t ∧
        t = { s with hlp := t.hlp, ntu := t.ntu } ∧ Raises s t [] ∧
        Answers s t ⟨0x02, num, .badValue, .none⟩)

/-- R37 to R41: translation of a code. The first enabled window that covers it decides; the row and
unit follow from its stride; a unit past the row is a GAP, a flat past 255 is BEYOND_TABLE, a flat out
of service is VACANT. With no such window it is NO_WINDOW. R51: until a flat has been put in service every
code fails NO_WINDOW; that this goes before the stages of R38 to R41 is the model's choice (log entry 26,
DESIGN CHOICE). -/
def Obligations.TranslationFollowsFirstWindow : Prop :=
  ∀ (d : Dir) (code : Nat),
    ((∀ i, ¬ ((d.windows.read i).enabled = true ∧ (d.windows.read i).base ≤ code ∧
        code < (d.windows.read i).base + (d.windows.read i).span)) →
      d.translate code = .error .noWindow) ∧
    ∀ i : WindowIx,
      (d.windows.read i).enabled = true → (d.windows.read i).base ≤ code →
      code < (d.windows.read i).base + (d.windows.read i).span →
      (∀ j, j < i → ¬ ((d.windows.read j).enabled = true ∧ (d.windows.read j).base ≤ code ∧
        code < (d.windows.read j).base + (d.windows.read j).span)) →
      let w := d.windows.read i
      let unit := (code - w.base) % w.stride
      let flat := w.firstFlat + (code - w.base) / w.stride * w.rowSize + unit
      d.translate code =
        if d.flatServed = false then .error .noWindow
        else if w.rowSize ≤ unit then .error .gap
        else if h : flat < 256 then
          (if (d.flats.read ⟨flat, h⟩).inService then .ok ⟨flat, h⟩ else .error .vacant)
        else .error .beyondTable

/-- R43 to R46: SET FLAT. Values out of range, a flat a live call names, and a station shared with
another flat in service are refused in that order (that a yes-or-no code of 2 or more is a value out of
range is DEDUCED from section 11.1, log entry 17). Otherwise the record is stored with its host
privacy kept; a new riser or station range has its privacy worked out again, and a change of that
raises PRIVACY_CHANGE. That a flat put in service is noted is the model's own (log entry 26). -/
def Obligations.SetFlatStoresRecord : Prop :=
  ∀ (num fl v rs first count dv doors : Nat) (s : State),
    s.Takes →
    let c := Instr.setFlat num fl v rs first count dv doors
    let refused := fun (t : State) (st : Status) =>
      t = { s with ports := Table.mapEach Port.startTransmission s.ports
                   hlp := t.hlp, ntu := t.ntu } ∧ Raises s t [] ∧
        Answers s t ⟨0x03, num, st, .none⟩
    let good := fl < 256 ∧ v < 2 ∧ rs < 6 ∧ dv < 2 ∧ 1 ≤ first ∧ first ≤ 62 ∧ 1 ≤ count ∧
      count ≤ 4 ∧ first + count ≤ 63
    let busy := ∃ k d, (s.slot k).call = some d ∧ d.flat.map (fun i => i.val) = some fl
    let shared := v = 1 ∧ ∃ j : FlatIx, j.val ≠ fl ∧ (s.flat j).inService = true ∧
      (s.flat j).riser.val = rs ∧ ∃ a, first ≤ a ∧ a < first + count ∧ a ∈ (s.flat j).stations
    (¬ good → ∃ t, exec c s = .next t ∧ refused t .badValue) ∧
    (good → busy → ∃ t, exec c s = .next t ∧ refused t .busy) ∧
    (good → ¬ busy → shared → ∃ t, exec c s = .next t ∧ refused t .conflict) ∧
    (good → ¬ busy → ¬ shared → ∀ (i : FlatIx) (r : RiserIx), i.val = fl → r.val = rs →
      let old := s.flat i
      let same := old.riser = r ∧ old.firstStation = first ∧ old.handsetCount = count
      let aggregate := old.hostPrivacy ||
        (List.range' first count).any fun a => ((s.riser r).station a).privacy
      let x : Flat :=
        { inService := decide (v = 1), riser := r, firstStation := first, handsetCount := count
          divert := decide (dv = 1), doors := BitVec.ofNat 8 doors, hostPrivacy := old.hostPrivacy
          privacy := if same then old.privacy else aggregate }
      let events := if x.privacy = old.privacy then [] else [Event.privacyChange i x.privacy]
      ∃ t, exec c s = .next t ∧
        t = { s with dir := { s.dir with flats := s.dir.flats.write i x
                                         flatServed := s.dir.flatServed || decide (v = 1) }
                     ports := Table.mapEach Port.startTransmission (events.foldl State.emit s).ports
                     hlp := t.hlp, ntu := t.ntu } ∧ Raises s t events ∧
        Answers s t ⟨0x03, num, .ok, .flat x⟩)

/-- R31: SET TIMES brings each of the four values within its range and stores it; the reply is OK
when all were stored as given, and otherwise ADJUSTED with the stored values. That the OK reply
carries no values is DEDUCED (log entry 16). R185: SET ROUTE stores a route for one of the thirteen
event kinds and answers with all thirteen; another event kind (START among them) or another route
is refused BAD_VALUE and changes nothing. R138: SET MODE stores intercept mode and answers with it;
a value other than on or off is refused BAD_VALUE and nothing is stored. R131, R184, R187, R188, R190,
R191, R192: an event is routed by the route its kind holds: NONE drops it; HOST offers it to the notice
queue, where with fewer than 32 notices it takes the tail with the lost mark if the lost flag was set,
which is cleared, and with 32 it is discarded and the flag set; DESK writes it into the alert slot of each
PRESENT CONCIERGE port and no other; BOTH does both; nothing else changes. -/
def Obligations.TimesRoutesAndModeAreStored : Prop :=
  (∀ (num a b c d : Nat) (s : State),
     s.Takes →
     let x : Times := { flatRing := max 5 (min a 120), deskRing := max 5 (min b 120)
                        pathWait := max 2 (min c 60), talk := max 10 (min d 600) }
     ∃ t, exec (.setTimes num a b c d) s = .next t ∧
       t = { s with ccu := { s.ccu with times := x }, hlp := t.hlp, ntu := t.ntu } ∧
       Raises s t [] ∧
       Answers s t (if (5 ≤ a ∧ a ≤ 120) ∧ (5 ≤ b ∧ b ≤ 120) ∧ (2 ≤ c ∧ c ≤ 60) ∧ (10 ≤ d ∧ d ≤ 600) then
           ⟨0x04, num, .ok, .none⟩
         else ⟨0x04, num, .adjusted, .times x⟩)) ∧
  (∀ (num e r : Nat) (s : State), s.Takes →
     (∀ k : Fin 13, k.val + 0x40 = e → ∀ h : r < 4,
       let routes := s.ntu.routes.write k ([Route.none, .host, .desk, .both][r])
       ∃ t, exec (.setRoute num e r) s = .next t ∧
         t = { s with hlp := t.hlp, ntu := t.ntu } ∧ t.noticeLine = s.noticeLine ∧
         t.ntu.lost = s.ntu.lost ∧ t.ntu.routes = routes ∧
         Answers s t ⟨0x05, num, .ok, .routes routes⟩) ∧
     (e < 0x40 ∨ 0x4C < e ∨ 4 ≤ r →
       ∃ t, exec (.setRoute num e r) s = .next t ∧
         t = { s with hlp := t.hlp, ntu := t.ntu } ∧ Raises s t [] ∧
         Answers s t ⟨0x05, num, .badValue, .none⟩)) ∧
  (∀ (num m : Nat) (s : State), s.Takes →
     (m < 2 → ∃ t, exec (.setMode num m) s = .next t ∧
       t = { s with ccu := { s.ccu with intercept := decide (m = 1) }
                    hlp := t.hlp, ntu := t.ntu } ∧ Raises s t [] ∧
       Answers s t ⟨0x06, num, .ok, .mode (decide (m = 1))⟩) ∧
     (2 ≤ m → ∃ t, exec (.setMode num m) s = .next t ∧
       t = { s with hlp := t.hlp, ntu := t.ntu } ∧ Raises s t [] ∧
       Answers s t ⟨0x06, num, .badValue, .none⟩)) ∧
  (∀ (e : Event) (s : State) (k : Fin 13), k.val + 0x40 = e.number →
     let route := s.ntu.routes.read k
     let t := s.emit e
     t = { s with ntu := t.ntu, ports := t.ports } ∧
       t.ntu = (if route = .host ∨ route = .both then s.ntu.offered e else s.ntu) ∧
       ∀ p, t.port p =
         if (route = .desk ∨ route = .both) ∧ (s.port p).present = true ∧
             (s.port p).function = .concierge then
           { s.port p with alertSlot := some e }
         else s.port p)

/-- R71, R72, R73: SET RISER. Values out of range and the disabling of a riser in use are refused and
nothing is stored (that a yes-or-no code of 2 or more is out of range is DEDUCED from section 11.1, log
entry 17). Otherwise the settings are stored, the times brought within their ranges, and the reply
carries them (enable among them: DEDUCED, log entry 16) with the link state. Enabling a DISABLED riser
makes it ACTIVE on a GOOD line and FAULTED on any other and raises RISER_CHANGE; on an enabled riser a
change of survey starts or stops the step timer, a QUIET riser that may no longer be QUIET wakes, and
one that may go QUIET does, no other (R74, R75; one whose queue held markers alone goes QUIET after its
reply was made, when they have completed). Disabling empties the riser: the outstanding requests and the
queued OFFERs complete, the markers complete FLUSHED, the transmission is gone (DEDUCED, log entry
12), the stations are UNKNOWN, the flats' privacy follows, and RISER_CHANGE, DISABLED is raised. That the
OFFER in transmission completes with its record alone is DEDUCED (log entry 13), and so is that a
completed offer loses its tag (log entry 25). -/
def Obligations.SetRiserStoresAndEnables : Prop :=
  ∀ (num n en sv qa st qi : Nat) (s : State),
    s.Takes →
    let c := Instr.setRiser num n en sv qa st qi
    let refused := fun (t : State) (x : Status) =>
      Settled s t ∧ Raises s t [] ∧
        s.hlp.replyLine ++ [⟨0x07, num, x, .none⟩] <+: t.hlp.replyLine
    let step := max 100 (min st 5000)
    let idle := max 10 (min qi 600)
    let status : Status := if 100 ≤ st ∧ st ≤ 5000 ∧ 10 ≤ qi ∧ qi ≤ 600 then .ok else .adjusted
    let stored := fun (x : Riser) => x.survey = decide (sv = 1) ∧
      x.quietAllowed = decide (qa = 1) ∧ x.surveyStepMs = step ∧ x.quietIdleS = idle
    let answer := fun (l : LinkState) =>
      (⟨0x07, num, status, .riser { enable := decide (en = 1), survey := decide (sv = 1)
                                    quietAllowed := decide (qa = 1), surveyStepMs := step
                                    quietIdleS := idle } l⟩ : Reply)
    (6 ≤ n → ∃ t, exec c s = .next t ∧ refused t .badValue) ∧
    ∀ r : RiserIx, r.val = n → (s.riser r).overrunDue = false →
      let x := s.riser r
      let inUse := (s.paths r).holderA ≠ none ∨ (s.paths r).holderB ≠ none ∨
        (s.paths r).queue ≠ []
      (∀ t, exec c s = .next t → RiserRequestKept s t r ∧ t.hlp.buffer = []) ∧
      (2 ≤ en ∨ 2 ≤ sv ∨ 2 ≤ qa → ∃ t, exec c s = .next t ∧ refused t .badValue) ∧
      (en < 2 → sv < 2 → qa < 2 →
        (en = 0 → inUse → ∃ t, exec c s = .next t ∧ refused t .busy) ∧
        (en = 1 → x.link = .disabled →
          let link : LinkState := if x.line = .good then .active else .faulted
          ∃ t, exec c s = .next t ∧ stored (t.riser r) ∧ (t.riser r).link = link ∧
            (x.line = .good → (t.riser r).idleTimer = some (s.clock + idle * 1000) ∧
              (sv = 1 → (t.riser r).stepTimer = some (s.clock + step))) ∧
            Raises s t [.riserChange r link .enabled] ∧
            s.hlp.replyLine ++ [answer link] <+: t.hlp.replyLine) ∧
        (en = 1 → x.link ≠ .disabled →
          let idles := x.link = .active ∧ x.runOut = true ∧ qa = 1 ∧ x.outstanding = [] ∧ ¬ inUse
          let link : LinkState :=
            if x.link = .quiet ∧ qa = 0 then .waking
            else if idles ∧ x.queue = [] then .quiet
            else x.link
          ∃ t, exec c s = .next t ∧ stored (t.riser r) ∧
            (t.riser r).link = (if idles ∧ x.frames = [] then .quiet else link) ∧
            (link = .waking → x.link = .quiet →
              (t.riser r).wakeTimer = some (s.clock + 200)) ∧
            (x.survey = false → sv = 1 → (t.riser r).link = .active →
              (t.riser r).stepTimer = some (s.clock + step)) ∧
            (x.survey = true → sv = 0 → (t.riser r).stepTimer = none) ∧
            (t.riser r).frames = x.frames ∧ Raises s t [] ∧
            s.hlp.replyLine ++ [answer link] <+: t.hlp.replyLine) ∧
        (en = 0 → x.link = .disabled → ¬ inUse →
          ∃ t, exec c s = .next t ∧ stored (t.riser r) ∧ (t.riser r).link = .disabled ∧
            (t.riser r).frames = x.frames ∧ Raises s t [] ∧
            s.hlp.replyLine ++ [answer .disabled] <+: t.hlp.replyLine) ∧
        (en = 0 → x.link ≠ .disabled → ¬ inUse →
          ∃ t, exec c s = .next t ∧ stored (t.riser r) ∧ (t.riser r).link = .disabled ∧
            RiserEmptied x (t.riser r) ∧ (t.riser r).idleTimer = none ∧
            (t.riser r).stepTimer = none ∧ (t.riser r).wakeTimer = none ∧
            (∀ j, Slot.SameButSending
              { s.slot j with call := (s.slot j).call.map fun d =>
                  { d with offers := d.offers.map fun o =>
                      o.cleared x { slot := j, gen := (s.slot j).generation } d.answerer } }
              (t.slot j)) ∧
            (∀ i, t.flat i = if (s.flat i).riser = r then
              { s.flat i with privacy := (s.flat i).hostPrivacy } else s.flat i) ∧
            Raises s t (s.privacyEvents r ++ [.riserChange r .disabled .disabled]) ∧
            ((∀ m, x.markers.count m ≤ s.hlp.syncs.count { num := m, riser := r }) →
              s.hlp.replyLine ++
                  x.markers.map (fun m => ⟨0x14, m, .ok, .sync r .flushed⟩) ++
                  [answer .disabled] <+: t.hlp.replyLine)))

/-- R125: CLEAR CHECK: the flags of the ports in the set are cleared, a PRESENT panel whose flag was set
shows READY, the other ports keep their flags, and the reply carries all eight. R62: the ports that
become eligible desks are granted, in ascending order, to the calls at the head of the desk wait
queue. -/
def Obligations.ClearCheckClearsNamedFlags : Prop :=
  ∀ (num ports : Nat) (s : State), s.Takes →
    s.psw.deskQueue.Nodup → (∀ w ∈ s.psw.deskQueue, s.call? w ≠ none) →
    let named := fun (p : PortIx) => Nat.testBit ports p.val = true ∧ (s.port p).check = true
    let desks := (List.finRange 8).filter fun p =>
      Nat.testBit ports p.val && (s.port p).check && decide ((s.port p).function = .concierge) &&
        (s.port p).present && (s.hold p).isNone
    let grants := desks.zip s.psw.deskQueue
    let untouched := fun (p : PortIx) => ∀ g ∈ grants, g.1 ≠ p ∧
      ∀ c, s.call? g.2 = some c → c.origin ≠ p
    ∃ t, exec (.clearCheck num ports) s = .next t ∧
      t = { s with ccu := t.ccu, psw := t.psw, ports := t.ports, hlp := t.hlp, ntu := t.ntu } ∧
      Raises s t [] ∧ t.ccu.times = s.ccu.times ∧ t.ccu.intercept = s.ccu.intercept ∧
      (∀ p : PortIx, (t.port p).function = (s.port p).function ∧
        (t.port p).intercept = (s.port p).intercept ∧ (t.port p).present = (s.port p).present ∧
        ((t.port p).check = true ↔ (s.port p).check = true ∧ Nat.testBit ports p.val = false)) ∧
      (∀ p : PortIx, untouched p → named p → (s.port p).present = true →
        (s.port p).function ≠ .off → (t.port p).Shows .ready) ∧
      (∀ p : PortIx, untouched p → ¬ named p → t.port p = (s.port p).startTransmission) ∧
      (∀ g ∈ grants, ∀ c, s.call? g.2 = some c → DeskGranted s t g.1 g.2 c) ∧
      t.psw.deskQueue = s.psw.deskQueue.drop desks.length ∧ t.psw.joins = s.psw.joins ∧
      (∀ x, t.paths x = s.paths x) ∧
      (∀ p, (∀ g ∈ grants, g.1 ≠ p) → t.hold p = s.hold p) ∧
      (∀ j, (∀ g ∈ grants, g.2.slot ≠ j) → t.slot j = s.slot j) ∧
      Answers s t ⟨0x08, num, .ok, .checks (Table.mapEach (fun p => p.check) t.ports)⟩

/-- R60, R62, R140: an eligible desk is granted to the call at the head of the desk wait queue: the port
is held with role DESK, the desk rings for the call and shows RINGING, and the call is RINGING with its
desk ring timer started. Calls behind it move up; nothing else changes. R11, R56: a channel that a call
releases is FREE when no call waits for it. Otherwise the head of the queue holds it: a call that passes
its checks again offers its flat on it; a call that fails one ends, with the end its first failed check
gives (R27, R28, R75, R83, R84), and the channel is served once more (with no call waiting for a desk
that its end frees). -/
def Obligations.EligibleDeskIsGranted : Prop :=
  (∀ (p : PortIx) (r : Ref) (rest : List Ref) (c : Call) (s : State),
     s.eligible p = true → s.psw.deskQueue = r :: rest → s.call? r = some c →
     let t := s.serveDesk p
     t.hold p = some { call := r, role := .desk } ∧ (∀ q, q ≠ p → t.hold q = s.hold q) ∧
       t.psw.deskQueue = rest ∧ t.psw.joins = s.psw.joins ∧ (∀ x, t.paths x = s.paths x) ∧
       t.call? r = some
         { c with state := .ringing, waitingFor := none, deskPort := some p
                  timer := some { kind := .deskRing
                                  expiry := s.clock + s.ccu.times.deskRing * 1000 } } ∧
       (∀ i, i ≠ r.slot → t.slot i = s.slot i) ∧
       (t.port p).ringSlot = some (.on c.origin c.kind c.flat) ∧
       (t.port p).displaySlot = some .ringing ∧ (t.port p).lastDisplay = .ringing ∧
       ((s.port c.origin).function ≠ .off →
         (t.port c.origin).displaySlot = some .ringing ∧
           (t.port c.origin).lastDisplay = .ringing) ∧
       (∀ q, q ≠ p → q ≠ c.origin → t.port q = s.port q) ∧
       t = { s with ccu := t.ccu, psw := t.psw, ports := t.ports } ∧
       t.ccu.times = s.ccu.times ∧ t.ccu.intercept = s.ccu.intercept) ∧
  (∀ (ch : Channel) (s : State),
     let y := s.paths ch.riser
     let put := fun (z : RiserPaths) =>
       ({ s with psw := { s.psw with risers := s.psw.risers.write ch.riser z } } : State)
     (y.queue = [] → s.releaseChannel ch = put (y.setHolder ch.side none)) ∧
     ∀ (r : Ref) (rest : List Ref) (c : Call) (i : FlatIx),
       y.queue = r :: rest → s.call? r = some c → c.flat = some i → c.leg = .flat →
       (s.flat i).riser = ch.riser →
       let u := put { y with queue := rest }
       let engaged := ∃ j d, j ≠ r.slot ∧ (s.slot j).call = some d ∧ d.leg = .flat ∧
         d.flat = some i ∧ d.state ≠ .waiting
       let off := (s.riser ch.riser).link.isOff
       let ends := fun (why : EndReason) => u.NoWaiters r { c with channel := none } →
         ∃ v, Ended u v r { c with channel := some ch } why ∧
           s.releaseChannel ch = v.releaseChannel ch
       (PassesChecks s r i → (s.riser ch.riser).overrunDue = false →
         (s.riser ch.riser).queue.length + (s.stationsToOffer i).length ≤ 32 →
         let t := s.releaseChannel ch
         Offering u t r c i ch ∧ (∀ j, j ≠ r.slot → t.slot j = s.slot j) ∧
           (∀ p, t.hold p = s.hold p) ∧ t.psw.joins = s.psw.joins ∧
           t.psw.deskQueue = s.psw.deskQueue ∧ t.ntu = s.ntu) ∧
       (engaged → ends .declinedEngaged) ∧
       (¬ engaged → (s.flat i).privacy = true → ends .declinedPrivacy) ∧
       (¬ engaged → (s.flat i).privacy = false → off = true → ends .unreachableRiserOff) ∧
       (¬ engaged → (s.flat i).privacy = false → off = false → s.stationsToOffer i = [] →
         ends .unreachableNoStation))

/-- R48, R49: SET PRIVACY stores the flat's host privacy and works its privacy out again; a change
raises PRIVACY_CHANGE; the reply carries both. A flat past the table or another level is refused (that
another level is out of range is DEDUCED from section 11.1, log entry 17). -/
def Obligations.SetPrivacyRecomputesFlat : Prop :=
  ∀ (num fl v : Nat) (s : State), s.Takes →
    (∀ i : FlatIx, i.val = fl → v < 2 →
      let old := s.flat i
      let agg := decide (v = 1) ||
        (List.range' old.firstStation old.handsetCount).any fun a =>
          ((s.riser old.riser).station a).privacy
      let x : Flat := { old with hostPrivacy := decide (v = 1), privacy := agg }
      let events := if agg = old.privacy then [] else [Event.privacyChange i agg]
      ∃ t, exec (.setPrivacy num fl v) s = .next t ∧
        t = { s with dir := { s.dir with flats := s.dir.flats.write i x }
                     ports := Table.mapEach Port.startTransmission (events.foldl State.emit s).ports
                     hlp := t.hlp, ntu := t.ntu } ∧ Raises s t events ∧
        Answers s t ⟨0x09, num, .ok, .privacy (decide (v = 1)) agg⟩) ∧
    (256 ≤ fl ∨ 2 ≤ v → ∃ t, exec (.setPrivacy num fl v) s = .next t ∧
      t = { s with ports := Table.mapEach Port.startTransmission s.ports
                   hlp := t.hlp, ntu := t.ntu } ∧ Raises s t [] ∧
      Answers s t ⟨0x09, num, .badValue, .none⟩)

/-! ## Queries -/

/-- R30, R36, R50, R136, R165: QUERY CALL, WINDOW, FLAT, PORT and LOCK answer with the record as it
stands and change nothing; a number out of range is refused BAD_VALUE. R66, R96: QUERY RISER and
QUERY STATION answer with the riser and the station as they stand and change nothing; a number out
of range is refused BAD_VALUE. That enable is among the settings QUERY RISER reports is DEDUCED (log
entry 16). -/
def Obligations.QueriesReportAndChangeNothing : Prop :=
  (∀ (num n : Nat) (s : State),
     let answered := fun (c : Instr) (kind : Nat) (st : Status) (b : ReplyBody) =>
       s.Takes → ∃ t, exec c s = .next t ∧ t = { s with hlp := t.hlp, ntu := t.ntu } ∧
         Raises s t [] ∧ Answers s t ⟨kind, num, st, b⟩
     (∀ i : SlotIx, i.val + 1 = n →
       (∀ c, (s.slot i).call = some c → answered (.queryCall num n) 0x0D .ok
         (.liveCall { slot := i, gen := (s.slot i).generation } c
           (c.timer.map fun x => (x.expiry - s.clock + 999) / 1000))) ∧
       ((s.slot i).call = none → answered (.queryCall num n) 0x0D .ok
         (.freeSlot { slot := i, gen := (s.slot i).generation } (s.slot i).lastEnd))) ∧
     (n = 0 ∨ 16 < n → answered (.queryCall num n) 0x0D .badValue .none) ∧
     (∀ i : WindowIx, i.val = n →
       answered (.queryWindow num n) 0x0E .ok (.window (s.dir.windows.read i))) ∧
     (8 ≤ n → answered (.queryWindow num n) 0x0E .badValue .none) ∧
     (∀ i : FlatIx, i.val = n → answered (.queryFlat num n) 0x0F .ok (.flat (s.flat i))) ∧
     (256 ≤ n → answered (.queryFlat num n) 0x0F .badValue .none) ∧
     (∀ p : PortIx, p.val = n →
       answered (.queryPort num n) 0x10 .ok (.portReport
         { function := (s.port p).function, intercept := (s.port p).intercept
           present := (s.port p).present, check := (s.port p).check
           lastDisplay := (s.port p).lastDisplay
           displayWaiting := (s.port p).displaySlot.isSome
           ringWaiting := (s.port p).ringSlot.isSome
           alertWaiting := (s.port p).alertSlot.isSome
           releaseTime := (s.lock p).releaseTime, hold := s.hold p }) ∧
       answered (.queryLock num n) 0x11 .ok (.lockReport
         { state := (s.lock p).state, claim := (s.lock p).claim
           releaseTime := (s.lock p).releaseTime
           secondsLeft := (s.lock p).timer.map fun e => (e - s.clock + 999) / 1000
           usable := decide ((s.port p).function = .entrance) })) ∧
     (8 ≤ n → answered (.queryPort num n) 0x10 .badValue .none ∧
       answered (.queryLock num n) 0x11 .badValue .none)) ∧
  (∀ (num n a : Nat) (s : State),
     let answered := fun (c : Instr) (kind : Nat) (st : Status) (b : ReplyBody) =>
       s.Takes → ∃ t, exec c s = .next t ∧ t = { s with hlp := t.hlp, ntu := t.ntu } ∧
         Raises s t [] ∧ Answers s t ⟨kind, num, st, b⟩
     (6 ≤ n → answered (.queryRiser num n) 0x12 .badValue .none ∧
       answered (.queryStation num n a) 0x13 .badValue .none) ∧
     ∀ r : RiserIx, r.val = n → (s.riser r).overrunDue = false →
       let x := s.riser r
       let count := fun (v : Presence) =>
         ((List.finRange 62).filter fun i => decide ((x.stations.read i).presence = v)).length
       answered (.queryRiser num n) 0x12 .ok (.riserReport
         { link := x.link, line := x.line
           settings :=
             { enable := decide (x.link ≠ .disabled), survey := x.survey
               quietAllowed := x.quietAllowed, surveyStepMs := x.surveyStepMs
               quietIdleS := x.quietIdleS }
           entries := x.queue.length, advisories := x.advisories.length
           solicited := (x.frames.filter QueueEntry.isSolicited).length
           markers := x.queue.length - x.frames.length
           outstanding := x.outstanding.length, surveyPos := x.surveyPos
           present := count .present, absent := count .absent, unknown := count .unknown
           holderA := (s.paths r).holderA, holderB := (s.paths r).holderB
           waiting := (s.paths r).queue }) ∧
       (∀ i : Fin 62, i.val + 1 = a →
         answered (.queryStation num n a) 0x13 .ok (.station (x.stations.read i))) ∧
       (a = 0 ∨ 62 < a → answered (.queryStation num n a) 0x13 .badValue .none))

/-! ## Doors -/

/-- R162: DOOR HOLD releases a SECURE usable lock for the host, repeats itself harmlessly, and is
refused for a lock that cannot be used or that another claim holds. R163: DOOR FREE secures the
lock that the host holds with the same tag and raises DOOR_SECURED, FREED; in every other case it
is refused NOT_OWNER and the lock is unchanged. -/
def Obligations.DoorHoldAndFreeFollowTheClaim : Prop :=
  (∀ (num n tag : Nat) (s : State), s.Takes →
     let c := Instr.doorHold num n tag
     let same := fun (t : State) (st : Status) =>
       t = { s with ports := Table.mapEach Port.startTransmission s.ports
                    hlp := t.hlp, ntu := t.ntu } ∧ Raises s t [] ∧
         Answers s t ⟨0x0A, num, st, .none⟩
     (8 ≤ n ∨ tag = 0 ∨ 255 < tag → ∃ t, exec c s = .next t ∧ same t .badValue) ∧
     ∀ p : PortIx, p.val = n → 1 ≤ tag → tag ≤ 255 →
       ((s.port p).function ≠ .entrance → ∃ t, exec c s = .next t ∧ same t .notExecutable) ∧
       ((s.port p).function = .entrance →
         ((s.lock p).state = .secure →
           let e := Event.doorReleased p (.host tag) none
           ∃ t, exec c s = .next t ∧
             t = { s with locks := s.locks.write p
                            { state := .released, claim := some (.host tag)
                              releaseTime := (s.lock p).releaseTime, timer := none }
                          ports := Table.mapEach Port.startTransmission (s.emit e).ports
                          hlp := t.hlp, ntu := t.ntu } ∧
             Raises s t [e] ∧ Answers s t ⟨0x0A, num, .ok, .none⟩) ∧
         ((s.lock p).state = .released → (s.lock p).claim = some (.host tag) →
           ∃ t, exec c s = .next t ∧ same t .ok) ∧
         ((s.lock p).state = .released → (s.lock p).claim ≠ some (.host tag) →
           ∃ t, exec c s = .next t ∧ same t .notFree))) ∧
  (∀ (num n tag : Nat) (s : State), s.Takes →
     let c := Instr.doorFree num n tag
     let same := fun (t : State) (st : Status) =>
       t = { s with ports := Table.mapEach Port.startTransmission s.ports
                    hlp := t.hlp, ntu := t.ntu } ∧ Raises s t [] ∧
         Answers s t ⟨0x0B, num, st, .none⟩
     (8 ≤ n ∨ tag = 0 ∨ 255 < tag → ∃ t, exec c s = .next t ∧ same t .badValue) ∧
     ∀ p : PortIx, p.val = n → 1 ≤ tag → tag ≤ 255 →
       ((s.lock p).claim = some (.host tag) →
         let e := Event.doorSecured p (.host tag) .freed
         ∃ t, exec c s = .next t ∧
           t = { s with locks := s.locks.write p
                          { state := .secure, claim := none
                            releaseTime := (s.lock p).releaseTime, timer := none }
                        ports := Table.mapEach Port.startTransmission (s.emit e).ports
                        hlp := t.hlp, ntu := t.ntu } ∧
           Raises s t [e] ∧ Answers s t ⟨0x0B, num, .ok, .none⟩) ∧
       ((s.lock p).claim ≠ some (.host tag) → ∃ t, exec c s = .next t ∧ same t .notOwner))

/-- R160: when a release timer expires the lock secures, its claim is removed and DOOR_SECURED is
raised with the claim that has ended and the cause EXPIRED. A timer that does not run does not expire.
That the clock is brought up to the expiry is the model's choice (log entry 3). -/
def Obligations.ReleaseTimerExpirySecuresLock : Prop :=
  ∀ (p : PortIx) (s : State),
    (∀ e c, (s.lock p).timer = some e → (s.lock p).claim = some c →
      let ev := Event.doorSecured p c .expired
      ∃ t, exec (.releaseTimerExpiry p) s = .next t ∧
        t = { s with clock := max s.clock e
                     locks := s.locks.write p
                       { state := .secure, claim := none
                         releaseTime := (s.lock p).releaseTime, timer := none }
                     ports := Table.mapEach Port.startTransmission (s.emit ev).ports
                     hlp := t.hlp, ntu := t.ntu } ∧
        t.hlp.replyLine = s.hlp.replyLine ∧ Raises s t [ev]) ∧
    ((s.lock p).timer = none → exec (.releaseTimerExpiry p) s = .next s)

/-- R141, R147, R157, R158, R159: a desk's DOOR during its conversation releases a SECURE lock of the
origin port for the call and starts its timer with the release time; a lock the call itself holds has
its timer started again with no event; a lock another claim holds is left alone; a lock that cannot be
used is answered NOT_AVAILABLE. R148: any other DOOR from a desk set shows NOT_AVAILABLE there and does
nothing else. R123, R126: from a port that is ABSENT or has another function it is discarded: nothing
changes but that its reception is over. -/
def Obligations.DeskDoorReleasesOriginLock : Prop :=
  (∀ (p : PortIx) (r : Ref) (c : Call) (s : State),
     (s.port p).present = true → (s.port p).function = .concierge →
     s.hold p = some { call := r, role := .desk } → s.call? r = some c → c.leg = .concierge →
     c.state = .connected →
     let o := c.origin
     let l := s.lock o
     let opened : Lock := { l with state := .released, claim := some (.call r)
                                   timer := some (s.clock + l.releaseTime * 1000) }
     let kept := fun (t : State) =>
       t = { s with locks := t.locks, ports := t.ports, hlp := t.hlp, ntu := t.ntu } ∧
         t.hlp.replyLine = s.hlp.replyLine ∧
         (∀ q, (s.port q).SameSettings (t.port q)) ∧
         ∀ q, q ≠ p → q ≠ o → (t.port q).lastDisplay = (s.port q).lastDisplay
     ((s.port o).function = .entrance → l.state = .secure →
       ∃ t, exec (.deskDoor p) s = .next t ∧ kept t ∧ t.locks = s.locks.write o opened ∧
         Raises s t [.doorReleased o (.call r) (some l.releaseTime)] ∧
         (t.port o).Shows .doorOpen ∧ (t.port p).Shows .doorOpen) ∧
     ((s.port o).function = .entrance → l.state = .released → l.claim = some (.call r) →
       ∃ t, exec (.deskDoor p) s = .next t ∧ kept t ∧ t.locks = s.locks.write o opened ∧
         Raises s t [] ∧ (t.port o).Shows .doorOpen ∧ (t.port p).Shows .doorOpen) ∧
     ((s.port o).function = .entrance → l.state = .released → l.claim ≠ some (.call r) →
       ∃ t, exec (.deskDoor p) s = .next t ∧ kept t ∧ t.locks = s.locks ∧ Raises s t [] ∧
         (t.port p).Shows .doorOpen) ∧
     ((s.port o).function ≠ .entrance →
       ∃ t, exec (.deskDoor p) s = .next t ∧ kept t ∧ t.locks = s.locks ∧ Raises s t [] ∧
         (t.port p).Shows .notAvailable)) ∧
  (∀ (p : PortIx) (s : State), (s.port p).present = true → (s.port p).function = .concierge →
     (∀ r c, s.hold p = some { call := r, role := .desk } → s.call? r = some c →
       ¬ (c.leg = .concierge ∧ c.state = .connected)) →
     let clear : State := { s with ports := s.ports.write p { s.port p with receiving := none } }
     ∃ t, exec (.deskDoor p) s = .next t ∧ Settled (clear.display p .notAvailable) t) ∧
  (∀ (p : PortIx) (s : State),
     let clear : State := { s with ports := s.ports.write p { s.port p with receiving := none } }
     (s.port p).present = false ∨ (s.port p).function ≠ .concierge →
       exec (.deskDoor p) s = .next clear)

/-! ## Calls -/

/-- R1, R2, R6, R7, R10, R11, R37, R53, R54, R58, R75: a CALL from an entrance panel, and a DIAL from a
desk set, with its check flag clear and its speech port FREE, whose code names a flat that passes the
entry checks. A new record takes the lowest FREE slot with the next generation, the origin port is held
and CALL_STARTED is raised. With a channel FREE it is held at once, the flat's stations are offered in
ascending order with a QUIET riser WAKING and its wake timer at 200 ms, and the panel shows CALLING;
with both held the call waits at the tail of the channel wait queue and the panel shows WAIT. No other
call, path or port changes. (Log entry 5: what the free lines then start.) -/
def Obligations.CallIsOfferedToItsFlat : Prop :=
  ∀ (p : PortIx) (code : Nat) (i : FlatIx) (k : SlotIx) (s : State),
    (s.port p).present = true → (s.port p).check = false → s.hold p = none → code < 10000 →
    (s.slot k).call = none → (∀ j, j < k → (s.slot j).call ≠ none) →
    s.dir.translate code = .ok i →
    let r : Ref := { slot := k, gen := (s.slot k).generation + 1 }
    let new := fun (kind : CallKind) =>
      ({ kind := kind, origin := p, code := some code, flat := some i, leg := .flat
         state := .waiting, waitingFor := none, deskVisited := false, channel := none
         deskPort := none, offers := [], answerer := none, timer := none } : Call)
    let made := fun (t : State) (kind : CallKind) =>
      (t.slot k).lastEnd = none ∧
        (∀ j, j ≠ k → (s.slot j).SameButSending (t.slot j)) ∧
        t.hold p = some { call := r, role := .origin } ∧ (∀ q, q ≠ p → t.hold q = s.hold q) ∧
        t.psw.joins = s.psw.joins ∧ t.psw.deskQueue = s.psw.deskQueue ∧
        Raises s t [.callStarted r kind p (some code)]
    let starts := fun (c : Instr) (kind : CallKind) =>
      (∀ ch, MayOffer s r i ch →
        ∃ t, exec c s = .next t ∧ Offering s t r (new kind) i ch ∧ made t kind) ∧
      (PassesChecks s r i → (s.paths (s.flat i).riser).holderA ≠ none →
        (s.paths (s.flat i).riser).holderB ≠ none →
        ∃ t, exec c s = .next t ∧ WaitsForChannel s t r (new kind) i ∧ made t kind)
    ((s.port p).function = .entrance → (s.ccu.intercept = false ∨ (s.port p).intercept = false) →
      starts (.panelCall p code) .visitor) ∧
    ((s.port p).function = .concierge → starts (.deskDial p code) .outward)

/-- R6, R124: a start request from a port with its check flag set shows SERVICE and raises
CALL_REFUSED; from a port that a call holds it shows BUSY; from a port that is ABSENT or has another
function the frame is discarded. In none of them is a call created. -/
def Obligations.StartRequestIsRefused : Prop :=
  ∀ (p : PortIx) (code : Nat) (s : State), code < 10000 →
    let clear : State := { s with ports := s.ports.write p { s.port p with receiving := none } }
    let refusals := fun (c : Instr) (f : PortFunction) (q : StartRequest) =>
      ((s.port p).present = true → (s.port p).function = f → (s.port p).check = true →
        ∃ t, exec c s = .next t ∧
          Settled ((clear.display p .service).emit (.callRefused p q)) t) ∧
      ((s.port p).present = true → (s.port p).function = f → (s.port p).check = false →
        s.hold p ≠ none → ∃ t, exec c s = .next t ∧ Settled (clear.display p .busy) t) ∧
      ((s.port p).present = false ∨ (s.port p).function ≠ f → exec c s = .next clear)
    refusals (.panelCall p code) .entrance .call ∧
      refusals (.panelConcierge p) .entrance .concierge ∧
      refusals (.deskDial p code) .concierge .dial

/-- R9, R12, R27, R28, R29: a CALL from an entrance panel, and a DIAL from a desk set, whose code names
no flat, or whose flat is engaged, private, on a riser that is off, or without a handset to offer, is
created and ends at once with the cause of the first check that fails: the slot is FREE again with the
new generation and that end, the port is FREE, both events are raised, and the panel shows what the end
gives. (A CALL that intercept mode takes to the concierge fails in its translation only. A DIAL with no
call waiting for the desk it comes from.) The display and the CANCEL reason of each end class and cause are
those of the table of R27. -/
def Obligations.CallThatFailsItsChecksEnds : Prop :=
  (∀ (p : PortIx) (code : Nat) (k : SlotIx) (s : State),
     (s.port p).present = true → (s.port p).check = false →
     s.hold p = none → code < 10000 → (s.slot k).call = none →
     (∀ j, j < k → (s.slot j).call ≠ none) →
     let r : Ref := { slot := k, gen := (s.slot k).generation + 1 }
     let fails := fun (c : Instr) (kind : CallKind) (intercepted : Prop) =>
       let ends := fun (flat : Option FlatIx) (why : EndReason) =>
         ∃ t, exec c s = .next t ∧
           t.slot k = { generation := r.gen, lastEnd := some why, call := none } ∧
           (∀ j, j ≠ k → (s.slot j).SameButSending (t.slot j)) ∧
           (∀ q, t.hold q = s.hold q) ∧ (t.port p).Shows why.display ∧
           (∀ x, t.paths x = s.paths x) ∧ (∀ x, (t.riser x).frames = (s.riser x).frames) ∧
           Raises s t [.callStarted r kind p (some code),
             .callEnded r kind p (some code) flat none why]
       (∀ cause, s.dir.translate code = .error cause → ends none (.invalidCode cause)) ∧
       ∀ i, s.dir.translate code = .ok i → ¬ intercepted →
         let engaged := ∃ j d, j ≠ k ∧ (s.slot j).call = some d ∧ d.leg = .flat ∧
           d.flat = some i ∧ d.state ≠ .waiting
         (engaged → ends (some i) .declinedEngaged) ∧
         (¬ engaged → (s.flat i).privacy = true → ends (some i) .declinedPrivacy) ∧
         (¬ engaged → (s.flat i).privacy = false → (s.riser (s.flat i).riser).link.isOff = true →
           ends (some i) .unreachableRiserOff) ∧
         (¬ engaged → (s.flat i).privacy = false → (s.riser (s.flat i).riser).link.isOff = false →
           s.stationsToOffer i = [] → ends (some i) .unreachableNoStation)
     ((∀ x, r ∉ (s.paths x).queue) → r ∉ s.psw.deskQueue →
       ((s.port p).function = .entrance → fails (.panelCall p code) .visitor
         (s.ccu.intercept = true ∧ (s.port p).intercept = true)) ∧
       ((s.port p).function = .concierge → s.psw.deskQueue = [] →
         fails (.deskDial p code) .outward False))) ∧
  (∀ why : EndReason, why.cancelReason = why.table.1 ∧ why.display = why.table.2.1)

/-- R60, R61, R139, R140, R150: a CONCIERGE frame from an entrance panel starts a DESK call. R8, R138: a
CALL from an entrance panel whose intercept flag is set, with intercept mode on, whose code names a
flat, starts a VISITOR call that keeps its code and flat and goes to the concierge first. Either is
granted the lowest-numbered eligible desk, which rings and shows RINGING, with the desk ring timer
started; with no eligible desk it waits at the tail of the desk wait queue with its path wait timer
started. -/
def Obligations.ConciergeCallRingsLowestDesk : Prop :=
  ∀ (p : PortIx) (k : SlotIx) (s : State),
    (s.port p).present = true → (s.port p).function = .entrance → (s.port p).check = false →
    s.hold p = none → (s.slot k).call = none → (∀ j, j < k → (s.slot j).call ≠ none) →
    let r : Ref := { slot := k, gen := (s.slot k).generation + 1 }
    let goes := fun (cmd : Instr) (kind : CallKind) (code : Option Nat) (flat : Option FlatIx)
        (same : State → Prop) =>
      let new : Call :=
        { kind := kind, origin := p, code := code, flat := flat, leg := .concierge
          state := .waiting, waitingFor := none, deskVisited := true, channel := none
          deskPort := none, offers := [], answerer := none, timer := none }
      let made := fun (t : State) =>
        same t ∧ (∀ x, t.paths x = s.paths x) ∧ t.psw.joins = s.psw.joins ∧
          t.hold p = some { call := r, role := .origin } ∧
          Raises s t [.callStarted r kind p code]
      (∀ d : PortIx, s.eligible d = true → (∀ q, q < d → s.eligible q = false) →
        ∃ t, exec cmd s = .next t ∧ made t ∧
          t.call? r = some { new with
            state := .ringing, deskPort := some d
            timer := some
              { kind := .deskRing, expiry := s.clock + s.ccu.times.deskRing * 1000 } } ∧
          t.hold d = some { call := r, role := .desk } ∧
          (∀ q, q ≠ p → q ≠ d → t.hold q = s.hold q) ∧ t.psw.deskQueue = s.psw.deskQueue ∧
          (t.port d).Rings (.on p kind flat) ∧ (t.port d).Shows .ringing ∧
          (t.port p).Shows .ringing) ∧
      ((∀ q, s.eligible q = false) →
        ∃ t, exec cmd s = .next t ∧ made t ∧
          t.call? r = some { new with
            waitingFor := some .desk
            timer := some
              { kind := .pathWait, expiry := s.clock + s.ccu.times.pathWait * 1000 } } ∧
          (∀ q, q ≠ p → t.hold q = s.hold q) ∧ t.psw.deskQueue = s.psw.deskQueue ++ [r] ∧
          (t.port p).Shows .wait)
    goes (.panelConcierge p) .desk none none
        (fun t => (∀ j, j ≠ k → t.slot j = s.slot j) ∧ ∀ x, t.riser x = s.riser x) ∧
      ∀ code i, code < 10000 → s.dir.translate code = .ok i → s.ccu.intercept = true →
        (s.port p).intercept = true →
        goes (.panelCall p code) .visitor (some code) (some i)
          (fun t => (∀ j, j ≠ k → (s.slot j).SameButSending (t.slot j)) ∧
            ∀ x, RiserSettled (s.riser x) (t.riser x))

/-- R63, R141: ANSWER from the desk that rings for a call on its concierge leg: the ring stops, the
call is CONNECTED with its talk timer started, the join between origin and desk is made, both show
SPEAK, and CALL_ANSWERED carries the desk port. R142: from the desk port of a call that no longer rings
there ANSWER is ignored; from a desk set that is the origin of a live call, or that no live call holds,
it shows NOT_AVAILABLE and changes no call. R123, R126: from a port that is ABSENT or has another
function it is discarded: nothing changes but that its reception is over. -/
def Obligations.DeskAnswerConnectsCall : Prop :=
  (∀ (p : PortIx) (r : Ref) (c : Call) (s : State),
     (s.port p).present = true → (s.port p).function = .concierge →
     s.hold p = some { call := r, role := .desk } → s.call? r = some c → c.leg = .concierge →
     c.state = .ringing →
     ∃ t, exec (.deskAnswer p) s = .next t ∧
       t = { s with ccu := t.ccu
                    psw := { s.psw with joins := s.psw.joins ++
                               [{ call := r, origin := c.origin, other := .desk p }] }
                    ports := t.ports, hlp := t.hlp, ntu := t.ntu } ∧
       t.call? r = some { c with
         state := .connected
         timer := some { kind := .talk, expiry := s.clock + s.ccu.times.talk * 1000 } } ∧
       (∀ i, i ≠ r.slot → t.slot i = s.slot i) ∧ t.ccu.times = s.ccu.times ∧
       t.ccu.intercept = s.ccu.intercept ∧
       (t.port p).Rings .off ∧ (t.port p).Shows .speak ∧
       ((s.port c.origin).function ≠ .off → (t.port c.origin).Shows .speak) ∧
       (∀ q, (s.port q).SameSettings (t.port q)) ∧ t.hlp.replyLine = s.hlp.replyLine ∧
       Raises s t [.callAnswered r none (some p)]) ∧
  (∀ (p : PortIx) (s : State), (s.port p).present = true → (s.port p).function = .concierge →
     let clear : State := { s with ports := s.ports.write p { s.port p with receiving := none } }
     (∀ r c, s.hold p = some { call := r, role := .desk } → s.call? r = some c →
       ¬ (c.leg = .concierge ∧ c.state = .ringing) →
       ∃ t, exec (.deskAnswer p) s = .next t ∧ Settled clear t) ∧
     ((∀ r, s.hold p = some { call := r, role := .desk } → s.call? r = none) →
       ∃ t, exec (.deskAnswer p) s = .next t ∧ Settled (clear.display p .notAvailable) t)) ∧
  (∀ (p : PortIx) (s : State),
     let clear : State := { s with ports := s.ports.write p { s.port p with receiving := none } }
     (s.port p).present = false ∨ (s.port p).function ≠ .concierge →
       exec (.deskAnswer p) s = .next clear)

/-- R9, R10, R23, R53, R63, R64, R65, R75, R145: FORWARD of a VISITOR call CONNECTED at a desk, with no
call waiting for a desk: the join is removed, the desk port is FREE and shows READY, and the call, back
on its FLAT leg and with no desk port, offers its flat on the channel it is given (a QUIET riser wakes),
or waits at the tail of the channel wait queue when both channels are held. A flat that is engaged,
private, on a riser that is off or without a handset to offer ends it with the cause of the first check
that fails. R62, R140, R149: with a call waiting for a desk, the call at the head of the desk wait queue
is granted the desk first, and then the forwarded call goes on in the same ways (neither with an offer
still QUEUED, R139). R146: any other FORWARD from a desk set shows NOT_AVAILABLE there and does nothing
else. R123, R126: from a port that is ABSENT or has another function it is discarded: nothing changes
but that its reception is over. -/
def Obligations.ForwardOffersTheFlat : Prop :=
  (∀ (p : PortIx) (r : Ref) (c : Call) (i : FlatIx) (s : State),
     (s.port p).present = true → (s.port p).function = .concierge →
     s.hold p = some { call := r, role := .desk } → s.call? r = some c → c.leg = .concierge →
     c.state = .connected → c.kind = .visitor → c.flat = some i → c.origin ≠ p →
     s.psw.deskQueue = [] →
     let left := fun (t : State) =>
       (∀ j, j ≠ r.slot → (s.slot j).SameButSending (t.slot j)) ∧
         t.hold p = none ∧ (∀ q, q ≠ p → t.hold q = s.hold q) ∧
         t.psw.joins = s.psw.joins.filter (fun j => j.call ≠ r) ∧ t.psw.deskQueue = [] ∧
         (t.port p).Shows .ready ∧ (t.port p).Rings .off ∧ Raises s t []
     (∀ ch, MayOffer s r i ch →
       ∃ t, exec (.deskForward p) s = .next t ∧
         Offering s t r { c with deskPort := none } i ch ∧ left t) ∧
     (PassesChecks s r i → (s.paths (s.flat i).riser).holderA ≠ none →
       (s.paths (s.flat i).riser).holderB ≠ none → (∀ o ∈ c.offers, o.status ≠ .queued) →
       ∃ t, exec (.deskForward p) s = .next t ∧
         WaitsForChannel s t r { c with deskPort := none } i ∧ left t) ∧
     (c.channel = none → FlatLegFails s r i fun why =>
       ∃ t, exec (.deskForward p) s = .next t ∧
         Ended (s.setHold p none) t r { c with deskPort := none } why ∧
         (t.port p).Shows .ready ∧ (t.port p).Rings .off)) ∧
  (∀ (p : PortIx) (r w : Ref) (c d : Call) (i : FlatIx) (rest : List Ref) (s : State),
     (s.port p).present = true → (s.port p).function = .concierge → (s.port p).check = false →
     s.hold p = some { call := r, role := .desk } → s.call? r = some c → c.leg = .concierge →
     c.state = .connected → c.kind = .visitor → c.flat = some i → c.origin ≠ p → c.channel = none →
     s.psw.deskQueue = w :: rest → w.slot ≠ r.slot → s.call? w = some d → d.leg = .concierge →
     d.origin ≠ c.origin → (∀ o ∈ c.offers ++ d.offers, o.status ≠ .queued) →
     let left := fun (t : State) =>
       DeskGranted s t p w d ∧ (∀ q, q ≠ p → t.hold q = s.hold q) ∧
         (∀ j, j ≠ r.slot → j ≠ w.slot → (s.slot j).SameButSending (t.slot j)) ∧
         t.psw.joins = s.psw.joins.filter (fun j => j.call ≠ r) ∧ t.psw.deskQueue = rest ∧
         Raises s t []
     (∀ ch, MayOffer s r i ch →
       ∃ t, exec (.deskForward p) s = .next t ∧
         Offering s t r { c with deskPort := none } i ch ∧ left t) ∧
     (PassesChecks s r i → (s.paths (s.flat i).riser).holderA ≠ none →
       (s.paths (s.flat i).riser).holderB ≠ none →
       ∃ t, exec (.deskForward p) s = .next t ∧
         WaitsForChannel s t r { c with deskPort := none } i ∧ left t) ∧
     ((s.port c.origin).function = .entrance → FlatLegFails s r i fun why =>
       ∃ t, exec (.deskForward p) s = .next t ∧ DeskGranted s t p w d ∧
         t.slot r.slot = { generation := r.gen, lastEnd := some why, call := none } ∧
         (∀ j, j ≠ r.slot → j ≠ w.slot → (s.slot j).SameButSending (t.slot j)) ∧
         t.hold c.origin = none ∧ (∀ q, q ≠ p → q ≠ c.origin → t.hold q = s.hold q) ∧
         t.psw.joins = s.psw.joins.filter (fun j => j.call ≠ r) ∧
         t.psw.deskQueue = rest.filter (fun q => q ≠ r) ∧
         (∀ x, t.paths x = { s.paths x with queue := (s.paths x).queue.filter fun q => q ≠ r }) ∧
         (t.port c.origin).Shows why.display ∧
         Raises s t [.callEnded r c.kind c.origin c.code c.flat c.answerer why])) ∧
  (∀ (p : PortIx) (s : State), (s.port p).present = true → (s.port p).function = .concierge →
     (∀ r c, s.hold p = some { call := r, role := .desk } → s.call? r = some c →
       ¬ (c.kind = .visitor ∧ c.leg = .concierge ∧ c.state = .connected ∧ c.flat ≠ none)) →
     let clear : State := { s with ports := s.ports.write p { s.port p with receiving := none } }
     ∃ t, exec (.deskForward p) s = .next t ∧ Settled (clear.display p .notAvailable) t) ∧
  (∀ (p : PortIx) (s : State),
     let clear : State := { s with ports := s.ports.write p { s.port p with receiving := none } }
     (s.port p).present = false ∨ (s.port p).function ≠ .concierge →
       exec (.deskForward p) s = .next clear)

/-- R20, R27, R28, R29, R75, R83, R84, R143: CANCEL from the entrance panel that is the origin of a live
call, and CLEAR from the desk set that is, end the call CANCELLED before CONNECTED and CLEARED / CALLER
in it; CLEAR from the desk a call on its concierge leg is CONNECTED to ends it CLEARED / DESK (with no
call waiting for what is freed). The OFFERs of the call still QUEUED leave its riser's queue, the
CANCELs of R28 join it, the outstanding requests they name are cancel-pending with a resend that was due
taken back, and a QUIET riser that is given a frame is WAKING, its wake timer at 200 ms. R11, R56: the
channel that a CANCEL frees goes to the call that waits for it first, which passes its checks and offers
its flat on it. R62, R149: the desk that a CLEAR frees goes to the call that waits for a desk first,
which has no offer still QUEUED (R139). R20, R126, R127, R143: a CANCEL from an entrance panel that is
the origin of no live call, a CLEAR from a desk set that is neither the origin of one nor its desk while
CONNECTED, and either from a port that is ABSENT or has another function, is discarded: nothing changes
but that its reception is over. -/
def Obligations.CancelAndClearEndTheCall : Prop :=
  (∀ (p : PortIx) (r : Ref) (c : Call) (s : State),
     (s.port p).present = true → s.call? r = some c → s.NoWaiters r c →
     let caller : EndReason := if c.state = .connected then .clearedCaller else .cancelled
     ((s.port p).function = .entrance → s.hold p = some { call := r, role := .origin } →
       ∃ t, exec (.panelCancel p) s = .next t ∧ Ended s t r c caller) ∧
     ((s.port p).function = .concierge → s.hold p = some { call := r, role := .origin } →
       ∃ t, exec (.deskClear p) s = .next t ∧ Ended s t r c caller) ∧
     ((s.port p).function = .concierge → s.hold p = some { call := r, role := .desk } →
       c.leg = .concierge → c.state = .connected →
       ∃ t, exec (.deskClear p) s = .next t ∧ Ended s t r c .clearedDesk)) ∧
  (∀ (p : PortIx) (r w : Ref) (c d : Call) (i : FlatIx) (ch : Channel) (rest : List Ref)
       (s : State),
     (s.port p).present = true → (s.port p).function = .entrance →
     s.hold p = some { call := r, role := .origin } → s.call? r = some c → c.origin = p →
     c.deskPort = none → c.channel = some ch → s.riserOfCall c = some ch.riser →
     (∀ o ∈ c.offers, o.status ≠ .queued) → s.psw.deskQueue = [] →
     (s.paths ch.riser).queue = w :: rest → w.slot ≠ r.slot → s.call? w = some d →
     d.leg = .flat → d.flat = some i → (s.flat i).riser = ch.riser → PassesChecks s w i →
     (s.riser ch.riser).overrunDue = false →
     (s.riser ch.riser).queue.length + c.offers.length + (s.stationsToOffer i).length ≤ 32 →
     let why : EndReason := if c.state = .connected then .clearedCaller else .cancelled
     ∃ t, exec (.panelCancel p) s = .next t ∧
       t.slot r.slot = { generation := r.gen, lastEnd := some why, call := none } ∧
       t.hold p = none ∧
       t.paths ch.riser =
         ({ s.paths ch.riser with queue := rest.filter (fun q => q ≠ r) } : RiserPaths).setHolder
           ch.side (some w) ∧
       (∃ os, t.call? w = some { d with state := .offering, waitingFor := none, timer := none
                                        channel := some ch, offers := os } ∧
         os.map (fun o => o.station) = s.stationsToOffer i) ∧
       FramesGiven (s.riser ch.riser) (t.riser ch.riser) t.clock r [] (c.cancelsAtEnd r why ++
         (s.stationsToOffer i).map (fun a => .solicited (.offer a w d.kind d.origin))) ∧
       Raises s t [.callEnded r c.kind c.origin c.code c.flat c.answerer why]) ∧
  (∀ (p : PortIx) (r w : Ref) (c d : Call) (rest : List Ref) (s : State),
     (s.port p).present = true → (s.port p).function = .concierge → (s.port p).check = false →
     s.hold p = some { call := r, role := .desk } → s.call? r = some c → c.leg = .concierge →
     c.state = .connected → c.deskPort = some p → c.channel = none →
     (s.port c.origin).function = .entrance →
     s.psw.deskQueue = w :: rest → w.slot ≠ r.slot → s.call? w = some d → d.origin ≠ c.origin →
     (∀ o ∈ d.offers, o.status ≠ .queued) →
     ∃ t, exec (.deskClear p) s = .next t ∧
       t.slot r.slot = { generation := r.gen, lastEnd := some .clearedDesk, call := none } ∧
       t.hold c.origin = none ∧ (t.port c.origin).Shows .ready ∧ DeskGranted s t p w d ∧
       t.psw.deskQueue = rest.filter (fun q => q ≠ r) ∧
       Raises s t [.callEnded r c.kind c.origin c.code c.flat c.answerer .clearedDesk]) ∧
  (∀ (p : PortIx) (s : State),
     let clear : State := { s with ports := s.ports.write p { s.port p with receiving := none } }
     let noCaller := ∀ r, s.hold p = some { call := r, role := .origin } → s.call? r = none
     let noDesk := ∀ r c, s.hold p = some { call := r, role := .desk } → s.call? r = some c →
       ¬ (c.leg = .concierge ∧ c.state = .connected)
     ((s.port p).present = true → (s.port p).function = .entrance → noCaller →
       ∃ t, exec (.panelCancel p) s = .next t ∧ Settled clear t) ∧
     ((s.port p).present = true → (s.port p).function = .concierge → noCaller → noDesk →
       ∃ t, exec (.deskClear p) s = .next t ∧ Settled clear t) ∧
     ((s.port p).present = false ∨ (s.port p).function ≠ .entrance →
       exec (.panelCancel p) s = .next clear) ∧
     ((s.port p).present = false ∨ (s.port p).function ≠ .concierge →
       exec (.deskClear p) s = .next clear))

/-- R3, R26, R27, R28, R75, R83, R84, R177: END CALL ends the live call that the reference matches
FORCED, with the frames of R28 at its riser, and is answered OK with the reference (with no call waiting
for what is freed); a stale reference is answered NOT_EXECUTABLE and a slot out of range BAD_VALUE, with
nothing changed. -/
def Obligations.EndCallRequestForcesTheEnd : Prop :=
  ∀ (num n g : Nat) (s : State), s.Takes →
    (n = 0 ∨ 16 < n ∨ 255 < g → ∃ t, exec (.endCall num n g) s = .next t ∧
      Settled s t ∧ Raises s t [] ∧
      s.hlp.replyLine ++ [⟨0x0C, num, .badValue, .none⟩] <+: t.hlp.replyLine) ∧
    ∀ r : Ref, r.slot.val + 1 = n → r.gen.toNat = g →
      (s.call? r = none → ∃ t, exec (.endCall num n g) s = .next t ∧
        Settled s t ∧ Raises s t [] ∧
        s.hlp.replyLine ++ [⟨0x0C, num, .notExecutable, .none⟩] <+: t.hlp.replyLine) ∧
      ∀ c, s.call? r = some c → s.NoWaiters r c →
        ∃ t, exec (.endCall num n g) s = .next t ∧ Ended s t r c .forced ∧
          t.hlp.buffer = [] ∧ ReceiveKept s t ∧
          s.hlp.replyLine ++ [⟨0x0C, num, .ok, .ref r⟩] <+: t.hlp.replyLine

/-- R21, R22, R24, R25, R27, R28, R75, R83, R84, R144: the timer of a call that runs out ends it, with
the frames of R28 at its riser: PATH_WAIT with NO_PATH, RING with NO_ANSWER / FLAT where the call does
not divert, DESK_RING with NO_ANSWER / DESK, TALK with TIME_LIMIT (with no call waiting for what is
freed). An expiry that names a call with another timer running or with none, or no live call, changes
nothing. That the clock is brought up to the expiry, and that a late expiry is one that does not run, is
the model's choice (log entry 3). -/
def Obligations.CallTimerExpiryEndsTheCall : Prop :=
  (∀ (r : Ref) (c : Call) (s : State), s.call? r = some c → s.NoWaiters r c →
     let ends := fun (cmd : Instr) (k : TimerKind) (why : EndReason) =>
       ∀ e, c.timer = some { kind := k, expiry := e } →
         ∃ t, exec cmd s = .next t ∧ Ended s t r c why ∧ t.clock = max s.clock e
     (c.waitingFor = some .channel → ends (.pathWaitExpiry r) .pathWait .noPathChannel) ∧
     (c.waitingFor = some .desk → ends (.pathWaitExpiry r) .pathWait .noPathDesk) ∧
     (c.kind ≠ .visitor ∨ c.deskVisited = true ∨ (∀ p, (s.port p).function ≠ .concierge) ∨
         (∀ i, c.flat = some i → (s.flat i).divert = false) →
       ends (.ringExpiry r) .ring .noAnswerFlat) ∧
     ends (.deskRingExpiry r) .deskRing .noAnswerDesk ∧
     ends (.talkExpiry r) .talk .timeLimit) ∧
  (∀ (r : Ref) (s : State),
     let idle := fun (k : TimerKind) =>
       ∀ c, s.call? r = some c → c.timer.map (fun t => t.kind) ≠ some k
     (idle .pathWait → exec (.pathWaitExpiry r) s = .next s) ∧
     (idle .ring → exec (.ringExpiry r) s = .next s) ∧
     (idle .deskRing → exec (.deskRingExpiry r) s = .next s) ∧
     (idle .talk → exec (.talkExpiry r) s = .next s))

/-- R22, R23, R75, R83, R84, R139: RING expiry of a VISITOR call that has not visited the concierge,
whose flat diverts and with a concierge port in the building: its offers that are SENT or RINGING are
cancelled DIVERTED and their requests are cancel-pending, those still QUEUED are withdrawn and leave the
riser's queue, its channel is FREE (with no call waiting for it), and it rings the lowest-numbered
eligible desk. With no eligible desk it waits for one at the tail of the desk wait queue, with its path
wait timer started, and the panel shows WAIT. That the clock is brought up to the expiry, from which the
timer it starts then counts, is the model's choice (log entry 3); that the channel is released before
the leg changes is DEDUCED (log entry 14). -/
def Obligations.UnansweredVisitorDiverts : Prop :=
  ∀ (r : Ref) (c : Call) (i : FlatIx) (ch : Channel) (e : Nat) (s : State),
    s.call? r = some c → c.kind = .visitor → c.deskVisited = false → c.flat = some i →
    (s.flat i).divert = true → c.timer = some { kind := .ring, expiry := e } →
    c.channel = some ch → ch.riser = (s.flat i).riser → (s.paths ch.riser).queue = [] →
    (s.riser ch.riser).link.isOff = false → (s.riser ch.riser).overrunDue = false →
    (s.riser ch.riser).queue.length + c.offers.length ≤ 32 →
    (∀ o ∈ c.offers, o.status = .queued → (s.riser ch.riser).HoldsOffer o.station r) →
    (c.offers.map fun o => o.station).Nodup → (s.port c.origin).function ≠ .off →
    let now := max s.clock e
    let took := c.offers.map fun o =>
      if o.status = .sent ∨ o.status = .ringing then { o with status := .cancelled }
      else if o.status = .queued then { o with status := .withdrawn } else o
    let diverted : Call :=
      { c with leg := .concierge, deskVisited := true, channel := none, offers := took }
    let left := fun (t : State) =>
      t.clock = now ∧ (∀ j, j ≠ r.slot → (s.slot j).SameButSending (t.slot j)) ∧
        t.paths ch.riser = (s.paths ch.riser).setHolder ch.side none ∧
        (∀ x, x ≠ ch.riser → t.paths x = s.paths x) ∧ t.psw.joins = s.psw.joins ∧
        FramesGiven (s.riser ch.riser) (t.riser ch.riser) now r c.queuedStations
          ((c.offers.filter fun o => decide (o.status = .sent ∨ o.status = .ringing)).map
            fun o => .advisory (.cancel o.station .diverted (some r))) ∧
        Raises s t []
    (∀ d, s.eligible d = true → (∀ q, q < d → s.eligible q = false) →
      ∃ t, exec (.ringExpiry r) s = .next t ∧ left t ∧
        t.call? r = some { diverted with
          state := .ringing, waitingFor := none, deskPort := some d
          timer := some { kind := .deskRing, expiry := now + s.ccu.times.deskRing * 1000 } } ∧
        t.hold d = some { call := r, role := .desk } ∧ (∀ q, q ≠ d → t.hold q = s.hold q) ∧
        t.psw.deskQueue = s.psw.deskQueue ∧
        (t.port d).Rings (.on c.origin c.kind c.flat) ∧ (t.port d).Shows .ringing ∧
        (t.port c.origin).Shows .ringing) ∧
    ((∃ q, (s.port q).function = .concierge) → (∀ q, s.eligible q = false) →
      ∃ t, exec (.ringExpiry r) s = .next t ∧ left t ∧
        t.call? r = some { diverted with
          state := .waiting, waitingFor := some .desk
          timer := some { kind := .pathWait, expiry := now + s.ccu.times.pathWait * 1000 } } ∧
        (∀ q, t.hold q = s.hold q) ∧ t.psw.deskQueue = s.psw.deskQueue ++ [r] ∧
        (t.port c.origin).Shows .wait)

/-! ## Panel lines -/

/-- R126, R132, R194: a discarded panel frame changes nothing but that its reception is over. When a
frame on a panel line ends, the first of the ring, display and alert slots that is not empty goes out
and is emptied; with none, the line is free. -/
def Obligations.PanelLineServesSlotsInOrder : Prop :=
  ∀ (p : PortIx) (s : State),
    let x := s.port p
    let put := fun (y : Port) => ({ s with ports := s.ports.write p y } : State)
    exec (.panelFrameDiscard p) s = .next (put { x with receiving := none }) ∧
    (x.tx = none → exec (.panelTxEnd p) s = .next s) ∧
    (x.tx ≠ none → x.present = true → x.function ≠ .off →
      (∀ l, x.ringSlot = some l → exec (.panelTxEnd p) s =
        .next (put { x with ringSlot := none, tx := some (.ring l) })) ∧
      (∀ d, x.ringSlot = none → x.displaySlot = some d → exec (.panelTxEnd p) s =
        .next (put { x with displaySlot := none, tx := some (.display d) })) ∧
      (∀ e, x.ringSlot = none → x.displaySlot = none → x.alertSlot = some e →
        exec (.panelTxEnd p) s =
          .next (put { x with alertSlot := none, tx := some (.alert e) })) ∧
      (x.ringSlot = none → x.displaySlot = none → x.alertSlot = none →
        exec (.panelTxEnd p) s = .next (put { x with tx := none })))

/-- R121, R122: a change of presence sets the check flag and raises PANEL_CHANGE. A port that becomes
PRESENT shows SERVICE, and a desk set falls silent. A port that becomes ABSENT loses its slots and its
transmission, and the call that holds it ends PANEL_LOST or DESK_LOST, with the frames of R28 at its
riser (R75, R83, R84, with no call waiting for what is freed). Of its slots, the display slot alone may
be filled again: with FAULT where the port was the call's origin (R27), and with READY where it was the
desk port (R149). A report that repeats the presence changes nothing. -/
def Obligations.PresenceChangesSetTheCheckFlag : Prop :=
  ∀ (p : PortIx) (s : State),
    let x := s.port p
    ((x.present = true → exec (.panelPresent p) s = .next s) ∧
      (x.present = false → exec (.panelAbsent p) s = .next s)) ∧
    (x.present = false →
      ∃ t, exec (.panelPresent p) s = .next t ∧
        t = { s with ports := t.ports, hlp := t.hlp, ntu := t.ntu } ∧
        (t.port p).present = true ∧ (t.port p).check = true ∧
        (t.port p).function = x.function ∧ (t.port p).intercept = x.intercept ∧
        (x.function ≠ .off → (t.port p).Shows .service) ∧
        (x.function = .concierge → (t.port p).Rings .off) ∧
        (∀ q, q ≠ p → (s.port q).SameSettings (t.port q) ∧
          (t.port q).lastDisplay = (s.port q).lastDisplay) ∧
        t.hlp.replyLine = s.hlp.replyLine ∧ Raises s t [.panelChange p x.function true true]) ∧
    (x.present = true →
      let y : Port := { x with
        present := false, check := true, displaySlot := none, ringSlot := none, alertSlot := none
        tx := none, receiving := none }
      let u : State := { s with ports := s.ports.write p y }
      let e := Event.panelChange p x.function false true
      let lost := fun (t : State) =>
        (t.port p).present = false ∧ (t.port p).check = true ∧
          (t.port p).function = x.function ∧ (t.port p).intercept = x.intercept ∧
          (t.port p).tx = none ∧ (t.port p).ringSlot = none ∧ (t.port p).alertSlot = none ∧
          (t.port p).receiving = none
      (s.hold p = none →
        ∃ t, exec (.panelAbsent p) s = .next t ∧ Settled (u.emit e) t ∧ lost t ∧
          (t.port p).displaySlot = none ∧ (t.port p).lastDisplay = x.lastDisplay) ∧
      ∀ r c, s.call? r = some c → s.NoWaiters r c →
        let placed : Option Display :=
          if x.function = .off then none
          else if c.deskPort = some p then some .ready
          else if c.origin = p then some .fault else none
        (s.hold p = some { call := r, role := .origin } →
          ∃ t, exec (.panelAbsent p) s = .next t ∧ Ended (u.emit e) t r c .faultPanelLost ∧
            lost t ∧ (t.port p).displaySlot = placed) ∧
        (s.hold p = some { call := r, role := .desk } →
          ∃ t, exec (.panelAbsent p) s = .next t ∧ Ended (u.emit e) t r c .faultDeskLost ∧
            lost t ∧ (t.port p).displaySlot = placed))

/-! ## Frames of stations -/

/-- R13, R17, R63, R74, R92: LIFT from a station that a call is offered to and that may answer. The
station is the answerer, the call is CONNECTED with its talk timer started, its channel is joined
to its origin, JOIN goes to the station and CANCEL to every other whose offer is SENT or RINGING, which
marks its outstanding request cancel-pending (R83), the offers still QUEUED are withdrawn and leave the
riser's queue (R84), the panel shows SPEAK, CALL_ANSWERED is raised, the station is
PRESENT and the idle timer starts again. R18, R74, R99, R100, R101: any other LIFT. From the answerer
of a CONNECTED call it is ignored; from a station of a flat in service that another station answers for
it gets CANCEL(ANSWERED_ELSEWHERE) with that call's reference; from every other station, one whose offer
is still QUEUED among them, it gets CANCEL(NO_CALL) with no reference. No call changes. -/
def Obligations.LiftAnswersOrIsTurnedAway : Prop :=
  (∀ (x : RiserIx) (a : Nat) (r : Ref) (c : Call) (ch : Channel) (s : State),
     (s.riser x).link = .active → (s.riser x).overrunDue = false → (s.riser x).tx = none →
     1 ≤ a → a ≤ 62 → ((s.riser x).station a).presence ≠ .absent →
     s.call? r = some c → c.leg = .flat → (c.state = .offering ∨ c.state = .ringing) →
     c.answerer = none → s.riserOfCall c = some x →
     (∃ o ∈ c.offers, o.station = a ∧ (o.status = .sent ∨ o.status = .ringing)) →
     (∀ o ∈ c.offers, o.status = .queued → (s.riser x).HoldsOffer o.station r) →
     (c.offers.map fun o => o.station).Nodup →
     (∀ j d, j ≠ r.slot → (s.slot j).call = some d → s.riserOfCall d = some x →
       ∀ o ∈ d.offers, o.station ≠ a) →
     c.channel = some ch → (s.riser x).queue.length + 1 + c.offers.length ≤ 32 →
     let others := fun (o : Offer) => o.station ≠ a ∧ (o.status = .sent ∨ o.status = .ringing)
     ∃ t, exec (.stationLift x a) s = .next t ∧
       t.call? r = some { c with
         answerer := some a, state := .connected
         offers := c.offers.map fun o =>
           if o.station ≠ a ∧ (o.status = .sent ∨ o.status = .ringing) then
             { o with status := .cancelled }
           else if o.status = .queued then { o with status := .withdrawn } else o
         timer := some { kind := .talk, expiry := s.clock + s.ccu.times.talk * 1000 } } ∧
       (∀ j, j ≠ r.slot → (s.slot j).SameButSending (t.slot j)) ∧
       t.psw = { s.psw with joins := s.psw.joins ++
         [{ call := r, origin := c.origin, other := .channel ch }] } ∧
       FramesGiven (s.riser x) (t.riser x) s.clock r c.queuedStations
         (.advisory (.join a r ch.side) :: (c.offers.filter fun o => decide (others o)).map
           fun o => .advisory (.cancel o.station .answeredElsewhere (some r))) ∧
       ((t.riser x).station a).presence = .present ∧
       (t.riser x).idleTimer = some (s.clock + (s.riser x).quietIdleS * 1000) ∧
       ((s.port c.origin).function ≠ .off → (t.port c.origin).Shows .speak) ∧
       Raises s t [.callAnswered r (some a) none]) ∧
  (∀ (x : RiserIx) (a : Nat) (s : State),
     (s.riser x).link = .active → (s.riser x).overrunDue = false → (s.riser x).tx = none →
     1 ≤ a → a ≤ 62 → ((s.riser x).station a).presence ≠ .absent →
     (∀ j d, (s.slot j).call = some d → d.leg = .flat →
       (d.state = .offering ∨ d.state = .ringing) → d.answerer = none →
       s.riserOfCall d = some x → ∀ o ∈ d.offers, o.station = a →
       o.status ≠ .sent ∧ o.status ≠ .ringing) →
     let answers := ∃ j d, (s.slot j).call = some d ∧ d.leg = .flat ∧ d.state = .connected ∧
       d.answerer = some a ∧ s.riserOfCall d = some x
     let home := fun (i : FlatIx) => (s.flat i).inService = true ∧ (s.flat i).riser = x ∧
       a ∈ (s.flat i).stations
     let talks := fun (i : FlatIx) (d : Call) => d.leg = .flat ∧ d.state = .connected ∧
       d.flat = some i
     let kept := fun (t : State) =>
       ((t.riser x).station a).presence = .present ∧
         (t.riser x).idleTimer = some (s.clock + (s.riser x).quietIdleS * 1000) ∧
         (∀ j, (s.slot j).SameButSending (t.slot j)) ∧ t.psw = s.psw ∧ Raises s t []
     let turnedAway := fun (why : CancelReason) (call : Option Ref) =>
       ∃ t, exec (.stationLift x a) s = .next t ∧ kept t ∧
         FramesGiven (s.riser x) (t.riser x) s.clock { slot := 0, gen := 0 } []
           [.advisory (.cancel a why call)]
     (answers → ∃ t, exec (.stationLift x a) s = .next t ∧ kept t ∧
       (t.riser x).frames = (s.riser x).frames) ∧
     (¬ answers → (s.riser x).queue.length < 32 →
       ((∀ i, home i → ∀ j d, (s.slot j).call = some d → ¬ talks i d) →
         turnedAway .noCall none) ∧
       (∀ i, home i → (∀ k, home k → k = i) → ∀ r d, s.call? r = some d → talks i d →
         (∀ j e, (s.slot j).call = some e → talks i e → j = r.slot) →
         turnedAway .answeredElsewhere (some r))))

/-- R19, R27, R28, R29, R102: HANGUP from the answerer of a CONNECTED call ends it CLEARED /
ANSWERER_HUNG_UP, with the frames of R28 at its riser (R75, R83, R84, with no call waiting for what is
freed); from a station in no call it only shows that the station is there. -/
def Obligations.HangupEndsTheStationsCall : Prop :=
  ∀ (x : RiserIx) (a : Nat) (s : State),
    (s.riser x).link = .active → (s.riser x).overrunDue = false → (s.riser x).tx = none →
    1 ≤ a → a ≤ 62 → ((s.riser x).station a).presence ≠ .absent →
    (∀ r c, s.stationsCall? x a = some (r, c) → s.call? r = some c → s.NoWaiters r c →
      ∃ t, exec (.stationHangup x a) s = .next t ∧ Ended s t r c .clearedAnswererHungUp ∧
        ((t.riser x).station a).presence = .present) ∧
    (s.stationsCall? x a = none →
      ∃ t, exec (.stationHangup x a) s = .next t ∧ t.psw = s.psw ∧ t.locks = s.locks ∧
        (∀ j, (s.slot j).SameButSending (t.slot j)) ∧
        (t.riser x).frames = (s.riser x).frames ∧
        ((t.riser x).station a).presence = .present ∧
        (t.riser x).idleTimer = some (s.clock + (s.riser x).quietIdleS * 1000) ∧
        Raises s t [])

/-- R14, R15, R16, R21, R48, R81, R92, R105, R106, R108: REPLY to the OFFER of a call. First the station
is PRESENT, with STATION_CHANGE if it was ABSENT; then its flag takes the level of the reply, and where
that changes the flag the flats of the station follow, with PRIVACY_CHANGE for each whose privacy
changes; then the request is complete, its tag the last of the free ones. The idle timer is restarted
(R74). RINGING for a call that is OFFERING: its offer is RINGING and the call is RINGING with its ring
timer started. Another result, or another state: the offer is marked, and the call that has failed on
every handset ends ALL_REFUSED or NO_REPLY. For a call that is no longer live RINGING is answered
CANCEL(NO_CALL) with the stale reference; every other completion that finds no offer does nothing. (That
a completed offer holds no tag is DEDUCED, log entry 25; the tags are stated for a riser with nothing
queued, no call waiting for a channel and no second OFFER of the call to the station outstanding, where
nothing else starts or is marked in the same event.) R74, R81, R92, R95, R106: REPLY to a POLL: presence
and flag as before, the request is complete, the idle timer is not restarted and no call changes; with
the run-out mark set, a riser that may go QUIET and has then nothing queued, nothing outstanding and no
call that holds or waits for a channel goes QUIET, and any other stays ACTIVE. R81: a REPLY that matches
no request only shows that its station is there; that it restarts the idle timer is DEDUCED (log entry
9). -/
def Obligations.RepliesCompleteTheirRequests : Prop :=
  (∀ (x : RiserIx) (a tag res v : Nat) (r : Ref) (k : CallKind) (o : PortIx) (m : Nat)
       (e : Option Nat) (cp : Bool) (s : State),
     (s.riser x).link = .active → (s.riser x).overrunDue = false → (s.riser x).tx = none →
     1 ≤ a → a ≤ 62 →
     (s.riser x).outstanding.find? (fun q => decide (q.tag = tag) && decide (q.frame.station = a)) =
       some { tag := tag, frame := .offer a r k o, attempt := m, cancelPending := cp, timer := e } →
     let result : OfferStatus :=
       if res = 2 then .ringing else if res = 3 then .engaged else if res = 4 then .refused
       else .unsupported
     let turns := (if ((s.riser x).station a).presence = .absent then
       [Event.stationChange x a .present] else []) ++ s.flagEvents x a (decide (v ≠ 0))
     let released : State := { s with risers := s.risers.write x { s.riser x with
       outstanding := (s.riser x).outstanding.filter fun q => decide (q.tag ≠ tag)
       resends := (s.riser x).resends.filter fun n => decide (n ≠ tag)
       freeTags := (s.riser x).freeTags ++ [tag] } }
     let done := fun (t : State) =>
       ((t.riser x).station a).presence = .present ∧ FlagTaken s t x a (decide (v ≠ 0)) ∧
         (t.riser x).link = .active ∧ (t.riser x).runOut = false ∧
         (t.riser x).idleTimer = some (s.clock + (s.riser x).quietIdleS * 1000) ∧
         t.locks = s.locks ∧
         ((s.riser x).queue = [] → (s.riser x).resends = [] → (∀ y, (s.paths y).queue = []) →
           (∀ q ∈ (s.riser x).outstanding, q.tag ≠ tag → q.frame.isOfferOf a r = false) →
           (t.riser x).outstanding =
             (s.riser x).outstanding.filter (fun q => decide (q.tag ≠ tag)) ∧
           (t.riser x).freeTags = (s.riser x).freeTags ++ [tag])
     let calm := fun (t : State) =>
       (∀ j, (s.slot j).SameButSending (t.slot j)) ∧ t.psw = s.psw ∧ Raises s t turns
     (∀ c, s.call? r = some c → (c.state = .offering → c.answerer = none) →
       c.answerer ≠ some a → (∃ f ∈ c.offers, f.Named a tag) →
       (res = 2 → c.state = .offering →
         ∃ t, exec (.stationReply x a tag res v) s = .next t ∧ done t ∧
           (∃ d, t.call? r = some d ∧ Call.SameButSending { c.marked a tag .ringing with
             state := .ringing, waitingFor := none
             timer := some
               { kind := .ring, expiry := s.clock + s.ccu.times.flatRing * 1000 } } d) ∧
           (∀ j, j ≠ r.slot → (s.slot j).SameButSending (t.slot j)) ∧ t.psw = s.psw ∧
           ((s.port c.origin).function ≠ .off → (t.port c.origin).Shows .ringing) ∧
           Raises s t turns) ∧
       (res = 2 → c.state ≠ .offering →
         ∃ t, exec (.stationReply x a tag res v) s = .next t ∧ done t ∧
           (∃ d, t.call? r = some d ∧ (c.marked a tag .ringing).SameButSending d) ∧
           (∀ j, j ≠ r.slot → (s.slot j).SameButSending (t.slot j)) ∧ t.psw = s.psw ∧
           Raises s t turns) ∧
       (res ≠ 2 → ∃ t, exec (.stationReply x a tag res v) s = .next t ∧ done t ∧
         CompletionTaken (turns.foldl State.emit released) t r c a tag result)) ∧
     (∀ c, s.call? r = some c → (c.answerer = some a ∨ ∀ f ∈ c.offers, ¬ f.Named a tag) →
       ∃ t, exec (.stationReply x a tag res v) s = .next t ∧ done t ∧ calm t ∧
         (t.riser x).frames = (s.riser x).frames) ∧
     (s.call? r = none → res ≠ 2 →
       ∃ t, exec (.stationReply x a tag res v) s = .next t ∧ done t ∧ calm t ∧
         (t.riser x).frames = (s.riser x).frames) ∧
     (s.call? r = none → res = 2 → (s.riser x).queue.length < 32 →
       ∃ t, exec (.stationReply x a tag res v) s = .next t ∧ done t ∧ calm t ∧
         (t.riser x).frames = (s.riser x).frames ++
           [.advisory (.cancel a .noCall (some r))])) ∧
  (∀ (x : RiserIx) (a tag res v m : Nat) (e : Option Nat) (cp : Bool) (s : State),
     (s.riser x).link = .active → (s.riser x).overrunDue = false → (s.riser x).tx = none →
     1 ≤ a → a ≤ 62 →
     (s.riser x).outstanding.find? (fun q => decide (q.tag = tag) && decide (q.frame.station = a)) =
       some { tag := tag, frame := .poll a, attempt := m, cancelPending := cp, timer := e } →
     let y := s.riser x
     let rest := y.outstanding.filter fun q => decide (q.tag ≠ tag)
     ∃ t, exec (.stationReply x a tag res v) s = .next t ∧
       (y.queue = [] → y.resends = [] →
         (t.riser x).outstanding = rest ∧ (t.riser x).freeTags = y.freeTags ++ [tag]) ∧
       ((t.riser x).station a).presence = .present ∧ FlagTaken s t x a (decide (v ≠ 0)) ∧
       y.QuietIf (t.riser x) (y.frames = [] ∧ rest = [] ∧
         s.paths x = { holderA := none, holderB := none, queue := [] }) ∧
       (t.riser x).frames = y.frames ∧ (t.riser x).surveyPos = y.surveyPos ∧
       t.psw = s.psw ∧ t.locks = s.locks ∧ (∀ j, (s.slot j).SameButSending (t.slot j)) ∧
       Raises s t ((if (y.station a).presence = .absent then
         [.stationChange x a .present] else []) ++ s.flagEvents x a (decide (v ≠ 0)))) ∧
  (∀ (x : RiserIx) (a tag res v : Nat) (s : State),
     (s.riser x).link = .active → (s.riser x).overrunDue = false → (s.riser x).tx = none →
     1 ≤ a → a ≤ 62 →
     (∀ q ∈ (s.riser x).outstanding, ¬ (q.tag = tag ∧ q.frame.station = a)) →
     ∃ t, exec (.stationReply x a tag res v) s = .next t ∧
       (t.riser x).station a =
         { presence := .present, privacy := ((s.riser x).station a).privacy } ∧
       (t.riser x).idleTimer = some (s.clock + (s.riser x).quietIdleS * 1000) ∧
       (t.riser x).frames = (s.riser x).frames ∧
       t.psw = s.psw ∧ t.dir = s.dir ∧ t.locks = s.locks ∧
       (∀ j, (s.slot j).SameButSending (t.slot j)) ∧
       Raises s t (if ((s.riser x).station a).presence = .absent then
         [.stationChange x a .present] else []))

/-- R48, R105, R108: PRIVACY(on) and PRIVACY(off) from a station. The station's flag takes the level;
each flat the station belongs to has its privacy worked out from its host privacy and its stations'
flags, and no other flat changes. A change of the flag raises PRIVACY_CHANGE for each of those flats
whose privacy changes, in ascending order: turning it on, for each that was not private; turning it
off, for each whose host privacy and other stations leave it another privacy than it had. -/
def Obligations.PrivacyFrameSetsFlagAndFlats : Prop :=
  ∀ (x : RiserIx) (a : Nat) (s : State),
    (s.riser x).link = .active → (s.riser x).overrunDue = false → (s.riser x).tx = none →
    1 ≤ a → a ≤ 62 → ((s.riser x).station a).presence ≠ .absent →
    let belongs := fun (i : FlatIx) => (s.flat i).riser = x ∧ a ∈ (s.flat i).stations
    let takes := fun (t : State) (v : Bool) =>
      (t.riser x).station a = { presence := .present, privacy := v } ∧
        (∀ b, b ≠ a → (t.riser x).station b = (s.riser x).station b) ∧
        (∀ i, belongs i → ((s.riser x).station a).privacy ≠ v →
          let flags := (s.flat i).stations.any fun b => ((t.riser x).station b).privacy
          t.flat i = { s.flat i with privacy := (s.flat i).hostPrivacy || flags }) ∧
        (∀ i, ¬ belongs i → t.flat i = s.flat i) ∧ t.dir.windows = s.dir.windows ∧
        t.dir.flatServed = s.dir.flatServed ∧
        t.psw = s.psw ∧ t.locks = s.locks ∧ (∀ j, (s.slot j).SameButSending (t.slot j)) ∧
        (((s.riser x).station a).privacy = v → t.dir = s.dir ∧ Raises s t [])
    (∃ t, exec (.stationPrivacyOn x a) s = .next t ∧ takes t true ∧
      (((s.riser x).station a).privacy = false →
        Raises s t ((List.finRange 256).filterMap fun i =>
          if (s.flat i).riser = x ∧ a ∈ (s.flat i).stations ∧ (s.flat i).privacy = false then
            some (Event.privacyChange i true) else none))) ∧
    let rest := fun (i : FlatIx) => (s.flat i).hostPrivacy ||
      (s.flat i).stations.any fun b => decide (b ≠ a) && ((s.riser x).station b).privacy
    ∃ t, exec (.stationPrivacyOff x a) s = .next t ∧ takes t false ∧
      (((s.riser x).station a).privacy = true →
        Raises s t ((List.finRange 256).filterMap fun i =>
          if (s.flat i).riser = x ∧ a ∈ (s.flat i).stations ∧ (s.flat i).privacy ≠ rest i then
            some (Event.privacyChange i (rest i)) else none))

/-- R99, R103, R104, R157, R158, R159: DOOR from the handset in a call: the lock of the call's origin
port is released for the call where the flat has permission for that door, and the answer goes to the
handset as DOOR_RESULT; without permission DOOR_DENIED is raised and the lock is left alone. From a
handset in no call the answer is NOT_AVAILABLE. -/
def Obligations.HandsetDoorIsAnswered : Prop :=
  ∀ (x : RiserIx) (a : Nat) (s : State),
    (s.riser x).link = .active → (s.riser x).overrunDue = false → (s.riser x).tx = none →
    1 ≤ a → a ≤ 62 → ((s.riser x).station a).presence ≠ .absent →
    (s.riser x).queue.length < 32 →
    let answer := fun (t : State) (d : DoorResult) (call : Option Ref) =>
      (t.riser x).advisories =
          (s.riser x).advisories ++ [.advisory (.doorResult a d call)] ∧
        t.psw = s.psw ∧ t.dir = s.dir ∧ ∀ j, (s.slot j).SameButSending (t.slot j)
    (s.stationsCall? x a = none →
      ∃ t, exec (.stationDoor x a) s = .next t ∧ answer t .notAvailable none ∧
        t.locks = s.locks ∧ Raises s t []) ∧
    ∀ r c i, s.stationsCall? x a = some (r, c) → c.flat = some i →
      let o := c.origin
      let l := s.lock o
      let permitted := (s.flat i).doors.getLsbD o.val = true
      let opened := s.locks.write o
        { l with state := .released, claim := some (.call r)
                 timer := some (s.clock + l.releaseTime * 1000) }
      ((s.port o).function = .entrance → permitted → l.state = .secure →
        ∃ t, exec (.stationDoor x a) s = .next t ∧ answer t .opened (some r) ∧
          t.locks = opened ∧ (t.port o).Shows .doorOpen ∧
          Raises s t [.doorReleased o (.call r) (some l.releaseTime)]) ∧
      ((s.port o).function = .entrance → permitted → l.state = .released →
        l.claim = some (.call r) →
        ∃ t, exec (.stationDoor x a) s = .next t ∧ answer t .opened (some r) ∧
          t.locks = opened ∧ (t.port o).Shows .doorOpen ∧ Raises s t []) ∧
      ((s.port o).function = .entrance → permitted → l.state = .released →
        l.claim ≠ some (.call r) →
        ∃ t, exec (.stationDoor x a) s = .next t ∧ answer t .alreadyOpen (some r) ∧
          t.locks = s.locks ∧ Raises s t []) ∧
      ((s.port o).function = .entrance → ¬ permitted →
        ∃ t, exec (.stationDoor x a) s = .next t ∧ answer t .denied (some r) ∧
          t.locks = s.locks ∧ Raises s t [.doorDenied o r i a]) ∧
      ((s.port o).function ≠ .entrance →
        ∃ t, exec (.stationDoor x a) s = .next t ∧ answer t .notAvailable (some r) ∧
          t.locks = s.locks ∧ Raises s t [])

/-- R91, R93, R200: a frame of an unknown kind shows that its station is there and, with the
reply-wanted mark, is answered NOT_SUPPORTED with the kind byte received; a bad frame changes nothing
but that the line is free again. R74, R76, R91, R92: every frame of a station, whatever its kind, first
sets the station PRESENT, with STATION_CHANGE if it was ABSENT, makes a QUIET or WAKING riser ACTIVE with
its wake timer stopped and its idle and step timers started, and restarts the idle timer, but for a reply
to a POLL; then it does what it does on the ACTIVE riser and from the PRESENT station. (That a REPLY that
matches no request restarts the idle timer is DEDUCED, log entry 9.) R70, R78: on a riser that is off
or transmitting a station's frame does nothing; R91: with an address outside 1 to 62 it is bad. -/
def Obligations.UnknownAndBadStationFrames : Prop :=
  (∀ (x : RiserIx) (a kind : Nat) (s : State), (s.riser x).overrunDue = false →
     (∃ t, exec (.riserBadFrame x) s = .next t ∧
       Settled { s with risers := s.risers.write x { s.riser x with receiving := none } } t) ∧
     ((s.riser x).link = .active → (s.riser x).tx = none → 1 ≤ a → a ≤ 62 →
       ((s.riser x).station a).presence ≠ .absent → kind < 256 →
       ¬ (1 ≤ kind % 128 ∧ kind % 128 ≤ 6) → (s.riser x).queue.length < 32 →
       ∃ t, exec (.unknownStationFrame x a kind) s = .next t ∧
         (t.riser x).advisories = (s.riser x).advisories ++
           (if 128 ≤ kind then [.advisory (.notSupported a kind)] else []) ∧
         ((t.riser x).station a).presence = .present ∧
         (t.riser x).idleTimer = some (s.clock + (s.riser x).quietIdleS * 1000) ∧
         t.psw = s.psw ∧ t.dir = s.dir ∧ t.locks = s.locks ∧
         (∀ j, (s.slot j).SameButSending (t.slot j)) ∧ Raises s t [])) ∧
  (∀ (x : RiserIx) (a kind tag res v : Nat) (s : State), (s.riser x).overrunDue = false →
     let y := s.riser x
     let known := 1 ≤ kind % 128 ∧ kind % 128 ≤ 6
     let toPoll := (y.outstanding.find? fun q =>
       decide (q.tag = tag) && decide (q.frame.station = a)).any fun q => q.frame.isPoll
     let each := fun (does : Instr → Bool → Prop) =>
       does (.stationLift x a) true ∧ does (.stationHangup x a) true ∧
         does (.stationDoor x a) true ∧ does (.stationPrivacyOn x a) true ∧
         does (.stationPrivacyOff x a) true ∧ does (.stationReply x a tag res v) (!toPoll) ∧
         (kind < 256 → ¬ known → does (.unknownStationFrame x a kind) true)
     (y.link.isOff = true ∨ y.tx ≠ none → each fun c _ => exec c s = .next s) ∧
     (y.link.isOff = false → y.tx = none → ¬ (1 ≤ a ∧ a ≤ 62) →
       each fun c _ => exec c s = exec (.riserBadFrame x) s) ∧
     (y.link.isOff = false → y.tx = none → 1 ≤ a → a ≤ 62 → each fun c restarts =>
       let z := y.heard s.clock a restarts
       exec c s = exec c (s.heard x a restarts) ∧
         ∃ t, exec c s = .next t ∧ ((t.riser x).station a).presence = .present ∧
           (t.riser x).wakeTimer = z.wakeTimer ∧
           (restarts = true ∨ y.link ≠ .active →
             (t.riser x).link = .active ∧ (t.riser x).stepTimer = z.stepTimer ∧
             (t.riser x).idleTimer = some (s.clock + y.quietIdleS * 1000) ∧
             (t.riser x).runOut = false)))

/-! ## The riser line and its timers -/

/-- R74, R78, R79, R80, R82, R87, R175: when a transmission ends its entry leaves the queue and the line
is free for the next: a resend that is due, else the entry that the sending rule gives, goes out at
once. The markers that no advisory stands ahead of any more complete DRAINED, in their order, and their
delayed replies join the ready list; the others wait. A solicited frame's reply timer starts at 250 ms,
for a resend as for the first transmission; on an ACTIVE riser any frame but a POLL restarts the idle
timer, which a POLL leaves as it is unless the riser goes QUIET. -/
def Obligations.TransmissionEndFreesTheLine : Prop :=
  ∀ (x : RiserIx) (s : State), (s.riser x).overrunDue = false →
    let y := s.riser x
    let gone := y.queue.eraseP fun i => i.sending
    let idle := if y.link = .active then some (s.clock + y.quietIdleS * 1000) else y.idleTimer
    let mark := y.runOut && decide (y.link ≠ .active)
    let timed := fun (tag : Nat) => y.outstanding.map fun o =>
      if o.tag = tag then { o with timer := some (s.clock + 250) } else o
    let ends := fun (z : Riser) (after : State → Prop) =>
      ∃ t, exec (.riserTxEnd x) s = .next t ∧ Settled { s with risers := s.risers.write x z } t ∧
        z.outstanding <+: (t.riser x).outstanding ∧ (t.riser x).frames = z.frames ∧
        (z.resends = [] → z.nextFrame = none → (t.riser x).tx = none ∧
          (t.riser x).outstanding = z.outstanding) ∧
        (z.link = .active → z.receiving = none → NotLeftIdle z (t.riser x)) ∧
        (t.riser x).markers = z.markersHeld ∧
        ((∀ m, z.markersFree.count m ≤ s.hlp.syncs.count { num := m, riser := x }) →
          t.hlp.replyLine =
            s.hlp.replyLine ++ z.markersFree.map (fun m => ⟨0x14, m, .ok, .sync x .drained⟩) ∧
          t.hlp.syncs = z.markersFree.foldl (fun q m => q.erase { num := m, riser := x })
            s.hlp.syncs) ∧
        after t
    let restarted := fun (t : State) =>
      (t.riser x).link = y.link ∧ (t.riser x).idleTimer = idle ∧ (t.riser x).runOut = mark
    let runsOn := fun (t : State) =>
      ((t.riser x).link = y.link →
        (t.riser x).idleTimer = y.idleTimer ∧ (t.riser x).runOut = y.runOut) ∧
      ((t.riser x).link ≠ y.link → y.runOut = true ∧ (t.riser x).link = .quiet ∧
        (t.riser x).idleTimer = none)
    (y.tx = none → exec (.riserTxEnd x) s = .next s) ∧
    (∀ f, y.tx = some (.entry (.advisory f)) →
      ends { y with queue := gone, tx := none, idleTimer := idle, runOut := mark } restarted) ∧
    (∀ tag a c k o, y.tx = some (.entry (.solicited tag (.offer a c k o))) →
      ends { y with queue := gone, tx := none, outstanding := timed tag
                    idleTimer := idle, runOut := mark } restarted) ∧
    (∀ tag a, y.tx = some (.entry (.solicited tag (.poll a))) →
      ends { y with queue := gone, tx := none, outstanding := timed tag } runsOn) ∧
    (∀ tag a c k o, y.tx = some (.resend (.solicited tag (.offer a c k o))) →
      ends { y with tx := none, outstanding := timed tag, idleTimer := idle, runOut := mark }
        restarted) ∧
    (∀ tag a, y.tx = some (.resend (.solicited tag (.poll a))) →
      ends { y with tx := none, outstanding := timed tag } runsOn)

/-- R48, R82, R83, R92, R107, R108: a reply timer that runs out. At attempt 1 the request becomes
attempt 2 and is resent as soon as the line is free, or, with its cancel-pending mark, waits once more.
At attempt 2 it completes NO_REPLY: its tag is free again and, with no mark, its station is ABSENT, with
STATION_CHANGE if it was PRESENT, and its privacy flag is clear, the flats following where that changes
it, with PRIVACY_CHANGE for each whose privacy changes; with the mark presence and flag stay. R74: an
ACTIVE riser that may go QUIET, with its run-out mark set and nothing left to do, does. R13, R15, R16:
an OFFER that completes so marks its offer, and the call that has failed on every handset ends
ALL_REFUSED or NO_REPLY; when it finds no offer nothing more happens. That the clock is brought up to
the expiry is the model's choice (log entry 3), and so are presence and the flag changing before the
completion is handed over (log entry 8); that the offer loses its tag is DEDUCED (log entry 25). (The
tags are stated for a riser with nothing queued and no call waiting for a channel.) -/
def Obligations.ReplyTimeoutResendsThenGivesUp : Prop :=
  ∀ (x : RiserIx) (o : Outstanding) (e : Nat) (s : State),
    (s.riser x).overrunDue = false →
    (s.riser x).outstanding.find? (fun q => decide (q.tag = o.tag)) = some o → o.timer = some e →
    let y := s.riser x
    let now := max s.clock e
    let put := fun (z : Riser) => ({ s with clock := now, risers := s.risers.write x z } : State)
    let each := fun (f : Outstanding → Outstanding) =>
      y.outstanding.map fun q => if q.tag = o.tag then f q else q
    (o.attempt = 1 → o.cancelPending = false →
      ∃ t, exec (.replyTimeout x o.tag) s = .next t ∧
        Settled (put { y with
          outstanding := each fun q => { q with attempt := 2, timer := none }
          resends := y.resends ++ [o.tag] }) t ∧ t.clock = now ∧
        (each fun q => { q with attempt := 2, timer := none }) <+: (t.riser x).outstanding ∧
        (y.link = .active → y.tx = none → y.receiving = none → y.resends = [] →
          (t.riser x).tx = some (.resend (.solicited o.tag o.frame)) ∧
            (t.riser x).resends = []) ∧
        (y.link ≠ .active ∨ y.tx ≠ none ∨ y.receiving ≠ none →
          (t.riser x).tx = y.tx ∧ (t.riser x).resends = y.resends ++ [o.tag])) ∧
    (o.attempt = 1 → o.cancelPending = true →
      ∃ t, exec (.replyTimeout x o.tag) s = .next t ∧
        Settled (put { y with
          outstanding := each fun q => { q with attempt := 2, timer := some (now + 250) } }) t ∧
        t.clock = now ∧ (t.riser x).resends <:+ y.resends ∧
        (each fun q => { q with attempt := 2, timer := some (now + 250) }) <+:
          (t.riser x).outstanding) ∧
    (∀ a, o.attempt ≠ 1 → o.frame.station = a → 1 ≤ a → a ≤ 62 →
      let turns := if o.cancelPending then [] else
        (if (y.station a).presence = .present then [Event.stationChange x a .absent] else []) ++
          s.flagEvents x a false
      let done := fun (t : State) =>
        ((t.riser x).station a).presence =
            (if o.cancelPending then (y.station a).presence else .absent) ∧
          FlagTaken s t x a (if o.cancelPending then (y.station a).privacy else false) ∧
          (y.link = .active → y.QuietIf (t.riser x) ((t.riser x).frames = [] ∧
            (t.riser x).outstanding = [] ∧
            t.paths x = { holderA := none, holderB := none, queue := [] })) ∧
          t.clock = now ∧ t.locks = s.locks ∧
          (y.queue = [] → y.resends = [] → (∀ z, (s.paths z).queue = []) →
            (t.riser x).outstanding = y.outstanding.filter (fun q => decide (q.tag ≠ o.tag)) ∧
            (t.riser x).freeTags = y.freeTags ++ [o.tag])
      let calm := ∃ t, exec (.replyTimeout x o.tag) s = .next t ∧ done t ∧ t.psw = s.psw ∧
        (∀ j, (s.slot j).SameButSending (t.slot j)) ∧ (t.riser x).frames = y.frames ∧
        Raises s t turns
      (o.frame = .poll a → calm) ∧
      (∀ r k p, o.frame = .offer a r k p →
        (s.call? r = none → calm) ∧
        (∀ c, s.call? r = some c → (c.answerer = some a ∨ ∀ f ∈ c.offers, ¬ f.Named a o.tag) →
          calm) ∧
        ∀ c, s.call? r = some c → (c.state = .offering → c.answerer = none) →
          c.answerer ≠ some a → (∃ f ∈ c.offers, f.Named a o.tag) →
          ∃ t, exec (.replyTimeout x o.tag) s = .next t ∧ done t ∧
            CompletionTaken (turns.foldl State.emit (put { y with
              outstanding := y.outstanding.filter fun q => decide (q.tag ≠ o.tag)
              resends := y.resends.filter fun n => decide (n ≠ o.tag)
              freeTags := y.freeTags ++ [o.tag] })) t r c a o.tag .noReply))

/-- R74, R75, R94: the idle timer that runs out sets the run-out mark, and a riser with nothing to do
that may go QUIET does; the wake timer that runs out makes the riser ACTIVE with its timers started; the
step timer starts again, whether the survey polls at this step or not, and, when it may poll, a POLL to
the survey position is queued and the position moves on, 62 being followed by 1. R77, R90: with 32
entries queued the POLL finds no place, the position stays and overrun processing is due. A timer that
does not run does not expire. That the clock is brought up to the expiry is the model's choice (log
entry 3). -/
def Obligations.RiserTimersRunOut : Prop :=
  ∀ (x : RiserIx) (s : State), (s.riser x).overrunDue = false →
    let y := s.riser x
    (y.idleTimer = none → exec (.idleTimeout x) s = .next s) ∧
    (y.wakeTimer = none → exec (.wakeTimeout x) s = .next s) ∧
    (y.stepTimer = none → exec (.surveyStep x) s = .next s) ∧
    (∀ e, y.idleTimer = some e →
      ∃ t, exec (.idleTimeout x) s = .next t ∧
        Settled { s with clock := max s.clock e
                         risers := s.risers.write x { y with idleTimer := none, runOut := true } } t ∧
        t.clock = max s.clock e ∧ (t.riser x).idleTimer = none ∧
        ((t.riser x).link = y.link →
          (t.riser x).runOut = true ∧ (t.riser x).stepTimer = y.stepTimer) ∧
        ((t.riser x).link ≠ y.link → y.link = .active ∧ y.quietAllowed = true ∧
          (t.riser x).link = .quiet ∧ (t.riser x).stepTimer = none ∧ (t.riser x).runOut = false) ∧
        (y.link = .active → y.quietAllowed = true → y.queue = [] → y.outstanding = [] →
          y.resends = [] → (s.paths x).holderA = none → (s.paths x).holderB = none →
          (s.paths x).queue = [] → (t.riser x).link = .quiet ∧ (t.riser x).stepTimer = none)) ∧
    (∀ e, y.wakeTimer = some e →
      let now := max s.clock e
      ∃ t, exec (.wakeTimeout x) s = .next t ∧
        Settled { s with clock := now
                         risers := s.risers.write x
                           { y with link := .active, wakeTimer := none, runOut := false
                                    idleTimer := some (now + y.quietIdleS * 1000)
                                    stepTimer := if y.survey then some (now + y.surveyStepMs)
                                      else y.stepTimer } } t ∧
        t.clock = now ∧ (t.riser x).link = .active ∧ (t.riser x).wakeTimer = none ∧
        (t.riser x).idleTimer = some (now + y.quietIdleS * 1000) ∧ (t.riser x).runOut = false ∧
        (t.riser x).stepTimer =
          (if y.survey then some (now + y.surveyStepMs) else y.stepTimer)) ∧
    (∀ e, y.stepTimer = some e →
      let may := y.link = .active ∧ y.survey = true ∧ y.frames.filter QueueEntry.isSolicited = [] ∧
        y.outstanding.length < 2 ∧ ¬ (y.runOut = true ∧ y.quietAllowed = true)
      ∃ t, exec (.surveyStep x) s = .next t ∧ t.clock = max s.clock e ∧
        y.outstanding <+: (t.riser x).outstanding ∧
        ((t.riser x).link = y.link →
          (t.riser x).stepTimer = some (max s.clock e + y.surveyStepMs) ∧
          (t.riser x).idleTimer = y.idleTimer ∧ (t.riser x).runOut = y.runOut) ∧
        ((t.riser x).link ≠ y.link → y.runOut = true ∧ y.quietAllowed = true ∧
          (t.riser x).link = .quiet ∧ (t.riser x).stepTimer = none) ∧
        (¬ may → (t.riser x).frames = y.frames ∧ (t.riser x).surveyPos = y.surveyPos ∧
          (t.riser x).overrunDue = false) ∧
        (may → 32 ≤ y.queue.length → (t.riser x).frames = y.frames ∧
          (t.riser x).surveyPos = y.surveyPos ∧ (t.riser x).overrunDue = true) ∧
        (may → y.queue.length < 32 →
          (t.riser x).frames = y.frames ++ [.solicited (.poll y.surveyPos)] ∧
          (t.riser x).surveyPos = (if y.surveyPos < 62 then y.surveyPos + 1 else 1) ∧
          (t.riser x).overrunDue = false) ∧
        t.psw = s.psw ∧ t.dir = s.dir ∧ (∀ j, (s.slot j).SameButSending (t.slot j)) ∧
        Raises s t [])

/-- R57, R73, R88: SHORT or OPEN on a riser in working order, whichever command reports it (that the line
commands are one report is DEDUCED, log entry 19): the riser is FAULTED, its queue, requests and
transmission are gone, its markers complete FLUSHED, its stations are UNKNOWN and RISER_CHANGE carries
the cause. Then every call that waits for a channel of the riser, head first, the holder of channel A
and the holder of channel B end FAULT / RISER_FAULT, in that order, and the privacy of the riser's flats
follows. That the frame in transmission is gone too is DEDUCED (log entry 12). Nothing else changes
(with no call waiting for a desk that those ends free). -/
def Obligations.LineFaultEmptiesTheRiser : Prop :=
  ∀ (x : RiserIx) (v : LineCondition) (c : Instr) (s : State), v ≠ .good →
    (c = .lineFault x v ∨ c = .lineConditionChange x v) → (s.riser x).overrunDue = false →
    (s.riser x).link.isOff = false →
    (s.callsOn x = [] ∨ s.PathLaw ∧ s.psw.deskQueue = []) →
    let cause : RiserCause := if v = .short then .short else .openLine
    let y := s.riser x
    ∃ t, exec c s = .next t ∧ (t.riser x).link = .faulted ∧ (t.riser x).line = v ∧
      RiserEmptied y (t.riser x) ∧ (t.riser x).receiving = none ∧
      (t.riser x).idleTimer = none ∧ (t.riser x).stepTimer = none ∧
      (t.riser x).wakeTimer = none ∧ RiserFailed s t x .faultRiserFault ∧
      ((∀ m, y.markers.count m ≤ s.hlp.syncs.count { num := m, riser := x }) →
        s.hlp.replyLine ++ y.markers.map (fun m => ⟨0x14, m, .ok, .sync x .flushed⟩) <+:
          t.hlp.replyLine) ∧
      Raises s t (.riserChange x .faulted cause ::
        (s.endEvents .faultRiserFault (s.callsOn x) ++ s.privacyEvents x))

/-- R72, R88, R89: a report that a riser's line is GOOD takes a FAULTED riser to ACTIVE with its timers
started and RISER_CHANGE, RESTORED. On a DISABLED riser a report is recorded and does nothing else; on
a FAULTED riser SHORT and OPEN are recorded. That the three line commands are one report, decided by the
condition it carries and the link state, is DEDUCED (log entry 19). -/
def Obligations.LineReportsAreTakenByLinkState : Prop :=
  ∀ (x : RiserIx) (v : LineCondition) (s : State), (s.riser x).overrunDue = false →
    let y := s.riser x
    let put := fun (z : Riser) => ({ s with risers := s.risers.write x z } : State)
    let reports := fun (c : Instr) =>
      c = .lineConditionChange x v ∨ (v = .good ∧ c = .lineRestored x) ∨
        (v ≠ .good ∧ c = .lineFault x v)
    let recorded := fun (t : State) =>
      Settled (put { y with line := v }) t ∧ (t.riser x).line = v ∧ Raises s t []
    (y.link = .disabled → ∀ c, reports c →
      ∃ t, exec c s = .next t ∧ recorded t ∧ (t.riser x).link = .disabled) ∧
    (y.link = .faulted → v ≠ .good → ∀ c, reports c →
      ∃ t, exec c s = .next t ∧ recorded t ∧ (t.riser x).link = .faulted) ∧
    (y.link = .faulted → v = .good → ∀ c, reports c →
      ∃ t, exec c s = .next t ∧
        Settled ((put { y with
            line := .good, link := .active, wakeTimer := none, runOut := false
            idleTimer := some (s.clock + y.quietIdleS * 1000)
            stepTimer := if y.survey then some (s.clock + y.surveyStepMs) else y.stepTimer }).emit
              (.riserChange x .active .restored)) t ∧
        (t.riser x).line = .good ∧ (t.riser x).link = .active ∧ (t.riser x).wakeTimer = none ∧
        (t.riser x).idleTimer = some (s.clock + y.quietIdleS * 1000) ∧
        (t.riser x).runOut = false ∧
        (t.riser x).stepTimer =
          (if y.survey then some (s.clock + y.surveyStepMs) else y.stepTimer) ∧
        Raises s t [.riserChange x .active .restored]) ∧
    (y.link.isOff = false → v = .good → ∀ c, reports c →
      ∃ t, exec c s = .next t ∧ recorded t ∧ y.SameOrQuiet (t.riser x))

/-- R57, R90: overrun processing that is due empties the riser as a fault does, raises RISER_CHANGE,
OVERRUN, ends the calls on the riser FAULT / RISER_OVERRUN in the order of a fault, and returns the
riser to ACTIVE with its timers started; with none due the command changes nothing (DEDUCED, log entry
10). That the frame in transmission is gone too is DEDUCED (log entry 12). (With no call waiting for a
desk that those ends free.) -/
def Obligations.OverrunEmptiesAndRestarts : Prop :=
  ∀ (x : RiserIx) (s : State),
    ((s.riser x).overrunDue = false → exec (.overrun x) s = .next s) ∧
    ((s.riser x).overrunDue = true →
      (s.callsOn x = [] ∨ s.PathLaw ∧ s.psw.deskQueue = []) →
      let y := s.riser x
      ∃ t, exec (.overrun x) s = .next t ∧ (t.riser x).link = .active ∧
        (t.riser x).line = y.line ∧ (t.riser x).overrunDue = false ∧
        RiserEmptied y (t.riser x) ∧ (t.riser x).wakeTimer = none ∧
        (t.riser x).idleTimer = some (s.clock + y.quietIdleS * 1000) ∧
        (t.riser x).stepTimer = (if y.survey then some (s.clock + y.surveyStepMs) else none) ∧
        RiserFailed s t x .faultRiserOverrun ∧
        ((∀ m, y.markers.count m ≤ s.hlp.syncs.count { num := m, riser := x }) →
          s.hlp.replyLine ++ y.markers.map (fun m => ⟨0x14, m, .ok, .sync x .flushed⟩) <+:
            t.hlp.replyLine) ∧
        Raises s t (.riserChange x .active .overrun ::
          (s.endEvents .faultRiserOverrun (s.callsOn x) ++ s.privacyEvents x)))
end

