-- ==== Sys2Proof/Laws/State.lean ====
section
/-!
SUPPORT. One lemma per field per update of the state, each true by computation, so that no proof
unfolds a record update.
-/

namespace Sys2Proof.Machine

@[simp] theorem State.modifyRiser_pending (s : State) (r : RiserIx) (f : Riser → Riser) :
    (s.modifyRiser r f).pending = s.pending :=
  rfl
@[simp] theorem State.modifyRiser_clock (s : State) (r : RiserIx) (f : Riser → Riser) :
    (s.modifyRiser r f).clock = s.clock :=
  rfl
@[simp] theorem State.modifyRiser_resetHeld (s : State) (r : RiserIx) (f : Riser → Riser) :
    (s.modifyRiser r f).resetHeld = s.resetHeld :=
  rfl
@[simp] theorem State.modifyRiser_ccu (s : State) (r : RiserIx) (f : Riser → Riser) :
    (s.modifyRiser r f).ccu = s.ccu :=
  rfl
@[simp] theorem State.modifyRiser_dir (s : State) (r : RiserIx) (f : Riser → Riser) :
    (s.modifyRiser r f).dir = s.dir :=
  rfl
@[simp] theorem State.modifyRiser_psw (s : State) (r : RiserIx) (f : Riser → Riser) :
    (s.modifyRiser r f).psw = s.psw :=
  rfl
@[simp] theorem State.modifyRiser_risers (s : State) (r : RiserIx) (f : Riser → Riser) :
    (s.modifyRiser r f).risers = s.risers.write r (f (s.risers.read r)) :=
  rfl
@[simp] theorem State.modifyRiser_ports (s : State) (r : RiserIx) (f : Riser → Riser) :
    (s.modifyRiser r f).ports = s.ports :=
  rfl
@[simp] theorem State.modifyRiser_locks (s : State) (r : RiserIx) (f : Riser → Riser) :
    (s.modifyRiser r f).locks = s.locks :=
  rfl
@[simp] theorem State.modifyRiser_hlp (s : State) (r : RiserIx) (f : Riser → Riser) :
    (s.modifyRiser r f).hlp = s.hlp :=
  rfl
@[simp] theorem State.modifyRiser_ntu (s : State) (r : RiserIx) (f : Riser → Riser) :
    (s.modifyRiser r f).ntu = s.ntu :=
  rfl

@[simp] theorem State.modifyPort_pending (s : State) (p : PortIx) (f : Port → Port) :
    (s.modifyPort p f).pending = s.pending :=
  rfl
@[simp] theorem State.modifyPort_clock (s : State) (p : PortIx) (f : Port → Port) :
    (s.modifyPort p f).clock = s.clock :=
  rfl
@[simp] theorem State.modifyPort_resetHeld (s : State) (p : PortIx) (f : Port → Port) :
    (s.modifyPort p f).resetHeld = s.resetHeld :=
  rfl
@[simp] theorem State.modifyPort_ccu (s : State) (p : PortIx) (f : Port → Port) :
    (s.modifyPort p f).ccu = s.ccu :=
  rfl
@[simp] theorem State.modifyPort_dir (s : State) (p : PortIx) (f : Port → Port) :
    (s.modifyPort p f).dir = s.dir :=
  rfl
@[simp] theorem State.modifyPort_psw (s : State) (p : PortIx) (f : Port → Port) :
    (s.modifyPort p f).psw = s.psw :=
  rfl
@[simp] theorem State.modifyPort_risers (s : State) (p : PortIx) (f : Port → Port) :
    (s.modifyPort p f).risers = s.risers :=
  rfl
@[simp] theorem State.modifyPort_ports (s : State) (p : PortIx) (f : Port → Port) :
    (s.modifyPort p f).ports = s.ports.write p (f (s.ports.read p)) :=
  rfl
@[simp] theorem State.modifyPort_locks (s : State) (p : PortIx) (f : Port → Port) :
    (s.modifyPort p f).locks = s.locks :=
  rfl
@[simp] theorem State.modifyPort_hlp (s : State) (p : PortIx) (f : Port → Port) :
    (s.modifyPort p f).hlp = s.hlp :=
  rfl
@[simp] theorem State.modifyPort_ntu (s : State) (p : PortIx) (f : Port → Port) :
    (s.modifyPort p f).ntu = s.ntu :=
  rfl

@[simp] theorem State.setLock_pending (s : State) (p : PortIx) (l : Lock) :
    (s.setLock p l).pending = s.pending :=
  rfl
@[simp] theorem State.setLock_clock (s : State) (p : PortIx) (l : Lock) :
    (s.setLock p l).clock = s.clock :=
  rfl
@[simp] theorem State.setLock_resetHeld (s : State) (p : PortIx) (l : Lock) :
    (s.setLock p l).resetHeld = s.resetHeld :=
  rfl
@[simp] theorem State.setLock_ccu (s : State) (p : PortIx) (l : Lock) :
    (s.setLock p l).ccu = s.ccu :=
  rfl
@[simp] theorem State.setLock_dir (s : State) (p : PortIx) (l : Lock) :
    (s.setLock p l).dir = s.dir :=
  rfl
@[simp] theorem State.setLock_psw (s : State) (p : PortIx) (l : Lock) :
    (s.setLock p l).psw = s.psw :=
  rfl
@[simp] theorem State.setLock_risers (s : State) (p : PortIx) (l : Lock) :
    (s.setLock p l).risers = s.risers :=
  rfl
@[simp] theorem State.setLock_ports (s : State) (p : PortIx) (l : Lock) :
    (s.setLock p l).ports = s.ports :=
  rfl
@[simp] theorem State.setLock_locks (s : State) (p : PortIx) (l : Lock) :
    (s.setLock p l).locks = s.locks.write p l :=
  rfl
@[simp] theorem State.setLock_hlp (s : State) (p : PortIx) (l : Lock) :
    (s.setLock p l).hlp = s.hlp :=
  rfl
@[simp] theorem State.setLock_ntu (s : State) (p : PortIx) (l : Lock) :
    (s.setLock p l).ntu = s.ntu :=
  rfl

@[simp] theorem State.setFlat_pending (s : State) (i : FlatIx) (f : Flat) :
    (s.setFlat i f).pending = s.pending :=
  rfl
@[simp] theorem State.setFlat_clock (s : State) (i : FlatIx) (f : Flat) :
    (s.setFlat i f).clock = s.clock :=
  rfl
@[simp] theorem State.setFlat_resetHeld (s : State) (i : FlatIx) (f : Flat) :
    (s.setFlat i f).resetHeld = s.resetHeld :=
  rfl
@[simp] theorem State.setFlat_ccu (s : State) (i : FlatIx) (f : Flat) :
    (s.setFlat i f).ccu = s.ccu :=
  rfl
@[simp] theorem State.setFlat_dir (s : State) (i : FlatIx) (f : Flat) :
    (s.setFlat i f).dir = { s.dir with flats := s.dir.flats.write i f } :=
  rfl
@[simp] theorem State.setFlat_psw (s : State) (i : FlatIx) (f : Flat) :
    (s.setFlat i f).psw = s.psw :=
  rfl
@[simp] theorem State.setFlat_risers (s : State) (i : FlatIx) (f : Flat) :
    (s.setFlat i f).risers = s.risers :=
  rfl
@[simp] theorem State.setFlat_ports (s : State) (i : FlatIx) (f : Flat) :
    (s.setFlat i f).ports = s.ports :=
  rfl
@[simp] theorem State.setFlat_locks (s : State) (i : FlatIx) (f : Flat) :
    (s.setFlat i f).locks = s.locks :=
  rfl
@[simp] theorem State.setFlat_hlp (s : State) (i : FlatIx) (f : Flat) :
    (s.setFlat i f).hlp = s.hlp :=
  rfl
@[simp] theorem State.setFlat_ntu (s : State) (i : FlatIx) (f : Flat) :
    (s.setFlat i f).ntu = s.ntu :=
  rfl

@[simp] theorem State.noteServed_pending (s : State) (v : Bool) :
    (s.noteServed v).pending = s.pending :=
  rfl
@[simp] theorem State.noteServed_clock (s : State) (v : Bool) :
    (s.noteServed v).clock = s.clock :=
  rfl
@[simp] theorem State.noteServed_resetHeld (s : State) (v : Bool) :
    (s.noteServed v).resetHeld = s.resetHeld :=
  rfl
@[simp] theorem State.noteServed_ccu (s : State) (v : Bool) :
    (s.noteServed v).ccu = s.ccu :=
  rfl
@[simp] theorem State.noteServed_dir (s : State) (v : Bool) :
    (s.noteServed v).dir = { s.dir with flatServed := s.dir.flatServed || v } :=
  rfl
@[simp] theorem State.noteServed_psw (s : State) (v : Bool) :
    (s.noteServed v).psw = s.psw :=
  rfl
@[simp] theorem State.noteServed_risers (s : State) (v : Bool) :
    (s.noteServed v).risers = s.risers :=
  rfl
@[simp] theorem State.noteServed_ports (s : State) (v : Bool) :
    (s.noteServed v).ports = s.ports :=
  rfl
@[simp] theorem State.noteServed_locks (s : State) (v : Bool) :
    (s.noteServed v).locks = s.locks :=
  rfl
@[simp] theorem State.noteServed_hlp (s : State) (v : Bool) :
    (s.noteServed v).hlp = s.hlp :=
  rfl
@[simp] theorem State.noteServed_ntu (s : State) (v : Bool) :
    (s.noteServed v).ntu = s.ntu :=
  rfl

@[simp] theorem State.setWindow_pending (s : State) (i : WindowIx) (w : Window) :
    (s.setWindow i w).pending = s.pending :=
  rfl
@[simp] theorem State.setWindow_clock (s : State) (i : WindowIx) (w : Window) :
    (s.setWindow i w).clock = s.clock :=
  rfl
@[simp] theorem State.setWindow_resetHeld (s : State) (i : WindowIx) (w : Window) :
    (s.setWindow i w).resetHeld = s.resetHeld :=
  rfl
@[simp] theorem State.setWindow_ccu (s : State) (i : WindowIx) (w : Window) :
    (s.setWindow i w).ccu = s.ccu :=
  rfl
@[simp] theorem State.setWindow_dir (s : State) (i : WindowIx) (w : Window) :
    (s.setWindow i w).dir = { s.dir with windows := s.dir.windows.write i w } :=
  rfl
@[simp] theorem State.setWindow_psw (s : State) (i : WindowIx) (w : Window) :
    (s.setWindow i w).psw = s.psw :=
  rfl
@[simp] theorem State.setWindow_risers (s : State) (i : WindowIx) (w : Window) :
    (s.setWindow i w).risers = s.risers :=
  rfl
@[simp] theorem State.setWindow_ports (s : State) (i : WindowIx) (w : Window) :
    (s.setWindow i w).ports = s.ports :=
  rfl
@[simp] theorem State.setWindow_locks (s : State) (i : WindowIx) (w : Window) :
    (s.setWindow i w).locks = s.locks :=
  rfl
@[simp] theorem State.setWindow_hlp (s : State) (i : WindowIx) (w : Window) :
    (s.setWindow i w).hlp = s.hlp :=
  rfl
@[simp] theorem State.setWindow_ntu (s : State) (i : WindowIx) (w : Window) :
    (s.setWindow i w).ntu = s.ntu :=
  rfl

@[simp] theorem State.setPaths_pending (s : State) (r : RiserIx) (p : RiserPaths) :
    (s.setPaths r p).pending = s.pending :=
  rfl
@[simp] theorem State.setPaths_clock (s : State) (r : RiserIx) (p : RiserPaths) :
    (s.setPaths r p).clock = s.clock :=
  rfl
@[simp] theorem State.setPaths_resetHeld (s : State) (r : RiserIx) (p : RiserPaths) :
    (s.setPaths r p).resetHeld = s.resetHeld :=
  rfl
@[simp] theorem State.setPaths_ccu (s : State) (r : RiserIx) (p : RiserPaths) :
    (s.setPaths r p).ccu = s.ccu :=
  rfl
@[simp] theorem State.setPaths_dir (s : State) (r : RiserIx) (p : RiserPaths) :
    (s.setPaths r p).dir = s.dir :=
  rfl
@[simp] theorem State.setPaths_psw (s : State) (r : RiserIx) (p : RiserPaths) :
    (s.setPaths r p).psw = { s.psw with risers := s.psw.risers.write r p } :=
  rfl
@[simp] theorem State.setPaths_risers (s : State) (r : RiserIx) (p : RiserPaths) :
    (s.setPaths r p).risers = s.risers :=
  rfl
@[simp] theorem State.setPaths_ports (s : State) (r : RiserIx) (p : RiserPaths) :
    (s.setPaths r p).ports = s.ports :=
  rfl
@[simp] theorem State.setPaths_locks (s : State) (r : RiserIx) (p : RiserPaths) :
    (s.setPaths r p).locks = s.locks :=
  rfl
@[simp] theorem State.setPaths_hlp (s : State) (r : RiserIx) (p : RiserPaths) :
    (s.setPaths r p).hlp = s.hlp :=
  rfl
@[simp] theorem State.setPaths_ntu (s : State) (r : RiserIx) (p : RiserPaths) :
    (s.setPaths r p).ntu = s.ntu :=
  rfl

@[simp] theorem State.setHolder_pending (s : State) (c : Channel) (h : Option Ref) :
    (s.setHolder c h).pending = s.pending :=
  rfl
@[simp] theorem State.setHolder_clock (s : State) (c : Channel) (h : Option Ref) :
    (s.setHolder c h).clock = s.clock :=
  rfl
@[simp] theorem State.setHolder_resetHeld (s : State) (c : Channel) (h : Option Ref) :
    (s.setHolder c h).resetHeld = s.resetHeld :=
  rfl
@[simp] theorem State.setHolder_ccu (s : State) (c : Channel) (h : Option Ref) :
    (s.setHolder c h).ccu = s.ccu :=
  rfl
@[simp] theorem State.setHolder_dir (s : State) (c : Channel) (h : Option Ref) :
    (s.setHolder c h).dir = s.dir :=
  rfl
@[simp] theorem State.setHolder_risers (s : State) (c : Channel) (h : Option Ref) :
    (s.setHolder c h).risers = s.risers :=
  rfl
@[simp] theorem State.setHolder_ports (s : State) (c : Channel) (h : Option Ref) :
    (s.setHolder c h).ports = s.ports :=
  rfl
@[simp] theorem State.setHolder_locks (s : State) (c : Channel) (h : Option Ref) :
    (s.setHolder c h).locks = s.locks :=
  rfl
@[simp] theorem State.setHolder_hlp (s : State) (c : Channel) (h : Option Ref) :
    (s.setHolder c h).hlp = s.hlp :=
  rfl
@[simp] theorem State.setHolder_ntu (s : State) (c : Channel) (h : Option Ref) :
    (s.setHolder c h).ntu = s.ntu :=
  rfl

@[simp] theorem State.setChannelQueue_pending (s : State) (r : RiserIx) (q : List Ref) :
    (s.setChannelQueue r q).pending = s.pending :=
  rfl
@[simp] theorem State.setChannelQueue_clock (s : State) (r : RiserIx) (q : List Ref) :
    (s.setChannelQueue r q).clock = s.clock :=
  rfl
@[simp] theorem State.setChannelQueue_resetHeld (s : State) (r : RiserIx) (q : List Ref) :
    (s.setChannelQueue r q).resetHeld = s.resetHeld :=
  rfl
@[simp] theorem State.setChannelQueue_ccu (s : State) (r : RiserIx) (q : List Ref) :
    (s.setChannelQueue r q).ccu = s.ccu :=
  rfl
@[simp] theorem State.setChannelQueue_dir (s : State) (r : RiserIx) (q : List Ref) :
    (s.setChannelQueue r q).dir = s.dir :=
  rfl
@[simp] theorem State.setChannelQueue_risers (s : State) (r : RiserIx) (q : List Ref) :
    (s.setChannelQueue r q).risers = s.risers :=
  rfl
@[simp] theorem State.setChannelQueue_ports (s : State) (r : RiserIx) (q : List Ref) :
    (s.setChannelQueue r q).ports = s.ports :=
  rfl
@[simp] theorem State.setChannelQueue_locks (s : State) (r : RiserIx) (q : List Ref) :
    (s.setChannelQueue r q).locks = s.locks :=
  rfl
@[simp] theorem State.setChannelQueue_hlp (s : State) (r : RiserIx) (q : List Ref) :
    (s.setChannelQueue r q).hlp = s.hlp :=
  rfl
@[simp] theorem State.setChannelQueue_ntu (s : State) (r : RiserIx) (q : List Ref) :
    (s.setChannelQueue r q).ntu = s.ntu :=
  rfl

@[simp] theorem State.setHold_pending (s : State) (p : PortIx) (h : Option Hold) :
    (s.setHold p h).pending = s.pending :=
  rfl
@[simp] theorem State.setHold_clock (s : State) (p : PortIx) (h : Option Hold) :
    (s.setHold p h).clock = s.clock :=
  rfl
@[simp] theorem State.setHold_resetHeld (s : State) (p : PortIx) (h : Option Hold) :
    (s.setHold p h).resetHeld = s.resetHeld :=
  rfl
@[simp] theorem State.setHold_ccu (s : State) (p : PortIx) (h : Option Hold) :
    (s.setHold p h).ccu = s.ccu :=
  rfl
@[simp] theorem State.setHold_dir (s : State) (p : PortIx) (h : Option Hold) :
    (s.setHold p h).dir = s.dir :=
  rfl
@[simp] theorem State.setHold_psw (s : State) (p : PortIx) (h : Option Hold) :
    (s.setHold p h).psw = { s.psw with holds := s.psw.holds.write p h } :=
  rfl
@[simp] theorem State.setHold_risers (s : State) (p : PortIx) (h : Option Hold) :
    (s.setHold p h).risers = s.risers :=
  rfl
@[simp] theorem State.setHold_ports (s : State) (p : PortIx) (h : Option Hold) :
    (s.setHold p h).ports = s.ports :=
  rfl
@[simp] theorem State.setHold_locks (s : State) (p : PortIx) (h : Option Hold) :
    (s.setHold p h).locks = s.locks :=
  rfl
@[simp] theorem State.setHold_hlp (s : State) (p : PortIx) (h : Option Hold) :
    (s.setHold p h).hlp = s.hlp :=
  rfl
@[simp] theorem State.setHold_ntu (s : State) (p : PortIx) (h : Option Hold) :
    (s.setHold p h).ntu = s.ntu :=
  rfl

@[simp] theorem State.setDeskQueue_pending (s : State) (q : List Ref) :
    (s.setDeskQueue q).pending = s.pending :=
  rfl
@[simp] theorem State.setDeskQueue_clock (s : State) (q : List Ref) :
    (s.setDeskQueue q).clock = s.clock :=
  rfl
@[simp] theorem State.setDeskQueue_resetHeld (s : State) (q : List Ref) :
    (s.setDeskQueue q).resetHeld = s.resetHeld :=
  rfl
@[simp] theorem State.setDeskQueue_ccu (s : State) (q : List Ref) :
    (s.setDeskQueue q).ccu = s.ccu :=
  rfl
@[simp] theorem State.setDeskQueue_dir (s : State) (q : List Ref) :
    (s.setDeskQueue q).dir = s.dir :=
  rfl
@[simp] theorem State.setDeskQueue_psw (s : State) (q : List Ref) :
    (s.setDeskQueue q).psw = { s.psw with deskQueue := q } :=
  rfl
@[simp] theorem State.setDeskQueue_risers (s : State) (q : List Ref) :
    (s.setDeskQueue q).risers = s.risers :=
  rfl
@[simp] theorem State.setDeskQueue_ports (s : State) (q : List Ref) :
    (s.setDeskQueue q).ports = s.ports :=
  rfl
@[simp] theorem State.setDeskQueue_locks (s : State) (q : List Ref) :
    (s.setDeskQueue q).locks = s.locks :=
  rfl
@[simp] theorem State.setDeskQueue_hlp (s : State) (q : List Ref) :
    (s.setDeskQueue q).hlp = s.hlp :=
  rfl
@[simp] theorem State.setDeskQueue_ntu (s : State) (q : List Ref) :
    (s.setDeskQueue q).ntu = s.ntu :=
  rfl

@[simp] theorem State.makeJoin_pending (s : State) (j : Join) :
    (s.makeJoin j).pending = s.pending :=
  rfl
@[simp] theorem State.makeJoin_clock (s : State) (j : Join) : (s.makeJoin j).clock = s.clock := rfl
@[simp] theorem State.makeJoin_resetHeld (s : State) (j : Join) :
    (s.makeJoin j).resetHeld = s.resetHeld :=
  rfl
@[simp] theorem State.makeJoin_ccu (s : State) (j : Join) : (s.makeJoin j).ccu = s.ccu := rfl
@[simp] theorem State.makeJoin_dir (s : State) (j : Join) : (s.makeJoin j).dir = s.dir := rfl
@[simp] theorem State.makeJoin_psw (s : State) (j : Join) :
    (s.makeJoin j).psw = { s.psw with joins := s.psw.joins ++ [j] } :=
  rfl
@[simp] theorem State.makeJoin_risers (s : State) (j : Join) :
    (s.makeJoin j).risers = s.risers :=
  rfl
@[simp] theorem State.makeJoin_ports (s : State) (j : Join) : (s.makeJoin j).ports = s.ports := rfl
@[simp] theorem State.makeJoin_locks (s : State) (j : Join) : (s.makeJoin j).locks = s.locks := rfl
@[simp] theorem State.makeJoin_hlp (s : State) (j : Join) : (s.makeJoin j).hlp = s.hlp := rfl
@[simp] theorem State.makeJoin_ntu (s : State) (j : Join) : (s.makeJoin j).ntu = s.ntu := rfl

@[simp] theorem State.removeJoin_pending (s : State) (r : Ref) :
    (s.removeJoin r).pending = s.pending :=
  rfl
@[simp] theorem State.removeJoin_clock (s : State) (r : Ref) :
    (s.removeJoin r).clock = s.clock :=
  rfl
@[simp] theorem State.removeJoin_resetHeld (s : State) (r : Ref) :
    (s.removeJoin r).resetHeld = s.resetHeld :=
  rfl
@[simp] theorem State.removeJoin_ccu (s : State) (r : Ref) : (s.removeJoin r).ccu = s.ccu := rfl
@[simp] theorem State.removeJoin_dir (s : State) (r : Ref) : (s.removeJoin r).dir = s.dir := rfl
@[simp] theorem State.removeJoin_psw (s : State) (r : Ref) :
    (s.removeJoin r).psw = { s.psw with joins := s.psw.joins.filter (fun j => j.call ≠ r) } :=
  rfl
@[simp] theorem State.removeJoin_risers (s : State) (r : Ref) :
    (s.removeJoin r).risers = s.risers :=
  rfl
@[simp] theorem State.removeJoin_ports (s : State) (r : Ref) :
    (s.removeJoin r).ports = s.ports :=
  rfl
@[simp] theorem State.removeJoin_locks (s : State) (r : Ref) :
    (s.removeJoin r).locks = s.locks :=
  rfl
@[simp] theorem State.removeJoin_hlp (s : State) (r : Ref) : (s.removeJoin r).hlp = s.hlp := rfl
@[simp] theorem State.removeJoin_ntu (s : State) (r : Ref) : (s.removeJoin r).ntu = s.ntu := rfl

@[simp] theorem State.leaveQueues_pending (s : State) (r : Ref) :
    (s.leaveQueues r).pending = s.pending :=
  rfl
@[simp] theorem State.leaveQueues_clock (s : State) (r : Ref) :
    (s.leaveQueues r).clock = s.clock :=
  rfl
@[simp] theorem State.leaveQueues_resetHeld (s : State) (r : Ref) :
    (s.leaveQueues r).resetHeld = s.resetHeld :=
  rfl
@[simp] theorem State.leaveQueues_ccu (s : State) (r : Ref) : (s.leaveQueues r).ccu = s.ccu := rfl
@[simp] theorem State.leaveQueues_dir (s : State) (r : Ref) : (s.leaveQueues r).dir = s.dir := rfl
@[simp] theorem State.leaveQueues_risers (s : State) (r : Ref) :
    (s.leaveQueues r).risers = s.risers :=
  rfl
@[simp] theorem State.leaveQueues_ports (s : State) (r : Ref) :
    (s.leaveQueues r).ports = s.ports :=
  rfl
@[simp] theorem State.leaveQueues_locks (s : State) (r : Ref) :
    (s.leaveQueues r).locks = s.locks :=
  rfl
@[simp] theorem State.leaveQueues_hlp (s : State) (r : Ref) : (s.leaveQueues r).hlp = s.hlp := rfl
@[simp] theorem State.leaveQueues_ntu (s : State) (r : Ref) : (s.leaveQueues r).ntu = s.ntu := rfl

@[simp] theorem State.setSlot_pending (s : State) (i : SlotIx) (x : Slot) :
    (s.setSlot i x).pending = s.pending :=
  rfl
@[simp] theorem State.setSlot_clock (s : State) (i : SlotIx) (x : Slot) :
    (s.setSlot i x).clock = s.clock :=
  rfl
@[simp] theorem State.setSlot_resetHeld (s : State) (i : SlotIx) (x : Slot) :
    (s.setSlot i x).resetHeld = s.resetHeld :=
  rfl
@[simp] theorem State.setSlot_ccu (s : State) (i : SlotIx) (x : Slot) :
    (s.setSlot i x).ccu = { s.ccu with slots := s.ccu.slots.write i x } :=
  rfl
@[simp] theorem State.setSlot_dir (s : State) (i : SlotIx) (x : Slot) :
    (s.setSlot i x).dir = s.dir :=
  rfl
@[simp] theorem State.setSlot_psw (s : State) (i : SlotIx) (x : Slot) :
    (s.setSlot i x).psw = s.psw :=
  rfl
@[simp] theorem State.setSlot_risers (s : State) (i : SlotIx) (x : Slot) :
    (s.setSlot i x).risers = s.risers :=
  rfl
@[simp] theorem State.setSlot_ports (s : State) (i : SlotIx) (x : Slot) :
    (s.setSlot i x).ports = s.ports :=
  rfl
@[simp] theorem State.setSlot_locks (s : State) (i : SlotIx) (x : Slot) :
    (s.setSlot i x).locks = s.locks :=
  rfl
@[simp] theorem State.setSlot_hlp (s : State) (i : SlotIx) (x : Slot) :
    (s.setSlot i x).hlp = s.hlp :=
  rfl
@[simp] theorem State.setSlot_ntu (s : State) (i : SlotIx) (x : Slot) :
    (s.setSlot i x).ntu = s.ntu :=
  rfl

@[simp] theorem State.setCall_pending (s : State) (r : Ref) (c : Call) :
    (s.setCall r c).pending = s.pending :=
  rfl
@[simp] theorem State.setCall_clock (s : State) (r : Ref) (c : Call) :
    (s.setCall r c).clock = s.clock :=
  rfl
@[simp] theorem State.setCall_resetHeld (s : State) (r : Ref) (c : Call) :
    (s.setCall r c).resetHeld = s.resetHeld :=
  rfl
@[simp] theorem State.setCall_dir (s : State) (r : Ref) (c : Call) :
    (s.setCall r c).dir = s.dir :=
  rfl
@[simp] theorem State.setCall_psw (s : State) (r : Ref) (c : Call) :
    (s.setCall r c).psw = s.psw :=
  rfl
@[simp] theorem State.setCall_risers (s : State) (r : Ref) (c : Call) :
    (s.setCall r c).risers = s.risers :=
  rfl
@[simp] theorem State.setCall_ports (s : State) (r : Ref) (c : Call) :
    (s.setCall r c).ports = s.ports :=
  rfl
@[simp] theorem State.setCall_locks (s : State) (r : Ref) (c : Call) :
    (s.setCall r c).locks = s.locks :=
  rfl
@[simp] theorem State.setCall_hlp (s : State) (r : Ref) (c : Call) :
    (s.setCall r c).hlp = s.hlp :=
  rfl
@[simp] theorem State.setCall_ntu (s : State) (r : Ref) (c : Call) :
    (s.setCall r c).ntu = s.ntu :=
  rfl

@[simp] theorem State.advanceTo_pending (s : State) (e : Nat) :
    (s.advanceTo e).pending = s.pending :=
  rfl
@[simp] theorem State.advanceTo_clock (s : State) (e : Nat) :
    (s.advanceTo e).clock = max s.clock e :=
  rfl
@[simp] theorem State.advanceTo_resetHeld (s : State) (e : Nat) :
    (s.advanceTo e).resetHeld = s.resetHeld :=
  rfl
@[simp] theorem State.advanceTo_ccu (s : State) (e : Nat) : (s.advanceTo e).ccu = s.ccu := rfl
@[simp] theorem State.advanceTo_dir (s : State) (e : Nat) : (s.advanceTo e).dir = s.dir := rfl
@[simp] theorem State.advanceTo_psw (s : State) (e : Nat) : (s.advanceTo e).psw = s.psw := rfl
@[simp] theorem State.advanceTo_risers (s : State) (e : Nat) :
    (s.advanceTo e).risers = s.risers :=
  rfl
@[simp] theorem State.advanceTo_ports (s : State) (e : Nat) : (s.advanceTo e).ports = s.ports := rfl
@[simp] theorem State.advanceTo_locks (s : State) (e : Nat) : (s.advanceTo e).locks = s.locks := rfl
@[simp] theorem State.advanceTo_hlp (s : State) (e : Nat) : (s.advanceTo e).hlp = s.hlp := rfl
@[simp] theorem State.advanceTo_ntu (s : State) (e : Nat) : (s.advanceTo e).ntu = s.ntu := rfl

@[simp] theorem State.writeAlerts_pending (s : State) (e : Event) :
    (s.writeAlerts e).pending = s.pending :=
  rfl
@[simp] theorem State.writeAlerts_clock (s : State) (e : Event) :
    (s.writeAlerts e).clock = s.clock :=
  rfl
@[simp] theorem State.writeAlerts_resetHeld (s : State) (e : Event) :
    (s.writeAlerts e).resetHeld = s.resetHeld :=
  rfl
@[simp] theorem State.writeAlerts_ccu (s : State) (e : Event) : (s.writeAlerts e).ccu = s.ccu := rfl
@[simp] theorem State.writeAlerts_dir (s : State) (e : Event) : (s.writeAlerts e).dir = s.dir := rfl
@[simp] theorem State.writeAlerts_psw (s : State) (e : Event) : (s.writeAlerts e).psw = s.psw := rfl
@[simp] theorem State.writeAlerts_risers (s : State) (e : Event) :
    (s.writeAlerts e).risers = s.risers :=
  rfl
@[simp] theorem State.writeAlerts_ports (s : State) (e : Event) :
    (s.writeAlerts e).ports = Table.mapEach (Port.takeAlert e) s.ports :=
  rfl
@[simp] theorem State.writeAlerts_locks (s : State) (e : Event) :
    (s.writeAlerts e).locks = s.locks :=
  rfl
@[simp] theorem State.writeAlerts_hlp (s : State) (e : Event) : (s.writeAlerts e).hlp = s.hlp := rfl
@[simp] theorem State.writeAlerts_ntu (s : State) (e : Event) : (s.writeAlerts e).ntu = s.ntu := rfl

@[simp] theorem State.offerNotice_pending (s : State) (e : Event) :
    (s.offerNotice e).pending = s.pending :=
  rfl
@[simp] theorem State.offerNotice_clock (s : State) (e : Event) :
    (s.offerNotice e).clock = s.clock :=
  rfl
@[simp] theorem State.offerNotice_resetHeld (s : State) (e : Event) :
    (s.offerNotice e).resetHeld = s.resetHeld :=
  rfl
@[simp] theorem State.offerNotice_ccu (s : State) (e : Event) : (s.offerNotice e).ccu = s.ccu := rfl
@[simp] theorem State.offerNotice_dir (s : State) (e : Event) : (s.offerNotice e).dir = s.dir := rfl
@[simp] theorem State.offerNotice_psw (s : State) (e : Event) : (s.offerNotice e).psw = s.psw := rfl
@[simp] theorem State.offerNotice_risers (s : State) (e : Event) :
    (s.offerNotice e).risers = s.risers :=
  rfl
@[simp] theorem State.offerNotice_ports (s : State) (e : Event) :
    (s.offerNotice e).ports = s.ports :=
  rfl
@[simp] theorem State.offerNotice_locks (s : State) (e : Event) :
    (s.offerNotice e).locks = s.locks :=
  rfl
@[simp] theorem State.offerNotice_hlp (s : State) (e : Event) : (s.offerNotice e).hlp = s.hlp := rfl
@[simp] theorem State.offerNotice_ntu (s : State) (e : Event) :
    (s.offerNotice e).ntu = s.ntu.offer (.event e) :=
  rfl

@[simp] theorem State.display_pending (s : State) (p : PortIx) (d : Display) :
    (s.display p d).pending = s.pending :=
  rfl
@[simp] theorem State.display_clock (s : State) (p : PortIx) (d : Display) :
    (s.display p d).clock = s.clock :=
  rfl
@[simp] theorem State.display_resetHeld (s : State) (p : PortIx) (d : Display) :
    (s.display p d).resetHeld = s.resetHeld :=
  rfl
@[simp] theorem State.display_ccu (s : State) (p : PortIx) (d : Display) :
    (s.display p d).ccu = s.ccu :=
  rfl
@[simp] theorem State.display_dir (s : State) (p : PortIx) (d : Display) :
    (s.display p d).dir = s.dir :=
  rfl
@[simp] theorem State.display_psw (s : State) (p : PortIx) (d : Display) :
    (s.display p d).psw = s.psw :=
  rfl
@[simp] theorem State.display_risers (s : State) (p : PortIx) (d : Display) :
    (s.display p d).risers = s.risers :=
  rfl
@[simp] theorem State.display_ports (s : State) (p : PortIx) (d : Display) :
    (s.display p d).ports = s.ports.write p (Port.place d (s.ports.read p)) :=
  rfl
@[simp] theorem State.display_locks (s : State) (p : PortIx) (d : Display) :
    (s.display p d).locks = s.locks :=
  rfl
@[simp] theorem State.display_hlp (s : State) (p : PortIx) (d : Display) :
    (s.display p d).hlp = s.hlp :=
  rfl
@[simp] theorem State.display_ntu (s : State) (p : PortIx) (d : Display) :
    (s.display p d).ntu = s.ntu :=
  rfl

@[simp] theorem State.ring_pending (s : State) (p : PortIx) (l : RingLevel) :
    (s.ring p l).pending = s.pending :=
  rfl
@[simp] theorem State.ring_clock (s : State) (p : PortIx) (l : RingLevel) :
    (s.ring p l).clock = s.clock :=
  rfl
@[simp] theorem State.ring_resetHeld (s : State) (p : PortIx) (l : RingLevel) :
    (s.ring p l).resetHeld = s.resetHeld :=
  rfl
@[simp] theorem State.ring_ccu (s : State) (p : PortIx) (l : RingLevel) :
    (s.ring p l).ccu = s.ccu :=
  rfl
@[simp] theorem State.ring_dir (s : State) (p : PortIx) (l : RingLevel) :
    (s.ring p l).dir = s.dir :=
  rfl
@[simp] theorem State.ring_psw (s : State) (p : PortIx) (l : RingLevel) :
    (s.ring p l).psw = s.psw :=
  rfl
@[simp] theorem State.ring_risers (s : State) (p : PortIx) (l : RingLevel) :
    (s.ring p l).risers = s.risers :=
  rfl
@[simp] theorem State.ring_ports (s : State) (p : PortIx) (l : RingLevel) :
    (s.ring p l).ports = s.ports.write p (Port.placeRing l (s.ports.read p)) :=
  rfl
@[simp] theorem State.ring_locks (s : State) (p : PortIx) (l : RingLevel) :
    (s.ring p l).locks = s.locks :=
  rfl
@[simp] theorem State.ring_hlp (s : State) (p : PortIx) (l : RingLevel) :
    (s.ring p l).hlp = s.hlp :=
  rfl
@[simp] theorem State.ring_ntu (s : State) (p : PortIx) (l : RingLevel) :
    (s.ring p l).ntu = s.ntu :=
  rfl

@[simp] theorem State.makeReady_pending (s : State) (x : Reply) (i : Bool) :
    (s.makeReady x i).pending = s.pending :=
  rfl
@[simp] theorem State.makeReady_clock (s : State) (x : Reply) (i : Bool) :
    (s.makeReady x i).clock = s.clock :=
  rfl
@[simp] theorem State.makeReady_resetHeld (s : State) (x : Reply) (i : Bool) :
    (s.makeReady x i).resetHeld = s.resetHeld :=
  rfl
@[simp] theorem State.makeReady_ccu (s : State) (x : Reply) (i : Bool) :
    (s.makeReady x i).ccu = s.ccu :=
  rfl
@[simp] theorem State.makeReady_dir (s : State) (x : Reply) (i : Bool) :
    (s.makeReady x i).dir = s.dir :=
  rfl
@[simp] theorem State.makeReady_psw (s : State) (x : Reply) (i : Bool) :
    (s.makeReady x i).psw = s.psw :=
  rfl
@[simp] theorem State.makeReady_risers (s : State) (x : Reply) (i : Bool) :
    (s.makeReady x i).risers = s.risers :=
  rfl
@[simp] theorem State.makeReady_ports (s : State) (x : Reply) (i : Bool) :
    (s.makeReady x i).ports = s.ports :=
  rfl
@[simp] theorem State.makeReady_locks (s : State) (x : Reply) (i : Bool) :
    (s.makeReady x i).locks = s.locks :=
  rfl
@[simp] theorem State.makeReady_hlp (s : State) (x : Reply) (i : Bool) :
    (s.makeReady x i).hlp = { s.hlp with ready := s.hlp.ready ++ [{ reply := x, immediate := i }] } :=
  rfl
@[simp] theorem State.makeReady_ntu (s : State) (x : Reply) (i : Bool) :
    (s.makeReady x i).ntu = s.ntu :=
  rfl

@[simp] theorem State.reply_pending (s : State) (k n : Nat) (st : Status) (b : ReplyBody) :
    (s.reply k n st b).pending = s.pending :=
  rfl
@[simp] theorem State.reply_clock (s : State) (k n : Nat) (st : Status) (b : ReplyBody) :
    (s.reply k n st b).clock = s.clock :=
  rfl
@[simp] theorem State.reply_resetHeld (s : State) (k n : Nat) (st : Status) (b : ReplyBody) :
    (s.reply k n st b).resetHeld = s.resetHeld :=
  rfl
@[simp] theorem State.reply_ccu (s : State) (k n : Nat) (st : Status) (b : ReplyBody) :
    (s.reply k n st b).ccu = s.ccu :=
  rfl
@[simp] theorem State.reply_dir (s : State) (k n : Nat) (st : Status) (b : ReplyBody) :
    (s.reply k n st b).dir = s.dir :=
  rfl
@[simp] theorem State.reply_psw (s : State) (k n : Nat) (st : Status) (b : ReplyBody) :
    (s.reply k n st b).psw = s.psw :=
  rfl
@[simp] theorem State.reply_risers (s : State) (k n : Nat) (st : Status) (b : ReplyBody) :
    (s.reply k n st b).risers = s.risers :=
  rfl
@[simp] theorem State.reply_ports (s : State) (k n : Nat) (st : Status) (b : ReplyBody) :
    (s.reply k n st b).ports = s.ports :=
  rfl
@[simp] theorem State.reply_locks (s : State) (k n : Nat) (st : Status) (b : ReplyBody) :
    (s.reply k n st b).locks = s.locks :=
  rfl
@[simp] theorem State.reply_ntu (s : State) (k n : Nat) (st : Status) (b : ReplyBody) :
    (s.reply k n st b).ntu = s.ntu :=
  rfl

@[simp] theorem State.emit_pending (s : State) (e : Event) : (s.emit e).pending = s.pending := by
  unfold State.emit; split <;> rfl
@[simp] theorem State.emit_clock (s : State) (e : Event) : (s.emit e).clock = s.clock := by
  unfold State.emit; split <;> rfl
@[simp] theorem State.emit_resetHeld (s : State) (e : Event) : (s.emit e).resetHeld = s.resetHeld := by
  unfold State.emit; split <;> rfl
@[simp] theorem State.emit_ccu (s : State) (e : Event) : (s.emit e).ccu = s.ccu := by
  unfold State.emit; split <;> rfl
@[simp] theorem State.emit_dir (s : State) (e : Event) : (s.emit e).dir = s.dir := by
  unfold State.emit; split <;> rfl
@[simp] theorem State.emit_psw (s : State) (e : Event) : (s.emit e).psw = s.psw := by
  unfold State.emit; split <;> rfl
@[simp] theorem State.emit_risers (s : State) (e : Event) : (s.emit e).risers = s.risers := by
  unfold State.emit; split <;> rfl
@[simp] theorem State.emit_locks (s : State) (e : Event) : (s.emit e).locks = s.locks := by
  unfold State.emit; split <;> rfl
@[simp] theorem State.emit_hlp (s : State) (e : Event) : (s.emit e).hlp = s.hlp := by
  unfold State.emit; split <;> rfl

end Sys2Proof.Machine
end

