-- ==== Sys2Proof/Laws/Access.lean ====
section
/-!
SUPPORT. What one record of a table reads as after an update: the record that was written, or the one
that stood there before.
-/

namespace Sys2Proof.Machine

/-- Of two writes to one index the later stands. -/
@[simp] theorem Table.write_write {α : Type} {n : Nat} (t : Table n α) (i : Fin n) (a b : α) :
    (t.write i a).write i b = t.write i b := by
  refine Table.ext_read fun j => ?_
  by_cases h : i = j
  · subst h; simp
  · simp [Table.read_write, h]

@[simp] theorem State.riser_modifyRiser (s : State) (r x : RiserIx) (f : Riser → Riser) :
    (s.modifyRiser r f).riser x = if r = x then f (s.riser r) else s.riser x := by
  simp only [State.riser, State.modifyRiser_risers, Table.read_write]

@[simp] theorem State.port_modifyPort (s : State) (p q : PortIx) (f : Port → Port) :
    (s.modifyPort p f).port q = if p = q then f (s.port p) else s.port q := by
  simp only [State.port, State.modifyPort_ports, Table.read_write]

@[simp] theorem State.port_display (s : State) (p q : PortIx) (d : Display) :
    (s.display p d).port q = if p = q then Port.place d (s.port p) else s.port q :=
  State.port_modifyPort s p q _

@[simp] theorem State.port_ring (s : State) (p q : PortIx) (l : RingLevel) :
    (s.ring p l).port q = if p = q then Port.placeRing l (s.port p) else s.port q :=
  State.port_modifyPort s p q _

@[simp] theorem State.port_writeAlerts (s : State) (e : Event) (q : PortIx) :
    (s.writeAlerts e).port q = Port.takeAlert e (s.port q) := by
  simp only [State.port, State.writeAlerts_ports, Table.read_mapEach]

@[simp] theorem State.lock_setLock (s : State) (p q : PortIx) (l : Lock) :
    (s.setLock p l).lock q = if p = q then l else s.lock q := by
  simp only [State.lock, State.setLock_locks, Table.read_write]

@[simp] theorem State.flat_setFlat (s : State) (i j : FlatIx) (f : Flat) :
    (s.setFlat i f).flat j = if i = j then f else s.flat j := by
  simp only [State.flat, State.setFlat_dir, Table.read_write]

@[simp] theorem State.flat_noteServed (s : State) (v : Bool) (j : FlatIx) :
    (s.noteServed v).flat j = s.flat j := rfl

@[simp] theorem State.hold_setHold (s : State) (p q : PortIx) (h : Option Hold) :
    (s.setHold p h).hold q = if p = q then h else s.hold q := by
  simp only [State.hold, State.setHold_psw, Table.read_write]

@[simp] theorem State.paths_setPaths (s : State) (r x : RiserIx) (p : RiserPaths) :
    (s.setPaths r p).paths x = if r = x then p else s.paths x := by
  simp only [State.paths, State.setPaths_psw, Table.read_write]

@[simp] theorem State.paths_setHolder (s : State) (c : Channel) (x : RiserIx) (h : Option Ref) :
    (s.setHolder c h).paths x =
      if c.riser = x then (s.paths c.riser).setHolder c.side h else s.paths x :=
  State.paths_setPaths s _ _ _

@[simp] theorem State.paths_setChannelQueue (s : State) (r x : RiserIx) (q : List Ref) :
    (s.setChannelQueue r q).paths x = if r = x then { s.paths r with queue := q } else s.paths x :=
  State.paths_setPaths s _ _ _

@[simp] theorem State.paths_leaveQueues (s : State) (r : Ref) (x : RiserIx) :
    (s.leaveQueues r).paths x =
      { s.paths x with queue := (s.paths x).queue.filter (fun y => y ≠ r) } := by
  simp only [State.paths, State.leaveQueues, Table.read_mapEach]

@[simp] theorem State.slot_setSlot (s : State) (i j : SlotIx) (x : Slot) :
    (s.setSlot i x).slot j = if i = j then x else s.slot j := by
  simp only [State.slot, State.setSlot_ccu, Table.read_write]

@[simp] theorem State.slot_setCall (s : State) (r : Ref) (c : Call) (j : SlotIx) :
    (s.setCall r c).slot j =
      if r.slot = j then { s.slot r.slot with call := some c } else s.slot j :=
  State.slot_setSlot s _ _ _

/-- A live call's record after it is replaced; another slot's as before (R3). -/
@[simp] theorem State.call?_setCall (s : State) (r q : Ref) (c : Call) :
    (s.setCall r c).call? q =
      if r.slot = q.slot then
        (if (s.slot r.slot).generation = q.gen then some c else none)
      else s.call? q := by
  by_cases h : r.slot = q.slot
  · simp [State.call?, h]
  · simp [State.call?, h]

/-- A live call's slot holds the generation of its reference (R3). -/
theorem State.call?_eq_some (s : State) (r : Ref) (c : Call) :
    s.call? r = some c ↔ (s.slot r.slot).generation = r.gen ∧ (s.slot r.slot).call = some c := by
  simp only [State.call?]
  split <;> simp_all

/-- Where one accessor reads a block, an update of another block does not reach it. -/
theorem State.port_congr {s t : State} (h : t.ports = s.ports) (p : PortIx) :
    t.port p = s.port p := by simp only [State.port, h]
theorem State.riser_congr {s t : State} (h : t.risers = s.risers) (r : RiserIx) :
    t.riser r = s.riser r := by simp only [State.riser, h]
theorem State.slot_congr {s t : State} (h : t.ccu = s.ccu) (i : SlotIx) :
    t.slot i = s.slot i := by simp only [State.slot, h]
theorem State.call?_congr {s t : State} (h : t.ccu = s.ccu) (r : Ref) :
    t.call? r = s.call? r := by simp only [State.call?, State.slot_congr h]
theorem State.hold_congr {s t : State} (h : t.psw = s.psw) (p : PortIx) :
    t.hold p = s.hold p := by simp only [State.hold, h]
theorem State.paths_congr {s t : State} (h : t.psw = s.psw) (r : RiserIx) :
    t.paths r = s.paths r := by simp only [State.paths, h]
theorem State.lock_congr {s t : State} (h : t.locks = s.locks) (p : PortIx) :
    t.lock p = s.lock p := by simp only [State.lock, h]
theorem State.flat_congr {s t : State} (h : t.dir = s.dir) (i : FlatIx) :
    t.flat i = s.flat i := by simp only [State.flat, h]

/-- Display, ring and alerts leave what makes a port a desk as it was. -/
@[simp] theorem Port.place_function (d : Display) (p : Port) : (Port.place d p).function = p.function
    := by unfold Port.place; split <;> rfl
@[simp] theorem Port.place_present (d : Display) (p : Port) : (Port.place d p).present = p.present :=
  by unfold Port.place; split <;> rfl
@[simp] theorem Port.place_check (d : Display) (p : Port) : (Port.place d p).check = p.check := by
  unfold Port.place; split <;> rfl
@[simp] theorem Port.placeRing_function (l : RingLevel) (p : Port) :
    (Port.placeRing l p).function = p.function := by unfold Port.placeRing; split <;> rfl
@[simp] theorem Port.placeRing_present (l : RingLevel) (p : Port) :
    (Port.placeRing l p).present = p.present := by unfold Port.placeRing; split <;> rfl
@[simp] theorem Port.placeRing_check (l : RingLevel) (p : Port) :
    (Port.placeRing l p).check = p.check := by unfold Port.placeRing; split <;> rfl
@[simp] theorem Port.takeAlert_function (e : Event) (p : Port) :
    (Port.takeAlert e p).function = p.function := by unfold Port.takeAlert; split <;> rfl
@[simp] theorem Port.takeAlert_present (e : Event) (p : Port) :
    (Port.takeAlert e p).present = p.present := by unfold Port.takeAlert; split <;> rfl
@[simp] theorem Port.takeAlert_check (e : Event) (p : Port) :
    (Port.takeAlert e p).check = p.check := by unfold Port.takeAlert; split <;> rfl

/-- R51: after a cold start no window is enabled, and every code fails NO_WINDOW. -/
theorem Dir.translate_cold (c : Nat) : Dir.cold.translate c = .error .noWindow := by
  have h : Dir.cold.matchingWindow c = none := by
    refine List.find?_eq_none.2 fun w hw => ?_
    obtain ⟨i, -, rfl⟩ := List.mem_map.1 hw
    simp [Dir.cold, Table.read_fill, Window.cold, Window.covers]
  rw [Dir.translate, h]

end Sys2Proof.Machine
end

