-- ==== Sys2Proof/Laws/CallMoves.lean ====
section
/-!
SUPPORT. Once for all: everything that the life of a call can do to the state. `CallMove` lists the
single changes; each shared operation of Machine/Calls.lean, and of the operations it calls, is a
sequence of them. A claim that holds across every `CallMove` holds across every such operation, by
induction on the sequence, with none of them unfolded.
-/

namespace Sys2Proof.Machine

/-- One change a call operation makes. -/
inductive CallMove : State → State → Prop where
  | slot (s : State) (i : SlotIx) (x : Slot) : CallMove s (s.setSlot i x)
  | display (s : State) (p : PortIx) (d : Display) : CallMove s (s.display p d)
  | ring (s : State) (p : PortIx) (l : RingLevel) : CallMove s (s.ring p l)
  | alerts (s : State) (e : Event) : CallMove s (s.writeAlerts e)
  | notice (s : State) (e : Event) : CallMove s (s.offerNotice e)
  | held (s : State) (p : PortIx) (h : Hold) : CallMove s (s.setHold p (some h))
  | freed (s : State) (p : PortIx)
      (h : s.psw.deskQueue = [] ∨ (s.setHold p none).eligible p = false) :
      CallMove s (s.setHold p none)
  | deskQueueShrinks (s : State) (q : List Ref) (h : q.Sublist s.psw.deskQueue) :
      CallMove s (s.setDeskQueue q)
  | deskQueueGrows (s : State) (r : Ref) (h : s.lowestDesk = none) :
      CallMove s (s.setDeskQueue (s.psw.deskQueue ++ [r]))
  | channelHeld (s : State) (ch : Channel) (r : Ref) : CallMove s (s.setHolder ch (some r))
  | channelFreed (s : State) (ch : Channel) (h : (s.paths ch.riser).queue = []) :
      CallMove s (s.setHolder ch none)
  | channelQueueShrinks (s : State) (x : RiserIx) (q : List Ref)
      (h : q.Sublist (s.paths x).queue) : CallMove s (s.setChannelQueue x q)
  | channelQueueGrows (s : State) (x : RiserIx) (r : Ref) (ha : (s.paths x).holderA ≠ none)
      (hb : (s.paths x).holderB ≠ none) :
      CallMove s (s.setChannelQueue x ((s.paths x).queue ++ [r]))
  | queuesLeft (s : State) (r : Ref) : CallMove s (s.leaveQueues r)
  | joins (s : State) (js : List Join) : CallMove s { s with psw := { s.psw with joins := js } }
  | frame (s : State) (x : RiserIx) (e : QueueEntry) (he : e.isMarker = false)
      (ho : (s.riser x).link.isOff = false) (hp : (s.riser x).noPlace = false) :
      CallMove s (s.modifyRiser x fun y =>
        { y with queue := y.queue ++ [{ entry := e, sending := false }] })
  | overrun (s : State) (x : RiserIx) (ho : (s.riser x).link.isOff = false)
      (hp : (s.riser x).noPlace = true) :
      CallMove s (s.modifyRiser x fun y => { y with overrunDue := true })
  | wake (s : State) (x : RiserIx) : CallMove s (s.startWake x)
  | cancelMark (s : State) (x : RiserIx) (t a : Nat) (c : Ref) :
      CallMove s (s.modifyRiser x fun y => y.markCancel t a c)
  | withdrawn (s : State) (x : RiserIx) (a : Nat) (c : Ref) :
      CallMove s (s.modifyRiser x fun y =>
        { y with queue := y.queue.eraseP fun i => i.isWaitingOffer a c })

/-- A sequence of such changes. -/
abbrev CallMoves : State → State → Prop := Relation.ReflTransGen CallMove

theorem CallMoves.refl (s : State) : CallMoves s s := Relation.ReflTransGen.refl

theorem CallMoves.one {s t : State} (h : CallMove s t) : CallMoves s t :=
  Relation.ReflTransGen.single h

theorem CallMoves.after {s t u : State} (h : CallMoves s t) (g : CallMove t u) : CallMoves s u :=
  Relation.ReflTransGen.tail h g

/-- What no call operation changes. -/
structure CallKept (s t : State) : Prop where
  pending   : t.pending = s.pending
  clock     : t.clock = s.clock
  resetHeld : t.resetHeld = s.resetHeld
  dir       : t.dir = s.dir
  locks     : t.locks = s.locks
  hlp       : t.hlp = s.hlp
  routes    : t.ntu.routes = s.ntu.routes
  times     : t.ccu.times = s.ccu.times
  intercept : t.ccu.intercept = s.ccu.intercept

theorem Ntu.offer_routes (n : Ntu) (c : NoticeContent) : (n.offer c).routes = n.routes := by
  unfold Ntu.offer; split <;> rfl

theorem CallMove.kept {s t : State} (h : CallMove s t) : CallKept s t := by
  cases h
  case notice e => exact ⟨rfl, rfl, rfl, rfl, rfl, rfl, Ntu.offer_routes .., rfl, rfl⟩
  case wake x => unfold State.startWake; split <;> exact ⟨rfl, rfl, rfl, rfl, rfl, rfl, rfl, rfl, rfl⟩
  all_goals exact ⟨rfl, rfl, rfl, rfl, rfl, rfl, rfl, rfl, rfl⟩

/-- Everything but the calls, the paths, the ports' slots, the riser queues and the notices stays. -/
theorem CallMoves.kept {s t : State} (h : CallMoves s t) : CallKept s t := by
  induction h with
  | refl => exact ⟨rfl, rfl, rfl, rfl, rfl, rfl, rfl, rfl, rfl⟩
  | tail _ g ih =>
    have k := g.kept
    exact ⟨k.1.trans ih.1, k.2.trans ih.2, k.3.trans ih.3, k.4.trans ih.4, k.5.trans ih.5,
      k.6.trans ih.6, k.7.trans ih.7, k.8.trans ih.8, k.9.trans ih.9⟩

/-! ## Records, events and frames -/

theorem setCall_moves (s : State) (r : Ref) (c : Call) : CallMoves s (s.setCall r c) :=
  .one (.slot s _ _)

theorem modifyCall_moves (s : State) (r : Ref) (f : Call → Call) :
    CallMoves s (s.modifyCall r f) := by
  unfold State.modifyCall
  split
  · exact setCall_moves ..
  · exact CallMoves.refl s

theorem emit_moves (s : State) (e : Event) : CallMoves s (s.emit e) := by
  unfold State.emit
  split
  · exact CallMoves.refl s
  · exact .one (.notice s e)
  · exact .one (.alerts s e)
  · exact (CallMoves.one (.notice s e)).after (.alerts _ e)

/-- R77: a frame offered to a riser joins its queue, makes an overrun due, or is dropped. -/
theorem offerFrame_moves (s : State) (x : RiserIx) (e : QueueEntry) (he : e.isMarker = false) :
    CallMoves s (s.offerFrame x e).1 := by
  unfold State.offerFrame
  split
  · exact CallMoves.refl s
  · next ho =>
    split
    · next hp => exact .one (.overrun s x (by simpa using ho) hp)
    · next hp =>
      exact (CallMoves.one (.frame s x e he (by simpa using ho) (by simpa using hp))).after
        (.wake _ x)

theorem advise_moves (s : State) (x : RiserIx) (f : Advisory) : CallMoves s (s.advise x f) := by
  have h := offerFrame_moves s x (.advisory f) rfl
  unfold State.advise
  split
  · next s1 heq =>
    have h1 : CallMoves s s1 := by rw [heq] at h; exact h
    split
    · exact h1.after (.cancelMark ..)
    · exact h1
  · next s1 heq => rw [heq] at h; exact h

theorem completeFaulted_moves (s : State) (c : Ref) (a : Nat) (t : Option Nat)
    (o : OfferStatus) : CallMoves s (s.completeFaulted c a t o) :=
  modifyCall_moves ..

theorem solicit_moves (s : State) (x : RiserIx) (f : Solicited) :
    CallMoves s (s.solicit x f).1 := by
  have h := offerFrame_moves s x (.solicited f) rfl
  unfold State.solicit
  split
  · next s1 heq => rw [heq] at h; exact h
  · next s1 heq =>
    have h1 : CallMoves s s1 := by rw [heq] at h; exact h
    split
    · exact h1.trans (completeFaulted_moves ..)
    · exact h1

theorem withdraw_moves (s : State) (x : RiserIx) (a : Nat) (c : Ref) :
    CallMoves s (s.withdraw x a c).1 := by
  unfold State.withdraw
  dsimp only
  split
  · exact .one (.withdrawn s x a c)
  · split <;> exact CallMoves.refl s

theorem enterState_moves (s : State) (r : Ref) (c : Call) (st : CallState)
    (w : Option WaitingFor) (t : Option TimerKind) : CallMoves s (s.enterState r c st w t) :=
  (setCall_moves s r _).after (.display _ _ _)

theorem foldl_moves {α : Type} (f : State → α → State) (hf : ∀ s a, CallMoves s (f s a))
    (l : List α) (s : State) : CallMoves s (l.foldl f s) := by
  induction l generalizing s with
  | nil => exact CallMoves.refl s
  | cons a l ih => exact (hf s a).trans (ih _)

theorem withdrawOffer_moves (x : RiserIx) (r : Ref) (s : State) (o : Offer) :
    CallMoves s (State.withdrawOffer x r s o).1 := by
  unfold State.withdrawOffer
  split
  · have h := withdraw_moves s x o.station r
    split <;> next heq => rw [heq] at h; exact h
  · exact CallMoves.refl s

theorem cancelOffer_moves (x : RiserIx) (r : Ref) (w : CancelReason) (s : State) (o : Offer) :
    CallMoves s (State.cancelOffer x r w s o).1 := by
  unfold State.cancelOffer
  split
  · exact advise_moves ..
  · exact advise_moves ..
  · exact CallMoves.refl s

theorem eachOffer_moves (f : State → Offer → State × Offer)
    (hf : ∀ s o, CallMoves s (f s o).1) (os : List Offer) (s : State) :
    CallMoves s (State.eachOffer f os s).1 := by
  induction os generalizing s with
  | nil => exact CallMoves.refl s
  | cons o os ih => exact (hf s o).trans (ih _)

theorem takeBackAll_moves (s : State) (x : RiserIx) (r : Ref) (w : CancelReason)
    (k : Offer → Bool) (os : List Offer) : CallMoves s (s.takeBackAll x r w k os).1 := by
  have h (f : State → Offer → State × Offer) (hf : ∀ s o, CallMoves s (f s o).1) (t : State)
      (o : Offer) : CallMoves t (if k o then (t, o) else f t o).1 := by
    split
    · exact CallMoves.refl t
    · exact hf t o
  have c := eachOffer_moves _ (h _ (cancelOffer_moves x r w))
  exact ((c _ _).trans (eachOffer_moves _ (h _ (withdrawOffer_moves x r)) _ _)).trans (c _ _)

theorem cancelAtEnd_moves (x : RiserIx) (r : Ref) (w : EndReason) (a : Option Nat) (s : State)
    (o : Offer) : CallMoves s (State.cancelAtEnd x r w a s o) := by
  unfold State.cancelAtEnd
  split
  · split
    · exact CallMoves.refl s
    · exact advise_moves ..
  · exact cancelOffer_moves ..

theorem takeBackAtEnd_moves (s : State) (x : RiserIx) (r : Ref) (w : EndReason)
    (a : Option Nat) (os : List Offer) : CallMoves s (s.takeBackAtEnd x r w a os) :=
  (eachOffer_moves _ (withdrawOffer_moves x r) os s).trans
    (foldl_moves _ (cancelAtEnd_moves x r w a) _ _)

/-! ## Desks -/

theorem setHold_none_some (s : State) (p : PortIx) (h : Hold) :
    (s.setHold p none).setHold p (some h) = s.setHold p (some h) := by
  simp [State.setHold]

/-- R140: a grant holds the port, rings and shows at the desk, and writes the record. -/
theorem grantDesk_moves (s : State) (r : Ref) (c : Call) (p : PortIx) :
    CallMoves s (s.grantDesk r c p) :=
  (((CallMoves.one (.held s p _)).after (.ring _ p _)).after (.display _ p _)).trans
    (enterState_moves ..)

theorem grantDesk_setHold (s : State) (r : Ref) (c : Call) (p : PortIx) :
    (s.setHold p none).grantDesk r c p = s.grantDesk r c p := by
  unfold State.grantDesk
  rw [setHold_none_some]

theorem serveDeskFrom_moves (p : PortIx) (q : List Ref) (s : State)
    (h : s.psw.deskQueue = q) : CallMoves s (State.serveDeskFrom p q s) := by
  induction q generalizing s with
  | nil => exact CallMoves.refl s
  | cons r rest ih =>
    have h1 : CallMoves s (s.setDeskQueue rest) := .one (.deskQueueShrinks s rest (by simp [h]))
    unfold State.serveDeskFrom
    dsimp only
    split
    · exact h1.trans (grantDesk_moves ..)
    · exact h1.trans (ih _ rfl)

theorem serveDesk_moves (s : State) (p : PortIx) : CallMoves s (s.serveDesk p) := by
  unfold State.serveDesk
  split
  · exact serveDeskFrom_moves p _ s rfl
  · exact CallMoves.refl s

/-- The same grant, the port being freed within it. -/
theorem serveDeskFrom_freed_moves (p : PortIx) (q : List Ref) (s : State)
    (h : s.psw.deskQueue = q) : CallMoves s (State.serveDeskFrom p q (s.setHold p none)) := by
  induction q generalizing s with
  | nil => exact .one (.freed s p (.inl h))
  | cons r rest ih =>
    have h1 : CallMoves s (s.setDeskQueue rest) := .one (.deskQueueShrinks s rest (by simp [h]))
    have e : (s.setHold p none).setDeskQueue rest = (s.setDeskQueue rest).setHold p none := rfl
    unfold State.serveDeskFrom
    dsimp only
    rw [e]
    split
    · next c _ =>
      rw [grantDesk_setHold]
      exact h1.trans (grantDesk_moves ..)
    · exact h1.trans (ih _ rfl)

theorem releasePort_moves (s : State) (p : PortIx) : CallMoves s (s.releasePort p) := by
  unfold State.releasePort State.serveDesk
  split
  · exact serveDeskFrom_freed_moves p _ s rfl
  · next h => exact .one (.freed s p (.inr (by simpa using h)))

theorem releaseDesk_moves (s : State) (p : PortIx) : CallMoves s (s.releaseDesk p) :=
  ((CallMoves.one (.ring s p _)).after (.display _ p _)).trans (releasePort_moves ..)

/-! ## End processing -/

theorem endRecord_moves (s : State) (r : Ref) (c : Call) (w : EndReason) :
    CallMoves s (s.endRecord r c w) := by
  unfold State.endRecord
  refine Relation.ReflTransGen.tail ?_ (.slot _ _ _)
  refine Relation.ReflTransGen.trans ?_ (emit_moves _ _)
  refine Relation.ReflTransGen.tail ?_ (.display _ _ _)
  refine Relation.ReflTransGen.tail ?_ (.joins _ _)
  split
  · exact CallMoves.refl s
  · split
    · exact CallMoves.refl s
    · exact takeBackAtEnd_moves ..

theorem releasePorts_moves (s : State) (r : Ref) (c : Call) :
    CallMoves s (s.releasePorts r c) := by
  unfold State.releasePorts
  refine Relation.ReflTransGen.tail ?_ (.queuesLeft _ _)
  refine Relation.ReflTransGen.trans ?_ (releasePort_moves _ _)
  split
  · exact releaseDesk_moves ..
  · exact CallMoves.refl s

/-! ## What a grant leaves of the channel wait queues -/

theorem startWake_psw (s : State) (x : RiserIx) : (s.startWake x).psw = s.psw := by
  unfold State.startWake; split <;> rfl

theorem offerFrame_psw (s : State) (x : RiserIx) (e : QueueEntry) :
    (s.offerFrame x e).1.psw = s.psw := by
  unfold State.offerFrame
  split
  · rfl
  · split
    · rfl
    · exact startWake_psw ..

theorem advise_psw (s : State) (x : RiserIx) (f : Advisory) : (s.advise x f).psw = s.psw := by
  have h := offerFrame_psw s x (.advisory f)
  unfold State.advise
  split <;> next heq =>
    rw [heq] at h
    first
      | exact h
      | (split <;> exact h)

theorem modifyCall_psw (s : State) (r : Ref) (f : Call → Call) :
    (s.modifyCall r f).psw = s.psw := by
  unfold State.modifyCall; split <;> rfl

theorem solicit_psw (s : State) (x : RiserIx) (f : Solicited) :
    (s.solicit x f).1.psw = s.psw := by
  have h := offerFrame_psw s x (.solicited f)
  unfold State.solicit
  split <;> next heq =>
    rw [heq] at h
    first
      | exact h
      | (split
         · exact (modifyCall_psw ..).trans h
         · exact h)

theorem queueOffers_psw (s : State) (x : RiserIx) (r : Ref) (k : CallKind) (o : PortIx)
    (l : List Nat) : (s.queueOffers x r k o l).psw = s.psw := by
  unfold State.queueOffers
  induction l generalizing s with
  | nil => rfl
  | cons a l ih => exact (ih _).trans (solicit_psw ..)

theorem withdraw_psw (s : State) (x : RiserIx) (a : Nat) (c : Ref) :
    (s.withdraw x a c).1.psw = s.psw := by
  unfold State.withdraw
  dsimp only
  split
  · rfl
  · split <;> rfl

theorem withdrawOffer_psw (x : RiserIx) (r : Ref) (s : State) (o : Offer) :
    (State.withdrawOffer x r s o).1.psw = s.psw := by
  unfold State.withdrawOffer
  split
  · have h := withdraw_psw s x o.station r
    split <;> next heq => rw [heq] at h; exact h
  · rfl

theorem cancelOffer_psw (x : RiserIx) (r : Ref) (w : CancelReason) (s : State) (o : Offer) :
    (State.cancelOffer x r w s o).1.psw = s.psw := by
  unfold State.cancelOffer
  split
  · exact advise_psw ..
  · exact advise_psw ..
  · rfl

theorem cancelAtEnd_psw (x : RiserIx) (r : Ref) (w : EndReason) (a : Option Nat) (s : State)
    (o : Offer) : (State.cancelAtEnd x r w a s o).psw = s.psw := by
  unfold State.cancelAtEnd
  split
  · split
    · rfl
    · exact advise_psw ..
  · exact cancelOffer_psw ..

theorem foldl_psw {α : Type} (f : State → α → State) (hf : ∀ s a, (f s a).psw = s.psw)
    (l : List α) (s : State) : (l.foldl f s).psw = s.psw := by
  induction l generalizing s with
  | nil => rfl
  | cons a l ih => exact (ih _).trans (hf s a)

theorem eachOffer_psw (f : State → Offer → State × Offer) (hf : ∀ s o, (f s o).1.psw = s.psw)
    (os : List Offer) (s : State) : (State.eachOffer f os s).1.psw = s.psw := by
  induction os generalizing s with
  | nil => rfl
  | cons o os ih => exact (ih _).trans (hf s o)

theorem takeBackAtEnd_psw (s : State) (x : RiserIx) (r : Ref) (w : EndReason)
    (a : Option Nat) (os : List Offer) : (s.takeBackAtEnd x r w a os).psw = s.psw :=
  (foldl_psw _ (cancelAtEnd_psw x r w a) _ _).trans
    (eachOffer_psw _ (withdrawOffer_psw x r) os s)

/-- R28: of the path switch, the end of a record removes the call's join only. -/
theorem endRecord_psw (s : State) (r : Ref) (c : Call) (w : EndReason) :
    (s.endRecord r c w).psw = (s.removeJoin r).psw := by
  unfold State.endRecord
  simp only [State.setSlot_psw, State.emit_psw, State.display_psw, State.removeJoin_psw]
  congr 2 <;> · split
                · rfl
                · split
                  · rfl
                  · rw [takeBackAtEnd_psw]

theorem grantDesk_paths (s : State) (r : Ref) (c : Call) (p : PortIx) (x : RiserIx) :
    (s.grantDesk r c p).paths x = s.paths x := rfl

theorem serveDeskFrom_paths (p : PortIx) (q : List Ref) (s : State) (x : RiserIx) :
    (State.serveDeskFrom p q s).paths x = s.paths x := by
  induction q generalizing s with
  | nil => rfl
  | cons r rest ih =>
    unfold State.serveDeskFrom
    dsimp only
    split
    · rfl
    · rw [ih]; rfl

/-- R58: the release of a port leaves the channels and their queues alone. -/
theorem releasePort_paths (s : State) (p : PortIx) (x : RiserIx) :
    (s.releasePort p).paths x = s.paths x := by
  unfold State.releasePort State.serveDesk
  split
  · exact serveDeskFrom_paths ..
  · rfl

theorem releaseDesk_paths (s : State) (p : PortIx) (x : RiserIx) :
    (s.releaseDesk p).paths x = s.paths x :=
  releasePort_paths ..

/-- R29, R65: the release of a call's ports takes the call out of the channel wait queues. -/
theorem releasePorts_paths (s : State) (r : Ref) (c : Call) (x : RiserIx) :
    (s.releasePorts r c).paths x =
      { s.paths x with queue := (s.paths x).queue.filter (fun y => y ≠ r) } := by
  unfold State.releasePorts
  rw [State.paths_leaveQueues, releasePort_paths]
  split
  · rw [releaseDesk_paths]
  · rfl

theorem offerFlat_psw (s : State) (r : Ref) (c : Call) (i : FlatIx) :
    (s.offerFlat r c i).psw = s.psw := by
  unfold State.offerFlat
  simp only [State.display_psw, modifyCall_psw, queueOffers_psw, State.setCall_psw]

/-- R11: of the path switch, the grant handling writes the channel's holder only. -/
theorem grantChannel_psw (s : State) (r : Ref) (c : Call) (ch : Channel) :
    (s.grantChannel r c ch).1.psw = (s.setHolder ch (some r)).psw := by
  unfold State.grantChannel
  dsimp only
  split
  · rfl
  · split
    · rfl
    · rw [offerFlat_psw]; rfl

/-! ## Channels -/

theorem queueOffers_moves (s : State) (x : RiserIx) (r : Ref) (k : CallKind) (o : PortIx)
    (l : List Nat) : CallMoves s (s.queueOffers x r k o l) :=
  foldl_moves _ (fun t a => solicit_moves t x (.offer a r k o)) l s

theorem offerFlat_moves (s : State) (r : Ref) (c : Call) (i : FlatIx) :
    CallMoves s (s.offerFlat r c i) := by
  unfold State.offerFlat
  refine Relation.ReflTransGen.tail ?_ (.display _ _ _)
  refine Relation.ReflTransGen.trans ?_ (modifyCall_moves _ _ _)
  exact (setCall_moves ..).trans (queueOffers_moves ..)

theorem grantChannel_moves (s : State) (r : Ref) (c : Call) (ch : Channel) :
    CallMoves s (s.grantChannel r c ch).1 := by
  unfold State.grantChannel
  dsimp only
  have h (d : Call) : CallMoves s ((s.setHolder ch (some r)).setCall r d) :=
    (CallMoves.one (.channelHeld s ch r)).trans (setCall_moves ..)
  split
  · exact h _
  · split
    · exact h _
    · exact (h _).trans (offerFlat_moves ..)

theorem grantChannel_queue (s : State) (r : Ref) (c : Call) (ch : Channel) :
    ((s.grantChannel r c ch).1.paths ch.riser).queue = (s.paths ch.riser).queue := by
  rw [State.paths_congr (grantChannel_psw s r c ch)]
  rw [State.paths_setHolder, if_pos rfl]
  cases ch.side <;> rfl

/-- R56: as many turns as the queue is long serve the released channel. -/
theorem serveChannel_moves (n : Nat) (ch : Channel) (s : State)
    (h : (s.paths ch.riser).queue.length ≤ n) : CallMoves s (State.serveChannel n ch s) := by
  induction n generalizing s with
  | zero => exact .one (.channelFreed s ch (List.length_eq_zero_iff.mp (Nat.le_zero.mp h)))
  | succ n ih =>
    unfold State.serveChannel
    split
    · next hq => exact .one (.channelFreed s ch hq)
    · next r rest hq =>
      have h1 : CallMoves s (s.setChannelQueue ch.riser rest) :=
        .one (.channelQueueShrinks s ch.riser rest (by simp [hq]))
      have hl : ((s.setChannelQueue ch.riser rest).paths ch.riser).queue.length ≤ n := by
        simp only [State.paths_setChannelQueue, if_pos]
        rw [hq] at h
        simpa using h
      dsimp only
      split
      · exact h1.trans (ih _ hl)
      · next c _ =>
        have hg := grantChannel_moves (s.setChannelQueue ch.riser rest) r c ch
        have hgq := grantChannel_queue (s.setChannelQueue ch.riser rest) r c ch
        split
        · next s2 heq => rw [heq] at hg; exact h1.trans hg
        · next s2 why heq =>
          rw [heq] at hg hgq
          have hl2 : (s2.paths ch.riser).queue.length ≤ n := by rw [hgq]; exact hl
          split
          · exact (h1.trans hg).trans (ih _ hl2)
          · next d _ =>
            refine ((h1.trans hg).trans
              ((endRecord_moves s2 r d why).trans (releasePorts_moves _ r d))).trans (ih _ ?_)
            rw [releasePorts_paths, State.paths_congr (endRecord_psw s2 r d why)]
            exact Nat.le_trans (List.length_filter_le _ _) hl2

theorem releaseChannel_moves (s : State) (ch : Channel) : CallMoves s (s.releaseChannel ch) :=
  serveChannel_moves _ ch s (Nat.le_refl _)

/-- R28, R29: the end of a call, with every grant that follows from it. -/
theorem endCall_moves (s : State) (r : Ref) (w : EndReason) : CallMoves s (s.endCall r w) := by
  unfold State.endCall
  split
  · exact CallMoves.refl s
  · refine Relation.ReflTransGen.trans ?_ (releasePorts_moves _ _ _)
    have h := endRecord_moves s r (by assumption) w
    split
    · exact h.trans (releaseChannel_moves ..)
    · exact h

/-! ## Entering a leg and starting a call -/

theorem grantNow_moves (s : State) (r : Ref) (c : Call) (ch : Channel) :
    CallMoves s (s.grantNow r c ch) := by
  have h := grantChannel_moves s r c ch
  unfold State.grantNow
  split
  · next s1 heq => rw [heq] at h; exact h
  · next s1 why heq => rw [heq] at h; exact h.trans (endCall_moves ..)

theorem requestChannel_moves (s : State) (r : Ref) (c : Call) (x : RiserIx) :
    CallMoves s (s.requestChannel r c x) := by
  unfold State.requestChannel
  split
  · exact endCall_moves ..
  · split
    · exact grantNow_moves ..
    · split
      · exact grantNow_moves ..
      · next ha hb =>
        exact (CallMoves.one (.channelQueueGrows s x r ha hb)).trans (enterState_moves ..)

theorem enterFlatLeg_moves (s : State) (r : Ref) (c : Call) (i : FlatIx) :
    CallMoves s (s.enterFlatLeg r c i) := by
  unfold State.enterFlatLeg
  split
  · exact endCall_moves ..
  · exact requestChannel_moves ..

theorem enterConciergeLeg_moves (s : State) (r : Ref) (c : Call) :
    CallMoves s (s.enterConciergeLeg r c) := by
  unfold State.enterConciergeLeg
  dsimp only
  split
  · exact (setCall_moves ..).trans (grantDesk_moves ..)
  · next h =>
    exact ((setCall_moves ..).after (.deskQueueGrows _ r h)).trans (enterState_moves ..)

theorem createCall_moves (s : State) (i : SlotIx) (c : Call) :
    CallMoves s (s.createCall i c).1 :=
  ((CallMoves.one (.slot s i _)).after (.held _ _ _)).trans (emit_moves ..)

theorem continueCall_moves (s : State) (r : Ref) (c : Call) :
    CallMoves s (s.continueCall r c) := by
  unfold State.continueCall
  split
  · exact enterConciergeLeg_moves ..
  · split
    · exact endCall_moves ..
    · dsimp only
      split
      · exact (setCall_moves ..).trans (enterConciergeLeg_moves ..)
      · exact (setCall_moves ..).trans (enterFlatLeg_moves ..)

theorem startCall_moves (s : State) (p : PortIx) (q : StartRequest) (code : Option Nat) :
    CallMoves s (s.startCall p q code) := by
  unfold State.startCall
  split
  · exact (CallMoves.one (.display s p _)).trans (emit_moves ..)
  · split
    · exact .one (.display s p _)
    · split
      · exact CallMoves.refl s
      · exact (createCall_moves ..).trans (continueCall_moves ..)

/-! ## Answers, completions, diverts and forwards -/

theorem takeAnswer_moves (s : State) (x : RiserIx) (a : Nat) (r : Ref) (c : Call) :
    CallMoves s (s.takeAnswer x a r c) := by
  unfold State.takeAnswer
  refine Relation.ReflTransGen.trans ?_ (emit_moves _ _)
  refine Relation.ReflTransGen.tail ?_ (.display _ _ _)
  refine Relation.ReflTransGen.trans ?_ (setCall_moves _ _ _)
  refine Relation.ReflTransGen.trans ?_ (takeBackAll_moves _ _ _ _ _ _)
  split
  · exact ((setCall_moves ..).after (.joins _ _)).trans (advise_moves ..)
  · exact setCall_moves ..

theorem turnAway_moves (s : State) (x : RiserIx) (a : Nat) : CallMoves s (s.turnAway x a) := by
  unfold State.turnAway
  split
  · exact CallMoves.refl s
  · split
    · exact advise_moves ..
    · split <;> exact advise_moves ..

theorem lift_moves (s : State) (x : RiserIx) (a : Nat) : CallMoves s (s.lift x a) := by
  unfold State.lift
  split
  · exact takeAnswer_moves ..
  · exact turnAway_moves ..

theorem complete_moves (s : State) (x : RiserIx) (r : Ref) (a : Nat) (t : Option Nat)
    (o : OfferStatus) : CallMoves s (s.complete x r a t o) := by
  unfold State.complete
  split
  · split
    · exact advise_moves ..
    · exact CallMoves.refl s
  · split
    · dsimp only
      split
      · split
        · exact enterState_moves ..
        · split
          · exact setCall_moves ..
          · exact (setCall_moves ..).trans (endCall_moves ..)
      · exact setCall_moves ..
    · exact CallMoves.refl s

theorem failCalls_moves (s : State) (x : RiserIx) (w : EndReason) :
    CallMoves s (s.failCalls x w) :=
  foldl_moves _ (fun t r => endCall_moves t r w) _ s

theorem hangup_moves (s : State) (x : RiserIx) (a : Nat) : CallMoves s (s.hangup x a) := by
  unfold State.hangup
  split
  · exact endCall_moves ..
  · exact CallMoves.refl s

theorem deskAnswer_moves (s : State) (p : PortIx) (r : Ref) (c : Call) :
    CallMoves s (s.deskAnswer p r c) := by
  unfold State.deskAnswer
  refine Relation.ReflTransGen.trans ?_ (emit_moves _ _)
  refine Relation.ReflTransGen.tail ?_ (.display _ _ _)
  refine Relation.ReflTransGen.tail ?_ (.display _ _ _)
  refine Relation.ReflTransGen.tail ?_ (.joins _ _)
  exact (CallMoves.one (.ring s p _)).trans (setCall_moves ..)

theorem forward_moves (s : State) (p : PortIx) (r : Ref) (c : Call) (i : FlatIx) :
    CallMoves s (s.forward p r c i) := by
  unfold State.forward
  refine Relation.ReflTransGen.trans ?_ (enterFlatLeg_moves _ _ _ _)
  refine Relation.ReflTransGen.trans ?_ (setCall_moves _ _ _)
  refine Relation.ReflTransGen.trans ?_ (releaseDesk_moves _ _)
  exact (setCall_moves s r _).after (.joins _ _)

theorem divert_moves (s : State) (r : Ref) (c : Call) : CallMoves s (s.divert r c) := by
  unfold State.divert
  refine Relation.ReflTransGen.trans ?_ (enterConciergeLeg_moves _ _ _)
  have h (d : State × List Offer) (g : CallMoves s d.1) (e : Call) :
      CallMoves s (d.1.setCall r e) := g.trans (setCall_moves ..)
  have hb : CallMoves s (match s.riserOfCall c with
      | some x => s.takeBackAll x r .diverted (fun _ => false) c.offers
      | none => (s, c.offers)).1 := by
    split
    · exact takeBackAll_moves ..
    · exact CallMoves.refl s
  split
  · exact (h _ hb _).trans (releaseChannel_moves ..)
  · exact h _ hb _

end Sys2Proof.Machine
end

