-- ==== Sys2Proof/Laws/PerInstr.lean ====
section
/-!
SUPPORT. One fact about every command as syntax, one lemma for each constructor: a well-formed
request is carried by a frame the host link can take, with the body R196 gives for its kind.
-/

open Sys2Proof Sys2Proof.Machine

/-- R170, R195, R196: if a frame carries the well-formed command, its body is at most 62 bytes long,
and it has the size of its kind exactly when the command is not an ILLEGAL request. -/
def Sys2Proof.Laws.Fits.Statement (i : Instr) : Prop :=
  i.wellFormed = true → ∀ f, frameOf i = some f →
    f.body.length ≤ 62 ∧
      (requestBodySize f.kind.toNat = some f.body.length ↔
        ∀ k n b, i ≠ Instr.illegalRequest k n b)

/-- A command that no frame of the host link carries. -/
theorem Sys2Proof.Laws.fits_of_no_frame {i : Instr} (h : frameOf i = none) :
    Sys2Proof.Laws.Fits.Statement i := by
  intro _ f hf
  rw [h] at hf
  cases hf

/-- A request that is not ILLEGAL, carried by a frame with the body of its kind. -/
theorem Sys2Proof.Laws.fits_of_frame {i : Instr} {g : HostFrame} (h : frameOf i = some g)
    (size : requestBodySize g.kind.toNat = some g.body.length) (short : g.body.length ≤ 62)
    (legal : ∀ k n b, i ≠ Instr.illegalRequest k n b) : Sys2Proof.Laws.Fits.Statement i := by
  intro _ f hf
  rw [h] at hf
  cases hf
  exact ⟨short, fun _ => legal, fun _ => size⟩

namespace Sys2Proof.Laws.Fits

theorem powerUp : Statement .powerUp :=
  fits_of_no_frame rfl

theorem resetPin : Statement .resetPin :=
  fits_of_no_frame rfl

theorem hostFrameReceived (bytes : List Byte) : Statement (.hostFrameReceived bytes) :=
  fits_of_no_frame rfl

theorem hostRxTimeout : Statement .hostRxTimeout :=
  fits_of_no_frame rfl

theorem hostTxEnd : Statement .hostTxEnd :=
  fits_of_no_frame rfl

theorem illegalRequest (kind num : Nat) (body : List Byte) :
    Statement (.illegalRequest kind num body) := by
  intro h f hf
  cases hf
  simp [Instr.wellFormed, fitsByte] at h
  obtain ⟨⟨⟨hk, _⟩, hl⟩, hs⟩ := h
  refine ⟨hl, fun e => ?_, fun e => absurd rfl (e kind num body)⟩
  simp [byteOf, Nat.mod_eq_of_lt hk] at e
  exact absurd e hs

theorem setPort (num port function intercept releaseTime : Nat) :
    Statement (.setPort num port function intercept releaseTime) :=
  fits_of_frame rfl rfl (Nat.le_of_ble_eq_true rfl) (by simp)

theorem setWindow (num window enabled base span stride rowSize firstFlat : Nat) :
    Statement (.setWindow num window enabled base span stride rowSize firstFlat) :=
  fits_of_frame rfl rfl (Nat.le_of_ble_eq_true rfl) (by simp)

theorem setFlat (num flat inService riser firstStation handsetCount divert doors : Nat) :
    Statement (.setFlat num flat inService riser firstStation handsetCount divert doors) :=
  fits_of_frame rfl rfl (Nat.le_of_ble_eq_true rfl) (by simp)

theorem setTimes (num flatRing deskRing pathWait talk : Nat) :
    Statement (.setTimes num flatRing deskRing pathWait talk) :=
  fits_of_frame rfl rfl (Nat.le_of_ble_eq_true rfl) (by simp)

theorem setRoute (num event route : Nat) : Statement (.setRoute num event route) :=
  fits_of_frame rfl rfl (Nat.le_of_ble_eq_true rfl) (by simp)

theorem setMode (num mode : Nat) : Statement (.setMode num mode) :=
  fits_of_frame rfl rfl (Nat.le_of_ble_eq_true rfl) (by simp)

theorem setRiser (num riser enable survey quietAllowed surveyStep quietIdle : Nat) :
    Statement (.setRiser num riser enable survey quietAllowed surveyStep quietIdle) :=
  fits_of_frame rfl rfl (Nat.le_of_ble_eq_true rfl) (by simp)

theorem clearCheck (num ports : Nat) : Statement (.clearCheck num ports) :=
  fits_of_frame rfl rfl (Nat.le_of_ble_eq_true rfl) (by simp)

theorem setPrivacy (num flat privacy : Nat) : Statement (.setPrivacy num flat privacy) :=
  fits_of_frame rfl rfl (Nat.le_of_ble_eq_true rfl) (by simp)

theorem doorHold (num lock tag : Nat) : Statement (.doorHold num lock tag) :=
  fits_of_frame rfl rfl (Nat.le_of_ble_eq_true rfl) (by simp)

theorem doorFree (num lock tag : Nat) : Statement (.doorFree num lock tag) :=
  fits_of_frame rfl rfl (Nat.le_of_ble_eq_true rfl) (by simp)

theorem endCall (num slot generation : Nat) : Statement (.endCall num slot generation) :=
  fits_of_frame rfl rfl (Nat.le_of_ble_eq_true rfl) (by simp)

theorem queryCall (num slot : Nat) : Statement (.queryCall num slot) :=
  fits_of_frame rfl rfl (Nat.le_of_ble_eq_true rfl) (by simp)

theorem queryWindow (num window : Nat) : Statement (.queryWindow num window) :=
  fits_of_frame rfl rfl (Nat.le_of_ble_eq_true rfl) (by simp)

theorem queryFlat (num flat : Nat) : Statement (.queryFlat num flat) :=
  fits_of_frame rfl rfl (Nat.le_of_ble_eq_true rfl) (by simp)

theorem queryPort (num port : Nat) : Statement (.queryPort num port) :=
  fits_of_frame rfl rfl (Nat.le_of_ble_eq_true rfl) (by simp)

theorem queryLock (num lock : Nat) : Statement (.queryLock num lock) :=
  fits_of_frame rfl rfl (Nat.le_of_ble_eq_true rfl) (by simp)

theorem queryRiser (num riser : Nat) : Statement (.queryRiser num riser) :=
  fits_of_frame rfl rfl (Nat.le_of_ble_eq_true rfl) (by simp)

theorem queryStation (num riser station : Nat) : Statement (.queryStation num riser station) :=
  fits_of_frame rfl rfl (Nat.le_of_ble_eq_true rfl) (by simp)

theorem riserSync (num riser : Nat) : Statement (.riserSync num riser) :=
  fits_of_frame rfl rfl (Nat.le_of_ble_eq_true rfl) (by simp)

theorem restart (num startKind : Nat) : Statement (.restart num startKind) :=
  fits_of_frame rfl rfl (Nat.le_of_ble_eq_true rfl) (by simp)

theorem panelCall (port : PortIx) (code : Nat) : Statement (.panelCall port code) :=
  fits_of_no_frame rfl

theorem panelConcierge (port : PortIx) : Statement (.panelConcierge port) :=
  fits_of_no_frame rfl

theorem panelCancel (port : PortIx) : Statement (.panelCancel port) :=
  fits_of_no_frame rfl

theorem deskDial (port : PortIx) (code : Nat) : Statement (.deskDial port code) :=
  fits_of_no_frame rfl

theorem deskAnswer (port : PortIx) : Statement (.deskAnswer port) :=
  fits_of_no_frame rfl

theorem deskClear (port : PortIx) : Statement (.deskClear port) :=
  fits_of_no_frame rfl

theorem deskForward (port : PortIx) : Statement (.deskForward port) :=
  fits_of_no_frame rfl

theorem deskDoor (port : PortIx) : Statement (.deskDoor port) :=
  fits_of_no_frame rfl

theorem panelFrameDiscard (port : PortIx) : Statement (.panelFrameDiscard port) :=
  fits_of_no_frame rfl

theorem panelRxTimeout (port : PortIx) : Statement (.panelRxTimeout port) :=
  fits_of_no_frame rfl

theorem panelPresent (port : PortIx) : Statement (.panelPresent port) :=
  fits_of_no_frame rfl

theorem panelAbsent (port : PortIx) : Statement (.panelAbsent port) :=
  fits_of_no_frame rfl

theorem panelTxEnd (port : PortIx) : Statement (.panelTxEnd port) :=
  fits_of_no_frame rfl

theorem riserTxEnd (riser : RiserIx) : Statement (.riserTxEnd riser) :=
  fits_of_no_frame rfl

theorem stationReply (riser : RiserIx) (station tag result privacy : Nat) :
    Statement (.stationReply riser station tag result privacy) :=
  fits_of_no_frame rfl

theorem stationLift (riser : RiserIx) (station : Nat) : Statement (.stationLift riser station) :=
  fits_of_no_frame rfl

theorem stationHangup (riser : RiserIx) (station : Nat) :
    Statement (.stationHangup riser station) :=
  fits_of_no_frame rfl

theorem stationDoor (riser : RiserIx) (station : Nat) : Statement (.stationDoor riser station) :=
  fits_of_no_frame rfl

theorem stationPrivacyOn (riser : RiserIx) (station : Nat) :
    Statement (.stationPrivacyOn riser station) :=
  fits_of_no_frame rfl

theorem stationPrivacyOff (riser : RiserIx) (station : Nat) :
    Statement (.stationPrivacyOff riser station) :=
  fits_of_no_frame rfl

theorem unknownStationFrame (riser : RiserIx) (station kind : Nat) :
    Statement (.unknownStationFrame riser station kind) :=
  fits_of_no_frame rfl

theorem riserBadFrame (riser : RiserIx) : Statement (.riserBadFrame riser) :=
  fits_of_no_frame rfl

theorem riserRxTimeout (riser : RiserIx) : Statement (.riserRxTimeout riser) :=
  fits_of_no_frame rfl

theorem replyTimeout (riser : RiserIx) (tag : Nat) : Statement (.replyTimeout riser tag) :=
  fits_of_no_frame rfl

theorem idleTimeout (riser : RiserIx) : Statement (.idleTimeout riser) :=
  fits_of_no_frame rfl

theorem wakeTimeout (riser : RiserIx) : Statement (.wakeTimeout riser) :=
  fits_of_no_frame rfl

theorem surveyStep (riser : RiserIx) : Statement (.surveyStep riser) :=
  fits_of_no_frame rfl

theorem lineFault (riser : RiserIx) (condition : LineCondition) :
    Statement (.lineFault riser condition) :=
  fits_of_no_frame rfl

theorem lineRestored (riser : RiserIx) : Statement (.lineRestored riser) :=
  fits_of_no_frame rfl

theorem overrun (riser : RiserIx) : Statement (.overrun riser) :=
  fits_of_no_frame rfl

theorem pathWaitExpiry (call : Ref) : Statement (.pathWaitExpiry call) :=
  fits_of_no_frame rfl

theorem ringExpiry (call : Ref) : Statement (.ringExpiry call) :=
  fits_of_no_frame rfl

theorem deskRingExpiry (call : Ref) : Statement (.deskRingExpiry call) :=
  fits_of_no_frame rfl

theorem talkExpiry (call : Ref) : Statement (.talkExpiry call) :=
  fits_of_no_frame rfl

theorem releaseTimerExpiry (lock : PortIx) : Statement (.releaseTimerExpiry lock) :=
  fits_of_no_frame rfl

theorem lineConditionChange (riser : RiserIx) (condition : LineCondition) :
    Statement (.lineConditionChange riser condition) :=
  fits_of_no_frame rfl

theorem resetPinRelease : Statement .resetPinRelease :=
  fits_of_no_frame rfl

theorem syncByteReceived (arrival : LinkBytes) : Statement (.syncByteReceived arrival) :=
  fits_of_no_frame rfl

end Sys2Proof.Laws.Fits
end

