-- ==== Sys2Proof/Laws/Privacy.lean ====
section
/-!
SUPPORT. What the operations on a station's privacy flag can do (R48, R105, R108), and the end of an
event at which a riser may go QUIET (R74), each said once.
-/

namespace Sys2Proof.Machine

@[simp] theorem State.flagEvents_same (s : State) (x : RiserIx) (a : Nat) :
    s.flagEvents x a ((s.riser x).station a).privacy = [] := if_pos rfl

theorem emit_withDir (s : State) (d : Dir) (e : Event) :
    ({ s with dir := d } : State).emit e = { s.emit e with dir := d } := by
  show (match s.routeOf e.kind with
    | .none => _
    | .host => _
    | .desk => _
    | .both => _) = _
  unfold State.emit
  cases s.routeOf e.kind <;> rfl

theorem emits_withDir (es : List Event) (s : State) (d : Dir) :
    es.foldl State.emit ({ s with dir := d } : State) = { es.foldl State.emit s with dir := d } := by
  induction es generalizing s with
  | nil => rfl
  | cons e es ih => simp only [List.foldl_cons, emit_withDir, ih]

theorem emits_risers (es : List Event) (s : State) : (es.foldl State.emit s).risers = s.risers := by
  induction es generalizing s with
  | nil => rfl
  | cons e es ih => simp only [List.foldl_cons, ih, State.emit_risers]

/-- R48: the event of a flat whose privacy is worked out again, if that changes it. -/
def State.flatTurn (s : State) (i : FlatIx) : Option Event :=
  let v := s.aggregate (s.flat i)
  if v = (s.flat i).privacy then none else some (.privacyChange i v)

/-- These flats have been worked out again: each has its aggregate, the changes were raised in order, and
nothing else is changed. -/
structure Recomputed (s t : State) (l : List FlatIx) : Prop where
  events  : ∃ d, t = { (l.filterMap s.flatTurn).foldl State.emit s with dir := d }
  windows : t.dir.windows = s.dir.windows ∧ t.dir.flatServed = s.dir.flatServed
  flats   : ∀ i, t.flat i =
    if i ∈ l then { s.flat i with privacy := s.aggregate (s.flat i) } else s.flat i

theorem Recomputed.risers {s t : State} {l : List FlatIx} (h : Recomputed s t l) :
    t.risers = s.risers := by
  obtain ⟨d, h⟩ := h.events
  rw [h]
  exact emits_risers _ _

theorem recomputeFlat_one (s : State) (i : FlatIx) : Recomputed s (s.recomputeFlat i) [i] := by
  unfold State.recomputeFlat
  by_cases h : s.aggregate (s.flat i) = (s.flat i).privacy
  · rw [if_pos h]
    refine ⟨⟨s.dir, ?_⟩, ⟨rfl, rfl⟩, fun j => ?_⟩
    · simp [State.flatTurn, h]
    · by_cases e : j = i
      · subst e; simp [h]
      · simp [e]
  · rw [if_neg h]
    refine ⟨⟨(s.setFlat i { s.flat i with privacy := s.aggregate (s.flat i) }).dir, ?_⟩, ?_, fun j => ?_⟩
    · simp only [State.flatTurn, h, List.filterMap_cons, List.filterMap_nil, if_false,
        List.foldl_cons, List.foldl_nil]
      exact emit_withDir s _ _
    · simp
    · simp only [State.flat_congr (State.emit_dir _ _), State.flat_setFlat, List.mem_singleton]
      by_cases e : j = i
      · subst e; simp
      · simp [e, Ne.symm e]

theorem recompute_all (l : List FlatIx) (hn : l.Nodup) (s : State) :
    Recomputed s (l.foldl State.recomputeFlat s) l := by
  induction l generalizing s with
  | nil => exact ⟨⟨s.dir, rfl⟩, ⟨rfl, rfl⟩, fun _ => by simp⟩
  | cons i l ih =>
    obtain ⟨hi, hl⟩ := List.nodup_cons.1 hn
    have one := recomputeFlat_one s i
    have rest := ih hl (s.recomputeFlat i)
    have flat : ∀ j ∈ l, (s.recomputeFlat i).flat j = s.flat j := fun j hj => by
      have e : j ≠ i := fun e => hi (e ▸ hj)
      rw [one.flats j, if_neg (by simpa using e)]
    have agg : ∀ f, (s.recomputeFlat i).aggregate f = s.aggregate f := fun f => by
      unfold State.aggregate State.riser
      rw [one.risers]
    have turns : l.filterMap (s.recomputeFlat i).flatTurn = l.filterMap s.flatTurn :=
      List.filterMap_congr fun j hj => by simp only [State.flatTurn, flat j hj, agg]
    refine ⟨?_, ⟨rest.windows.1.trans one.windows.1, rest.windows.2.trans one.windows.2⟩,
      fun j => ?_⟩
    · obtain ⟨d, h⟩ := rest.events
      obtain ⟨e, g⟩ := one.events
      refine ⟨d, h.trans ?_⟩
      rw [turns, g, emits_withDir, ← List.foldl_append, ← List.filterMap_append,
        List.singleton_append]
    · rw [List.foldl_cons, rest.flats j]
      by_cases hj : j ∈ l
      · rw [if_pos hj, if_pos (List.mem_cons_of_mem _ hj), flat j hj, agg]
      · rw [if_neg hj, one.flats j]
        simp only [List.mem_cons, hj, or_false, List.not_mem_nil]

theorem station_modifyStation (x : Riser) {a : Nat} (h : 1 ≤ a ∧ a ≤ 62) (f : Station → Station)
    (b : Nat) : (x.modifyStation a f).station b = if b = a then f (x.station a) else x.station b := by
  unfold Riser.modifyStation Riser.station station?
  rw [dif_pos h]
  dsimp only
  by_cases e : b = a
  · subst e; simp [h]
  · rw [if_neg e]
    by_cases hb : 1 ≤ b ∧ b ≤ 62
    · simp only [dif_pos hb]
      refine Table.read_write_ne _ _ fun g => e ?_
      have := congrArg Fin.val g
      simp only at this
      omega
    · simp only [dif_neg hb]

theorem mem_stations (f : Flat) (a : Nat) : f.hasStation a = true ↔ a ∈ f.stations := by
  simp [Flat.hasStation, Flat.stations, List.mem_range'_1]

theorem emit_withRisers (s : State) (rs : Table 6 Riser) (e : Event) :
    ({ s with risers := rs } : State).emit e = { s.emit e with risers := rs } := by
  show (match s.routeOf e.kind with
    | .none => _
    | .host => _
    | .desk => _
    | .both => _) = _
  unfold State.emit
  cases s.routeOf e.kind <;> rfl

theorem emits_withRisers (es : List Event) (s : State) (rs : Table 6 Riser) :
    es.foldl State.emit ({ s with risers := rs } : State) =
      { es.foldl State.emit s with risers := rs } := by
  induction es generalizing s with
  | nil => rfl
  | cons e es ih => simp only [List.foldl_cons, emit_withRisers, ih]

/-- R48, R105, R108: a station's flag takes a level. The flats follow, the PRIVACY_CHANGE events are
raised, and nothing else is changed. -/
theorem setStationPrivacy_taken (s : State) (r : RiserIx) {a : Nat} (h : 1 ≤ a ∧ a ≤ 62) (v : Bool) :
    FlagTaken s (s.setStationPrivacy r a v) r a v ∧
      ∃ d rs, s.setStationPrivacy r a v =
        { (s.flagEvents r a v).foldl State.emit s with dir := d, risers := rs } := by
  unfold State.setStationPrivacy
  by_cases same : ((s.riser r).station a).privacy = v
  · rw [if_pos same, State.flagEvents, if_pos same]
    exact ⟨⟨same, fun _ _ => rfl, fun i => by simp [same], ⟨rfl, rfl⟩, fun _ => rfl⟩, s.dir, s.risers,
      rfl⟩
  · rw [if_neg same]
    have all := recompute_all ((List.finRange 256).filter fun i =>
      decide ((s.flat i).riser = r) && (s.flat i).hasStation a) ((List.nodup_finRange 256).filter _)
      (s.modifyRiser r fun x => x.modifyStation a fun t => { t with privacy := v })
    have agg : ∀ i, (s.flat i).riser = r →
        (s.modifyRiser r fun x => x.modifyStation a fun t => { t with privacy := v }).aggregate
          (s.flat i) = (s.flat i).privacyWith (s.riser r) a v := fun i e => by
      unfold State.aggregate Flat.privacyWith
      rw [State.riser_modifyRiser, if_pos e.symm]
      congr 2
      funext b
      rw [station_modifyStation _ h]
      by_cases g : b = a <;> simp [g]
    have riser : ∀ x, (State.stationFlagChanged _ r a).riser x = _ := fun x =>
      (State.riser_congr all.risers x).trans (State.riser_modifyRiser s r x _)
    refine ⟨⟨?_, fun b hb => ?_, fun i => ?_, all.windows, fun e => absurd e same⟩, ?_⟩
    · rw [riser, if_pos rfl, station_modifyStation _ h, if_pos rfl]
    · rw [riser, if_pos rfl, station_modifyStation _ h, if_neg hb]
    · refine (all.flats i).trans ?_
      simp only [List.mem_filter, List.mem_finRange, true_and, Bool.and_eq_true, decide_eq_true_eq,
        mem_stations, same, ne_eq, not_false_eq_true]
      split
      · next g =>
        rw [← agg i g.1]
        rfl
      · rfl
    · obtain ⟨d, e⟩ := all.events
      refine ⟨d, (s.modifyRiser r fun x => x.modifyStation a fun t =>
        { t with privacy := v }).risers, e.trans ?_⟩
      rw [show List.filterMap _ _ = s.flagEvents r a v from ?_]
      · exact congrArg (fun t : State => { t with dir := d }) (emits_withRisers _ s _)
      · rw [State.flagEvents, if_neg same, List.filterMap_filter]
        refine List.filterMap_congr fun i _ => ?_
        simp only [Bool.and_eq_true, decide_eq_true_eq, mem_stations]
        by_cases g : (s.flat i).riser = r ∧ a ∈ (s.flat i).stations
        · have flat : (s.modifyRiser r fun x => x.modifyStation a fun t =>
            { t with privacy := v }).flat i = s.flat i := rfl
          rw [if_pos g, State.flatTurn, flat, agg i g.1]
          simp only [g.1, g.2, true_and]
          by_cases k : (s.flat i).privacyWith (s.riser r) a v = (s.flat i).privacy
          · simp [k]
          · simp [k, Ne.symm k]
        · rw [if_neg g, if_neg fun k => g ⟨k.1, k.2.1⟩]

/-- R74: what the test for QUIET makes of an ACTIVE riser. -/
theorem goQuiet_quietIf (s : State) (r : RiserIx) (h : (s.riser r).link = .active) :
    (s.riser r).QuietIf ((s.goQuiet r).riser r)
      ((s.riser r).queue = [] ∧ (s.riser r).outstanding = [] ∧ s.riserInUse r = false) := by
  unfold State.goQuiet
  refine ⟨fun g => ?_, fun g => ?_⟩
  · rw [if_pos ⟨h, g⟩]
    simp
  · rw [if_neg fun k => g k.2]
    exact ⟨h, rfl, rfl, rfl⟩

end Sys2Proof.Machine
end

