-- ==== Sys2Proof/Laws/Settle.lean ====
section
/-!
SUPPORT. Once for all: what the end of an event does when free lines are looked at (Machine/Settle.lean).
Nothing but frames on their way out, the sending reports of offers, completed markers and a riser
that goes QUIET.
-/

namespace Sys2Proof.Machine

/-! ## Records -/

theorem Offer.MayBeSent.trans {a b c : Offer} (h : a.MayBeSent b) (g : b.MayBeSent c) :
    a.MayBeSent c := by
  rcases h with rfl | ⟨hq, t, rfl⟩
  · exact g
  · rcases g with rfl | ⟨gq, _⟩
    · exact .inr ⟨hq, t, rfl⟩
    · cases gq

theorem Call.SameButSending.refl (c : Call) : c.SameButSending c :=
  ⟨rfl, List.forall₂_same.mpr fun _ _ => .inl rfl⟩

theorem Call.SameButSending.trans {a b c : Call} (h : a.SameButSending b)
    (g : b.SameButSending c) : a.SameButSending c := by
  refine ⟨by rw [g.1, h.1], ?_⟩
  have hl := h.2
  have gl := g.2
  generalize a.offers = x at hl
  generalize b.offers = y at hl gl
  generalize c.offers = z at gl
  induction hl generalizing z with
  | nil => exact gl
  | cons h1 _ ih =>
    cases gl with
    | cons g1 gl => exact .cons (h1.trans g1) (ih _ gl)

theorem Slot.SameButSending.refl (x : Slot) : x.SameButSending x := by
  refine ⟨rfl, rfl, ?_⟩
  cases x.call with
  | none => trivial
  | some c => exact .refl c

theorem Slot.SameButSending.trans {x y z : Slot} (h : x.SameButSending y) (g : y.SameButSending z) :
    x.SameButSending z := by
  obtain ⟨h1, h2, h3⟩ := h
  obtain ⟨g1, g2, g3⟩ := g
  refine ⟨g1.trans h1, g2.trans h2, ?_⟩
  cases hx : x.call <;> cases hy : y.call <;> cases hz : z.call <;> simp_all
  exact Call.SameButSending.trans h3 g3

theorem Riser.SameLine.refl (x : Riser) : x.SameLine x := ⟨rfl, rfl, rfl, rfl⟩

theorem Riser.SameOrQuiet.refl (x : Riser) : x.SameOrQuiet x := .inl ⟨rfl, rfl, rfl, rfl⟩

theorem RiserSettled.refl (x : Riser) : RiserSettled x x :=
  ⟨⟨rfl, rfl, rfl, rfl, rfl, rfl, rfl⟩, rfl, rfl, rfl, rfl, .inl (.refl x), .refl x⟩

theorem PortSettled.refl (p : Port) : PortSettled p p :=
  ⟨⟨rfl, rfl, rfl, rfl⟩, rfl, rfl, fun _ h => h, fun _ h => h⟩

theorem Settled.refl (s : State) : Settled s s :=
  ⟨rfl, rfl, rfl, rfl, rfl, rfl, rfl, rfl, rfl, rfl, rfl, rfl, rfl, rfl, List.prefix_refl _, rfl,
    fun _ => .refl _, fun _ => .refl _, fun _ => .refl _⟩

/-- R78: whatever a free line is given, it is not free after it. -/
theorem RiserServed.busy {x y : Riser} (h : RiserServed x y) : y.tx ≠ none := by
  rcases h.sent with ⟨_, _, _, h, _⟩ | ⟨_, _, _, _, h, _⟩ | ⟨_, _, _, _, _, h, _⟩ <;> simp [h]

/-- A request that is outstanding stays so when free lines are looked at. -/
theorem RiserSettled.outstanding {x y : Riser} (h : RiserSettled x y) :
    x.outstanding <+: y.outstanding := by
  rcases h.line with h | h
  · rw [h.2.1]
  · rcases h.sent with ⟨_, _, _, _, _, h, _⟩ | ⟨_, _, _, _, _, h, _⟩ | ⟨_, _, _, _, _, _, _, _, h⟩ <;>
      rw [h]
    exact List.prefix_append _ _

/-- A line that is not free, or not the line of an ACTIVE riser, is given nothing. -/
theorem RiserSettled.sameLine {x y : Riser} (h : RiserSettled x y)
    (hx : x.link ≠ .active ∨ x.tx ≠ none ∨ x.receiving ≠ none) : x.SameLine y := by
  rcases h.line with h | h
  · exact h
  · rcases hx with hx | hx | hx
    · exact absurd h.active hx
    · exact absurd h.free.1 hx
    · exact absurd h.free.2 hx

theorem RiserServed.of_sameLine {x y z : Riser} (h : RiserSettled x y) (e : x.SameLine y)
    (g : RiserServed y z) : RiserServed x z := by
  obtain ⟨e1, e2, e3, e4⟩ := e
  obtain ⟨ga, ⟨gt, gr⟩, gs⟩ := g
  refine ⟨?_, ⟨e1 ▸ gt, h.receiving ▸ gr⟩, ?_⟩
  · rcases h.link with h | h
    · exact h.1 ▸ ga
    · exact h.1
  · rw [e2, e3, e4] at gs
    have ef : y.frameOf = x.frameOf := by
      funext tag
      unfold Riser.frameOf
      rw [e2]
    have en : y.nextFrame = x.nextFrame := by
      unfold Riser.nextFrame
      rw [h.frames, e2]
    rw [ef, en] at gs
    exact gs

theorem RiserServed.and_sameLine {x y z : Riser} (h : RiserServed x y) (e : y.SameLine z) :
    RiserServed x z := by
  obtain ⟨e1, e2, e3, e4⟩ := e
  refine ⟨h.active, h.free, ?_⟩
  rw [e1, e2, e3, e4]
  exact h.sent

theorem RiserSettled.trans {x y z : Riser} (h : RiserSettled x y) (g : RiserSettled y z) :
    RiserSettled x z := by
  have hl : x.SameLine z ∨ RiserServed x z := by
    rcases h.line with hs | hs <;> rcases g.line with gs | gs
    · exact .inl ⟨gs.1.trans hs.1, gs.2.1.trans hs.2.1, gs.2.2.1.trans hs.2.2.1,
        gs.2.2.2.trans hs.2.2.2⟩
    · exact .inr (.of_sameLine h hs gs)
    · exact .inr (hs.and_sameLine gs)
    · exact absurd gs.free.1 hs.busy
  have hq : x.SameOrQuiet z := by
    rcases h.link with hs | hs <;> rcases g.link with gs | gs
    · exact .inl ⟨gs.1.trans hs.1, gs.2.1.trans hs.2.1, gs.2.2.1.trans hs.2.2.1,
        gs.2.2.2.trans hs.2.2.2⟩
    · obtain ⟨g1, g2, g3, g4, g5, g6⟩ := gs
      refine .inr ⟨hs.1 ▸ g1, hs.2.2.2 ▸ g2, h.settings.2.2.1 ▸ g3, h.frames ▸ g4, ?_, g6⟩
      have ho := h.outstanding
      rw [g5] at ho
      exact List.prefix_nil.mp ho
    · obtain ⟨h1, h2, h3, h4, h5, h6, h7⟩ := hs
      obtain ⟨g1, g2, g3, g4⟩ := gs
      exact .inr ⟨h1, h2, h3, h4, h5, g1.trans h6, g2.trans h7.1, g3.trans h7.2.1,
        g4.trans h7.2.2⟩
    · have e := hs.2.2.2.2.2.1.symm.trans gs.1
      cases e
  obtain ⟨⟨a1, a2, a3, a4, a5, a6, a7⟩, h2, h3, h4, h5, _, _⟩ := h
  obtain ⟨⟨b1, b2, b3, b4, b5, b6, b7⟩, g2, g3, g4, g5, _, _⟩ := g
  exact ⟨⟨b1.trans a1, b2.trans a2, b3.trans a3, b4.trans a4, b5.trans a5, b6.trans a6,
    b7.trans a7⟩, g2.trans h2, g3.trans h3, g4.trans h4, g5.trans h5, hl, hq⟩

theorem PortSettled.trans {p q r : Port} (h : PortSettled p q) (g : PortSettled q r) :
    PortSettled p r := by
  obtain ⟨⟨a1, a2, a3, a4⟩, h2, h3, h4, h5⟩ := h
  obtain ⟨⟨b1, b2, b3, b4⟩, g2, g3, g4, g5⟩ := g
  exact ⟨⟨b1.trans a1, b2.trans a2, b3.trans a3, b4.trans a4⟩, g2.trans h2, g3.trans h3,
    fun d k => g4 d (h4 d k), fun l k => g5 l (h5 l k)⟩

theorem Settled.trans {s t u : State} (h : Settled s t) (g : Settled t u) : Settled s u where
  pending := g.pending.trans h.pending
  clock := g.clock.trans h.clock
  resetHeld := g.resetHeld.trans h.resetHeld
  dir := g.dir.trans h.dir
  psw := g.psw.trans h.psw
  locks := g.locks.trans h.locks
  times := g.times.trans h.times
  intercept := g.intercept.trans h.intercept
  routes := g.routes.trans h.routes
  lost := g.lost.trans h.lost
  rx := g.rx.trans h.rx
  rxDeadline := g.rxDeadline.trans h.rxDeadline
  buffer := g.buffer.trans h.buffer
  startDue := g.startDue.trans h.startDue
  replies := h.replies.trans g.replies
  notices := g.notices.trans h.notices
  slots i := (h.slots i).trans (g.slots i)
  ports p := (h.ports p).trans (g.ports p)
  risers r := (h.risers r).trans (g.risers r)

/-! ## One riser -/

/-- A change of one riser record alone. -/
theorem modifyRiser_settled (s : State) (r : RiserIx) (f : Riser → Riser)
    (h : RiserSettled (s.riser r) (f (s.riser r))) : Settled s (s.modifyRiser r f) := by
  refine ⟨rfl, rfl, rfl, rfl, rfl, rfl, rfl, rfl, rfl, rfl, rfl, rfl, rfl, rfl,
    List.prefix_refl _, rfl, fun _ => .refl _, fun _ => .refl _, fun x => ?_⟩
  rw [State.riser_modifyRiser]
  split
  · next e => subst e; exact h
  · exact .refl _

theorem markSending_entries (p : QueueEntry → Bool) (q : List QueueItem) {e : QueueEntry}
    {q' : List QueueItem} (h : markSending p q = some (e, q')) :
    q'.map (fun i => i.entry) = q.map fun i => i.entry := by
  induction q generalizing e q' with
  | nil => simp [markSending] at h
  | cons i q ih =>
    unfold markSending at h
    split at h
    · simp only [Option.some.injEq, Prod.mk.injEq] at h
      rw [← h.2]; rfl
    · split at h
      · cases h
      · next e1 q1 heq =>
        simp only [Option.some.injEq, Prod.mk.injEq] at h
        obtain ⟨rfl, rfl⟩ := h
        rw [List.map_cons, List.map_cons, ih heq]

/-- R79: the entry the rule chooses satisfies what it was chosen by. -/
theorem markSending_sat (p : QueueEntry → Bool) (q : List QueueItem) {e : QueueEntry}
    {q' : List QueueItem} (h : markSending p q = some (e, q')) : p e = true := by
  induction q generalizing e q' with
  | nil => simp [markSending] at h
  | cons i q ih =>
    unfold markSending at h
    split at h
    · next hp =>
      simp only [Option.some.injEq, Prod.mk.injEq] at h
      rw [← h.1]; exact hp
    · split at h
      · cases h
      · next e1 q1 heq =>
        simp only [Option.some.injEq, Prod.mk.injEq] at h
        obtain ⟨rfl, rfl⟩ := h
        exact ih heq

/-- R79: it is the first that satisfies it. -/
theorem markSending_first (p : QueueEntry → Bool) (q : List QueueItem) {e : QueueEntry}
    {q' : List QueueItem} (h : markSending p q = some (e, q')) :
    ∃ i, q.find? (fun i => p i.entry) = some i ∧ i.entry = e := by
  induction q generalizing e q' with
  | nil => simp [markSending] at h
  | cons i q ih =>
    unfold markSending at h
    split at h
    · next hp =>
      simp only [Option.some.injEq, Prod.mk.injEq] at h
      exact ⟨i, List.find?_cons_of_pos hp, h.1⟩
    · next hp =>
      split at h
      · cases h
      · next e1 q1 heq =>
        simp only [Option.some.injEq, Prod.mk.injEq] at h
        obtain ⟨rfl, rfl⟩ := h
        obtain ⟨j, hj, he⟩ := ih heq
        exact ⟨j, by rw [List.find?_cons_of_neg (by exact hp)]; exact hj, he⟩

/-- The first frame of a riser's queue with a property, markers passed over. -/
theorem Riser.frames_find (x : Riser) (p : QueueEntry → Bool)
    (hp : ∀ e, p e = true → e.isFrame = true) :
    x.frames.find? p = (x.queue.find? fun i => p i.entry).map fun i => i.entry := by
  unfold Riser.frames
  rw [List.find?_filter, List.find?_map]
  congr 2
  funext i
  cases h : p i.entry <;> simp [h, hp]

theorem Riser.frames_head (x : Riser) :
    x.frames.head? = (x.queue.find? fun i => i.entry.isFrame).map fun i => i.entry := by
  rw [← Riser.frames_find x _ fun _ h => h, Riser.frames, List.find?_filter, List.head?_filter]
  simp

/-- R79: what the sending rule chooses is the next frame. -/
theorem sendingRule_chooses (x : Riser) {e : QueueEntry} {q' : List QueueItem}
    (h : sendingRule (decide (x.outstanding.length < Config.outstandingRoom)) x.queue =
      some (e, q')) : x.nextFrame = some e ∧ (e.isSolicited = true → x.outstanding.length < 4) := by
  unfold sendingRule at h
  split at h
  · cases h
  · next i hi =>
    have head : x.frames.head? = some i.entry := by rw [x.frames_head, hi]; rfl
    unfold Riser.nextFrame
    split at h
    · next hs =>
      obtain ⟨j, hj, rfl⟩ := markSending_first _ _ h
      have sat := markSending_sat _ _ h
      have adv : x.frames.find? QueueEntry.isAdvisory = some j.entry := by
        rw [x.frames_find _ fun e he => by cases e <;> simp_all [QueueEntry.isAdvisory,
          QueueEntry.isFrame], hj]
        rfl
      simp only [Bool.and_eq_true, Bool.not_eq_true', decide_eq_false_iff_not] at hs
      cases hie : i.entry <;> simp_all [QueueEntry.isSolicited, Config.outstandingRoom]
      cases hje : j.entry <;> simp_all [QueueEntry.isAdvisory]
    · next hs =>
      obtain ⟨j, hj, rfl⟩ := markSending_first _ _ h
      cases hi.symm.trans hj
      rw [head]
      cases hie : i.entry with
      | solicited f =>
        have room : x.outstanding.length < 4 := by
          have h : decide (x.outstanding.length < Config.outstandingRoom) = true := by
            simpa [hie, QueueEntry.isSolicited] using hs
          exact of_decide_eq_true h
        simp [room]
      | _ => simp [QueueEntry.isSolicited]

theorem sendingRule_entries (m : Bool) (q : List QueueItem) {e : QueueEntry} {q' : List QueueItem}
    (h : sendingRule m q = some (e, q')) :
    q'.map (fun i => i.entry) = q.map fun i => i.entry := by
  unfold sendingRule at h
  split at h
  · cases h
  · split at h <;> exact markSending_entries _ _ h

theorem drainMarkers_frames (q : List QueueItem) :
    ((drainMarkers q).2.map fun i => i.entry).filter QueueEntry.isFrame =
      (q.map fun i => i.entry).filter QueueEntry.isFrame := by
  induction q with
  | nil => rfl
  | cons i q ih =>
    unfold drainMarkers
    split
    · next n heq => simp [heq, QueueEntry.isFrame, ih]
    · rfl
    · next f heq => simp only [List.map_cons, heq, List.filter_cons, ih]

theorem drainMarkers_sublist (q : List QueueItem) : ((drainMarkers q).2).Sublist q := by
  induction q with
  | nil => exact .slnil
  | cons i q ih =>
    unfold drainMarkers
    split
    · exact .cons _ ih
    · exact List.Sublist.refl _
    · exact .cons_cons _ ih

theorem syncDone_settled (s : State) (r : RiserIx) (n : Nat) (o : MarkerOutcome) :
    Settled s (s.syncDone r n o) := by
  unfold State.syncDone
  dsimp only
  split
  · refine ⟨rfl, rfl, rfl, rfl, rfl, rfl, rfl, rfl, rfl, rfl, rfl, rfl, rfl, rfl, ?_, rfl,
      fun _ => .refl _, fun _ => .refl _, fun _ => .refl _⟩
    simp only [Hlp.replyLine, List.map_append]
    exact ⟨_, List.append_assoc _ _ _⟩
  · exact .refl s

theorem completeMarkers_settled (s : State) (r : RiserIx) : Settled s (s.completeMarkers r) := by
  have hf : ∀ (l : List Nat) (t : State), Settled t (l.foldl (fun s n => s.syncDone r n .drained) t)
      := by
    intro l
    induction l with
    | nil => intro t; exact .refl t
    | cons n l ih => intro t; exact (syncDone_settled t r n _).trans (ih _)
  unfold State.completeMarkers
  refine Settled.trans (modifyRiser_settled s r _ ?_) (hf _ _)
  exact ⟨⟨rfl, rfl, rfl, rfl, rfl, rfl, rfl⟩, rfl, rfl, rfl, drainMarkers_frames _,
    .inl ⟨rfl, rfl, rfl, rfl⟩, .inl ⟨rfl, rfl, rfl, rfl⟩⟩

theorem modifyCall_settled (s : State) (c : Ref) (f : Call → Call)
    (h : ∀ x : Call, x.SameButSending (f x)) : Settled s (s.modifyCall c f) := by
  unfold State.modifyCall
  split
  · next d hd =>
    refine ⟨rfl, rfl, rfl, rfl, rfl, rfl, rfl, rfl, rfl, rfl, rfl, rfl, rfl, rfl,
      List.prefix_refl _, rfl, fun i => ?_, fun _ => .refl _, fun _ => .refl _⟩
    rw [State.slot_setCall]
    split
    · next e =>
      subst e
      obtain ⟨_, h2⟩ := (State.call?_eq_some s c d).mp hd
      refine ⟨rfl, rfl, ?_⟩
      rw [h2]
      exact h d
    · exact .refl _
  · exact .refl s

theorem sendingReport_settled (s : State) (c : Ref) (a tag : Nat) :
    Settled s (s.sendingReport c a tag) := by
  refine modifyCall_settled s c _ fun x => ⟨rfl, ?_⟩
  rw [List.forall₂_map_right_iff]
  refine List.forall₂_same.mpr fun o _ => ?_
  split
  · next h => exact .inr ⟨h.2, tag, rfl⟩
  · exact .inl rfl

theorem startTransmission_settled (s : State) (r : RiserIx) :
    Settled s (s.startTransmission r) := by
  unfold State.startTransmission
  dsimp only
  split
  · next hfree =>
    split
    · next tag rest hres =>
      split
      · next f hf =>
        exact modifyRiser_settled s r _ ⟨⟨rfl, rfl, rfl, rfl, rfl, rfl, rfl⟩, rfl, rfl, rfl, rfl,
          .inr ⟨hfree.1, hfree.2, .inl ⟨tag, f, hres, rfl, hf, rfl, rfl⟩⟩, .inl ⟨rfl, rfl, rfl, rfl⟩⟩
      · exact .refl s
    · next hres =>
      split
      · next f q heq =>
        refine modifyRiser_settled s r _ ⟨⟨rfl, rfl, rfl, rfl, rfl, rfl, rfl⟩, rfl, rfl, rfl, ?_,
          .inr ⟨hfree.1, hfree.2, .inr (.inl ⟨f, hres, hres, (sendingRule_chooses _ heq).1, rfl,
            rfl, rfl⟩)⟩, .inl ⟨rfl, rfl, rfl, rfl⟩⟩
        simp only [Riser.frames, sendingRule_entries _ _ heq]
      · next f q heq =>
        split
        · next tag rest htag =>
          have hc := sendingRule_chooses _ heq
          have h1 : Settled s (s.modifyRiser r fun x =>
              { x with
                queue := q
                freeTags := rest
                outstanding := x.outstanding ++
                  [{ tag := tag, frame := f, attempt := 1, cancelPending := false, timer := none }]
                tx := some (.entry (.solicited tag f)) }) := by
            refine modifyRiser_settled s r _ ⟨⟨rfl, rfl, rfl, rfl, rfl, rfl, rfl⟩, rfl, rfl, rfl, ?_,
              .inr ⟨hfree.1, hfree.2, .inr (.inr ⟨tag, f, hres, hres, hc.1, rfl, htag, ?_, rfl⟩)⟩,
              .inl ⟨rfl, rfl, rfl, rfl⟩⟩
            · simp only [Riser.frames, sendingRule_entries _ _ heq]
            · exact hc.2 rfl
          unfold State.startSolicited
          dsimp only
          split
          · exact h1.trans (sendingReport_settled ..)
          · exact h1
        · exact .refl s
      · exact .refl s
  · exact .refl s

theorem goQuiet_settled (s : State) (r : RiserIx) : Settled s (s.goQuiet r) := by
  unfold State.goQuiet
  dsimp only
  split
  · next h =>
    obtain ⟨h1, h2, h3, h4, h5, _⟩ := h
    exact modifyRiser_settled s r _ ⟨⟨rfl, rfl, rfl, rfl, rfl, rfl, rfl⟩, rfl, rfl, rfl, rfl,
      .inl ⟨rfl, rfl, rfl, rfl⟩,
      .inr ⟨h1, h2, h3, by rw [Riser.frames, h4]; rfl, h5, rfl, rfl, rfl, rfl⟩⟩
  · exact .refl s

theorem settleRiser_settled (s : State) (r : RiserIx) : Settled s (s.settleRiser r) :=
  ((completeMarkers_settled s r).trans (startTransmission_settled _ r)).trans (goQuiet_settled _ r)

theorem settleRisers_settled (s : State) : Settled s s.settleRisers := by
  have hf : ∀ (l : List RiserIx) (t : State), Settled t (l.foldl State.settleRiser t) := by
    intro l
    induction l with
    | nil => intro t; exact .refl t
    | cons n l ih => intro t; exact (settleRiser_settled t n).trans (ih _)
  exact hf _ s

/-! ## Panels and the host link -/

theorem Port.startTransmission_settled (p : Port) : PortSettled p (Port.startTransmission p) := by
  unfold Port.startTransmission
  split
  · next h =>
    obtain ⟨htx, _, _⟩ := h
    split
    · next l _ _ hl =>
      refine ⟨⟨rfl, rfl, rfl, rfl⟩, rfl, rfl, fun d hd => ⟨hd.1, ?_⟩, fun k hk => ?_⟩
      · rcases hd.2 with h2 | h2
        · exact .inl h2
        · rw [htx] at h2; cases h2
      · rcases hk with h2 | h2
        · rw [hl] at h2; cases h2; exact .inr rfl
        · rw [htx] at h2; cases h2
    · next d _ hr hd =>
      refine ⟨⟨rfl, rfl, rfl, rfl⟩, rfl, rfl, fun e he => ⟨he.1, ?_⟩, fun k hk => ?_⟩
      · rcases he.2 with h2 | h2
        · rw [hd] at h2; cases h2; exact .inr rfl
        · rw [htx] at h2; cases h2
      · rcases hk with h2 | h2
        · rw [hr] at h2; cases h2
        · rw [htx] at h2; cases h2
    · next e hr hd _ =>
      refine ⟨⟨rfl, rfl, rfl, rfl⟩, rfl, rfl, fun d he => ⟨he.1, ?_⟩, fun k hk => ?_⟩
      · rcases he.2 with h2 | h2
        · rw [hd] at h2; cases h2
        · rw [htx] at h2; cases h2
      · rcases hk with h2 | h2
        · rw [hr] at h2; cases h2
        · rw [htx] at h2; cases h2
    · exact .refl p
  · exact .refl p

theorem settlePanels_settled (s : State) : Settled s s.settlePanels := by
  refine ⟨rfl, rfl, rfl, rfl, rfl, rfl, rfl, rfl, rfl, rfl, rfl, rfl, rfl, rfl,
    List.prefix_refl _, rfl, fun _ => .refl _, fun p => ?_, fun _ => .refl _⟩
  simp only [State.settlePanels, State.port, Table.read_mapEach]
  exact Port.startTransmission_settled _

/-- R173: the host transmitter moves a frame onto the line; what is on its way out stays in order. -/
structure HostMoved (s t : State) : Prop where
  same    : t = { s with hlp := t.hlp, ntu := t.ntu }
  routes  : t.ntu.routes = s.ntu.routes
  lost    : t.ntu.lost = s.ntu.lost
  replies : t.hlp.replyLine = s.hlp.replyLine
  notices : t.noticeLine = s.noticeLine
  hlp     : t.hlp = { s.hlp with ready := t.hlp.ready, tx := t.hlp.tx }

theorem settleHost_moved (s : State) : HostMoved s s.settleHost := by
  unfold State.settleHost
  split
  · next h =>
    have htx := h.2
    split
    · next x rest hr =>
      exact ⟨rfl, rfl, rfl, by simp [Hlp.replyLine, htx, hr], by simp [State.noticeLine, htx], rfl⟩
    · next n rest hr hn =>
      exact ⟨rfl, rfl, rfl, by simp [Hlp.replyLine, htx], by simp [State.noticeLine, htx, hn], rfl⟩
    · exact ⟨rfl, rfl, rfl, rfl, rfl, rfl⟩
  · exact ⟨rfl, rfl, rfl, rfl, rfl, rfl⟩

theorem settleHost_settled (s : State) : Settled s s.settleHost := by
  have m := settleHost_moved s
  have e := m.same
  refine ⟨?_, ?_, ?_, ?_, ?_, ?_, ?_, ?_, m.routes, m.lost, ?_, ?_, ?_, ?_, ?_, m.notices, ?_, ?_,
    ?_⟩
  case refine_9 => rw [m.hlp]
  case refine_10 => rw [m.hlp]
  case refine_11 => rw [m.hlp]
  case refine_12 => rw [m.hlp]
  case refine_13 => rw [m.replies]
  case refine_14 => 
    intro i
    rw [State.slot_congr (t := s.settleHost) (s := s) (congrArg State.ccu e :)]
    exact .refl _
  case refine_15 => 
    intro i
    rw [State.port_congr (t := s.settleHost) (s := s) (congrArg State.ports e :)]
    exact .refl _
  case refine_16 => 
    intro i
    rw [State.riser_congr (t := s.settleHost) (s := s) (congrArg State.risers e :)]
    exact .refl _
  case refine_1 => exact (congrArg State.pending e :)
  case refine_2 => exact (congrArg State.clock e :)
  case refine_3 => exact (congrArg State.resetHeld e :)
  case refine_4 => exact (congrArg State.dir e :)
  case refine_5 => exact (congrArg State.psw e :)
  case refine_6 => exact (congrArg State.locks e :)
  case refine_7 => exact (congrArg (fun x => x.ccu.times) e :)
  case refine_8 => exact (congrArg (fun x => x.ccu.intercept) e :)

theorem settleLinks_settled (s : State) : Settled s s.settleLinks :=
  (settlePanels_settled s).trans (settleHost_settled _)

theorem settle_settled (s : State) : Settled s s.settle :=
  (settleRisers_settled s).trans (settleLinks_settled _)

end Sys2Proof.Machine
end

