-- ==== Sys2Proof/Laws/Requests.lean ====
section
/-!
SUPPORT. The shape of every host request, once: what its command does when it is taken, when it must
wait and when the reset pin is held (R168, R169, R179), and what is left when its owning block has
acted and the reply is made ready (R171, R172).
-/

namespace Sys2Proof.Machine

/-! ## Taken, waiting, held -/

/-- R169: a request is taken only while the host link is not held in reset. -/
theorem State.canTake_resetHeld {s : State} (h : s.canTake = true) : s.resetHeld = false := by
  unfold State.canTake at h
  simp only [Bool.and_eq_true, Bool.not_eq_true'] at h
  exact h.1.1

/-- R169: a request whose conditions hold, with none before it, is taken at once. -/
theorem onRequest_takes {s : State} (h : s.Takes) (c : Instr) (take : State → State) :
    s.onRequest c take = take s := by
  simp [State.onRequest, h.1, h.2]

/-- R179: while the reset pin is held a request does nothing. -/
theorem onRequest_held {s : State} (h : s.resetHeld = true) (c : Instr) (take : State → State) :
    s.onRequest c take = s := by
  have hc : s.canTake = false := by
    cases hc : s.canTake
    · rfl
    · have := State.canTake_resetHeld hc
      simp [h] at this
  simp [State.onRequest, hc, h]

/-- R168: a request that cannot be taken yet joins the buffer, or is discarded with four there. -/
theorem onRequest_waits {s : State} (h : ¬ s.Takes) (hp : s.resetHeld = false) {c : Instr}
    {f : HostFrame} (hf : frameOf c = some f) (take : State → State) :
    s.onRequest c take = { s with hlp := s.hlp.offerFrame f } := by
  unfold State.onRequest
  split
  · next g =>
    simp only [Bool.and_eq_true, List.isEmpty_iff] at g
    exact absurd g h
  · simp [hp, hf]

/-! ## The reply -/

/-- R171, R172: the reply of a request whose act left the host link as it took it, after the free
lines have been looked at. -/
theorem answers_of_settled {s a t : State} (h : s.Takes) {k n : Nat} {st : Status} {b : ReplyBody}
    (ha : a.hlp = s.hlp) (hr : t.hlp.replyLine = (a.reply k n st b).hlp.replyLine)
    (hs : t.hlp.syncs = s.hlp.syncs) (hm : Settled (a.reply k n st b) t) :
    Answers s t { kind := k, num := n, status := st, body := replyBody st b } := by
  have e : (a.reply k n st b).hlp = { a.hlp with ready := a.hlp.ready ++
      [{ reply := { kind := k, num := n, status := st, body := replyBody st b },
         immediate := true }] } := rfl
  refine ⟨?_, ?_, ?_, hs, ?_, ?_⟩
  · rw [hr, e, ha]
    simp [Hlp.replyLine]
  · rw [hm.buffer, e, ha]
    exact h.2
  · rw [hm.startDue, e, ha]
  · rw [hm.rx, e, ha]
  · rw [hm.rxDeadline, e, ha]

/-- The same when the free lines looked at are the panels' and the host's, or the host's alone: no
marker completes. -/
theorem answers_settleHost {s a : State} (h : s.Takes) {k n : Nat} {st : Status} {b : ReplyBody}
    (ha : a.hlp = s.hlp) :
    Answers s (a.reply k n st b).settleHost
      { kind := k, num := n, status := st, body := replyBody st b } := by
  have m := settleHost_moved (a.reply k n st b)
  refine answers_of_settled h ha m.replies ?_ (settleHost_settled _)
  rw [m.hlp]
  show a.hlp.syncs = s.hlp.syncs
  rw [ha]

theorem answers_settleLinks {s a : State} (h : s.Takes) {k n : Nat} {st : Status} {b : ReplyBody}
    (ha : a.hlp = s.hlp) :
    Answers s (a.reply k n st b).settleLinks
      { kind := k, num := n, status := st, body := replyBody st b } := by
  have m := settleHost_moved (a.reply k n st b).settlePanels
  refine answers_of_settled h ha m.replies ?_ (settleLinks_settled _)
  rw [State.settleLinks, m.hlp]
  show a.hlp.syncs = s.hlp.syncs
  rw [ha]

end Sys2Proof.Machine
end

