-- ==== Sys2Proof/Tests/Slice0.lean ====
section
/-!
SUPPORT. Tests of one step each, with the expected values taken from the tables and worked examples
of the spec; the smoke test of `WellFormed`; and, for each statement for the provers that has
hypotheses, a state and operands that meet them (`witness_…`).
-/

namespace Sys2Proof.Tests

open Sys2Proof Sys2Proof.Machine

-- One theorem at a time: side by side, the kernel checks of this file want more threads than a small
-- machine has room for.
set_option Elab.async false

/-! ## Small states -/

/-- The state a command leaves. -/
def after : Host.Outcome State Fault Refusal → State
  | .next t => t
  | _ => State.reset

/-- What the host transmitter sends once the request has been taken from an idle host link. -/
def sent (c : Instr) (s : State) : HostTx := (after (exec c s)).hlp.tx

/-- The windows of the reference building (section 2.3). -/
def lowerFloors : Window :=
  { enabled := true, base := 101, span := 2400, stride := 100, rowSize := 6, firstFlat := 0 }
def penthouses : Window :=
  { enabled := true, base := 3001, span := 4, stride := 1, rowSize := 1, firstFlat := 144 }

/-- A flat of two handsets, 0.11 and 0.12, that diverts and may open door 0. -/
def home : Flat :=
  { inService := true, riser := 0, firstStation := 11, handsetCount := 2, divert := true, doors := 1
    hostPrivacy := false, privacy := false }

/-- A PRESENT panel with its check flag clear. -/
def readyPort (f : PortFunction) : Port := { Port.cold true with function := f, check := false }

/-- An ACTIVE riser on which nothing happens, with survey off. -/
def idleRiser : Riser := { Riser.cold .good with link := .active, idleTimer := some 60000 }

/-- A small site: an entrance at P0, a concierge at P6, riser 0 ACTIVE, flat 5 (code 0106). -/
def site : State :=
  { State.reset with
    ports := ((State.reset.ports.write 0 (readyPort .entrance)).write 6 (readyPort .concierge))
    risers := State.reset.risers.write 0 idleRiser
    dir :=
      { windows := (Dir.cold.windows.write 0 lowerFloors).write 1 penthouses
        flats := Dir.cold.flats.write 5 home
        flatServed := true } }

/-- The call of the tests: slot 1, generation 1. -/
def ref1 : Ref := { slot := 0, gen := 1 }

/-- A visitor from P0 that rings flat 5 on channel 0A: 0.11 rings, 0.12 has not replied. -/
def visitor : Call :=
  { kind := .visitor, origin := 0, code := some 106, flat := some 5, leg := .flat
    state := .ringing, waitingFor := none, deskVisited := false
    channel := some { riser := 0, side := .a }, deskPort := none
    offers := [{ station := 11, status := .ringing, tag := none },
      { station := 12, status := .sent, tag := some 3 }]
    answerer := none, timer := some { kind := .ring, expiry := 30000 } }

/-- The same call answered by 0.11. -/
def talking : Call :=
  { visitor with
    state := .connected, answerer := some 11, timer := some { kind := .talk, expiry := 120000 }
    offers := [{ station := 11, status := .ringing, tag := none }] }

/-- A call of P0 that rings or speaks to the desk set at P6. -/
def atDesk (v : CallState) : Call :=
  { visitor with
    leg := .concierge, state := v, deskVisited := true, channel := none, deskPort := some 6
    offers := [], timer := some { kind := .deskRing, expiry := 20000 } }

/-- The outstanding OFFER of the call to 0.12. -/
def offer12 : Outstanding :=
  { tag := 3, frame := .offer 12 ref1 .visitor 0, attempt := 1, cancelPending := false
    timer := some 250 }

/-- The site with a call in slot 1 that holds what its record names. -/
def held (c : Call) : State :=
  { site with
    ccu := { site.ccu with
      slots := site.ccu.slots.write 0 { generation := 1, lastEnd := none, call := some c } }
    psw := { site.psw with
      holds :=
        match c.deskPort with
        | some p =>
          (site.psw.holds.write p (some { call := ref1, role := .desk })).write c.origin
            (some { call := ref1, role := .origin })
        | none => site.psw.holds.write c.origin (some { call := ref1, role := .origin })
      risers :=
        match c.channel with
        | some ch => site.psw.risers.write ch.riser
            { holderA := some ref1, holderB := none, queue := [] }
        | none => site.psw.risers }
    risers := site.risers.write 0
      { idleRiser with
        outstanding := [offer12]
        freeTags := [0, 1, 2, 4, 5, 6, 7, 8, 9, 10, 11, 12, 13, 14, 15] } }

/-- A call that waits for a channel, and one that waits for a desk. -/
def channelWaiter : Call :=
  { visitor with
    state := .waiting, waitingFor := some .channel, channel := none, offers := []
    timer := some { kind := .pathWait, expiry := 15000 } }
def deskWaiter : Call := { channelWaiter with leg := .concierge, waitingFor := some .desk }

/-- Two more calls, in slots 2 and 3. -/
def ref2 : Ref := { slot := 1, gen := 1 }
def ref3 : Ref := { slot := 2, gen := 1 }

/-- A visitor from P1 that rings flat 6 on channel 0B, and one from P2 that waits for flat 7. -/
def second : Call :=
  { visitor with
    origin := 1, code := some 201, flat := some 6, channel := some { riser := 0, side := .b }
    offers := [{ station := 21, status := .ringing, tag := none }] }
def third : Call := { channelWaiter with origin := 2, code := some 202, flat := some 7 }

/-- Riser 0 with both channels held and a third call waiting for one. -/
def crowd : State :=
  { held visitor with
    ccu := { site.ccu with
      slots :=
        (((held visitor).ccu.slots.write 1 { generation := 1, lastEnd := none, call := some second }
          ).write 2 { generation := 1, lastEnd := none, call := some third }) }
    dir := { site.dir with
      flats :=
        (site.dir.flats.write 6 { home with firstStation := 21 }).write 7
          { home with firstStation := 31 } }
    ports := (site.ports.write 1 (readyPort .entrance)).write 2 (readyPort .entrance)
    psw := { (held visitor).psw with
      holds :=
        ((held visitor).psw.holds.write 1 (some { call := ref2, role := .origin })).write 2
          (some { call := ref3, role := .origin })
      risers := site.psw.risers.write 0
        { holderA := some ref1, holderB := some ref2, queue := [ref3] } } }

/-- The third call waits for a desk, alone. -/
def deskCaller : Call := { deskWaiter with origin := 2 }
def withDeskCaller (s : State) : State :=
  (s.setSlot 2 { generation := 1, lastEnd := none, call := some deskCaller }).setDeskQueue [ref3]

/-- Flat 5 is the one flat of the site in service. -/
theorem site_one_flat : ∀ i, (site.flat i).inService = true → i = 5 := by decide +kernel

/-! ## WellFormed: each check refuses a term -/

theorem test_wellFormed_setPort :
    (Instr.setPort 255 255 255 255 255).wellFormed = true ∧
      [Instr.setPort 256 0 0 0 0, .setPort 0 256 0 0 0, .setPort 0 0 256 0 0, .setPort 0 0 0 256 0,
        .setPort 0 0 0 0 256].all (fun c => !c.wellFormed) = true := by decide

theorem test_wellFormed_setWindow :
    (Instr.setWindow 255 255 255 65535 65535 65535 255 255).wellFormed = true ∧
      [Instr.setWindow 256 0 0 0 0 0 0 0, .setWindow 0 256 0 0 0 0 0 0,
        .setWindow 0 0 256 0 0 0 0 0, .setWindow 0 0 0 65536 0 0 0 0,
        .setWindow 0 0 0 0 65536 0 0 0, .setWindow 0 0 0 0 0 65536 0 0,
        .setWindow 0 0 0 0 0 0 256 0, .setWindow 0 0 0 0 0 0 0 256].all
          (fun c => !c.wellFormed) = true := by decide

theorem test_wellFormed_setFlat :
    (Instr.setFlat 255 255 255 255 255 255 255 255).wellFormed = true ∧
      [Instr.setFlat 256 0 0 0 0 0 0 0, .setFlat 0 256 0 0 0 0 0 0, .setFlat 0 0 256 0 0 0 0 0,
        .setFlat 0 0 0 256 0 0 0 0, .setFlat 0 0 0 0 256 0 0 0, .setFlat 0 0 0 0 0 256 0 0,
        .setFlat 0 0 0 0 0 0 256 0, .setFlat 0 0 0 0 0 0 0 256].all
          (fun c => !c.wellFormed) = true := by decide

theorem test_wellFormed_setTimes_setRiser :
    (Instr.setTimes 255 65535 65535 65535 65535).wellFormed = true ∧
      (Instr.setRiser 255 255 255 255 255 65535 65535).wellFormed = true ∧
      [Instr.setTimes 256 0 0 0 0, .setTimes 0 65536 0 0 0, .setTimes 0 0 65536 0 0,
        .setTimes 0 0 0 65536 0, .setTimes 0 0 0 0 65536, .setRiser 256 0 0 0 0 0 0,
        .setRiser 0 256 0 0 0 0 0, .setRiser 0 0 256 0 0 0 0, .setRiser 0 0 0 256 0 0 0,
        .setRiser 0 0 0 0 256 0 0, .setRiser 0 0 0 0 0 65536 0, .setRiser 0 0 0 0 0 0 65536].all
          (fun c => !c.wellFormed) = true := by decide

theorem test_wellFormed_short_requests :
    [Instr.setRoute 256 0 0, .setRoute 0 256 0, .setRoute 0 0 256, .setMode 256 0, .setMode 0 256,
      .clearCheck 256 0, .clearCheck 0 256, .setPrivacy 256 0 0, .setPrivacy 0 256 0,
      .setPrivacy 0 0 256, .doorHold 256 0 0, .doorHold 0 256 0, .doorHold 0 0 256,
      .doorFree 256 0 0, .doorFree 0 256 0, .doorFree 0 0 256, .endCall 256 0 0, .endCall 0 256 0,
      .endCall 0 0 256, .queryCall 256 0, .queryCall 0 256, .queryWindow 256 0, .queryWindow 0 256,
      .queryFlat 256 0, .queryFlat 0 256, .queryPort 256 0, .queryPort 0 256, .queryLock 256 0,
      .queryLock 0 256, .queryRiser 256 0, .queryRiser 0 256, .queryStation 256 0 0,
      .queryStation 0 256 0, .queryStation 0 0 256, .riserSync 256 0, .riserSync 0 256,
      .restart 256 0, .restart 0 256].all (fun c => !c.wellFormed) = true := by decide

/-- An ILLEGAL request has a kind and a number of one byte, at most 62 bytes of body, and not the
body its kind requires. -/
theorem test_wellFormed_illegalRequest :
    (Instr.illegalRequest 0x16 255 []).wellFormed = true ∧
      [Instr.illegalRequest 256 0 [], .illegalRequest 0x16 256 [],
        .illegalRequest 0x16 0 (List.replicate 63 0), .illegalRequest 0x06 0 [1]].all
          (fun c => !c.wellFormed) = true := by decide

theorem test_wellFormed_panels_and_stations :
    (Instr.panelCall 0 9999).wellFormed = true ∧ (Instr.stationLift 0 62).wellFormed = true ∧
      (Instr.unknownStationFrame 0 1 0x87).wellFormed = true ∧
      (Instr.replyTimeout 0 15).wellFormed = true ∧
      [Instr.panelCall 0 10000, .deskDial 0 10000, .stationReply 0 0 0 0 0,
        .stationReply 0 1 256 0 0, .stationReply 0 1 0 256 0, .stationReply 0 1 0 0 256,
        .stationLift 0 63, .stationHangup 0 0, .stationDoor 0 0, .stationPrivacyOn 0 63,
        .stationPrivacyOff 0 63, .unknownStationFrame 0 0 7, .unknownStationFrame 0 1 256,
        .unknownStationFrame 0 1 0x86, .replyTimeout 0 16, .lineFault 0 .good].all
          (fun c => !c.wellFormed) = true := by decide

/-! ## Worked examples of the spec, one step each -/

/-- The CRC register of R194 (started at FFFFh, most significant bit first) over the nine ASCII digits
1 to 9. The value is the published check value of that CRC; the spec prints no check value. -/
theorem test_crc_check_value :
    crc16 [0x31, 0x32, 0x33, 0x34, 0x35, 0x36, 0x37, 0x38, 0x39] = 0x29B1#16 := by
  decide +kernel

/-- Section 11.2: END CALL number 18h for slot 5, generation 12, and its OK reply. -/
theorem test_endCall_frame :
    (HostFrame.bytes ⟨0x0C, 0x18, [5, 12]⟩).take 6 = [0xA5, 0x04, 0x0C, 0x18, 0x05, 0x0C] ∧
      requestOf ⟨0x0C, 0x18, [5, 12]⟩ = .endCall 24 5 12 ∧
      (Reply.bytes ⟨0x0C, 24, .ok, .ref { slot := 4, gen := 12 }⟩).take 7 =
        [0xA5, 0x05, 0x8C, 0x18, 0x00, 0x05, 0x0C] := by
  decide +kernel

/-- Section 2.2, the table of R35: four requests as given or ADJUSTED, one refused. -/
theorem test_setWindow_adjusts :
    sent (.setWindow 1 2 1 9990 50 10 4 0) site = .reply ⟨0x02, 1, .adjusted, .window
        { enabled := true, base := 9990, span := 10, stride := 10, rowSize := 4, firstFlat := 0 }⟩ ∧
      sent (.setWindow 1 2 1 9000 2000 4 5 0) site = .reply ⟨0x02, 1, .adjusted, .window
        { enabled := true, base := 9000, span := 1000, stride := 4, rowSize := 4
          firstFlat := 0 }⟩ := by
  decide +kernel

theorem test_setWindow_refuses :
    sent (.setWindow 1 2 1 200 100 0 1 0) site = .reply ⟨0x02, 1, .badValue, .none⟩ := by
  decide +kernel

/-- Section 2.3: translation in the reference building, with flat 146 in service. -/
theorem test_translation :
    let d : Dir := { site.dir with flats := site.dir.flats.write 146 home }
    d.translate 106 = .ok 5 ∧ d.translate 3003 = .ok 146 ∧ d.translate 2407 = .error .gap ∧
      d.translate 199 = .error .gap ∧ d.translate 100 = .error .noWindow ∧
      d.translate 2501 = .error .noWindow ∧ d.translate 2202 = .error .vacant := by
  refine ⟨?_, ?_, ?_, ?_, ?_, ?_, ?_⟩ <;> rfl

/-- Section 2.3, the last row: window 1 with first flat 254. -/
theorem test_translation_beyond_table :
    ({ site.dir with
        windows := site.dir.windows.write 1 { penthouses with firstFlat := 254 } } : Dir).translate
      3003 = .error .beyondTable := by
  rfl

/-- R31: 4 s and 700 s are outside their ranges. -/
theorem test_setTimes_clamps :
    sent (.setTimes 9 4 20 15 700) site = .reply ⟨0x04, 9, .adjusted, .times
      { flatRing := 5, deskRing := 20, pathWait := 15, talk := 600 }⟩ := by
  decide +kernel

/-- Section 2.4: a flat that shares station 0.12 with flat 5 conflicts in service, not out of it. -/
theorem test_setFlat_conflict :
    sent (.setFlat 2 6 1 0 12 2 0 0) site = .reply ⟨0x03, 2, .conflict, .none⟩ ∧
      sent (.setFlat 2 6 0 0 12 2 0 0) site = .reply ⟨0x03, 2, .ok, .flat
        { inService := false, riser := 0, firstStation := 12, handsetCount := 2, divert := false
          doors := 0, hostPrivacy := false, privacy := false }⟩ := by
  decide +kernel

/-- Chapter 8, the worked table: while call 1/1 claims lock 0, DOOR HOLD is NOT_FREE; a host claim
with tag 12 makes SET PORT BUSY, DOOR FREE with tag 7 NOT_OWNER, and with tag 12 OK. -/
theorem test_doorHold :
    sent (.doorHold 1 0 12)
        (site.setLock 0 { Lock.cold with
          state := .released, claim := some (.call ref1), timer := some 8000 }) =
      .reply ⟨0x0A, 1, .notFree, .none⟩ ∧
    (after (exec (.doorHold 1 0 12) site)).lock 0 =
      { state := .released, claim := some (.host 12), releaseTime := 5, timer := none } := by
  decide +kernel

/-- A host claim with tag 12 on lock 0. -/
def hostClaim : State :=
  site.setLock 0 { Lock.cold with state := .released, claim := some (.host 12) }

theorem test_doorFree :
    sent (.doorFree 1 0 7) hostClaim = .reply ⟨0x0B, 1, .notOwner, .none⟩ ∧
      (after (exec (.doorFree 1 0 12) hostClaim)).lock 0 =
        { state := .secure, claim := none, releaseTime := 5, timer := none } := by
  decide +kernel

theorem test_setPort_claimed_lock :
    sent (.setPort 1 0 1 0 8) hostClaim = .reply ⟨0x01, 1, .busy, .none⟩ := by
  decide +kernel

/-- Chapter 8: the release timer that expires secures the lock. -/
theorem test_releaseTimerExpiry :
    (after (exec (.releaseTimerExpiry 0) (site.setLock 0 { Lock.cold with
        state := .released, claim := some (.call ref1), timer := some 8000 }))).lock 0 =
      { state := .secure, claim := none, releaseTime := 5, timer := none } := by
  decide +kernel

/-- Section 12.1: CALL is offered at once; its first OFFER takes the tag at the head of the list. -/
theorem test_panelCall_offers :
    ((after (exec (.panelCall 0 106) site)).call? ref1).map (fun c => c.offers) =
        some [{ station := 11, status := .sent, tag := some 0 },
          { station := 12, status := .queued, tag := none }] ∧
      ((after (exec (.panelCall 0 106) site)).paths 0).holderA = some ref1 := by
  decide +kernel

/-- Section 12.1: a LIFT that overtakes its own reply answers; JOIN goes before the CANCEL to the other
handset, whose offer is CANCELLED. -/
theorem test_stationLift_answers :
    let t := after (exec (.stationLift 0 12) (held visitor))
    ((t.call? ref1).map fun c => (c.answerer, c.state, c.offers.map fun o => o.status)) =
        some (some 12, .connected, [.cancelled, .sent]) ∧
      (t.riser 0).queue.map (fun i => i.entry) =
        [.advisory (.join 12 ref1 .a),
          .advisory (.cancel 11 .answeredElsewhere (some ref1))] := by
  decide +kernel

/-- Section 12.1: the answerer's HANGUP frees the slot, the channel and the port; no frame follows. -/
theorem test_stationHangup_ends :
    let t := after (exec (.stationHangup 0 11) (held talking))
    t.slot 0 = { generation := 1, lastEnd := some .clearedAnswererHungUp, call := none } ∧
      (t.paths 0).holderA = none ∧ t.hold 0 = none ∧ (t.riser 0).queue = [] ∧
      (t.port 0).lastDisplay = .ready := by
  decide +kernel

/-- Section 12.1: DOOR from the answerer opens the origin's lock for the call. -/
theorem test_stationDoor_opens :
    let t := after (exec (.stationDoor 0 11) (held talking))
    t.lock 0 = { state := .released, claim := some (.call ref1), releaseTime := 5
                 timer := some 5000 } ∧
      (t.riser 0).queue.map (fun i => i.entry) =
        [.advisory (.doorResult 11 .opened (some ref1))] := by
  decide +kernel

/-- Section 12.3: FORWARD from the desk frees it and offers the flat. -/
theorem test_deskForward :
    let t := after (exec (.deskForward 6) (held (atDesk .connected)))
    t.hold 6 = none ∧ (t.port 6).lastDisplay = .ready ∧
      ((t.call? ref1).map fun c => (c.leg, c.state, c.deskVisited)) =
        some (.flat, .offering, true) := by
  decide +kernel

/-- Section 12.4: the visitor's CANCEL sends CANCEL(CALLER_GONE) to the handset whose offer is SENT
and marks its outstanding request. -/
theorem test_panelCancel_marks_request :
    let t := after (exec (.panelCancel 0) (held visitor))
    (t.riser 0).outstanding = [{ offer12 with cancelPending := true }] ∧
      (t.riser 0).queue.map (fun i => i.entry) =
        [.advisory (.cancel 11 .callerGone (some ref1)),
          .advisory (.cancel 12 .callerGone (some ref1))] := by
  decide +kernel

/-- Section 12.4: the request of a cancelled offer is not resent; at its second expiry it completes and
tag 3 goes to the tail of the list, and the handset keeps its presence. -/
theorem test_replyTimeout_cancelled :
    let s := site.modifyRiser 0 fun x =>
      { x with
        outstanding := [{ offer12 with attempt := 2, cancelPending := true }]
        freeTags := [4, 5] }
    let t := after (exec (.replyTimeout 0 3) s)
    (t.riser 0).outstanding = [] ∧ (t.riser 0).freeTags = [4, 5, 3] ∧
      ((t.riser 0).station 12).presence = .unknown := by
  decide +kernel

/-- Section 2.5: the first handset to report privacy makes the flat private. -/
theorem test_stationPrivacyOn :
    let t := after (exec (.stationPrivacyOn 0 12) site)
    (t.flat 5).privacy = true ∧ (t.flat 5).hostPrivacy = false ∧
      ((t.riser 0).station 12).privacy = true := by
  decide +kernel

/-- R179, R180: after power-up the START notice is the first frame sent. -/
theorem test_powerUp_sends_start :
    (after (exec .powerUp site)).hlp.tx =
      .notice { lostMark := false, content := .start .cold .powerUp } := by
  decide +kernel

/-- R28, section 12.4: at an end the QUEUED OFFERs leave the riser's queue before the CANCELs are added,
so that with 32 entries queued the CANCEL finds the place of the OFFER. -/
theorem test_end_withdraws_first :
    let call := { visitor with offers :=
      [{ station := 11, status := .ringing, tag := none },
        { station := 12, status := .queued, tag := none }] }
    let s := (held call).modifyRiser 0 fun x =>
      { x with
        queue := List.replicate 31 { entry := .advisory (.cancel 1 .noCall none), sending := false } ++
          [{ entry := .solicited (.offer 12 ref1 .visitor 0), sending := false }]
        tx := some (.resend (.solicited 3 (.poll 9))), outstanding := [] }
    let t := after (exec (.panelCancel 0) s)
    (t.riser 0).queue.length = 32 ∧ (t.riser 0).overrunDue = false ∧
      (t.riser 0).queue.getLast?.map (fun i => i.entry) =
        some (.advisory (.cancel 11 .callerGone (some ref1))) := by
  decide +kernel

/-- R168, R169: of five requests that arrive together on an idle host link none is lost. The first is
taken and its reply goes on the line, the reply to the second waits, and three are buffered. -/
theorem test_burst_on_idle_link :
    let f : HostFrame := { kind := 0x0D, num := 1, body := [1] }
    let t := after (exec (.hostFrameReceived ((List.replicate 5 f.bytes).flatten)) site)
    t.hlp.tx ≠ .idle ∧ t.hlp.ready.length = 1 ∧ t.hlp.buffer = [f, f, f] := by
  decide +kernel

/-- R169: when the frame on the host line ends, the waiting reply starts, and the next request is taken
within the same event. -/
theorem test_hostTxEnd_takes_next :
    let f : HostFrame := { kind := 0x0D, num := 1, body := [1] }
    let s := after (exec (.hostFrameReceived ((List.replicate 5 f.bytes).flatten)) site)
    let t := after (exec .hostTxEnd s)
    t.hlp.ready.length = 1 ∧ t.hlp.buffer = [f, f] := by
  decide +kernel

/-- R126, R198: a CONCIERGE frame that comes in two parts is taken at its last byte. -/
theorem test_panel_frame_in_parts :
    let frame := sealFrame [0x02]
    let s := after (exec (.syncByteReceived ⟨.panel 0, frame.take 3⟩) { site with clock := 7 })
    (s.port 0).receiving = some { got := [0x01, 0x02], expiry := 27 } ∧
      after (exec (.syncByteReceived ⟨.panel 0, frame.drop 3⟩) s) =
        after (exec (.panelConcierge 0) { site with clock := 7 }) := by
  decide +kernel

/-- R200: a length byte above 32 makes a station's frame bad at once; a sync byte in its place begins a
frame, and a LIFT follows. -/
theorem test_station_frame_resync :
    after (exec (.syncByteReceived ⟨.riser 0, syncByte :: sealFrame [11, 0x02]⟩) (held visitor)) =
        after (exec (.stationLift 0 11) (held visitor)) ∧
      ((after (exec (.syncByteReceived ⟨.riser 0, [syncByte, 33]⟩) site)).riser 0).receiving =
        none := by
  decide +kernel

/-- R126, R198: a CALL frame with the digits 1704; a code byte above 09h makes it a discarded frame. -/
theorem test_panel_frame_digits :
    panelCommandOf 0 (sealFrame [0x01, 1, 7, 0, 4]).tail = .panelCall 0 1704 ∧
      panelCommandOf 0 (sealFrame [0x01, 1, 7, 0, 10]).tail = .panelFrameDiscard 0 := by
  decide +kernel

/-! ## The hypotheses of the statements can be met -/

/-- The host link takes a request that arrives in this state at once, and this is such a request. -/
def Asks (s : State) (c : Instr) : Prop := s.Takes ∧ c.wellFormed = true ∧ (frameOf c).isSome

theorem asks {s : State} {c : Instr} (h1 : s.canTake = true) (h2 : s.hlp.buffer = [])
    (h3 : c.wellFormed = true) (h4 : (frameOf c).isSome) : Asks s c :=
  ⟨⟨h1, h2⟩, h3, h4⟩

/-- No call waits where the desk wait queue and every channel wait queue are empty. -/
theorem noWaiters_of {s : State} (h1 : s.psw.deskQueue = []) (h2 : ∀ x, (s.paths x).queue = [])
    (r : Ref) (c : Call) : s.NoWaiters r c := by
  constructor
  · simp [h1]
  · intro ch _
    simp [h2]

/-- A claim of the call on lock 0. -/
def opened : State :=
  (held talking).setLock 0
    { Lock.cold with state := .released, claim := some (.call ref1), timer := some 5000 }

theorem witness_StepRunsFrontCommand :
    ({ State.reset with pending := [.resetPin, .powerUp] } : State).pending =
        .resetPin :: [.powerUp] ∧
      State.reset.pending = [] ∧ State.reset.ownCommand? = none ∧
      (held visitor).pending = [] ∧ ({ held visitor with clock := 250 } : State).ownCommand? =
        some (.replyTimeout 0 3) := by
  decide +kernel

/-- The state of a call that rings, with a CANCEL from its panel waiting. -/
def cancelled : State := { held visitor with pending := [.panelCancel 0] }

theorem witness_EveryStepKeepsTags :
    cancelled.EachRiser Riser.TagLaw ∧ ∃ t, step cancelled = .next t := by
  refine ⟨?_, _, rfl⟩
  simp only [State.EachRiser, Riser.TagLaw]
  decide +kernel

theorem witness_EveryStepKeepsRoom :
    cancelled.EachRiser Riser.RoomLaw ∧ cancelled.HostLaw ∧ cancelled.HostLinkLaw ∧
      ∃ t, step cancelled = .next t := by
  refine ⟨?_, ?_, ?_, _, rfl⟩
  · simp only [State.EachRiser, Riser.RoomLaw]
    decide +kernel
  · simp only [State.HostLaw]
    decide +kernel
  · simp only [State.HostLinkLaw]
    decide +kernel

theorem witness_EveryStepKeepsLinkLaw :
    cancelled.EachRiser Riser.LinkLaw ∧ ∃ t, step cancelled = .next t := by
  refine ⟨?_, _, rfl⟩
  simp only [State.EachRiser, Riser.LinkLaw]
  decide +kernel

theorem witness_EveryStepKeepsLockLaw :
    let s := { opened with pending := [.releaseTimerExpiry 0] }
    s.LockLaw ∧ ∃ t, step s = .next t := by
  refine ⟨?_, _, rfl⟩
  intro p
  fin_cases p <;> refine ⟨⟨⟨?_, ?_⟩, ?_⟩, ?_⟩ <;> decide +kernel

theorem witness_EveryStepKeepsFlatPrivacy : cancelled.PrivacyLaw ∧ ∃ t, step cancelled = .next t := by
  refine ⟨?_, _, rfl⟩
  simp only [State.PrivacyLaw]
  decide +kernel

theorem witness_EveryStepKeepsStationsApart :
    cancelled.SharingLaw ∧ ∃ t, step cancelled = .next t := by
  refine ⟨?_, _, rfl⟩
  intro i j a h hi hj
  exact absurd ((site_one_flat i hi).trans (site_one_flat j hj).symm) h

/-- The live calls of the crowd. -/
theorem crowd_slots (k : SlotIx) :
    crowd.slot k =
      if k = 0 then { generation := 1, lastEnd := none, call := some visitor }
      else if k = 1 then { generation := 1, lastEnd := none, call := some second }
      else if k = 2 then { generation := 1, lastEnd := none, call := some third }
      else Slot.cold := by
  revert k
  decide +kernel

theorem crowd_calls {r : Ref} {c : Call} (h : crowd.call? r = some c) :
    (r = ref1 ∧ c = visitor) ∨ (r = ref2 ∧ c = second) ∨ (r = ref3 ∧ c = third) := by
  obtain ⟨k, g⟩ := r
  simp only [State.call?, crowd_slots] at h
  by_cases h0 : k = 0
  · subst h0
    simp only [if_true, Option.ite_none_right_eq_some, Option.some.injEq] at h
    exact Or.inl ⟨by rw [← h.1]; rfl, h.2.symm⟩
  · by_cases h1 : k = 1
    · subst h1
      simp only [h0, if_true, if_false, Option.ite_none_right_eq_some, Option.some.injEq] at h
      exact Or.inr (Or.inl ⟨by rw [← h.1]; rfl, h.2.symm⟩)
    · by_cases h2 : k = 2
      · subst h2
        simp only [h0, h1, if_true, if_false, Option.ite_none_right_eq_some,
          Option.some.injEq] at h
        exact Or.inr (Or.inr ⟨by rw [← h.1]; rfl, h.2.symm⟩)
      · simp [h0, h1, h2, Slot.cold] at h

/-- The holds and the paths of the crowd. -/
theorem crowd_holds (p : PortIx) :
    crowd.hold p =
      if p = 0 then some { call := ref1, role := .origin }
      else if p = 1 then some { call := ref2, role := .origin }
      else if p = 2 then some { call := ref3, role := .origin } else none := by
  revert p
  decide +kernel

theorem crowd_paths (x : RiserIx) :
    crowd.paths x =
      if x = 0 then { holderA := some ref1, holderB := some ref2, queue := [ref3] }
      else RiserPaths.cold := by
  revert x
  decide +kernel

/-- Three calls on one riser agree with the paths. -/
theorem crowd_pathLaw : crowd.PathLaw := by
  have c1 : crowd.call? ref1 = some visitor := rfl
  have c2 : crowd.call? ref2 = some second := rfl
  have c3 : crowd.call? ref3 = some third := rfl
  refine ⟨?_, ⟨?_, ?_⟩, ⟨?_, ?_⟩, ?_, ⟨?_, ?_⟩, ?_⟩
  · intro r c h
    obtain ⟨-, rfl⟩ | ⟨-, rfl⟩ | ⟨-, rfl⟩ := crowd_calls h
    · exact ⟨by decide, by decide, rfl, by decide, rfl, rfl⟩
    · exact ⟨by decide, by decide, rfl, by decide, rfl, rfl⟩
    · exact ⟨by decide, by decide, rfl, rfl, rfl, rfl⟩
  · rintro ⟨x, v⟩ r h
    rw [crowd_paths] at h
    dsimp only at h
    split at h
    case isTrue e =>
      subst e
      cases v <;> cases h
      · exact ⟨_, c1, rfl⟩
      · exact ⟨_, c2, rfl⟩
    case isFalse => cases v <;> cases h
  · intro r c ch h e
    obtain ⟨rfl, rfl⟩ | ⟨rfl, rfl⟩ | ⟨rfl, rfl⟩ := crowd_calls h <;> cases e <;>
      exact ⟨rfl, rfl⟩
  · intro p h e
    rw [crowd_holds] at e
    split at e
    case isTrue => cases e; exact ⟨_, c1, Eq.symm ‹_›⟩
    case isFalse =>
      split at e
      case isTrue => cases e; exact ⟨_, c2, Eq.symm ‹_›⟩
      case isFalse =>
        split at e
        case isTrue => cases e; exact ⟨_, c3, Eq.symm ‹_›⟩
        case isFalse => cases e
  · intro r c h
    obtain ⟨rfl, rfl⟩ | ⟨rfl, rfl⟩ | ⟨rfl, rfl⟩ := crowd_calls h <;>
      exact ⟨rfl, fun p e => by cases e⟩
  · intro x
    rw [crowd_paths]
    split
    case isTrue e =>
      subst e
      refine ⟨by decide, fun r h => ?_⟩
      obtain rfl : r = ref3 := by simpa using h
      exact ⟨_, c3, rfl, rfl, rfl⟩
    case isFalse => exact ⟨List.nodup_nil, fun r h => by cases h⟩
  · exact List.nodup_nil
  · intro r h
    cases h
  · intro r c h w
    obtain ⟨rfl, rfl⟩ | ⟨rfl, rfl⟩ | ⟨rfl, rfl⟩ := crowd_calls h
    · cases w
    · cases w
    · exact Or.inl ⟨rfl, 0, rfl, by decide +kernel⟩

/-- The crowd, with a CANCEL from the panel of the first call waiting. -/
def crowding : State := { crowd with pending := [.panelCancel 0] }

theorem witness_EveryStepKeepsChannelQueueLaw :
    crowding.ChannelQueueLaw ∧ crowding.PathLaw ∧ (crowding.paths 0).queue ≠ [] ∧
      ∃ t, step crowding = .next t := by
  refine ⟨?_, crowd_pathLaw, ?_, _, rfl⟩
  · simp only [State.ChannelQueueLaw]
    decide +kernel
  · decide +kernel

/-- A call that waits for a desk while the one desk is held. -/
def deskBusy : State :=
  { (held (atDesk .connected)).setDeskQueue [{ slot := 2, gen := 1 }] with
    pending := [.deskClear 6] }

theorem witness_EveryStepKeepsDeskQueueLaw :
    deskBusy.DeskQueueLaw ∧ deskBusy.psw.deskQueue ≠ [] ∧ ∃ t, step deskBusy = .next t := by
  refine ⟨?_, ?_, _, rfl⟩
  · simp only [State.DeskQueueLaw]
    decide +kernel
  · decide +kernel

theorem witness_EveryStepKeepsPortSlots : cancelled.SlotLaw ∧ ∃ t, step cancelled = .next t := by
  refine ⟨?_, _, rfl⟩
  simp only [State.SlotLaw, Port.SlotLaw]
  decide +kernel

theorem witness_RequestFrameRoundTrip :
    let c := Instr.setWindow 255 7 1 9999 10000 1000 64 255
    c.wellFormed = true ∧ ∃ f, frameOf c = some f :=
  ⟨by decide, _, rfl⟩

theorem witness_ReceiverTakesWholeFrames :
    let f : HostFrame := { kind := 0x7F, num := 255, body := List.replicate 62 0xA5 }
    f.body.length ≤ 62 ∧
      [0x00#8, 0x00#8] ≠
        crcBytes (byteOf (f.body.length + 2) :: f.kind :: f.num :: f.body) := by
  decide +kernel

/-- The digits 9 and 0Ah, both marks, stations 1, 62, 0 and 63, and the kinds 0, 7 and FFh. -/
theorem witness_PanelAndStationFramesAreRead :
    (9#8).toNat ≤ 9 ∧ ¬ ((9#8).toNat ≤ 9 ∧ (9#8).toNat ≤ 9 ∧ (9#8).toNat ≤ 9 ∧ (10#8).toNat ≤ 9) ∧
      (∃ m : Byte, m = 0x00 ∨ m = 0x80) ∧ (1 ≤ (1#8).toNat ∧ (62#8).toNat ≤ 62) ∧
      (∀ k ∈ [0x00#8, 0x07#8, 0x80#8, 0xFF#8], ¬ (1 ≤ k.toNat % 128 ∧ k.toNat % 128 ≤ 6)) ∧
      (List.replicate 30 0x00#8).length ≤ 30 ∧
      ¬ (1 ≤ (0#8).toNat ∧ (0#8).toNat ≤ 62) ∧ ¬ (1 ≤ (63#8).toNat ∧ (63#8).toNat ≤ 62) := by
  refine ⟨?_, ?_, ⟨0, Or.inl rfl⟩, ?_, ?_, ?_, ?_, ?_⟩ <;> decide

theorem witness_EventsKeepOtherBlocks :
    (∃ t, exec (.lineFault 0 .short) (held visitor) = .next t) ∧
      ∃ t, exec (.talkExpiry ref1) (held talking) = .next t :=
  ⟨⟨_, rfl⟩, _, rfl⟩

theorem witness_PowerUpAndResetPinStartCold :
    State.reset.resetHeld = false ∧ ({ site with resetHeld := true } : State).resetHeld = true ∧
      State.reset.hlp.tx = .idle ∧ State.reset.hlp.ready = [] ∧
      State.reset.ntu.notices = { lostMark := false, content := .start .cold .powerUp } :: [] := by
  decide +kernel

/-- A request buffer with `n` frames, while an immediate reply waits or while none does. -/
def buffered (n : Nat) (waits : Bool) : State :=
  { site with hlp := { site.hlp with
      buffer := List.replicate n ⟨0x0D, 1, [1]⟩
      tx := .reply ⟨0x0D, 1, .badValue, .none⟩
      ready := if waits then [{ reply := ⟨0x0E, 2, .badValue, .none⟩, immediate := true }] else [] } }

theorem site_takes : site.Takes := ⟨rfl, rfl⟩

/-- The longest body; three and four frames in the buffer behind a reply that waits. -/
theorem witness_HostFrameIsBufferedOrDiscarded :
    ((List.replicate 62 0x00#8).length ≤ 62 ∧ site.hlp.rx = .hunting ∧ site.Takes) ∧
      ((buffered 3 true).hlp.rx = .hunting ∧ (buffered 3 true).resetHeld = false ∧
        (buffered 3 true).canTake = false ∧ (buffered 3 true).hlp.buffer.length < 4) ∧
      ((buffered 4 true).hlp.rx = .hunting ∧ (buffered 4 true).resetHeld = false ∧
        (buffered 4 true).canTake = false ∧ 4 ≤ (buffered 4 true).hlp.buffer.length) ∧
      ({ site with resetHeld := true } : State).hlp.rx = .hunting ∧
      ({ site with resetHeld := true } : State).resetHeld = true ∧
      (Instr.queryCall 255 16).wellFormed = true ∧
      frameOf (.queryCall 255 16) = some ⟨0x0D, 255, [16]⟩ := by
  refine ⟨⟨by decide, rfl, site_takes⟩, ?_⟩
  decide +kernel

/-- Frames arriving on every kind of link: the bytes `got` after the sync byte. -/
def arriving (got : List Byte) : State :=
  ({ site with
      hlp := { site.hlp with rx := .receiving got, rxDeadline := some 20 } }.modifyPort 0
        fun x => { x with receiving := some { got := got, expiry := 20 } }).modifyRiser 0
          fun x => { x with receiving := some { got := got, expiry := 20 } }

/-- P0 PRESENT and P1 ABSENT; riser 0 ACTIVE, riser 1 off, riser 0 transmitting; length bytes at both
ends of their ranges and next past them; the shortest and the longest frames; a frame with no byte yet
and one that wants its last. -/
theorem witness_SyncBytesAndSilence :
    (site.hlp.rx = .hunting ∧ site.resetHeld = false ∧
        ({ site with resetHeld := true } : State).resetHeld = true) ∧
      ((site.port 1).present = false ∧ (site.port 0).present = true ∧
        (site.port 0).receiving = none ∧ (0#8).toNat = 0 ∧ 40 < (41#8).toNat ∧
        1 ≤ [0x02#8].length ∧ (List.replicate 40 0x02#8).length ≤ 40 ∧
        ((arriving []).port 0).present = true ∧
        ((arriving []).port 0).receiving = some { got := [], expiry := 20 } ∧
        1 ≤ (1#8).toNat ∧ (40#8).toNat ≤ 40 ∧
        ((arriving [1, 2, 3]).port 0).receiving = some { got := 1 :: [2, 3], expiry := 20 } ∧
        ((arriving [1, 2]).port 0).receiving = some { got := 1 :: [2], expiry := 20 } ∧
        [1#8, 2#8].length + 1 < (1#8).toNat + 3) ∧
      ((site.riser 1).overrunDue = false ∧ (site.riser 1).link.isOff = true ∧
        ((site.modifyRiser 0 fun x => { x with tx := some (.resend (.solicited 0 (.poll 1))) }).riser 0
          ).tx ≠ none ∧
        (site.riser 0).overrunDue = false ∧ (site.riser 0).link.isOff = false ∧
        (site.riser 0).tx = none ∧ (site.riser 0).receiving = none ∧
        (1#8).toNat < 2 ∧ 1#8 ≠ syncByte ∧ 32 < (33#8).toNat ∧ 33#8 ≠ syncByte ∧
        2 ≤ [11#8, 2#8].length ∧ (List.replicate 32 0x02#8).length ≤ 32 ∧
        ((arriving []).riser 0).overrunDue = false ∧ ((arriving []).riser 0).link.isOff = false ∧
        ((arriving []).riser 0).tx = none ∧
        ((arriving []).riser 0).receiving = some { got := [], expiry := 20 } ∧
        2 ≤ (2#8).toNat ∧ (32#8).toNat ≤ 32 ∧
        ((arriving [2, 11, 2]).riser 0).receiving = some { got := 2 :: [11, 2], expiry := 20 } ∧
        [2#8, 11#8, 2#8].length + 1 < (2#8).toNat + 3) ∧
      (arriving []).hlp.rx = .receiving [] ∧ (arriving []).hlp.rxDeadline = some 20 := by
  decide +kernel

/-- A frame of a panel and one of a station: the right check bytes and wrong ones. -/
theorem witness_CheckBytes :
    (∃ c d, crcBytes [1#8, 0x03#8] = [c, d]) ∧ crcBytes [1#8, 0x03#8] ≠ [0, 0] ∧
      (∃ c d, crcBytes [2#8, 11#8, 0x03#8] = [c, d]) ∧ crcBytes [2#8, 11#8, 0x03#8] ≠ [0, 0] := by
  refine ⟨⟨_, _, rfl⟩, ?_, ⟨_, _, rfl⟩, ?_⟩ <;> decide +kernel

/-- The RESTART reply on the line with a start due, and any other reply. -/
def restarting (k : StartKind) : State :=
  { site with hlp := { site.hlp with
      tx := .reply ⟨0x15, 1, .ok, .start k⟩, startDue := some k } }
def replying (ready : List ReadyReply) (notices : List Notice) : State :=
  { site with
    hlp := { site.hlp with tx := .reply ⟨0x0D, 1, .badValue, .none⟩, ready := ready }
    ntu := { site.ntu with notices := notices } }

theorem replying_not_restart (l : List ReadyReply) (m : List Notice) :
    (replying l m).hlp.tx ≠ .idle ∧ (replying l m).resetHeld = false ∧
      ∀ r, (replying l m).hlp.tx = .reply r → r.kind = 0x15 → r.status = .ok →
        (replying l m).hlp.startDue = none :=
  ⟨by simp [replying], rfl, fun _ _ _ _ => rfl⟩

theorem witness_HostLineEndStartsNextFrameOrStart :
    let x : ReadyReply := { reply := ⟨0x0E, 2, .badValue, .none⟩, immediate := true }
    let n : Notice := { lostMark := false, content := .event (.privacyChange 5 true) }
    let f : HostFrame := ⟨0x0D, 1, [1]⟩
    ((replying [x] [n]).hlp.ready = x :: [] ∧
        (replying [] [n]).hlp.ready = [] ∧ (replying [] [n]).ntu.notices = n :: [] ∧
        (replying [] []).hlp.ready = [] ∧ (replying [] []).ntu.notices = []) ∧
      (site.hlp.buffer = [] ∧ (buffered 4 true).canTake = false ∧
        (buffered 4 false).canTake = true ∧ (buffered 4 false).hlp.buffer = f :: [f, f, f] ∧
        ∃ t, exec (requestOf f) { buffered 4 false with hlp := { (buffered 4 false).hlp with
          buffer := [] } } = .next t) ∧
      (restarting .cold).hlp.tx = .reply ⟨0x15, 1, .ok, .start .cold⟩ ∧
      (restarting .cold).hlp.startDue = some .cold ∧
      (restarting .warm).hlp.startDue = some .warm :=
  ⟨⟨rfl, rfl, rfl, rfl, rfl⟩, ⟨rfl, rfl, rfl, rfl, _, rfl⟩, rfl, rfl, rfl⟩

theorem witness_IllegalRequestAndRestart :
    Asks site (.illegalRequest 0x16 1 []) ∧
      Asks site (.restart 1 0) ∧
      Asks site (.restart 1 1) ∧
      Asks site (.restart 1 2) ∧
      Asks site (.restart 1 3) := by
  refine ⟨?_, ?_, ?_, ?_, ?_⟩ <;>
    exact asks rfl rfl rfl rfl

/-- Riser 0 of the site with a queue. -/
def queued (q : List QueueItem) : State := site.modifyRiser 0 fun x => { x with queue := q }
/-- An advisory that waits. -/
def waitingAdvisory : QueueItem :=
  { entry := .advisory (.cancel 11 .noCall none), sending := false }

theorem witness_RiserSyncPlacesMarker :
    Asks site (.riserSync 1 6) ∧ 6 ≤ 6 ∧
      Asks site (.riserSync 1 1) ∧
      (site.riser 1).link = .disabled ∧ (site.riser 1).overrunDue = false ∧
      Asks (queued (List.replicate 32 waitingAdvisory)) (.riserSync 1 0) ∧
      32 ≤ ((queued (List.replicate 32 waitingAdvisory)).riser 0).queue.length ∧
      Asks site (.riserSync 1 0) ∧ (site.riser 0).link ≠ .disabled ∧
      (site.riser 0).queue.length < 32 ∧ (site.riser 0).advisories = [] ∧
      Asks (queued (List.replicate 31 waitingAdvisory)) (.riserSync 1 0) ∧
      ((queued (List.replicate 31 waitingAdvisory)).riser 0).queue.length < 32 ∧
      ((queued (List.replicate 31 waitingAdvisory)).riser 0).advisories ≠ [] := by
  constructorm* _ ∧ _ <;> first
    | exact asks rfl rfl rfl rfl
    | rfl
    | decide

/-! ### Settings -/

/-- The speech port of P6 held, and the lock of P0 claimed. -/
theorem witness_SetPortStoresSettings :
    Asks site (.setPort 1 8 0 0 5) ∧
      Asks site (.setPort 1 0 3 0 5) ∧
      Asks site (.setPort 1 0 1 2 5) ∧
      Asks (held (atDesk .ringing)) (.setPort 1 6 2 0 5) ∧
      (held (atDesk .ringing)).hold 6 ≠ none ∧
      Asks hostClaim (.setPort 1 0 1 0 8) ∧
      (hostClaim.lock 0).claim ≠ none ∧
      Asks site (.setPort 1 7 2 1 31) ∧
      site.hold 7 = none ∧ (site.lock 7).claim = none ∧ site.psw.deskQueue = [] ∧
      (PortFunction.concierge ≠ (site.port 7).function) ∧
      Asks site (.setPort 1 6 0 0 0) ∧
      (PortFunction.off ≠ (site.port 6).function) ∧
      Asks site (.setPort 1 0 1 1 30) ∧
      (PortFunction.entrance = (site.port 0).function) ∧
      Asks site (.setPort 1 0 2 1 1) ∧
      (site.port 0).present = true ∧ (PortFunction.concierge ≠ (site.port 0).function) ∧
      (let s := withDeskCaller (site.modifyPort 7 fun x => { x with present := true, check := false })
       Asks s (.setPort 1 7 2 1 30) ∧ s.hold 7 = none ∧ (s.lock 7).claim = none ∧
         PortFunction.concierge ≠ (s.port 7).function ∧ (s.port 7).present = true ∧
         (s.port 7).check = false ∧ s.psw.deskQueue = ref3 :: [] ∧
         s.call? ref3 = some deskCaller) := by
  constructorm* _ ∧ _ <;> first
    | exact asks rfl rfl rfl rfl
    | rfl
    | decide

/-- A span and a row at their limits, both adjusted; and one field of each past its range. -/
theorem witness_SetWindowAdjustsAndStores :
    Asks site (.setWindow 1 7 1 9999 10000 1000 64 255) ∧
      Asks site (.setWindow 1 0 0 0 1 1 1 0) ∧
      Asks site (.setWindow 1 8 0 0 1 1 1 0) ∧
      Asks site (.setWindow 1 0 2 0 1 1 1 0) ∧
      Asks site (.setWindow 1 0 0 10000 1 1 1 0) ∧
      Asks site (.setWindow 1 0 0 0 0 1 1 0) ∧
      Asks site (.setWindow 1 0 0 0 1 1001 1 0) ∧
      Asks site (.setWindow 1 0 0 0 1 1 65 0) := by
  constructorm* _ ∧ _ <;> exact asks rfl rfl rfl rfl

/-- Code 0100 is below every window; 0101 and 2500 are the first and the last code of window 0, and
3001 is reached past it. -/
theorem witness_TranslationFollowsFirstWindow :
    (∀ i, ¬ ((site.dir.windows.read i).enabled = true ∧ (site.dir.windows.read i).base ≤ 100 ∧
        100 < (site.dir.windows.read i).base + (site.dir.windows.read i).span)) ∧
      (site.dir.windows.read 0).enabled = true ∧ (site.dir.windows.read 0).base ≤ 101 ∧
      2500 < (site.dir.windows.read 0).base + (site.dir.windows.read 0).span ∧
      (site.dir.windows.read 1).enabled = true ∧ (site.dir.windows.read 1).base ≤ 3001 ∧
      3001 < (site.dir.windows.read 1).base + (site.dir.windows.read 1).span ∧
      (∀ j : WindowIx, j < 1 → ¬ ((site.dir.windows.read j).enabled = true ∧
        (site.dir.windows.read j).base ≤ 3001 ∧
        3001 < (site.dir.windows.read j).base + (site.dir.windows.read j).span)) := by
  decide +kernel

/-- R51: with a window loaded and no flat put in service yet, the code of a flat of its range names no
window; once one has been, the flats out of service are VACANT. -/
theorem test_translate_before_any_flat :
    let d := { site.dir with flats := Dir.cold.flats }
    ({ d with flatServed := false } : Dir).translate 101 = .error .noWindow ∧
      d.translate 101 = .error .vacant := by
  decide +kernel

/-- Stations 59 to 62 (the last that fit), 60 to 63 (one too many), a flat in a call, and a flat that
would share 0.12. -/
theorem witness_SetFlatStoresRecord :
    Asks site (.setFlat 1 255 1 5 59 4 1 255) ∧
      59 + 4 ≤ 63 ∧
      (∀ k, ∀ d, (site.slot k).call = some d → d.flat.map (fun i => i.val) ≠ some 255) ∧
      (∀ j : FlatIx, (site.flat j).inService = true → (site.flat j).riser.val ≠ 5) ∧
      Asks site (.setFlat 1 0 1 0 60 4 0 0) ∧
      ¬ 60 + 4 ≤ 63 ∧
      Asks (held visitor) (.setFlat 1 5 1 0 11 2 0 0) ∧
      (∃ k d, ((held visitor).slot k).call = some d ∧ d.flat.map (fun i => i.val) = some 5) ∧
      Asks site (.setFlat 1 6 1 0 12 2 0 0) ∧
      (∃ j : FlatIx, j.val ≠ 6 ∧ (site.flat j).inService = true ∧ (site.flat j).riser.val = 0 ∧
        ∃ a, 12 ≤ a ∧ a < 12 + 2 ∧ a ∈ (site.flat j).stations) := by
  refine ⟨asks rfl rfl rfl rfl, by decide, ?_, ?_, asks rfl rfl rfl rfl, by decide,
    asks rfl rfl rfl rfl, ⟨0, visitor, rfl, rfl⟩, asks rfl rfl rfl rfl,
    5, by decide, rfl, rfl, 12, by decide⟩
  · intro k d h
    have e : site.slot k = Slot.cold := Table.read_fill _ _
    rw [e] at h
    cases h
  · intro j h
    rw [site_one_flat j h]
    decide

/-- The limits of the four times, the first and the last routable event kind, and each value past its
range. -/
theorem witness_TimesRoutesAndModeAreStored :
    Asks site (.setTimes 1 5 120 60 600) ∧
      Asks site (.setTimes 1 4 121 1 601) ∧
      Asks site (.setRoute 1 0x40 0) ∧
      ((0 : Fin 13).val + 0x40 = 0x40 ∧ 0 < 4) ∧
      Asks site (.setRoute 1 0x4C 3) ∧
      ((12 : Fin 13).val + 0x40 = 0x4C ∧ 3 < 4) ∧
      Asks site (.setRoute 1 0x4F 1) ∧
      Asks site (.setRoute 1 0x3F 1) ∧
      Asks site (.setRoute 1 0x40 4) ∧
      Asks site (.setMode 1 1) ∧
      Asks site (.setMode 1 2) := by
  constructorm* _ ∧ _ <;> first
    | exact asks rfl rfl rfl rfl
    | rfl
    | decide

/-- The site with every event of one route, and a number of notices waiting. -/
def routed (v : Route) (n : Nat) (lost : Bool) : State :=
  { site with ntu :=
      { routes := Table.fill 13 v, lost := lost
        notices := List.replicate n { lostMark := false, content := .event (.callRefused 0 .call) } } }

/-- Each route, with room for one notice more and with none, the lost flag clear and set; P6 is a PRESENT
concierge port, P0 is none and P7 is ABSENT; the kinds of the first and the last route. -/
theorem witness_EventsGoByTheirRoute :
    (∀ v ∈ [Route.none, .host, .desk, .both], ∀ b,
      (routed v 31 b).ntu.notices.length < 32 ∧ ¬ (routed v 32 b).ntu.notices.length < 32 ∧
        (routed v 31 b).ntu.routes.read 0 = v ∧ (routed v 32 b).ntu.routes.read 12 = v ∧
        (routed v 31 b).ntu.lost = b) ∧
      (0 : Fin 13).val + 0x40 = (Event.callStarted ref1 .visitor 0 none).number ∧
      (12 : Fin 13).val + 0x40 = (Event.riserChange 0 .active .enabled).number ∧
      (site.port 6).present = true ∧ (site.port 6).function = .concierge ∧
      (site.port 0).function ≠ .concierge ∧ (site.port 7).present = false := by
  decide +kernel

/-- R188: the 32nd notice carries the lost mark and clears the flag; the 33rd is discarded and sets it. -/
theorem test_notice_queue_is_full :
    let e := Event.riserChange 0 .active .enabled
    ((routed .both 31 true).emit e).ntu.notices.length = 32 ∧
      ((routed .both 31 true).emit e).ntu.lost = false ∧
      (((routed .both 31 true).emit e).ntu.notices.getLast?).map (fun n => n.lostMark) = some true ∧
      ((routed .both 32 false).emit e).ntu.notices.length = 32 ∧
      ((routed .both 32 false).emit e).ntu.lost = true ∧
      (((routed .both 32 false).emit e).port 6).alertSlot = some e := by
  decide +kernel

/-- Riser 6 does not exist; riser 0 is in use while a call holds its channel; riser 1 is DISABLED, with
a GOOD line and with a SHORT one; riser 0 QUIET, FAULTED and ACTIVE. -/
theorem witness_SetRiserStoresAndEnables :
    Asks site (.setRiser 1 6 1 1 1 500 60) ∧
      Asks site (.setRiser 1 0 2 1 1 500 60) ∧
      (site.riser 0).overrunDue = false ∧
      Asks (held visitor) (.setRiser 1 0 0 1 1 500 60) ∧
      ((held visitor).paths 0).holderA ≠ none ∧
      Asks site (.setRiser 1 1 1 1 1 100 10) ∧
      (site.riser 1).link = .disabled ∧ (site.riser 1).line = .good ∧
      ((site.modifyRiser 1 fun x => { x with line := .short }).riser 1).line ≠ .good ∧
      Asks site (.setRiser 1 0 1 0 0 5001 9) ∧
      (site.riser 0).link ≠ .disabled ∧
      ((site.modifyRiser 0 fun x => { x with link := .quiet }).riser 0).link = .quiet ∧
      ((site.modifyRiser 0 fun x => { x with link := .faulted, line := .short }).riser 0).link =
        .faulted ∧
      Asks site (.setRiser 1 1 0 0 0 5000 600) ∧
      Asks site (.setRiser 1 0 0 0 0 500 60) ∧
      (site.paths 0).holderA = none ∧ (site.paths 0).holderB = none ∧
      (site.paths 0).queue = [] ∧
      (∀ m, (site.riser 0).markers.count m ≤ site.hlp.syncs.count { num := m, riser := 0 }) := by
  constructorm* _ ∧ _ <;> first
    | exact asks rfl rfl rfl rfl
    | exact fun _ => Nat.zero_le _
    | rfl
    | decide

/-- An ACTIVE riser whose run-out mark is set, with nothing left to do, with a marker alone in its queue,
and with a frame. -/
theorem witness_SetRiserMayGoQuiet :
    let idle := fun (q : List QueueItem) =>
      site.modifyRiser 0 fun x => { x with runOut := true, idleTimer := none, queue := q }
    Asks (idle []) (.setRiser 1 0 1 0 1 500 60) ∧
      ((idle []).riser 0).link = .active ∧ ((idle []).riser 0).runOut = true ∧
      ((idle []).riser 0).outstanding = [] ∧ ((idle []).riser 0).queue = [] ∧
      ((idle [{ entry := .marker 3, sending := false }]).riser 0).frames = [] ∧
      ((idle [{ entry := .marker 3, sending := false }]).riser 0).queue ≠ [] ∧
      ((idle [{ entry := .solicited (.poll 1), sending := false }]).riser 0).frames ≠ [] := by
  constructorm* _ ∧ _ <;> first
    | exact asks rfl rfl rfl rfl
    | rfl
    | decide

/-- No call waits; and one waits for the desk at P6, whose check flag is set. -/
theorem witness_ClearCheckClearsNamedFlags :
    (Asks State.reset (.clearCheck 1 0x81) ∧ State.reset.psw.deskQueue.Nodup ∧
        Nat.testBit 0x81 (7 : PortIx).val = true ∧ (State.reset.port 7).check = true ∧
        Nat.testBit 0x81 (1 : PortIx).val = false) ∧
      let s := withDeskCaller (site.modifyPort 6 fun x => { x with check := true })
      Asks s (.clearCheck 1 0x40) ∧ s.psw.deskQueue.Nodup ∧
        (∀ w ∈ s.psw.deskQueue, s.call? w ≠ none) ∧
        (List.finRange 8).filter (fun p =>
          Nat.testBit 0x40 p.val && (s.port p).check && decide ((s.port p).function = .concierge) &&
            (s.port p).present && (s.hold p).isNone) = [6] := by
  refine ⟨⟨asks rfl rfl rfl rfl, List.nodup_nil, rfl, rfl, rfl⟩, asks rfl rfl rfl rfl,
    by decide, ?_, by decide +kernel⟩
  intro w h
  obtain rfl : w = ref3 := by simpa [withDeskCaller, State.setDeskQueue] using h
  decide +kernel

/-- The call of the tests waits for a desk, and P6 is eligible. -/
def wantsDesk : State :=
  (held { visitor with
    leg := .concierge, state := .waiting, waitingFor := some .desk, deskVisited := true
    channel := none, offers := []
    timer := some { kind := .pathWait, expiry := 15000 } }).setDeskQueue [ref1]

/-- A crowd in which the third call's flat is private; its riser off; its stations ABSENT; and one in
which the second call rings that flat. -/
def crowdPrivate : State := crowd.setFlat 7 { home with firstStation := 31, privacy := true }
def crowdOff : State := crowd.modifyRiser 0 fun x => { x with link := .faulted }
def crowdAlone : State :=
  crowd.modifyRiser 0 fun x =>
    { x with stations := Table.fill 62 { presence := .absent, privacy := false } }
def crowdEngaged : State :=
  crowd.setSlot 1 { generation := 1, lastEnd := none, call := some { second with flat := some 7 } }

/-- No call is past WAITING on its FLAT leg for flat 7. -/
theorem crowd_not_engaged (j : SlotIx) (d : Call) (h : (crowd.slot j).call = some d) :
    d.flat = some 7 → d.state = .waiting := by
  rw [crowd_slots] at h
  split at h
  case isTrue => cases h; decide
  case isFalse =>
    split at h
    case isTrue => cases h; decide
    case isFalse =>
      split at h
      case isTrue => cases h; decide
      case isFalse => cases h

theorem crowd_passes : PassesChecks crowd ref3 7 where
  alone j d _ h _ e := crowd_not_engaged j d h e
  privacy := by decide +kernel
  link := by decide +kernel
  heard := by decide +kernel

/-- The channel of the first call is released: to nobody, to a call that passes its checks, and to one
that fails each. -/
theorem witness_EligibleDeskIsGranted :
    (wantsDesk.eligible 6 = true ∧ wantsDesk.psw.deskQueue = ref1 :: [] ∧
        ∃ c, wantsDesk.call? ref1 = some c) ∧
      ((held visitor).paths 0).queue = [] ∧
      ((crowd.paths 0).queue = ref3 :: [] ∧ crowd.call? ref3 = some third ∧
        third.flat = some 7 ∧ third.leg = .flat ∧ (crowd.flat 7).riser = 0 ∧
        PassesChecks crowd ref3 7 ∧ (crowd.riser 0).overrunDue = false ∧
        (crowd.riser 0).queue.length + (crowd.stationsToOffer 7).length ≤ 32) ∧
      ((crowdEngaged.paths 0).queue = ref3 :: [] ∧ crowdEngaged.call? ref3 = some third ∧
        (crowdEngaged.slot 1).call = some { second with flat := some 7 } ∧
        second.leg = .flat ∧ second.state ≠ .waiting) ∧
      ((crowdPrivate.paths 0).queue = ref3 :: [] ∧ crowdPrivate.call? ref3 = some third ∧
        (crowdPrivate.flat 7).privacy = true) ∧
      ((crowdOff.paths 0).queue = ref3 :: [] ∧ crowdOff.call? ref3 = some third ∧
        (crowdOff.flat 7).privacy = false ∧ (crowdOff.riser 0).link.isOff = true) ∧
      ((crowdAlone.paths 0).queue = ref3 :: [] ∧ crowdAlone.call? ref3 = some third ∧
        (crowdAlone.flat 7).privacy = false ∧ (crowdAlone.riser 0).link.isOff = false ∧
        crowdAlone.stationsToOffer 7 = []) ∧
      ∀ s : State, s.psw.deskQueue = [] → s.NoWaiters ref3 { third with channel := none } := by
  refine ⟨⟨by decide +kernel, rfl, _, rfl⟩, by decide +kernel,
    ⟨by decide +kernel, rfl, rfl, rfl, by decide +kernel, crowd_passes, by decide +kernel,
      by decide +kernel⟩,
    ⟨by decide +kernel, rfl, rfl, rfl, by decide⟩, ⟨by decide +kernel, rfl, by decide +kernel⟩,
    ⟨by decide +kernel, rfl, by decide +kernel, by decide +kernel⟩,
    ⟨by decide +kernel, rfl, by decide +kernel, by decide +kernel, by decide +kernel⟩, ?_⟩
  intro s h
  exact ⟨by simp [h], fun ch e => by cases e⟩

/-- Flat 255, the last, and level 1; level 2; and a flat past the table. -/
theorem witness_SetPrivacyRecomputesFlat :
    Asks site (.setPrivacy 1 255 1) ∧ (255 : FlatIx).val = 255 ∧ 1 < 2 ∧
      Asks site (.setPrivacy 1 255 2) ∧ site.Takes ∧ 256 ≤ 256 := by
  refine ⟨asks rfl rfl rfl rfl, rfl, by decide, asks rfl rfl rfl rfl, ⟨rfl, rfl⟩, by decide⟩

/-- Each query with its first or last number, and with the number next past its range. -/
theorem witness_QueriesReportAndChangeNothing :
    Asks (held visitor) (.queryCall 1 1) ∧
      ((held visitor).slot 0).call = some visitor ∧
      Asks site (.queryCall 1 16) ∧ (site.slot 15).call = none ∧
      Asks site (.queryCall 1 0) ∧
      Asks site (.queryCall 1 17) ∧
      Asks site (.queryWindow 1 7) ∧
      Asks site (.queryWindow 1 8) ∧
      Asks site (.queryFlat 1 255) ∧
      Asks site (.queryPort 1 7) ∧
      Asks site (.queryPort 1 8) ∧
      Asks site (.queryLock 1 0) ∧
      Asks site (.queryLock 1 8) ∧
      Asks site (.queryRiser 1 6) ∧
      Asks site (.queryRiser 1 5) ∧
      (site.riser 5).overrunDue = false ∧
      Asks site (.queryStation 1 6 1) ∧
      Asks site (.queryStation 1 0 62) ∧
      (61 : Fin 62).val + 1 = 62 ∧
      Asks site (.queryStation 1 0 0) ∧
      Asks site (.queryStation 1 0 63) := by
  constructorm* _ ∧ _ <;> first
    | exact asks rfl rfl rfl rfl
    | rfl

/-- Lock 0 SECURE and usable, held by the host, held by a call; lock 6, not usable; lock 8, none; tags
0, 1 and 255. -/
theorem witness_DoorHoldAndFreeFollowTheClaim :
    Asks site (.doorHold 1 8 1) ∧
      Asks site (.doorHold 1 0 0) ∧
      Asks site (.doorHold 1 6 1) ∧
      (site.port 6).function ≠ .entrance ∧
      Asks site (.doorHold 1 0 255) ∧
      (site.port 0).function = .entrance ∧ (site.lock 0).state = .secure ∧
      Asks hostClaim (.doorHold 1 0 12) ∧
      (hostClaim.lock 0).state = .released ∧ (hostClaim.lock 0).claim = some (.host 12) ∧
      Asks hostClaim (.doorHold 1 0 1) ∧
      (hostClaim.lock 0).claim ≠ some (.host 1) ∧
      Asks site (.doorFree 1 8 1) ∧
      Asks hostClaim (.doorFree 1 0 12) ∧
      Asks hostClaim (.doorFree 1 0 1) := by
  constructorm* _ ∧ _ <;> first
    | exact asks rfl rfl rfl rfl
    | rfl
    | decide

theorem witness_ReleaseTimerExpirySecuresLock :
    (opened.lock 0).timer = some 5000 ∧ (opened.lock 0).claim = some (.call ref1) ∧
      (site.lock 0).timer = none := by
  decide

/-! ### Calls -/

/-- The desk of P6 speaks to the call, with the lock of P0 as given. -/
def atDoor (l : Lock) : State := (held (atDesk .connected)).setLock 0 l

/-- The origin's lock SECURE, claimed by the call, claimed by the host; an origin that is no
entrance. -/
theorem witness_DeskDoorReleasesOriginLock :
    let s := atDoor Lock.cold
    let own : Lock := { state := .released, claim := some (.call ref1), releaseTime := 5
                        timer := some 5000 }
    let other : Lock := { state := .released, claim := some (.host 1), releaseTime := 5
                          timer := none }
    let noDoor := s.modifyPort 0 fun x => { x with function := .concierge }
    (s.port 6).present = true ∧ (s.port 6).function = .concierge ∧
      s.hold 6 = some { call := ref1, role := .desk } ∧
      s.call? ref1 = some (atDesk .connected) ∧ (atDesk .connected).leg = .concierge ∧
      (atDesk .connected).state = .connected ∧ (atDesk .connected).origin = 0 ∧
      (s.port 0).function = .entrance ∧ (s.lock 0).state = .secure ∧
      ((atDoor own).lock 0).claim = some (.call ref1) ∧
      ((atDoor own).port 0).function = .entrance ∧
      ((atDoor other).lock 0).state = .released ∧
      ((atDoor other).lock 0).claim ≠ some (.call ref1) ∧
      (noDoor.port 0).function ≠ .entrance ∧ noDoor.call? ref1 = some (atDesk .connected) := by
  constructorm* _ ∧ _ <;> first
    | rfl
    | decide

/-- The desk that no call holds, and the desk that rings. -/
theorem witness_DeskNotInConversation :
    ((site.port 6).present = true ∧ (site.port 6).function = .concierge ∧ site.hold 6 = none) ∧
      ((held (atDesk .ringing)).port 6).present = true ∧
      ((held (atDesk .ringing)).port 6).function = .concierge ∧
      (held (atDesk .ringing)).hold 6 = some { call := ref1, role := .desk } ∧
      (held (atDesk .ringing)).call? ref1 = some (atDesk .ringing) ∧
      ¬ ((atDesk .ringing).leg = .concierge ∧ (atDesk .ringing).state = .connected) ∧
      ¬ ((atDesk .connected).leg = .concierge ∧ (atDesk .connected).state = .ringing) := by
  decide

/-- DOOR, ANSWER and FORWARD are discarded from P1, which is ABSENT, and from the entrance panel at P0. -/
theorem witness_DeskReportsDiscarded :
    (site.port 1).present = false ∧ (site.port 0).present = true ∧
      (site.port 0).function ≠ .concierge := by
  decide

theorem site_no_call (k : SlotIx) : (site.slot k).call = none := by
  have e : site.slot k = Slot.cold := Table.read_fill _ _
  rw [e]
  rfl

theorem site_passes : PassesChecks site ref1 5 where
  alone j d _ h := by rw [site_no_call] at h; cases h
  privacy := rfl
  link := rfl
  heard := by decide

theorem site_may_offer :
    MayOffer site ref1 5 { riser := 0, side := .a } where
  checks := site_passes
  riser := rfl
  free := rfl
  first := by decide
  overrun := rfl
  room := by decide

/-- The site with channel 0A held, so that 0B is the channel that is granted. -/
def heldA : State :=
  site.setPaths 0 { holderA := some { slot := 5, gen := 1 }, holderB := none, queue := [] }

/-- The site with both channels of riser 0 held. -/
def heldAB : State :=
  site.setPaths 0
    { holderA := some { slot := 5, gen := 1 }, holderB := some { slot := 6, gen := 1 }, queue := [] }

theorem witness_CallIsOfferedToItsFlat :
    (site.port 0).present = true ∧ (site.port 0).check = false ∧ site.hold 0 = none ∧
      106 < 10000 ∧ (site.slot 0).call = none ∧
      (∀ j, j < (0 : SlotIx) → (site.slot j).call ≠ none) ∧ site.dir.translate 106 = .ok 5 ∧
      ref1 = { slot := 0, gen := (site.slot 0).generation + 1 } ∧
      MayOffer site ref1 5 { riser := 0, side := .a } ∧ (site.port 0).function = .entrance ∧
      site.ccu.intercept = false ∧ (site.port 6).function = .concierge ∧
      (site.port 6).present = true ∧ (site.port 6).check = false ∧ site.hold 6 = none ∧
      (heldA.paths 0).holder .b = none ∧ (heldA.paths 0).holderA ≠ none ∧
      ((heldAB.port 0).present = true ∧ heldAB.hold 0 = none ∧ (heldAB.slot 0).call = none ∧
        PassesChecks heldAB ref1 5 ∧ (heldAB.paths 0).holderA ≠ none ∧
        (heldAB.paths 0).holderB ≠ none) := by
  refine ⟨rfl, rfl, rfl, by decide, rfl, by simp, rfl, rfl, site_may_offer, rfl, rfl, rfl, rfl, rfl,
    rfl, rfl, by decide, rfl, rfl, rfl, ?_, by decide, by decide⟩
  exact ⟨site_passes.alone, site_passes.privacy, site_passes.link, site_passes.heard⟩

/-- A port with its check flag set, a port that a call holds, an ABSENT port, and a port of another
function; and the last code. -/
theorem witness_StartRequestIsRefused :
    9999 < 10000 ∧
      (let s := site.modifyPort 0 fun x => { x with check := true }
       (s.port 0).present = true ∧ (s.port 0).function = .entrance ∧ (s.port 0).check = true) ∧
      (let s := site.modifyPort 6 fun x => { x with check := true }
       (s.port 6).present = true ∧ (s.port 6).function = .concierge ∧ (s.port 6).check = true) ∧
      ((held visitor).port 0).check = false ∧ (held visitor).hold 0 ≠ none ∧
      ((held (atDesk .ringing)).port 6).check = false ∧ (held (atDesk .ringing)).hold 6 ≠ none ∧
      (site.port 1).present = false ∧ (site.port 6).function ≠ .entrance ∧
      (site.port 0).function ≠ .concierge := by
  constructorm* _ ∧ _ <;> first
    | rfl
    | decide

/-- Another call that rings flat 5, in slot 2. -/
def engaged : State :=
  { site with ccu := { site.ccu with
      slots := site.ccu.slots.write 1 { generation := 1, lastEnd := none, call := some visitor } } }

/-- No flat for the code; the flat engaged; private; its riser off; none of its handsets there. -/
theorem witness_CallThatFailsItsChecksEnds :
    (site.port 0).present = true ∧ (site.port 0).function = .entrance ∧
      (site.port 0).check = false ∧ site.hold 0 = none ∧ 0 < 10000 ∧
      (site.slot 0).call = none ∧ (∀ j, j < (0 : SlotIx) → (site.slot j).call ≠ none) ∧
      (∀ x, ref1 ∉ (site.paths x).queue) ∧ ref1 ∉ site.psw.deskQueue ∧
      (site.port 6).function = .concierge ∧ (site.port 6).present = true ∧
      (site.port 6).check = false ∧ site.hold 6 = none ∧ site.psw.deskQueue = [] ∧
      site.ccu.intercept = false ∧ site.dir.translate 0 = .error .noWindow ∧
      site.dir.translate 106 = .ok 5 ∧ (engaged.slot 0).call = none ∧
      (engaged.slot 1).call = some visitor ∧ visitor.leg = .flat ∧ visitor.flat = some 5 ∧
      visitor.state ≠ .waiting ∧ (∀ j, (site.slot j).call = none) ∧
      ((site.setFlat 5 { home with privacy := true }).flat 5).privacy = true ∧
      (site.flat 5).privacy = false ∧
      ((site.modifyRiser 0 fun x => { x with link := .disabled }).riser 0).link.isOff = true ∧
      (site.riser 0).link.isOff = false ∧
      (site.modifyRiser 0 fun x =>
        { x with stations := Table.fill 62 { presence := .absent, privacy := false } }
        ).stationsToOffer 5 = [] := by
  refine ⟨rfl, rfl, rfl, rfl, by decide, rfl, by simp, by decide +kernel, by decide +kernel, rfl,
    rfl, rfl, rfl, rfl, rfl, rfl, rfl, rfl, rfl, rfl, rfl, by decide, site_no_call, rfl, rfl, rfl,
    rfl, by decide +kernel⟩

/-- The site with no desk set. -/
def noDesk : State := site.modifyPort 6 fun x => { x with function := .off }

/-- The site with intercept mode on and the intercept flag of P0 set. -/
def intercepting : State :=
  { site.modifyPort 0 fun x => { x with intercept := true } with
    ccu := { site.ccu with intercept := true } }

theorem witness_ConciergeCallRingsLowestDesk :
    (site.port 0).present = true ∧ (site.port 0).function = .entrance ∧
      (site.port 0).check = false ∧ site.hold 0 = none ∧ (site.slot 0).call = none ∧
      site.eligible 6 = true ∧ (∀ q, q < (6 : PortIx) → site.eligible q = false) ∧
      (noDesk.port 0).check = false ∧ (∀ q, noDesk.eligible q = false) ∧
      ((intercepting.port 0).present = true ∧ (intercepting.port 0).function = .entrance ∧
        (intercepting.port 0).check = false ∧ intercepting.hold 0 = none ∧ 106 < 10000 ∧
        intercepting.dir.translate 106 = .ok 5 ∧ intercepting.ccu.intercept = true ∧
        (intercepting.port 0).intercept = true ∧ intercepting.eligible 6 = true) := by
  refine ⟨rfl, rfl, rfl, rfl, rfl, by decide +kernel, by decide +kernel, rfl, by decide +kernel, rfl,
    rfl, rfl, rfl, by decide, rfl, rfl, rfl, by decide +kernel⟩

theorem witness_DeskAnswerConnectsCall :
    let s := held (atDesk .ringing)
    (s.port 6).present = true ∧ (s.port 6).function = .concierge ∧
      s.hold 6 = some { call := ref1, role := .desk } ∧ s.call? ref1 = some (atDesk .ringing) ∧
      (atDesk .ringing).leg = .concierge ∧ (atDesk .ringing).state = .ringing :=
  ⟨rfl, rfl, rfl, rfl, rfl, rfl⟩

theorem atDesk_passes : PassesChecks (held (atDesk .connected)) ref1 5 where
  alone j d h e := by
    have hj : (held (atDesk .connected)).slot j = site.slot j :=
      Table.read_write_ne _ _ (fun e => h e.symm)
    rw [hj, site_no_call] at e
    cases e
  privacy := rfl
  link := rfl
  heard := by decide

/-- The call that is forwarded finds a channel FREE, and finds both held. -/
theorem witness_ForwardOffersTheFlat :
    let s := held (atDesk .connected)
    let c := atDesk .connected
    let u := s.setPaths 0
      { holderA := some { slot := 5, gen := 1 }, holderB := some { slot := 6, gen := 1 }, queue := [] }
    (s.port 6).present = true ∧ (s.port 6).function = .concierge ∧
      s.hold 6 = some { call := ref1, role := .desk } ∧ s.call? ref1 = some c ∧
      c.leg = .concierge ∧ c.state = .connected ∧ c.kind = .visitor ∧ c.flat = some 5 ∧
      c.origin ≠ 6 ∧ s.psw.deskQueue = [] ∧
      MayOffer s ref1 5 { riser := 0, side := .a } ∧
      ((u.port 6).present = true ∧ u.hold 6 = some { call := ref1, role := .desk } ∧
        u.call? ref1 = some c ∧ PassesChecks u ref1 5 ∧ (u.paths 0).holderA ≠ none ∧
        (u.paths 0).holderB ≠ none ∧ ∀ o ∈ c.offers, o.status ≠ .queued) := by
  refine ⟨rfl, rfl, rfl, rfl, rfl, rfl, rfl, rfl, by decide, rfl, ?_, rfl, rfl, rfl, ?_, by decide,
    by decide, by decide⟩
  · exact ⟨atDesk_passes, rfl, rfl, by decide, rfl, by decide⟩
  · exact ⟨atDesk_passes.alone, atDesk_passes.privacy, atDesk_passes.link, atDesk_passes.heard⟩

/-- The four ways in which flat 5 of a state fails its checks: another call rings it; it is private; its
riser is off; none of its stations is there. -/
def withSecond (s : State) : State :=
  s.setSlot 1 { generation := 1, lastEnd := none, call := some { second with flat := some 5 } }
def withPrivacy (s : State) : State := s.setFlat 5 { home with privacy := true }
def withRiserOff (s : State) : State := s.modifyRiser 0 fun x => { x with link := .faulted }
def withNobody (s : State) : State :=
  s.modifyRiser 0 fun x =>
    { x with stations := Table.fill 62 { presence := .absent, privacy := false } }

/-- A FORWARD that fails each check, in order, and no check before it. -/
theorem witness_ForwardFails :
    let s := held (atDesk .connected)
    (atDesk .connected).channel = none ∧
      (((withSecond s).slot 1).call = some { second with flat := some 5 } ∧ second.leg = .flat ∧
        second.state ≠ .waiting ∧ (1 : SlotIx) ≠ ref1.slot) ∧
      ((∀ j d, j ≠ ref1.slot → ((withPrivacy s).slot j).call ≠ some d) ∧
        ((withPrivacy s).flat 5).privacy = true) ∧
      ((∀ j d, j ≠ ref1.slot → ((withRiserOff s).slot j).call ≠ some d) ∧
        ((withRiserOff s).flat 5).privacy = false ∧
        ((withRiserOff s).riser 0).link.isOff = true) ∧
      (∀ j d, j ≠ ref1.slot → ((withNobody s).slot j).call ≠ some d) ∧
      ((withNobody s).flat 5).privacy = false ∧ ((withNobody s).riser 0).link.isOff = false ∧
      (withNobody s).stationsToOffer 5 = [] := by
  have alone : ∀ j d, j ≠ ref1.slot → ((held (atDesk .connected)).slot j).call ≠ some d := by
    intro j d h e
    have hj : (held (atDesk .connected)).slot j = site.slot j :=
      Table.read_write_ne _ _ (fun e => h e.symm)
    rw [hj, site_no_call] at e
    cases e
  exact ⟨rfl, ⟨rfl, rfl, by decide, by decide⟩, ⟨alone, rfl⟩, ⟨alone, rfl, rfl⟩, alone, rfl, rfl,
    by decide +kernel⟩

/-- The desk at P6 forwards its call while the third call waits for a desk; a channel FREE, both held,
and each check failed. -/
def forwarding : State := withDeskCaller (held (atDesk .connected))

/-- The one other live call is on its CONCIERGE leg. -/
theorem forwarding_alone (j : SlotIx) (d : Call) (h : j ≠ ref1.slot)
    (e : (forwarding.slot j).call = some d) : d.leg = .concierge := by
  have hs : ∀ k, forwarding.slot k =
      if k = ref1.slot then { generation := 1, lastEnd := none, call := some (atDesk .connected) }
      else if k = 2 then { generation := 1, lastEnd := none, call := some deskCaller }
      else Slot.cold := by decide +kernel
  rw [hs, if_neg h] at e
  split at e <;> cases e
  rfl

theorem forwarding_passes : PassesChecks forwarding ref1 5 where
  alone j d h e l := by rw [forwarding_alone j d h e] at l; cases l
  privacy := by decide +kernel
  link := by decide +kernel
  heard := by decide +kernel

theorem witness_ForwardWithAWaiter :
    let s := forwarding
    let c := atDesk .connected
    let u := s.setPaths 0
      { holderA := some { slot := 5, gen := 1 }, holderB := some { slot := 6, gen := 1 }, queue := [] }
    ((s.port 6).present = true ∧ (s.port 6).function = .concierge ∧ (s.port 6).check = false ∧
        s.hold 6 = some { call := ref1, role := .desk } ∧ s.call? ref1 = some c ∧
        c.channel = none ∧ s.psw.deskQueue = ref3 :: [] ∧ ref3.slot ≠ ref1.slot ∧
        s.call? ref3 = some deskCaller ∧ deskCaller.leg = .concierge ∧
        deskCaller.origin ≠ c.origin ∧
        (∀ o ∈ c.offers ++ deskCaller.offers, o.status ≠ .queued) ∧
        (s.port c.origin).function = .entrance) ∧
      MayOffer s ref1 5 { riser := 0, side := .a } ∧
      (PassesChecks u ref1 5 ∧ (u.paths 0).holderA ≠ none ∧ (u.paths 0).holderB ≠ none) ∧
      ((withSecond s).slot 1).call = some { second with flat := some 5 } ∧
      ((withPrivacy s).flat 5).privacy = true ∧ ((withRiserOff s).riser 0).link.isOff = true ∧
      (withNobody s).stationsToOffer 5 = [] := by
  refine ⟨⟨rfl, rfl, rfl, rfl, rfl, rfl, rfl, by decide, rfl, rfl, by decide, by decide, rfl⟩,
    ⟨forwarding_passes, by decide +kernel, by decide +kernel, by decide, by decide +kernel,
      by decide +kernel⟩, ⟨?_, by decide +kernel, by decide +kernel⟩, rfl, rfl, by decide +kernel,
    by decide +kernel⟩
  exact ⟨forwarding_passes.alone, forwarding_passes.privacy, forwarding_passes.link,
    forwarding_passes.heard⟩

/-- Nothing waits in a state of the tests. -/
theorem held_noWaiters (c : Call) : (held c).NoWaiters ref1 c := by
  refine noWaiters_of rfl (fun x => ?_) _ _
  have h : ∀ x, (site.psw.risers.read x).queue = [] := fun x => by
    have e : site.psw.risers.read x = RiserPaths.cold := Table.read_fill _ _
    rw [e]
    rfl
  unfold held State.paths
  cases c.channel with
  | none => exact h x
  | some ch =>
    by_cases e : ch.riser = x
    · subst e
      simp
    · simp only [Table.read_write_ne _ _ e]
      exact h x

/-- The origin of a call at a concierge port: an OUTWARD call of the desk at P6. -/
def outward : Call := { talking with kind := .outward, origin := 6 }

theorem witness_CancelAndClearEndTheCall :
    ((held visitor).port 0).present = true ∧ (held visitor).call? ref1 = some visitor ∧
      (held visitor).NoWaiters ref1 visitor ∧ ((held visitor).port 0).function = .entrance ∧
      (held visitor).hold 0 = some { call := ref1, role := .origin } ∧
      (held talking).call? ref1 = some talking ∧ talking.state = .connected ∧
      (held talking).NoWaiters ref1 talking ∧
      ((held outward).port 6).function = .concierge ∧ (held outward).call? ref1 = some outward ∧
      (held outward).NoWaiters ref1 outward ∧
      (held outward).hold 6 = some { call := ref1, role := .origin } ∧
      (held (atDesk .connected)).NoWaiters ref1 (atDesk .connected) ∧
      (held (atDesk .connected)).hold 6 = some { call := ref1, role := .desk } := by
  constructorm* _ ∧ _ <;> first
    | exact held_noWaiters _
    | rfl

/-- The first call of the crowd frees its channel for the third. -/
theorem witness_CancelFreesAChannel :
    (crowd.port 0).present = true ∧ (crowd.port 0).function = .entrance ∧
      crowd.hold 0 = some { call := ref1, role := .origin } ∧ crowd.call? ref1 = some visitor ∧
      visitor.origin = 0 ∧ visitor.deskPort = none ∧
      visitor.channel = some { riser := 0, side := .a } ∧ crowd.riserOfCall visitor = some 0 ∧
      (∀ o ∈ visitor.offers, o.status ≠ .queued) ∧ crowd.psw.deskQueue = [] ∧
      (crowd.paths 0).queue = ref3 :: [] ∧ ref3.slot ≠ ref1.slot ∧
      crowd.call? ref3 = some third ∧ third.leg = .flat ∧ third.flat = some 7 ∧
      (crowd.flat 7).riser = 0 ∧ PassesChecks crowd ref3 7 ∧ (crowd.riser 0).overrunDue = false ∧
      (crowd.riser 0).queue.length + visitor.offers.length + (crowd.stationsToOffer 7).length ≤
        32 := by
  refine ⟨by decide +kernel, by decide +kernel, by decide +kernel, rfl, rfl, rfl, rfl,
    by decide +kernel, by decide, rfl, by decide +kernel, by decide, rfl, rfl, rfl,
    by decide +kernel, crowd_passes, by decide +kernel, by decide +kernel⟩

/-- The desk at P6 clears its call, and the third call waits for a desk. -/
theorem witness_ClearFreesADesk :
    let s := withDeskCaller (held (atDesk .connected))
    let c := atDesk .connected
    (s.port 6).present = true ∧ (s.port 6).function = .concierge ∧ (s.port 6).check = false ∧
      s.hold 6 = some { call := ref1, role := .desk } ∧ s.call? ref1 = some c ∧
      c.leg = .concierge ∧ c.state = .connected ∧ c.deskPort = some 6 ∧ c.channel = none ∧
      (s.port c.origin).function = .entrance ∧ s.psw.deskQueue = ref3 :: [] ∧
      ref3.slot ≠ ref1.slot ∧ s.call? ref3 = some deskCaller ∧ deskCaller.origin ≠ c.origin ∧
      ∀ o ∈ deskCaller.offers, o.status ≠ .queued := by
  refine ⟨rfl, rfl, rfl, rfl, rfl, rfl, rfl, rfl, rfl, rfl, rfl, by decide, rfl, by decide, by decide⟩

/-- CANCEL and CLEAR that are discarded: from ports that no call holds, from the desk that rings, from an
ABSENT port and from ports of the other function. -/
theorem witness_CancelAndClearDiscarded :
    ((site.port 0).present = true ∧ (site.port 0).function = .entrance ∧ site.hold 0 = none) ∧
      ((site.port 6).present = true ∧ (site.port 6).function = .concierge ∧ site.hold 6 = none) ∧
      (let s := held (atDesk .ringing)
       (s.port 6).present = true ∧ (s.port 6).function = .concierge ∧
         s.hold 6 = some { call := ref1, role := .desk } ∧ s.call? ref1 = some (atDesk .ringing) ∧
         (atDesk .ringing).state ≠ .connected) ∧
      (site.port 1).present = false ∧ (site.port 6).function ≠ .entrance ∧
      (site.port 0).function ≠ .concierge := by
  constructorm* _ ∧ _ <;> first
    | rfl
    | decide

/-- Slots 0, 17 and 1, and a generation that is not the call's. -/
theorem witness_EndCallRequestForcesTheEnd :
    Asks site (.endCall 1 0 1) ∧
      Asks site (.endCall 1 17 1) ∧
      Asks (held visitor) (.endCall 1 1 2) ∧
      (held visitor).call? { slot := 0, gen := 2 } = none ∧
      Asks (held visitor) (.endCall 1 1 1) ∧
      ref1.slot.val + 1 = 1 ∧ ref1.gen.toNat = 1 ∧
      (held visitor).call? ref1 = some visitor ∧
      (held visitor).NoWaiters ref1 visitor := by
  constructorm* _ ∧ _ <;> first
    | exact asks rfl rfl rfl rfl
    | exact held_noWaiters _
    | rfl

/-- A call that is OFFERING, with no timer. -/
def timerless : Call := { visitor with state := .offering, timer := none }

theorem witness_CallTimerExpiryEndsTheCall :
    (held channelWaiter).call? ref1 = some channelWaiter ∧
      (held channelWaiter).NoWaiters ref1 channelWaiter ∧
      channelWaiter.waitingFor = some .channel ∧
      channelWaiter.timer = some { kind := .pathWait, expiry := 15000 } ∧
      (held deskWaiter).call? ref1 = some deskWaiter ∧ deskWaiter.waitingFor = some .desk ∧
      (held { visitor with deskVisited := true }).call? ref1 =
        some { visitor with deskVisited := true } ∧
      visitor.timer = some { kind := .ring, expiry := 30000 } ∧ outward.kind ≠ .visitor ∧
      (atDesk .ringing).timer = some { kind := .deskRing, expiry := 20000 } ∧
      (held talking).call? ref1 = some talking ∧
      talking.timer = some { kind := .talk, expiry := 120000 } ∧
      (held timerless).call? ref1 = some timerless ∧ timerless.timer = none ∧
      (held timerless).NoWaiters ref1 timerless := by
  constructorm* _ ∧ _ <;> first
    | exact held_noWaiters _
    | rfl
    | decide

/-- A call with another timer running, one with none, and a stale reference. -/
theorem witness_CallTimerIdle :
    (∀ c, (held talking).call? ref1 = some c → c.timer.map (fun t => t.kind) ≠ some .ring) ∧
      (∀ c, (held timerless).call? ref1 = some c →
        c.timer.map (fun t => t.kind) ≠ some .pathWait) ∧
      (held talking).call? ref2 = none ∧
      ∀ c, (held talking).call? ref2 = some c → c.timer.map (fun t => t.kind) ≠ some .talk := by
  refine ⟨?_, ?_, by decide +kernel, ?_⟩
  · rintro c ⟨⟩
    decide
  · rintro c ⟨⟩
    decide
  · intro c h
    have e : (held talking).call? ref2 = none := by decide +kernel
    rw [e] at h
    cases h

/-- The call of the tests while 0.11 rings and the OFFER to 0.12 is still queued. -/
def partly : Call :=
  { visitor with offers :=
    [{ station := 11, status := .ringing, tag := none },
      { station := 12, status := .queued, tag := none }] }
def partlySent : State :=
  (held partly).modifyRiser 0 fun x =>
    { x with queue := [{ entry := .solicited (.offer 12 ref1 .visitor 0), sending := false }] }

theorem partlySent_holds :
    ∀ o ∈ partly.offers, o.status = .queued → (partlySent.riser 0).HoldsOffer o.station ref1 := by
  intro o h e
  obtain rfl | rfl : o = _ ∨ o = _ := by simpa [partly] using h
  · cases e
  · exact ⟨.visitor, 0, List.mem_singleton.mpr rfl⟩

/-- The riser of a call that rings 0.11, whose OFFER to 0.12 is outstanding with its resend due, and whose
OFFER to 0.13 waits in the queue. -/
def threefold : Call :=
  { visitor with offers :=
    [{ station := 11, status := .ringing, tag := none },
      { station := 12, status := .sent, tag := some 3 },
      { station := 13, status := .queued, tag := none }] }
def threefoldSent : State :=
  (held threefold).modifyRiser 0 fun x =>
    { x with queue := [{ entry := .solicited (.offer 13 ref1 .visitor 0), sending := false }]
             outstanding := [{ offer12 with attempt := 2, timer := none }], resends := [3] }

/-- R75, R83, R84: the end of that call gives its riser the CANCELs of 0.11 and 0.12, marks the request of
0.12 and takes its resend back, and withdraws the OFFER to 0.13; a QUIET riser is given a frame. -/
theorem witness_FramesAreGiven :
    let x := threefoldSent.riser 0
    let es := threefold.cancelsAtEnd ref1 .cancelled
    (x.outstanding.map fun o => o.tag).Nodup ∧
      es.map (fun e => e.cancels (.offer 12 ref1 .visitor 0)) = [false, true] ∧ 3 ∈ x.resends ∧
      threefold.queuedStations = [13] ∧ x.framesWithout ref1 [13] = [] ∧
      (∀ o ∈ threefold.offers, o.status = .queued → x.HoldsOffer o.station ref1) ∧
      (threefold.offers.map fun o => o.station).Nodup ∧
      x.queue.length + es.length ≤
        32 + (threefold.offers.filter fun o => decide (o.status = .queued)).length ∧
      threefoldSent.call? ref1 = some threefold ∧ threefoldSent.NoWaiters ref1 threefold ∧
      threefoldSent.riserOfCall threefold = some 0 ∧
      (let q := (held visitor).modifyRiser 0 fun x => { x with link := .quiet, idleTimer := none }
       (q.riser 0).link = .quiet ∧ (q.riser 0).link.isOff = false ∧
         visitor.cancelsAtEnd ref1 .cancelled ≠ [] ∧ q.stationsToOffer 5 = [11, 12]) := by
  refine ⟨by decide +kernel, by decide +kernel, by decide +kernel, by decide +kernel,
    by decide +kernel, ?_, by decide, by decide +kernel, rfl, held_noWaiters _, rfl, rfl, rfl,
    by decide, by decide +kernel⟩
  intro o h e
  obtain rfl | rfl | rfl : o = _ ∨ o = _ ∨ o = _ := by simpa [threefold] using h
  · cases e
  · cases e
  · exact ⟨.visitor, 0, List.mem_singleton.mpr rfl⟩

/-- R75, R83, R84: what the CANCEL of that call leaves of its riser. -/
theorem test_end_of_call_at_its_riser :
    let t := after (exec (.panelCancel 0) threefoldSent)
    (t.riser 0).frames = [.advisory (.cancel 11 .callerGone (some ref1)),
        .advisory (.cancel 12 .callerGone (some ref1))] ∧
      (t.riser 0).outstanding =
        [{ offer12 with attempt := 2, cancelPending := true, timer := some 250 }] ∧
      (t.riser 0).resends = [] := by
  decide +kernel

theorem witness_UnansweredVisitorDiverts :
    let s := partlySent
    s.call? ref1 = some partly ∧ partly.kind = .visitor ∧ partly.deskVisited = false ∧
      partly.flat = some 5 ∧ (s.flat 5).divert = true ∧
      partly.timer = some { kind := .ring, expiry := 30000 } ∧
      partly.channel = some { riser := 0, side := .a } ∧ (s.flat 5).riser = 0 ∧
      (s.paths 0).queue = [] ∧ s.eligible 6 = true ∧
      (∀ q, q < (6 : PortIx) → s.eligible q = false) ∧ (s.riser 0).link.isOff = false ∧
      (s.riser 0).overrunDue = false ∧
      (s.riser 0).queue.length + partly.offers.length ≤ 32 ∧
      (∀ o ∈ partly.offers, o.status = .queued → (s.riser 0).HoldsOffer o.station ref1) ∧
      (partly.offers.map fun o => o.station).Nodup ∧
      (s.port partly.origin).function ≠ .off ∧
      (let u := s.modifyPort 6 fun x => { x with check := true }
       u.call? ref1 = some partly ∧ (∃ q, (u.port q).function = .concierge) ∧
         ∀ q, u.eligible q = false) := by
  refine ⟨rfl, rfl, rfl, rfl, rfl, rfl, rfl, rfl, rfl, by decide +kernel, by decide +kernel, rfl,
    rfl, by decide, partlySent_holds, by decide, by decide, rfl, ⟨6, rfl⟩, by decide +kernel⟩

/-! ### Panel lines -/

/-- A port whose line is busy, with the given slots. -/
def busyLine (r : Option RingLevel) (d : Option Display) (a : Option Event) : State :=
  site.modifyPort 6 fun x =>
    { x with tx := some (.display .ready), ringSlot := r, displaySlot := d, alertSlot := a }

theorem witness_PanelLineServesSlotsInOrder :
    (site.port 6).tx = none ∧ ((busyLine (some .off) (some .ready) none).port 6).tx ≠ none ∧
      ((busyLine (some .off) (some .ready) none).port 6).present = true ∧
      ((busyLine (some .off) (some .ready) none).port 6).function ≠ .off ∧
      ((busyLine (some .off) (some .ready) none).port 6).ringSlot = some .off ∧
      ((busyLine none (some .ready) none).port 6).displaySlot = some .ready ∧
      ((busyLine none none (some (.privacyChange 5 true))).port 6).alertSlot =
        some (.privacyChange 5 true) ∧
      ((busyLine none none none).port 6).tx ≠ none := by
  decide

theorem witness_PresenceChangesSetTheCheckFlag :
    (site.port 0).present = true ∧ (site.port 1).present = false ∧ site.hold 0 = none ∧
      ((held visitor).port 0).present = true ∧ (held visitor).call? ref1 = some visitor ∧
      (held visitor).NoWaiters ref1 visitor ∧
      (held visitor).hold 0 = some { call := ref1, role := .origin } ∧
      ((held (atDesk .ringing)).port 6).present = true ∧
      (held (atDesk .ringing)).call? ref1 = some (atDesk .ringing) ∧
      (held (atDesk .ringing)).NoWaiters ref1 (atDesk .ringing) ∧
      (held (atDesk .ringing)).hold 6 = some { call := ref1, role := .desk } := by
  constructorm* _ ∧ _ <;> first
    | exact held_noWaiters _
    | rfl

/-! ### Frames of stations -/

/-- Riser 0 hears a station that is not ABSENT, at the first and at the last address. -/
theorem held_hears (c : Call) :
    ((held c).riser 0).link = .active ∧ ((held c).riser 0).overrunDue = false ∧
      ((held c).riser 0).tx = none ∧ (((held c).riser 0).station 1).presence ≠ .absent ∧
      (((held c).riser 0).station 62).presence ≠ .absent ∧
      ((held c).riser 0).queue.length < 32 := by
  refine ⟨rfl, rfl, rfl, ?_, ?_, ?_⟩
  · show Presence.unknown ≠ .absent
    decide
  · show Presence.unknown ≠ .absent
    decide
  · show 0 < 32
    decide

/-- No other slot than the first holds a call. -/
theorem held_alone (c : Call) (j : SlotIx) (h : j ≠ ref1.slot) : ((held c).slot j).call = none := by
  have e : (held c).slot j = site.slot j := Table.read_write_ne _ _ (fun e => h e.symm)
  rw [e]
  exact site_no_call j

/-- A station that rings answers while another OFFER is queued. -/
theorem witness_LiftAnswersOrIsTurnedAway :
    let s := partlySent
    (s.riser 0).link = .active ∧ (s.riser 0).overrunDue = false ∧ (s.riser 0).tx = none ∧
      ((s.riser 0).station 11).presence ≠ .absent ∧
      s.call? ref1 = some partly ∧ partly.leg = .flat ∧ partly.state = .ringing ∧
      partly.answerer = none ∧ s.riserOfCall partly = some 0 ∧
      (∃ o ∈ partly.offers, o.station = 11 ∧ o.status = .ringing) ∧
      (∀ o ∈ partly.offers, o.status = .queued → (s.riser 0).HoldsOffer o.station ref1) ∧
      (partly.offers.map fun o => o.station).Nodup ∧
      (∀ j d, j ≠ ref1.slot → (s.slot j).call = some d → s.riserOfCall d = some 0 →
        ∀ o ∈ d.offers, o.station ≠ 11) ∧
      partly.channel = some { riser := 0, side := .a } ∧
      (s.riser 0).queue.length + 1 + partly.offers.length ≤ 32 := by
  refine ⟨rfl, rfl, rfl, by decide, rfl, rfl, rfl, rfl, rfl, by decide, partlySent_holds, by decide,
    ?_, rfl, by decide⟩
  intro j d h e
  have hj : (partlySent.slot j).call = none := held_alone partly j h
  rw [hj] at e
  cases e

/-- A station of no call and no flat; the answerer of a call; the other station of its flat; and a
station whose offer is still QUEUED. -/
theorem witness_LiftIsTurnedAway :
    ((site.riser 0).link = .active ∧ (site.riser 0).overrunDue = false ∧
        (site.riser 0).tx = none ∧ ((site.riser 0).station 62).presence ≠ .absent ∧
        (∀ j d, (site.slot j).call ≠ some d) ∧ (site.riser 0).queue.length < 32 ∧
        (∀ i, (site.flat i).inService = true → 62 ∉ (site.flat i).stations)) ∧
      (((held talking).slot 0).call = some talking ∧ talking.leg = .flat ∧
        talking.state = .connected ∧ talking.answerer = some 11 ∧
        (held talking).riserOfCall talking = some 0 ∧
        (∀ j d, j ≠ (0 : SlotIx) → ((held talking).slot j).call ≠ some d)) ∧
      ((site.flat 5).inService = true ∧ (site.flat 5).riser = 0 ∧ 12 ∈ (site.flat 5).stations ∧
        (∀ k, (site.flat k).inService = true → k = 5) ∧ talking.flat = some 5 ∧
        talking.answerer ≠ some 12 ∧ (held talking).call? ref1 = some talking) ∧
      (∀ o ∈ partly.offers, o.station = 12 → o.status ≠ .sent ∧ o.status ≠ .ringing) := by
  refine ⟨⟨rfl, rfl, rfl, by decide, ?_, by decide, ?_⟩, ⟨rfl, rfl, rfl, rfl, rfl, ?_⟩,
    ⟨rfl, rfl, by decide, site_one_flat, rfl, by decide, rfl⟩, by decide⟩
  · intro j d e
    rw [site_no_call] at e
    cases e
  · intro i h
    rw [site_one_flat i h]
    decide
  · intro j d h e
    rw [held_alone talking j h] at e
    cases e

theorem witness_HangupEndsTheStationsCall :
    (held talking).stationsCall? 0 11 = some (ref1, talking) ∧
      (held talking).call? ref1 = some talking ∧ (held talking).NoWaiters ref1 talking ∧
      (held talking).stationsCall? 0 62 = none := by
  refine ⟨by decide +kernel, rfl, held_noWaiters _, by decide +kernel⟩

/-- The call of the tests while no handset has replied. -/
def offering : Call :=
  { visitor with
    state := .offering, timer := none
    offers := [{ station := 12, status := .sent, tag := some 3 }] }

/-- A POLL to the last station is outstanding with the last tag. -/
def polled : State :=
  site.modifyRiser 0 fun x =>
    { x with
      outstanding :=
        [{ tag := 15, frame := .poll 62, attempt := 1, cancelPending := false, timer := some 250 }]
      freeTags := List.range 15 }

/-- The same while 0.11 has not replied either. -/
def offeringBoth : Call :=
  { offering with offers :=
    [{ station := 11, status := .sent, tag := some 2 },
      { station := 12, status := .sent, tag := some 3 }] }

/-- REPLY from 0.12 to the OFFER of tag 3: the call has no other handset (it goes on with RINGING and
ends with any other result), has another, is no longer OFFERING, has been answered there, or is gone. -/
theorem witness_RepliesCompleteTheirRequests :
    (∀ c ∈ [offering, offeringBoth, visitor, { talking with answerer := some 12, offers :=
        visitor.offers }],
      ((held c).riser 0).link = .active ∧ ((held c).riser 0).overrunDue = false ∧
        ((held c).riser 0).tx = none ∧
        ((held c).riser 0).outstanding.find?
          (fun q => decide (q.tag = 3) && decide (q.frame.station = 12)) = some offer12 ∧
        ((held c).riser 0).queue = [] ∧ ((held c).riser 0).resends = [] ∧
        (∀ y, ((held c).paths y).queue = []) ∧
        (∀ q ∈ ((held c).riser 0).outstanding, q.tag ≠ 3 → q.frame.isOfferOf 12 ref1 = false) ∧
        (held c).call? ref1 = some c ∧ (c.state = .offering → c.answerer = none) ∧
        ∃ f ∈ c.offers, f.Named 12 3) ∧
      (offering.answerer ≠ some 12 ∧ offering.state = .offering ∧
        (∀ o ∈ (offering.marked 12 3 .engaged).offers, ¬ o.Open) ∧
        (∃ o ∈ (offering.marked 12 3 .engaged).offers, o.status = .engaged) ∧
        (∀ o ∈ (offering.marked 12 3 .unsupported).offers,
          o.status ≠ .engaged ∧ o.status ≠ .refused) ∧
        (held offering).NoWaiters ref1 offering) ∧
      (∃ o ∈ (offeringBoth.marked 12 3 .refused).offers, o.Open) ∧
      visitor.state ≠ .offering ∧
      (held visitor).call? ref3 = none := by
  refine ⟨?_, ⟨by decide, rfl, ?_, ?_, ?_, held_noWaiters _⟩, ?_, by decide, by decide +kernel⟩
  · intro c h
    simp only [List.mem_cons, List.not_mem_nil, or_false] at h
    obtain rfl | rfl | rfl | rfl := h <;>
      refine ⟨rfl, rfl, rfl, by decide +kernel, rfl, rfl, by decide +kernel, by decide +kernel, rfl,
        by decide, ?_⟩ <;>
      exact ⟨{ station := 12, status := .sent, tag := some 3 }, by decide, rfl, rfl, rfl⟩
  · unfold Offer.Open
    decide
  · decide
  · decide
  · unfold Offer.Open
    decide

/-- REPLY to a POLL of the last station, and a REPLY that matches no request. -/
theorem witness_PollRepliesAndUnmatched :
    ((polled.riser 0).link = .active ∧ (polled.riser 0).overrunDue = false ∧
      (polled.riser 0).tx = none ∧ (polled.riser 0).queue = [] ∧
      (polled.riser 0).resends = [] ∧ (polled.riser 0).runOut = false ∧
      (polled.riser 0).outstanding.find?
          (fun q => decide (q.tag = 15) && decide (q.frame.station = 62)) =
        some { tag := 15, frame := .poll 62, attempt := 1, cancelPending := false
               timer := some 250 }) ∧
      ∀ q ∈ (polled.riser 0).outstanding, ¬ (q.tag = 15 ∧ q.frame.station = 61) := by
  decide

/-- A state with the privacy flag of 0.12 set, and with it the privacy of flat 5 (R48). -/
def withFlag (s : State) : State :=
  (s.modifyRiser 0 fun x => x.modifyStation 12 fun t => { t with privacy := true }).setFlat 5
    { home with privacy := true }

/-- The level of the REPLY to the OFFER is another than the flag: it sets the flag of 0.12, and clears it;
and 0.12 may be ABSENT. -/
theorem witness_RepliesThatTurnTheFlag :
    let lost := (held offering).modifyRiser 0 fun x =>
      x.modifyStation 12 fun t => { t with presence := .absent }
    (held offering).flagEvents 0 12 (decide (1 ≠ 0)) = [.privacyChange 5 true] ∧
      (withFlag (held offering)).flagEvents 0 12 (decide (0 ≠ 0)) = [.privacyChange 5 false] ∧
      ((withFlag (held offering)).riser 0).link = .active ∧
      ((withFlag (held offering)).riser 0).outstanding.find?
        (fun q => decide (q.tag = 3) && decide (q.frame.station = 12)) = some offer12 ∧
      (withFlag (held offering)).call? ref1 = some offering ∧
      ((lost.riser 0).station 12).presence = .absent ∧ (lost.riser 0).link = .active := by
  decide +kernel

/-- REPLY to the POLL with the run-out mark set: the riser may go QUIET, or quiet is not allowed, or a call
holds its channel A; and the level of the REPLY is another than the flag of 0.62, which no flat uses. -/
theorem witness_PollRepliesAfterRunOut :
    let s := fun (quiet : Bool) => polled.modifyRiser 0 fun x =>
      { x with runOut := true, quietAllowed := quiet }
    let idle := fun (s : State) =>
      (s.riser 0).runOut = true ∧ (s.riser 0).quietAllowed = true ∧ (s.riser 0).frames = [] ∧
        (s.riser 0).outstanding.filter (fun q => decide (q.tag ≠ 15)) = [] ∧
        s.paths 0 = { holderA := none, holderB := none, queue := [] }
    let held := (s true).setPaths 0 { holderA := some ref1, holderB := none, queue := [] }
    idle (s true) ∧ ¬ idle (s false) ∧ ¬ idle held ∧ ((s true).riser 0).link = .active ∧
      ((s true).riser 0).outstanding.find?
          (fun q => decide (q.tag = 15) && decide (q.frame.station = 62)) =
        some { tag := 15, frame := .poll 62, attempt := 1, cancelPending := false
               timer := some 250 } ∧
      (((s true).riser 0).station 62).privacy ≠ decide (1 ≠ 0) ∧
      (s true).flagEvents 0 62 (decide (1 ≠ 0)) = [] := by
  decide +kernel

/-- Section 5.5: a REPLY with RINGING and privacy on turns the flat on and raises its PRIVACY_CHANGE, and
the call rings. -/
theorem test_stationReply_privacy :
    let t := after (exec (.stationReply 0 12 3 2 1) (held offering))
    (t.flat 5).privacy = true ∧
      t.noticeLine.getLast? = some { lostMark := false, content := .event (.privacyChange 5 true) } ∧
      (t.call? ref1).map (fun c => c.state) = some .ringing := by
  decide +kernel

/-- Station 0.12 belongs to flat 5 and 0.62 to no flat; the flag of 0.62 is set; and so is, in another
state, that of 0.12. -/
theorem witness_PrivacyFrameSetsFlagAndFlats :
    let s := site.modifyRiser 0 fun x => x.modifyStation 62 fun t => { t with privacy := true }
    (s.riser 0).link = .active ∧ (s.riser 0).overrunDue = false ∧ (s.riser 0).tx = none ∧
      ((s.riser 0).station 12).presence ≠ .absent ∧ ((s.riser 0).station 12).privacy = false ∧
      ((s.flat 5).riser = 0 ∧ 12 ∈ (s.flat 5).stations) ∧
      ((s.riser 0).station 62).presence ≠ .absent ∧ ((s.riser 0).station 62).privacy = true ∧
      ¬ ((s.flat 5).riser = 0 ∧ 62 ∈ (s.flat 5).stations) ∧
      ((((site.modifyRiser 0 fun x => x.modifyStation 12 fun t => { t with privacy := true }).riser 0
        ).station 12).privacy = true) := by
  decide

/-- The answerer at 0.11 with door 0 permitted: the lock SECURE, claimed by the call, claimed by the
host; door 0 not permitted; an origin that is no entrance; and a handset in no call. -/
theorem witness_HandsetDoorIsAnswered :
    let s := held talking
    let lock := fun (c : Claim) => s.setLock 0 { Lock.cold with state := .released, claim := some c }
    let closed := s.setFlat 5 { home with doors := 0 }
    let noDoor := s.modifyPort 0 fun x => { x with function := .concierge }
    s.stationsCall? 0 62 = none ∧ s.stationsCall? 0 11 = some (ref1, talking) ∧
      talking.flat = some 5 ∧ (s.port 0).function = .entrance ∧
      (s.flat 5).doors.getLsbD 0 = true ∧ (s.lock 0).state = .secure ∧
      (lock (.call ref1)).stationsCall? 0 11 = some (ref1, talking) ∧
      ((lock (.call ref1)).lock 0).claim = some (.call ref1) ∧
      ((lock (.host 1)).lock 0).state = .released ∧
      ((lock (.host 1)).lock 0).claim ≠ some (.call ref1) ∧
      closed.stationsCall? 0 11 = some (ref1, talking) ∧
      ¬ ((closed.flat 5).doors.getLsbD 0 = true) ∧
      noDoor.stationsCall? 0 11 = some (ref1, talking) ∧
      (noDoor.port 0).function ≠ .entrance := by
  decide +kernel

/-- The kinds next to the known ones, with and without the mark, and the last byte. -/
theorem witness_UnknownAndBadStationFrames :
    (site.riser 0).overrunDue = false ∧ (site.riser 0).link = .active ∧
      (site.riser 0).tx = none ∧ ((site.riser 0).station 1).presence ≠ .absent ∧
      (site.riser 0).queue.length < 32 ∧
      ∀ k ∈ [0, 7, 128, 135, 255], k < 256 ∧ ¬ (1 ≤ k % 128 ∧ k % 128 ≤ 6) := by
  decide

/-- Riser 0 QUIET, WAKING and ACTIVE, with survey on, off and transmitting; station 0.62 ABSENT; a REPLY to
the POLL of it, and one that matches nothing; addresses 0 and 63. -/
theorem witness_StationsAreHeard :
    let away := fun (l : LinkState) => polled.modifyRiser 0 fun x =>
      { (x.modifyStation 62 fun _ => { presence := .absent, privacy := false }) with
        link := l, survey := true, wakeTimer := if l = .waking then some 200 else none }
    (∀ l ∈ [LinkState.active, .quiet, .waking],
      ((away l).riser 0).overrunDue = false ∧ ((away l).riser 0).link = l ∧
        ((away l).riser 0).link.isOff = false ∧ ((away l).riser 0).tx = none ∧
        ((away l).riser 0).survey = true ∧ (((away l).riser 0).station 62).presence = .absent ∧
        (((away l).riser 0).outstanding.find? fun q =>
          decide (q.tag = 15) && decide (q.frame.station = 62)).any (fun q => q.frame.isPoll) =
            true) ∧
      (∀ l ∈ [LinkState.disabled, .faulted], ((away l).riser 0).link.isOff = true) ∧
      ¬ (1 ≤ 0 ∧ 0 ≤ 62) ∧ ¬ (1 ≤ 63 ∧ 63 ≤ 62) := by
  decide +kernel

/-- R76, R92: a HANGUP of an ABSENT station on a WAKING riser makes the riser ACTIVE at once, and
STATION_CHANGE is raised. -/
theorem test_hangup_wakes :
    let s := site.modifyRiser 0 fun x =>
      { (x.modifyStation 12 fun _ => { presence := .absent, privacy := false }) with
        link := .waking, wakeTimer := some 200 }
    let t := after (exec (.stationHangup 0 12) s)
    (t.riser 0).link = .active ∧ (t.riser 0).wakeTimer = none ∧
      ((t.riser 0).station 12).presence = .present ∧
      t.noticeLine = s.noticeLine ++
        [{ lostMark := false, content := .event (.stationChange 0 12 .present) }] := by
  decide +kernel

/-! ### Riser lines and timers -/

/-- Riser 0 of the site with a frame on its line. -/
def onLine (x : RiserTx) : State := site.modifyRiser 0 fun y => { y with tx := some x }

theorem witness_TransmissionEndFreesTheLine :
    (site.riser 0).overrunDue = false ∧ (site.riser 0).tx = none ∧
      (site.riser 0).frames = [] ∧ (site.riser 0).resends = [] ∧
      ((onLine (.entry (.advisory (.notSupported 1 0x87)))).riser 0).tx =
        some (.entry (.advisory (.notSupported 1 0x87))) ∧
      ((onLine (.entry (.solicited 0 (.offer 11 ref1 .visitor 0)))).riser 0).tx =
        some (.entry (.solicited 0 (.offer 11 ref1 .visitor 0))) ∧
      ((onLine (.entry (.solicited 0 (.poll 1)))).riser 0).tx =
        some (.entry (.solicited 0 (.poll 1))) ∧
      ((onLine (.resend (.solicited 15 (.offer 11 ref1 .visitor 0)))).riser 0).tx =
        some (.resend (.solicited 15 (.offer 11 ref1 .visitor 0))) ∧
      ((onLine (.resend (.solicited 15 (.poll 62)))).riser 0).tx =
        some (.resend (.solicited 15 (.poll 62))) :=
  ⟨rfl, rfl, rfl, rfl, rfl, rfl, rfl, rfl, rfl⟩

/-- Riser 0 at the end of an advisory, with this queue behind it, these tags outstanding and these resends
due. -/
def ending (q : List QueueEntry) (tags due : List Nat) : State :=
  { site.modifyRiser 0 fun y =>
      { y with
        queue := { entry := .advisory (.notSupported 1 0x87), sending := true } ::
          q.map fun e => { entry := e, sending := false }
        tx := some (.entry (.advisory (.notSupported 1 0x87)))
        outstanding := tags.map fun t =>
          { tag := t, frame := .poll 1, attempt := 1, cancelPending := false, timer := none }
        resends := due
        freeTags := (List.range 16).drop tags.length } with
    hlp := { site.hlp with syncs := [{ num := 9, riser := 0 }, { num := 8, riser := 0 }] } }

/-- R79: the riser once the entry in transmission has left its queue. -/
def ended (s : State) : Riser :=
  { s.riser 0 with queue := (s.riser 0).queue.eraseP fun i => i.sending, tx := none }

/-- A solicited frame with three and with four requests outstanding, an advisory behind it; a resend that
is due; a marker with an advisory ahead of it and one without, their RISER SYNCs pending. -/
theorem witness_SendingRuleChooses :
    let q := [QueueEntry.marker 9, .solicited (.poll 5), .advisory (.notSupported 2 0x87), .marker 8]
    (ended (ending q [0, 1, 2] [])).nextFrame = some (.solicited (.poll 5)) ∧
      (ended (ending q [0, 1, 2] [])).freeTags ≠ [] ∧
      (ended (ending q [0, 1, 2, 3] [])).nextFrame = some (.advisory (.notSupported 2 0x87)) ∧
      (ended (ending q [0] [0])).resends = 0 :: [] ∧
      (ended (ending q [0] [0])).frameOf 0 = some (.poll 1) ∧
      (ended (ending [] [] [])).nextFrame = none ∧ (ended (ending [] [] [])).resends = [] ∧
      (ended (ending q [] [])).markersFree = [9] ∧ (ended (ending q [] [])).markersHeld = [8] ∧
      (∀ m, (ended (ending q [] [])).markersFree.count m ≤
        (ending q [] []).hlp.syncs.count { num := m, riser := 0 }) ∧
      (ended (ending q [] [])).link = .active ∧ (ended (ending q [] [])).receiving = none := by
  refine ⟨rfl, by decide, rfl, rfl, rfl, rfl, rfl, rfl, rfl, ?_, rfl, rfl⟩
  intro m
  by_cases h : m = 9
  · subst h
    decide
  · exact le_of_eq_of_le (List.count_eq_zero.mpr fun k => h (List.mem_singleton.mp k))
      (Nat.zero_le _)

/-- R79, R87: four requests are outstanding, so the advisory passes the POLL; the marker ahead of it has
completed DRAINED and the one behind it waits. -/
theorem test_stalled_frame_is_passed :
    let t := after (exec (.riserTxEnd 0) (ending [.marker 9, .solicited (.poll 5),
      .advisory (.notSupported 2 0x87), .marker 8] [0, 1, 2, 3] []))
    (t.riser 0).tx = some (.entry (.advisory (.notSupported 2 0x87))) ∧
      (t.riser 0).markers = [8] ∧ t.hlp.syncs = [{ num := 8, riser := 0 }] ∧
      t.hlp.replyLine = [⟨0x14, 9, .ok, .sync 0 .drained⟩] := by
  decide +kernel

/-- One outstanding request of riser 0. -/
def asking (o : Outstanding) : State := site.modifyRiser 0 fun x => { x with outstanding := [o] }

theorem witness_ReplyTimeoutResendsThenGivesUp :
    let mark := { offer12 with cancelPending := true }
    let last : Outstanding :=
      { tag := 15, frame := .poll 62, attempt := 2, cancelPending := false, timer := some 500 }
    ((asking offer12).riser 0).overrunDue = false ∧
      ((asking offer12).riser 0).outstanding.find? (fun q => decide (q.tag = 3)) = some offer12 ∧
      offer12.timer = some 250 ∧ offer12.attempt = 1 ∧ offer12.cancelPending = false ∧
      ((asking offer12).riser 0).link = .active ∧ ((asking offer12).riser 0).tx = none ∧
      ((asking offer12).riser 0).receiving = none ∧ ((asking offer12).riser 0).resends = [] ∧
      (((asking offer12).modifyRiser 0 fun x =>
        { x with tx := some (.entry (.advisory (.notSupported 1 0x87))) }).riser 0).tx ≠ none ∧
      ((asking mark).riser 0).outstanding.find? (fun q => decide (q.tag = 3)) = some mark ∧
      mark.attempt = 1 ∧ mark.cancelPending = true ∧
      ((asking last).riser 0).outstanding.find? (fun q => decide (q.tag = 15)) = some last ∧
      last.attempt ≠ 1 ∧ last.frame = .poll 62 ∧ ((asking last).riser 0).queue = [] := by
  decide

/-- The second attempt of the OFFER to 0.12 runs out: the call has no other handset, has another, was
answered there, or is gone. -/
theorem witness_LastOfferRunsOut :
    let o := { offer12 with attempt := 2 }
    let s := fun (c : Call) => (held c).modifyRiser 0 fun x => { x with outstanding := [o] }
    (∀ c ∈ [offering, offeringBoth, { talking with answerer := some 12, offers := visitor.offers }],
      ((s c).riser 0).overrunDue = false ∧
        ((s c).riser 0).outstanding.find? (fun q => decide (q.tag = o.tag)) = some o ∧
        o.timer = some 250 ∧ o.attempt ≠ 1 ∧ o.frame = .offer 12 ref1 .visitor 0 ∧
        ((s c).riser 0).queue = [] ∧ ((s c).riser 0).resends = [] ∧
        (∀ z, ((s c).paths z).queue = []) ∧ (s c).call? ref1 = some c ∧
        (c.state = .offering → c.answerer = none) ∧ ∃ f ∈ c.offers, f.Named 12 o.tag) ∧
      (offering.answerer ≠ some 12 ∧ offering.state = .offering ∧
        (∀ f ∈ (offering.marked 12 3 .noReply).offers, ¬ f.Open) ∧
        (∀ f ∈ (offering.marked 12 3 .noReply).offers,
          f.status ≠ .engaged ∧ f.status ≠ .refused)) ∧
      (∃ f ∈ (offeringBoth.marked 12 3 .noReply).offers, f.Open) ∧
      (asking o).call? ref1 = none := by
  refine ⟨?_, ⟨by decide, rfl, ?_, by decide⟩, ?_, by decide +kernel⟩
  · intro c h
    simp only [List.mem_cons, List.not_mem_nil, or_false] at h
    obtain rfl | rfl | rfl := h <;>
      refine ⟨rfl, by decide +kernel, rfl, by decide, rfl, rfl, rfl, by decide +kernel, rfl,
        by decide, ?_⟩ <;>
      exact ⟨{ station := 12, status := .sent, tag := some 3 }, by decide, rfl, rfl, rfl⟩
  · unfold Offer.Open
    decide
  · unfold Offer.Open
    decide

/-- The second attempt runs out for a station whose flag is set, without the cancel-pending mark (the flag
is cleared and flat 5 follows) and with it; and the riser has then nothing left to do and may go QUIET. -/
theorem witness_LastAttemptClearsTheFlag :
    let o := { offer12 with attempt := 2 }
    let mark := { o with cancelPending := true }
    let s := withFlag ((asking o).modifyRiser 0 fun x => { x with runOut := true, quietAllowed := true })
    (s.riser 0).overrunDue = false ∧ (s.riser 0).link = .active ∧ (s.riser 0).runOut = true ∧
      (s.riser 0).quietAllowed = true ∧ (s.riser 0).queue = [] ∧
      (s.riser 0).outstanding.find? (fun q => decide (q.tag = o.tag)) = some o ∧
      o.timer = some 250 ∧ o.attempt ≠ 1 ∧ o.cancelPending = false ∧
      o.frame = .offer 12 ref1 .visitor 0 ∧ ((s.riser 0).station 12).privacy = true ∧
      s.flagEvents 0 12 false = [.privacyChange 5 false] ∧ s.call? ref1 = none ∧
      s.paths 0 = { holderA := none, holderB := none, queue := [] } ∧
      ((withFlag (asking mark)).riser 0).outstanding.find? (fun q => decide (q.tag = mark.tag)) =
        some mark ∧
      mark.attempt ≠ 1 ∧ mark.cancelPending = true ∧
      (((withFlag (asking mark)).riser 0).station 12).privacy = true := by
  decide +kernel

/-- Section 5.5: a POLL to a handset with its flag set completes NO_REPLY: its flat goes off. -/
theorem test_replyTimeout_clearsFlag :
    let last : Outstanding :=
      { tag := 15, frame := .poll 12, attempt := 2, cancelPending := false, timer := some 500 }
    let t := after (exec (.replyTimeout 0 15) (withFlag (asking last)))
    (t.flat 5).privacy = false ∧ (t.riser 0).station 12 = { presence := .absent, privacy := false } ∧
      t.noticeLine.getLast? =
        some { lostMark := false, content := .event (.privacyChange 5 false) } := by
  decide +kernel

/-- Riser 0 with each of its timers running, its survey on and quiet allowed. -/
def timed (l : LinkState) (survey : Bool) (pos : Nat) : State :=
  site.modifyRiser 0 fun x =>
    { x with
      link := l, survey := survey, quietAllowed := true, surveyPos := pos
      idleTimer := some 60000, wakeTimer := if l = .waking then some 200 else none
      stepTimer := if survey then some 500 else none }

theorem witness_RiserTimersRunOut :
    (site.riser 0).overrunDue = false ∧ (site.riser 1).idleTimer = none ∧
      (site.riser 0).wakeTimer = none ∧ (site.riser 0).stepTimer = none ∧
      ((timed .active true 62).riser 0).idleTimer = some 60000 ∧
      ((timed .active true 62).riser 0).link = .active ∧
      ((timed .active true 62).riser 0).quietAllowed = true ∧
      ((timed .active true 62).riser 0).queue = [] ∧
      ((timed .active true 62).riser 0).outstanding = [] ∧
      ((timed .active true 62).riser 0).resends = [] ∧
      ((timed .active true 62).paths 0).holderA = none ∧
      ((timed .active true 62).paths 0).holderB = none ∧
      ((timed .active true 62).paths 0).queue = [] ∧
      ((timed .waking true 1).riser 0).wakeTimer = some 200 ∧
      ((timed .active true 62).riser 0).stepTimer = some 500 ∧
      ((timed .active true 62).riser 0).survey = true ∧
      ((timed .active true 62).riser 0).frames.filter QueueEntry.isSolicited = [] ∧
      ((timed .active true 62).riser 0).outstanding.length < 2 ∧
      ¬ (((timed .active true 62).riser 0).runOut = true ∧
        ((timed .active true 62).riser 0).quietAllowed = true) ∧
      ((timed .active true 62).riser 0).queue.length < 32 ∧
      ((timed .active true 62).riser 0).surveyPos = 62 ∧
      ((timed .active true 61).riser 0).surveyPos < 62 ∧
      ¬ (((timed .quiet true 1).riser 0).link = .active) ∧
      32 ≤ (((timed .active true 62).modifyRiser 0 fun x =>
        { x with queue := List.replicate 32 waitingAdvisory }).riser 0).queue.length := by
  decide

/-- A riser with no call, and one whose two channels are held and for which a call waits; a marker with
its pending sync. -/
theorem witness_LineFaultEmptiesTheRiser :
    LineCondition.short ≠ .good ∧
      ((site.riser 0).overrunDue = false ∧ (site.riser 0).link.isOff = false ∧
        site.callsOn 0 = []) ∧
      ((crowd.riser 0).overrunDue = false ∧ (crowd.riser 0).link.isOff = false ∧
        crowd.callsOn 0 = [ref3, ref1, ref2] ∧ crowd.PathLaw ∧ crowd.psw.deskQueue = []) ∧
      ∀ m, ((queued [{ entry := .marker 9, sending := false }]).riser 0).markers.count m ≤
        [({ num := 9, riser := 0 } : PendingSync)].count { num := m, riser := 0 } := by
  refine ⟨by decide, ⟨rfl, rfl, by decide +kernel⟩,
    ⟨by decide +kernel, by decide +kernel, by decide +kernel, crowd_pathLaw, rfl⟩, ?_⟩
  intro m
  have e : ((queued [{ entry := .marker 9, sending := false }]).riser 0).markers = [9] := rfl
  rw [e]
  by_cases h : m = 9
  · subst h
    decide
  · simp [h, eq_comm]

theorem witness_LineReportsAreTakenByLinkState :
    (site.riser 1).overrunDue = false ∧ (site.riser 1).link = .disabled ∧
      ((timed .faulted false 1).riser 0).overrunDue = false ∧
      ((timed .faulted false 1).riser 0).link = .faulted ∧
      (site.riser 0).link.isOff = false := by
  decide

/-- Overrun processing due on riser 0: with a request outstanding and no call, and with three calls. -/
def overran : State :=
  site.modifyRiser 0 fun x => { x with overrunDue := true, outstanding := [offer12] }
def overranCrowd : State := crowd.modifyRiser 0 fun x => { x with overrunDue := true }

theorem witness_OverrunEmptiesAndRestarts :
    (site.riser 0).overrunDue = false ∧
      ((overran.riser 0).overrunDue = true ∧ overran.callsOn 0 = []) ∧
      (overranCrowd.riser 0).overrunDue = true ∧ overranCrowd.callsOn 0 = [ref3, ref1, ref2] ∧
      overranCrowd.PathLaw ∧ overranCrowd.psw.deskQueue = [] :=
  ⟨rfl, ⟨by decide +kernel, by decide +kernel⟩, by decide +kernel, by decide +kernel, crowd_pathLaw,
    rfl⟩

end Sys2Proof.Tests
end

