-- ==== Sys2Proof/Proofs/PathView.lean ====
section
/-!
SUPPORT. The part of the state that `PathLaw` speaks of, as functions, and the law with calls in flight:
calls whose record is not yet (or no longer) one of its state, for which it is kept what they hold.
-/

namespace Sys2Proof.Machine

/-- A wait queue: a riser's channel wait queue or the desk wait queue. -/
inductive WaitLine where
  | channel (x : RiserIx)
  | desk
  deriving DecidableEq

/-- What the laws of the paths read of a state. -/
@[ext] structure View where
  call   : Ref → Option Call
  hold   : PortIx → Option Hold
  holder : Channel → Option Ref
  line   : WaitLine → List Ref
  home   : FlatIx → RiserIx

/-- A record without its offers, which the laws of the paths do not read. -/
def Call.bare (c : Call) : Call := { c with offers := [] }

/-- The view of a state. -/
def State.view (s : State) : View where
  call r := (s.call? r).map Call.bare
  hold := s.hold
  holder ch := (s.paths ch.riser).holder ch.side
  line
    | .channel x => (s.paths x).queue
    | .desk => s.psw.deskQueue
  home i := (s.flat i).riser

/-- What one call holds. -/
structure Holdings where
  origin  : Option PortIx
  desk    : Option PortIx
  channel : Option Channel

/-- The port held in a role. -/
def Holdings.port (h : Holdings) : Role → Option PortIx
  | .origin => h.origin
  | .desk => h.desk

/-- The port held in a role replaced. -/
def Holdings.setPort (h : Holdings) (role : Role) (p : Option PortIx) : Holdings :=
  match role with
  | .origin => { h with origin := p }
  | .desk => { h with desk := p }

/-- What the record of a call says it holds. -/
def Call.holdings (c : Call) : Holdings :=
  { origin := some c.origin, desk := c.deskPort, channel := c.channel }

@[simp] theorem Holdings.port_setPort (h : Holdings) (role k : Role) (p : Option PortIx) :
    (h.setPort role p).port k = if k = role then p else h.port k := by
  cases role <;> cases k <;> rfl

@[simp] theorem Holdings.channel_setPort (h : Holdings) (role : Role) (p : Option PortIx) :
    (h.setPort role p).channel = h.channel := by
  cases role <;> rfl

namespace View

def setCall (v : View) (r : Ref) (o : Option Call) : View :=
  { v with call := Function.update v.call r o }
def setHold (v : View) (p : PortIx) (h : Option Hold) : View :=
  { v with hold := Function.update v.hold p h }
def setHolder (v : View) (ch : Channel) (h : Option Ref) : View :=
  { v with holder := Function.update v.holder ch h }
def setLine (v : View) (k : WaitLine) (l : List Ref) : View :=
  { v with line := Function.update v.line k l }
/-- R65: the call is in no wait queue any more. -/
def leave (v : View) (r : Ref) : View := { v with line := fun k => (v.line k).filter (· ≠ r) }

/-- The riser of a call's flat. -/
def riserOf (v : View) (c : Call) : Option RiserIx := c.flat.map v.home

/-- The wait queue in which a waiting call belongs. -/
def place (v : View) (c : Call) : Option WaitLine :=
  match c.waitingFor with
  | some .channel => (v.riserOf c).map .channel
  | some .desk => some .desk
  | none => none

theorem place_channel {v : View} {c : Call} {x : RiserIx} :
    v.place c = some (.channel x) ↔ c.waitingFor = some .channel ∧ v.riserOf c = some x := by
  unfold place
  split <;> simp_all

theorem place_desk {v : View} {c : Call} :
    v.place c = some .desk ↔ c.waitingFor = some .desk := by
  unfold place
  split <;> simp_all

/-- What a call holds: what its record says, or for a call in flight what is kept for it. -/
def held (v : View) (g : Ref → Option Holdings) (q : Ref) : Option Holdings :=
  (g q).or ((v.call q).map Call.holdings)

/-- The law of the paths, where `g` keeps what each call in flight holds. A call in flight may stand in a
wait queue only when it has no record any more. -/
structure Law (v : View) (g : Ref → Option Holdings) : Prop where
  states : ∀ q c, g q = none → v.call q = some c → c.StateLaw
  homes : ∀ q c ch, g q = none → v.call q = some c → c.channel = some ch →
    v.riserOf c = some ch.riser
  holders : ∀ ch q, v.holder ch = some q ↔ ∃ h, v.held g q = some h ∧ h.channel = some ch
  holds : ∀ p q role, v.hold p = some ⟨q, role⟩ ↔ ∃ h, v.held g q = some h ∧ h.port role = some p
  nodup : ∀ k, (v.line k).Nodup
  queued : ∀ k, ∀ q ∈ v.line k, (g q ≠ none ∧ v.call q = none) ∨
    (g q = none ∧ ∃ c, v.call q = some c ∧ c.state = .waiting ∧ v.place c = some k)
  waits : ∀ q c, g q = none → v.call q = some c → c.state = .waiting →
    ∃ k, v.place c = some k ∧ q ∈ v.line k

end View

/-- No call is in flight. -/
def noFlight : Ref → Option Holdings := fun _ => none

@[simp] theorem noFlight_apply (q : Ref) : noFlight q = none := rfl

@[simp] theorem View.held_noFlight (v : View) (q : Ref) :
    v.held noFlight q = (v.call q).map Call.holdings := rfl

theorem Call.StateLaw_bare (c : Call) : c.bare.StateLaw ↔ c.StateLaw := Iff.rfl

/-- With no call in flight the law of the view is `PathLaw`. -/
theorem State.pathLaw_iff_view (s : State) : s.PathLaw ↔ s.view.Law noFlight := by
  constructor
  · rintro ⟨calls, ⟨holder, channel⟩, ⟨hold, port⟩, queue, ⟨deskNodup, desk⟩, waits⟩
    refine ⟨?_, ?_, ?_, ?_, ?_, ?_, ?_⟩
    · rintro q c - hc
      obtain ⟨d, hd, rfl⟩ := Option.map_eq_some_iff.1 hc
      exact (Call.StateLaw_bare d).2 (calls q d hd)
    · rintro q c ch - hc e
      obtain ⟨d, hd, rfl⟩ := Option.map_eq_some_iff.1 hc
      exact (channel q d ch hd e).2
    · intro ch q
      constructor
      · intro h
        obtain ⟨c, hc, e⟩ := holder ch q h
        exact ⟨c.holdings, by simp [State.view, hc]; rfl, e⟩
      · rintro ⟨h, hh, e⟩
        simp only [View.held_noFlight, State.view, Option.map_map, Option.map_eq_some_iff] at hh
        obtain ⟨c, hc, rfl⟩ := hh
        exact (channel q c ch hc e).1
    · intro p q role
      constructor
      · intro h
        obtain ⟨c, hc, e⟩ := hold p _ h
        refine ⟨c.holdings, by simp [State.view, hc]; rfl, ?_⟩
        cases role
        · exact congrArg some e
        · exact e
      · rintro ⟨h, hh, e⟩
        simp only [View.held_noFlight, State.view, Option.map_map, Option.map_eq_some_iff] at hh
        obtain ⟨c, hc, rfl⟩ := hh
        cases role
        · cases e; exact (port q c hc).1
        · exact (port q c hc).2 p e
    · rintro (x | _)
      · exact (queue x).1
      · exact deskNodup
    · rintro (x | _) q hq
      · obtain ⟨c, hc, w, k, e⟩ := (queue x).2 q hq
        refine .inr ⟨rfl, c.bare, by simp [State.view, hc], w, ?_⟩
        exact View.place_channel.2 ⟨k, e⟩
      · obtain ⟨c, hc, w, k⟩ := desk q hq
        exact .inr ⟨rfl, c.bare, by simp [State.view, hc], w, View.place_desk.2 k⟩
    · rintro q c - hc w
      obtain ⟨d, hd, rfl⟩ := Option.map_eq_some_iff.1 hc
      rcases waits q d hd w with ⟨k, x, e, m⟩ | ⟨k, m⟩
      · exact ⟨.channel x, View.place_channel.2 ⟨k, e⟩, m⟩
      · exact ⟨.desk, View.place_desk.2 k, m⟩
  · intro L
    have live : ∀ {q c}, s.call? q = some c → s.view.call q = some c.bare := fun h => by
      simp [State.view, h]
    have held : ∀ {q c}, s.call? q = some c → s.view.held noFlight q = some c.holdings := fun h => by
      simp [live h]; rfl
    have known : ∀ {q h}, s.view.held noFlight q = some h → ∃ c, s.call? q = some c ∧ c.holdings = h :=
      fun e => by
        simp only [View.held_noFlight, State.view, Option.map_map, Option.map_eq_some_iff] at e
        obtain ⟨c, hc, e⟩ := e
        exact ⟨c, hc, e⟩
    have waiting : ∀ {q k}, q ∈ s.view.line k →
        ∃ c, s.call? q = some c ∧ c.state = .waiting ∧ s.view.place c.bare = some k := fun m => by
      rcases L.queued _ _ m with ⟨h, -⟩ | ⟨-, c, hc, w, p⟩
      · exact absurd rfl h
      · obtain ⟨d, hd, rfl⟩ := Option.map_eq_some_iff.1 hc
        exact ⟨d, hd, w, p⟩
    refine ⟨fun r c h => (Call.StateLaw_bare c).1 (L.states r _ rfl (live h)),
      ⟨fun ch r h => ?_, fun r c ch h e => ?_⟩, ⟨fun p h e => ?_, fun r c h => ⟨?_, fun p e => ?_⟩⟩,
      fun x => ⟨L.nodup (.channel x), fun r m => ?_⟩, ⟨L.nodup .desk, fun r m => ?_⟩,
      fun r c h w => ?_⟩
    · obtain ⟨_, hh, e⟩ := (L.holders ch r).1 h
      obtain ⟨c, hc, rfl⟩ := known hh
      exact ⟨c, hc, e⟩
    · exact ⟨(L.holders ch r).2 ⟨_, held h, e⟩, L.homes r c.bare ch rfl (live h) e⟩
    · obtain ⟨q, role⟩ := h
      obtain ⟨_, hh, e⟩ := (L.holds p q role).1 e
      obtain ⟨c, hc, rfl⟩ := known hh
      refine ⟨c, hc, ?_⟩
      cases role
      · exact Option.some.inj e
      · exact e
    · exact (L.holds _ r .origin).2 ⟨_, held h, rfl⟩
    · exact (L.holds _ r .desk).2 ⟨_, held h, e⟩
    · obtain ⟨c, hc, w, e⟩ := waiting (k := .channel x) m
      exact ⟨c, hc, w, View.place_channel.1 e⟩
    · obtain ⟨c, hc, w, e⟩ := waiting (k := .desk) m
      exact ⟨c, hc, w, View.place_desk.1 e⟩
    · obtain ⟨k, e, m⟩ := L.waits r c.bare rfl (live h) w
      cases k with
      | channel x =>
        obtain ⟨k, e⟩ := View.place_channel.1 e
        exact .inl ⟨k, x, e, m⟩
      | desk => exact .inr ⟨View.place_desk.1 e, m⟩

end Sys2Proof.Machine
end

