-- ==== Sys2Proof/Proofs/PathViewLaw.lean ====
section
/-!
SUPPORT. The moves of a call across the law of the paths, one lemma each: it is taken in flight, gains or
frees a port or a channel, leaves or joins a wait queue, and comes to rest again.
-/

namespace Sys2Proof.Machine.View.Law

open Function (update)

section
variable {v : View} {g : Ref → Option Holdings} {r : Ref} {c : Call} {h : Holdings}

/-- A call that stands in no wait queue is taken in flight. -/
theorem launch (L : v.Law g) (hc : v.call r = some c) (hg : g r = none) (hq : ∀ k, r ∉ v.line k) :
    v.Law (update g r (some c.holdings)) := by
  have same : v.held (update g r (some c.holdings)) = v.held g := by
    funext q
    by_cases e : q = r
    · subst e; simp [held, hc, hg]
    · simp [held, e]
  refine ⟨?_, ?_, by rw [same]; exact L.holders, by rw [same]; exact L.holds, L.nodup, ?_, ?_⟩
  all_goals have := L.states; have := L.homes; have := L.queued; have := L.waits; grind [update]

/-- A call that does not wait stands in no wait queue. -/
theorem not_mem_line (L : v.Law g) (hc : v.call r = some c) (w : g r = none → c.state ≠ .waiting)
    (k : WaitLine) : r ∉ v.line k := by
  intro m
  have := L.queued k r m
  grind

/-- The record of a call in flight is written or removed; one in a wait queue can only be removed. -/
theorem write (L : v.Law g) (hg : g r ≠ none) (o : Option Call)
    (ho : o = none ∨ ∀ k, r ∉ v.line k) :
    (v.setCall r o).Law g := by
  have same : (v.setCall r o).held g = v.held g := by
    funext q
    by_cases e : q = r
    · subst e; obtain ⟨h, hh⟩ := Option.ne_none_iff_exists'.1 hg; simp [held, hh]
    · simp [held, setCall, e]
  have place : ∀ d, (v.setCall r o).place d = v.place d := fun _ => rfl
  have riser : ∀ d, (v.setCall r o).riserOf d = v.riserOf d := fun _ => rfl
  have call : ∀ q, (v.setCall r o).call q = if q = r then o else v.call q := fun q => by
    simp [setCall, update]
  refine ⟨?_, ?_, by rw [same]; exact L.holders, by rw [same]; exact L.holds, L.nodup, ?_, ?_⟩
  all_goals
    simp only [place, riser, call, show (v.setCall r o).line = v.line from rfl]
    have := L.states; have := L.homes; have := L.queued; have := L.waits; grind

/-- The record of a live call in flight is written. -/
theorem writeLive (L : v.Law g) (hg : g r ≠ none) (hc : v.call r ≠ none) (o : Option Call) :
    (v.setCall r o).Law g := by
  obtain ⟨c, hc⟩ := Option.ne_none_iff_exists'.1 hc
  exact L.write hg o (.inr (L.not_mem_line hc fun e => absurd e hg))

/-- The record of a call is removed; what it held is kept for it. -/
theorem kill (L : v.Law g) (hc : v.call r = some c) (hg : g r = none ∨ g r = some c.holdings) :
    (v.setCall r none).Law (update g r (some c.holdings)) := by
  have same : (v.setCall r none).held (update g r (some c.holdings)) = v.held g := by
    funext q
    by_cases e : q = r
    · subst e; rcases hg with hg | hg <;> simp [held, hc, hg]
    · simp [held, setCall, e]
  have place : ∀ d, (v.setCall r none).place d = v.place d := fun _ => rfl
  have riser : ∀ d, (v.setCall r none).riserOf d = v.riserOf d := fun _ => rfl
  have call : ∀ q, (v.setCall r none).call q = if q = r then none else v.call q := fun q => by
    simp [setCall, update]
  refine ⟨?_, ?_, by rw [same]; exact L.holders, by rw [same]; exact L.holds, L.nodup, ?_, ?_⟩
  all_goals
    simp only [place, riser, call, show (v.setCall r none).line = v.line from rfl]
    have := L.states; have := L.homes; have := L.queued; have := L.waits; grind [update]

/-- A call in flight frees the port it holds in a role. -/
theorem freePort (L : v.Law g) (hg : g r = some h) {role : Role} {p : PortIx}
    (hp : h.port role = some p) :
    (v.setHold p none).Law (update g r (some (h.setPort role none))) := by
  have others : ∀ q, q ≠ r →
      (v.setHold p none).held (update g r (some (h.setPort role none))) q = v.held g q :=
    fun q e => by simp [held, setHold, e]
  have own : (v.setHold p none).held (update g r (some (h.setPort role none))) r =
    some (h.setPort role none) := by simp [held]
  have was : v.held g r = some h := by simp [held, hg]
  have holds := L.holds
  have here : v.hold p = some ⟨r, role⟩ := (holds p r role).2 ⟨h, was, hp⟩
  refine ⟨?_, ?_, fun ch q => ?_, fun p' q k => ?_, L.nodup, ?_, ?_⟩
  case refine_3 =>
    refine (L.holders ch q).trans ?_
    by_cases e : q = r
    · subst e; simp [own, was]
    · rw [others q e]
  case refine_4 =>
    have hold : (v.setHold p none).hold p' = if p' = p then none else v.hold p' := by
      simp [setHold, update]
    have := holds p' q k
    by_cases e : q = r
    · subst e
      rw [hold, own]
      simp only [Option.some.injEq, exists_eq_left', Holdings.port_setPort]
      grind
    · rw [hold, others q e]
      grind
  all_goals
    have := L.states; have := L.homes; have := L.queued; have := L.waits
    simp only [show ∀ d, (v.setHold p none).place d = v.place d from fun _ => rfl,
      show ∀ d, (v.setHold p none).riserOf d = v.riserOf d from fun _ => rfl,
      show (v.setHold p none).call = v.call from rfl, show (v.setHold p none).line = v.line from rfl]
    grind [update]

/-- A call in flight comes to hold a free port in a role. -/
theorem takePort (L : v.Law g) (hg : g r = some h) {role : Role} {p : PortIx}
    (hp : h.port role = none) (free : v.hold p = none) :
    (v.setHold p (some ⟨r, role⟩)).Law (update g r (some (h.setPort role (some p)))) := by
  have others : ∀ q, q ≠ r → (v.setHold p (some ⟨r, role⟩)).held
      (update g r (some (h.setPort role (some p)))) q = v.held g q :=
    fun q e => by simp [held, setHold, e]
  have own : (v.setHold p (some ⟨r, role⟩)).held (update g r (some (h.setPort role (some p)))) r =
    some (h.setPort role (some p)) := by simp [held]
  have was : v.held g r = some h := by simp [held, hg]
  have holds := L.holds
  refine ⟨?_, ?_, fun ch q => ?_, fun p' q k => ?_, L.nodup, ?_, ?_⟩
  case refine_3 =>
    refine (L.holders ch q).trans ?_
    by_cases e : q = r
    · subst e; simp [own, was]
    · rw [others q e]
  case refine_4 =>
    have hold : (v.setHold p (some ⟨r, role⟩)).hold p' =
        if p' = p then some ⟨r, role⟩ else v.hold p' := by
      simp [setHold, update]
    have := holds p' q k
    have := holds p q k
    by_cases e : q = r
    · subst e
      rw [hold, own]
      simp only [Option.some.injEq, exists_eq_left', Holdings.port_setPort]
      grind
    · rw [hold, others q e]
      grind
  all_goals
    have := L.states; have := L.homes; have := L.queued; have := L.waits
    simp only [show ∀ d, (v.setHold p (some ⟨r, role⟩)).place d = v.place d from fun _ => rfl,
      show ∀ d, (v.setHold p (some ⟨r, role⟩)).riserOf d = v.riserOf d from fun _ => rfl,
      show (v.setHold p (some ⟨r, role⟩)).call = v.call from rfl,
      show (v.setHold p (some ⟨r, role⟩)).line = v.line from rfl]
    grind [update]

/-- A call in flight frees its channel. -/
theorem freeChannel (L : v.Law g) (hg : g r = some h) {ch : Channel} (hc : h.channel = some ch) :
    (v.setHolder ch none).Law (update g r (some { h with channel := none })) := by
  have others : ∀ q, q ≠ r → (v.setHolder ch none).held
      (update g r (some { h with channel := none })) q = v.held g q :=
    fun q e => by simp [held, setHolder, e]
  have own : (v.setHolder ch none).held (update g r (some { h with channel := none })) r =
    some { h with channel := none } := by simp [held]
  have was : v.held g r = some h := by simp [held, hg]
  have holders := L.holders
  have here : v.holder ch = some r := (holders ch r).2 ⟨h, was, hc⟩
  refine ⟨?_, ?_, fun d q => ?_, fun p q k => ?_, L.nodup, ?_, ?_⟩
  case refine_3 =>
    have holder : (v.setHolder ch none).holder d = if d = ch then none else v.holder d := by
      simp [setHolder, update]
    have := holders d q
    by_cases e : q = r
    · subst e
      rw [holder, own]
      grind
    · rw [holder, others q e]
      grind
  case refine_4 =>
    refine (L.holds p q k).trans ?_
    by_cases e : q = r
    · subst e; cases k <;> simp [own, was, Holdings.port]
    · rw [others q e]
  all_goals
    have := L.states; have := L.homes; have := L.queued; have := L.waits
    simp only [show ∀ d, (v.setHolder ch none).place d = v.place d from fun _ => rfl,
      show ∀ d, (v.setHolder ch none).riserOf d = v.riserOf d from fun _ => rfl,
      show (v.setHolder ch none).call = v.call from rfl,
      show (v.setHolder ch none).line = v.line from rfl]
    grind [update]

/-- A call in flight comes to hold a free channel. -/
theorem takeChannel (L : v.Law g) (hg : g r = some h) {ch : Channel} (hc : h.channel = none)
    (free : v.holder ch = none) :
    (v.setHolder ch (some r)).Law (update g r (some { h with channel := some ch })) := by
  have others : ∀ q, q ≠ r → (v.setHolder ch (some r)).held
      (update g r (some { h with channel := some ch })) q = v.held g q :=
    fun q e => by simp [held, setHolder, e]
  have own : (v.setHolder ch (some r)).held (update g r (some { h with channel := some ch })) r =
    some { h with channel := some ch } := by simp [held]
  have was : v.held g r = some h := by simp [held, hg]
  have holders := L.holders
  refine ⟨?_, ?_, fun d q => ?_, fun p q k => ?_, L.nodup, ?_, ?_⟩
  case refine_3 =>
    have holder : (v.setHolder ch (some r)).holder d = if d = ch then some r else v.holder d := by
      simp [setHolder, update]
    have := holders d q
    have := holders ch q
    by_cases e : q = r
    · subst e
      rw [holder, own]
      grind
    · rw [holder, others q e]
      grind
  case refine_4 =>
    refine (L.holds p q k).trans ?_
    by_cases e : q = r
    · subst e; cases k <;> simp [own, was, Holdings.port]
    · rw [others q e]
  all_goals
    have := L.states; have := L.homes; have := L.queued; have := L.waits
    simp only [show ∀ d, (v.setHolder ch (some r)).place d = v.place d from fun _ => rfl,
      show ∀ d, (v.setHolder ch (some r)).riserOf d = v.riserOf d from fun _ => rfl,
      show (v.setHolder ch (some r)).call = v.call from rfl,
      show (v.setHolder ch (some r)).line = v.line from rfl]
    grind [update]

/-- A call in flight comes to rest with the record of a state other than WAITING. -/
theorem land (L : v.Law g) (hc : v.call r = some c) (hg : g r = some c.holdings) (st : c.StateLaw)
    (w : c.state ≠ .waiting) (home : ∀ ch, c.channel = some ch → v.riserOf c = some ch.riser) :
    v.Law (update g r none) := by
  have same : v.held (update g r none) = v.held g := by
    funext q
    by_cases e : q = r
    · subst e; simp [held, hc, hg]
    · simp [held, e]
  refine ⟨?_, ?_, by rw [same]; exact L.holders, by rw [same]; exact L.holds, L.nodup, ?_, ?_⟩
  all_goals have := L.states; have := L.homes; have := L.queued; have := L.waits; grind [update]

/-- A call in flight comes to rest at the tail of the wait queue its record names. -/
theorem wait (L : v.Law g) (hc : v.call r = some c) (hg : g r = some c.holdings) (st : c.StateLaw)
    (w : c.state = .waiting) {k : WaitLine} (hk : v.place c = some k) :
    (v.setLine k (v.line k ++ [r])).Law (update g r none) := by
  have free : ∀ k, r ∉ v.line k := fun k => L.not_mem_line hc (fun e => by simp [hg] at e) k
  have same : (v.setLine k (v.line k ++ [r])).held (update g r none) = v.held g := by
    funext q
    by_cases e : q = r
    · subst e; simp [held, setLine, hc, hg]
    · simp [held, setLine, e]
  have line : ∀ m, (v.setLine k (v.line k ++ [r])).line m =
      if m = k then v.line k ++ [r] else v.line m := fun m => by simp [setLine, update]
  have noChannel : c.channel = none := by
    have := st
    unfold Call.StateLaw at this
    rw [w] at this
    cases hl : c.leg <;> simp_all
  have := L.states; have := L.homes; have := L.queued; have := L.waits
  refine ⟨?_, ?_, by rw [same]; exact L.holders, by rw [same]; exact L.holds, fun m => ?_, ?_, ?_⟩
  case refine_3 =>
    rw [line]
    split
    · refine List.nodup_append.2 ⟨L.nodup k, List.nodup_singleton r, ?_⟩
      have := free k
      grind
    · exact L.nodup m
  all_goals
    simp only [line, show ∀ d, (v.setLine k (v.line k ++ [r])).place d = v.place d from fun _ => rfl,
      show ∀ d, (v.setLine k (v.line k ++ [r])).riserOf d = v.riserOf d from fun _ => rfl,
      show (v.setLine k (v.line k ++ [r])).call = v.call from rfl]
    grind [update]

/-- A reference that names no call may stand for a call in flight that holds nothing. -/
theorem appear (L : v.Law g) (hc : v.call r = none) (hg : g r = none) :
    v.Law (update g r (some { origin := none, desk := none, channel := none })) ∧
      ∀ k, r ∉ v.line k := by
  have held_ne : ∀ q, q ≠ r → v.held (update g r (some ⟨none, none, none⟩)) q = v.held g q :=
    fun q e => by simp [held, e]
  have own : v.held (update g r (some ⟨none, none, none⟩)) r = some ⟨none, none, none⟩ := by
    simp [held]
  have was : v.held g r = none := by simp [held, hc, hg]
  have := L.states; have := L.homes; have := L.queued; have := L.waits
  refine ⟨⟨?_, ?_, fun ch q => ?_, fun p q k => ?_, L.nodup, ?_, ?_⟩, ?_⟩
  case refine_3 =>
    refine (L.holders ch q).trans ?_
    by_cases e : q = r
    · subst e; simp [own, was]
    · rw [held_ne q e]
  case refine_4 =>
    refine (L.holds p q k).trans ?_
    by_cases e : q = r
    · subst e; cases k <;> simp [own, was, Holdings.port]
    · rw [held_ne q e]
  all_goals grind [update]

/-- A call that is over, holds nothing and stands in no queue is forgotten. -/
theorem landDead (L : v.Law g) (hc : v.call r = none)
    (hg : g r = some { origin := none, desk := none, channel := none }) (hq : ∀ k, r ∉ v.line k) :
    v.Law (update g r none) := by
  have held_ne : ∀ q, q ≠ r → v.held (update g r none) q = v.held g q := fun q e => by
    simp [held, e]
  have own : v.held (update g r none) r = none := by simp [held, hc]
  have was : v.held g r = some { origin := none, desk := none, channel := none } := by
    simp [held, hg]
  have := L.states; have := L.homes; have := L.queued; have := L.waits
  refine ⟨?_, ?_, fun ch q => ?_, fun p q k => ?_, L.nodup, ?_, ?_⟩
  case refine_3 =>
    refine (L.holders ch q).trans ?_
    by_cases e : q = r
    · subst e; simp [own, was]
    · rw [held_ne q e]
  case refine_4 =>
    refine (L.holds p q k).trans ?_
    by_cases e : q = r
    · subst e; cases k <;> simp [own, was, Holdings.port]
    · rw [held_ne q e]
  all_goals grind [update]

/-- The head of a wait queue that names a live call is taken in flight. -/
theorem dequeue (L : v.Law g) {k : WaitLine} {rest : List Ref} (hk : v.line k = r :: rest)
    (hc : v.call r = some c) :
    (v.setLine k rest).Law (update g r (some c.holdings)) ∧ g r = none ∧ c.state = .waiting ∧
      v.place c = some k := by
  have here := L.queued k r (by simp [hk])
  obtain ⟨hg, w, p⟩ : g r = none ∧ c.state = .waiting ∧ v.place c = some k := by grind
  refine ⟨?_, hg, w, p⟩
  have same : (v.setLine k rest).held (update g r (some c.holdings)) = v.held g := by
    funext q
    by_cases e : q = r
    · subst e; simp [held, hc, hg]
    · simp [held, setLine, e]
  have line : ∀ m, (v.setLine k rest).line m = if m = k then rest else v.line m := fun m => by
    simp [setLine, update]
  have nodup := L.nodup k
  rw [hk, List.nodup_cons] at nodup
  have := L.states; have := L.homes; have := L.queued; have := L.waits
  refine ⟨?_, ?_, by rw [same]; exact L.holders, by rw [same]; exact L.holds, fun m => ?_, ?_, ?_⟩
  case refine_3 =>
    rw [line]
    split
    · exact nodup.2
    · exact L.nodup m
  all_goals
    simp only [line, show ∀ d, (v.setLine k rest).place d = v.place d from fun _ => rfl,
      show ∀ d, (v.setLine k rest).riserOf d = v.riserOf d from fun _ => rfl,
      show (v.setLine k rest).call = v.call from rfl]
    grind [update]

/-- The head of a wait queue that names no live call is passed over. -/
theorem pass (L : v.Law g) {k : WaitLine} {rest : List Ref} (hk : v.line k = r :: rest)
    (hc : v.call r = none) : (v.setLine k rest).Law g := by
  have line : ∀ m, (v.setLine k rest).line m = if m = k then rest else v.line m := fun m => by
    simp [setLine, update]
  have nodup := L.nodup k
  rw [hk, List.nodup_cons] at nodup
  have := L.states; have := L.homes; have := L.queued; have := L.waits
  refine ⟨L.states, L.homes, L.holders, L.holds, fun m => ?_, ?_, ?_⟩
  case refine_1 =>
    rw [line]
    split
    · exact nodup.2
    · exact L.nodup m
  all_goals
    simp only [line, show ∀ d, (v.setLine k rest).place d = v.place d from fun _ => rfl,
      show (v.setLine k rest).call = v.call from rfl]
    grind

/-- R65: a call in flight leaves the wait queues. -/
theorem leave (L : v.Law g) (hg : g r ≠ none) : (v.leave r).Law g := by
  have line : ∀ k q, q ∈ (v.leave r).line k ↔ q ∈ v.line k ∧ q ≠ r := fun k q => by
    simp [View.leave]
  have := L.states; have := L.homes; have := L.queued; have := L.waits
  refine ⟨L.states, L.homes, L.holders, L.holds, fun k => (L.nodup k).filter _, ?_, ?_⟩
  all_goals
    simp only [line, show ∀ d, (v.leave r).place d = v.place d from fun _ => rfl,
      show (v.leave r).call = v.call from rfl]
    grind

/-- R65: a live call leaves its wait queue and is taken in flight. -/
theorem leaveLive (L : v.Law g) (hc : v.call r = some c) (hg : g r = none) :
    (v.leave r).Law (update g r (some c.holdings)) := by
  have same : (v.leave r).held (update g r (some c.holdings)) = v.held g := by
    funext q
    by_cases e : q = r
    · subst e; simp [held, hc, hg]
    · simp [held, View.leave, e]
  have line : ∀ k q, q ∈ (v.leave r).line k ↔ q ∈ v.line k ∧ q ≠ r := fun k q => by
    simp [View.leave]
  have := L.states; have := L.homes; have := L.queued; have := L.waits
  refine ⟨?_, ?_, by rw [same]; exact L.holders, by rw [same]; exact L.holds,
    fun k => (L.nodup k).filter _, ?_, ?_⟩
  all_goals
    simp only [line, show ∀ d, (v.leave r).place d = v.place d from fun _ => rfl,
      show ∀ d, (v.leave r).riserOf d = v.riserOf d from fun _ => rfl,
      show (v.leave r).call = v.call from rfl]
    grind [update]

end

end Sys2Proof.Machine.View.Law
end

