-- ==== Sys2Proof/Proofs/ViewKept.lean ====
section
/-!
SUPPORT. What the shared operations leave of the state outside their block: frames to handsets touch one
riser record alone, and everything but a few operations of a call's life leaves the view as it is.
-/

namespace Sys2Proof.Machine

/-! ## Operations that write one riser record -/

/-- Nothing but one riser record differs. -/
def OnlyRiser (x : RiserIx) (s t : State) : Prop := ∃ y, t = { s with risers := s.risers.write x y }

namespace OnlyRiser
variable {x : RiserIx} {s t u : State}

theorem refl (x : RiserIx) (s : State) : OnlyRiser x s s :=
  ⟨s.risers.read x, by rw [Table.write_read_self]⟩

theorem trans (h : OnlyRiser x s t) (k : OnlyRiser x t u) : OnlyRiser x s u := by
  obtain ⟨y, rfl⟩ := h
  obtain ⟨z, rfl⟩ := k
  exact ⟨z, by simp⟩

theorem modify (s : State) (x : RiserIx) (f : Riser → Riser) : OnlyRiser x s (s.modifyRiser x f) :=
  ⟨_, rfl⟩

theorem ccu (h : OnlyRiser x s t) : t.ccu = s.ccu := by obtain ⟨y, rfl⟩ := h; rfl
theorem psw (h : OnlyRiser x s t) : t.psw = s.psw := by obtain ⟨y, rfl⟩ := h; rfl
theorem dir (h : OnlyRiser x s t) : t.dir = s.dir := by obtain ⟨y, rfl⟩ := h; rfl
theorem ports (h : OnlyRiser x s t) : t.ports = s.ports := by obtain ⟨y, rfl⟩ := h; rfl
theorem ntu (h : OnlyRiser x s t) : t.ntu = s.ntu := by obtain ⟨y, rfl⟩ := h; rfl
theorem hlp (h : OnlyRiser x s t) : t.hlp = s.hlp := by obtain ⟨y, rfl⟩ := h; rfl
theorem clock (h : OnlyRiser x s t) : t.clock = s.clock := by obtain ⟨y, rfl⟩ := h; rfl
theorem locks (h : OnlyRiser x s t) : t.locks = s.locks := by obtain ⟨y, rfl⟩ := h; rfl

theorem riser_ne (h : OnlyRiser x s t) {z : RiserIx} (e : z ≠ x) : t.riser z = s.riser z := by
  obtain ⟨y, rfl⟩ := h
  exact Table.read_write_ne _ _ (Ne.symm e)

theorem foldl {α : Type} (f : State → α → State) (hf : ∀ s a, OnlyRiser x s (f s a)) (l : List α)
    (s : State) : OnlyRiser x s (l.foldl f s) := by
  induction l generalizing s with
  | nil => exact refl x s
  | cons a l ih => exact (hf s a).trans (ih _)

end OnlyRiser

theorem startWake_onlyRiser (s : State) (x : RiserIx) : OnlyRiser x s (s.startWake x) := by
  unfold State.startWake
  split
  · exact .modify ..
  · exact .refl x s

theorem offerFrame_onlyRiser (s : State) (x : RiserIx) (e : QueueEntry) :
    OnlyRiser x s (s.offerFrame x e).1 := by
  unfold State.offerFrame
  split
  · exact .refl x s
  · split
    · exact ⟨_, rfl⟩
    · exact (OnlyRiser.modify s x _).trans (startWake_onlyRiser ..)

theorem advise_onlyRiser (s : State) (x : RiserIx) (f : Advisory) : OnlyRiser x s (s.advise x f) := by
  have h := offerFrame_onlyRiser s x (.advisory f)
  unfold State.advise
  split
  · next s1 heq =>
    rw [heq] at h
    split
    · exact h.trans (.modify ..)
    · exact h
  · next s1 heq => rw [heq] at h; exact h

theorem withdraw_onlyRiser (s : State) (x : RiserIx) (a : Nat) (c : Ref) :
    OnlyRiser x s (s.withdraw x a c).1 := by
  unfold State.withdraw
  dsimp only
  split
  · exact ⟨_, rfl⟩
  · split <;> exact .refl x s

theorem withdrawOffer_onlyRiser (x : RiserIx) (r : Ref) (s : State) (o : Offer) :
    OnlyRiser x s (State.withdrawOffer x r s o).1 := by
  unfold State.withdrawOffer
  split
  · have h := withdraw_onlyRiser s x o.station r
    split <;> next heq => rw [heq] at h; exact h
  · exact .refl x s

theorem cancelOffer_onlyRiser (x : RiserIx) (r : Ref) (w : CancelReason) (s : State) (o : Offer) :
    OnlyRiser x s (State.cancelOffer x r w s o).1 := by
  unfold State.cancelOffer
  split
  · exact advise_onlyRiser ..
  · exact advise_onlyRiser ..
  · exact .refl x s

theorem eachOffer_onlyRiser {x : RiserIx} (f : State → Offer → State × Offer)
    (hf : ∀ s o, OnlyRiser x s (f s o).1) (os : List Offer) (s : State) :
    OnlyRiser x s (State.eachOffer f os s).1 := by
  induction os generalizing s with
  | nil => exact .refl x s
  | cons o os ih => exact (hf s o).trans (ih _)

theorem takeBackAll_onlyRiser (s : State) (x : RiserIx) (r : Ref) (w : CancelReason)
    (k : Offer → Bool) (os : List Offer) : OnlyRiser x s (s.takeBackAll x r w k os).1 := by
  have h (f : State → Offer → State × Offer) (hf : ∀ s o, OnlyRiser x s (f s o).1) (t : State)
      (o : Offer) : OnlyRiser x t (if k o then (t, o) else f t o).1 := by
    split
    · exact .refl x t
    · exact hf t o
  have c := eachOffer_onlyRiser _ (h _ (cancelOffer_onlyRiser x r w))
  exact ((c _ _).trans (eachOffer_onlyRiser _ (h _ (withdrawOffer_onlyRiser x r)) _ _)).trans (c _ _)

theorem cancelAtEnd_onlyRiser (x : RiserIx) (r : Ref) (w : EndReason) (a : Option Nat) (s : State)
    (o : Offer) : OnlyRiser x s (State.cancelAtEnd x r w a s o) := by
  unfold State.cancelAtEnd
  split
  · split
    · exact .refl x s
    · exact advise_onlyRiser ..
  · exact cancelOffer_onlyRiser ..

theorem takeBackAtEnd_onlyRiser (s : State) (x : RiserIx) (r : Ref) (w : EndReason)
    (a : Option Nat) (os : List Offer) : OnlyRiser x s (s.takeBackAtEnd x r w a os) :=
  (eachOffer_onlyRiser _ (withdrawOffer_onlyRiser x r) os s).trans
    (.foldl _ (cancelAtEnd_onlyRiser x r w a) _ _)

/-! ## The view after each operation -/

/-- The view reads the calls, the path switch and the risers of the flats. -/
theorem State.view_congr {s t : State} (hc : t.ccu = s.ccu) (hp : t.psw = s.psw)
    (hd : t.dir = s.dir) : t.view = s.view := by
  simp only [State.view, State.call?_congr hc, funext (State.hold_congr hp), State.paths_congr hp, hp,
    State.flat_congr hd]

theorem OnlyRiser.view {x : RiserIx} {s t : State} (h : OnlyRiser x s t) : t.view = s.view :=
  State.view_congr h.ccu h.psw h.dir

theorem State.view_emit (s : State) (e : Event) : (s.emit e).view = s.view :=
  State.view_congr (by simp) (by simp) (by simp)

theorem State.view_call (s : State) (r : Ref) : s.view.call r = (s.call? r).map Call.bare := rfl

theorem State.view_call_some {s : State} {r : Ref} {c : Call} (h : s.call? r = some c) :
    s.view.call r = some c.bare := by
  simp [State.view, h]

theorem State.view_setHold (s : State) (p : PortIx) (h : Option Hold) :
    (s.setHold p h).view = s.view.setHold p h := by
  refine View.ext rfl (funext fun q => ?_) rfl rfl rfl
  show (s.setHold p h).hold q = _
  rw [State.hold_setHold]
  simp only [View.setHold, Function.update, eq_comm (a := p), State.view]
  split <;> simp_all

theorem State.view_setHolder (s : State) (ch : Channel) (h : Option Ref) :
    (s.setHolder ch h).view = s.view.setHolder ch h := by
  refine View.ext rfl rfl (funext fun d => ?_) (funext fun k => ?_) rfl
  · show ((s.setHolder ch h).paths d.riser).holder d.side = _
    rw [State.paths_setHolder]
    simp only [View.setHolder, Function.update, State.view]
    obtain ⟨x, k⟩ := ch
    obtain ⟨y, m⟩ := d
    by_cases e : y = x
    · subst e
      cases k <;> cases m <;> simp [RiserPaths.setHolder, RiserPaths.holder]
    · simp [e, Ne.symm e]
  · cases k with
    | desk => rfl
    | channel x =>
      show ((s.setHolder ch h).paths x).queue = (s.paths x).queue
      rw [State.paths_setHolder]
      split
      · next e => subst e; cases ch.side <;> rfl
      · rfl

theorem State.view_setChannelQueue (s : State) (x : RiserIx) (q : List Ref) :
    (s.setChannelQueue x q).view = s.view.setLine (.channel x) q := by
  refine View.ext rfl rfl (funext fun d => ?_) (funext fun k => ?_) rfl
  · show ((s.setChannelQueue x q).paths d.riser).holder d.side = (s.paths d.riser).holder d.side
    rw [State.paths_setChannelQueue]
    split
    · next e => subst e; cases d.side <;> rfl
    · rfl
  · cases k with
    | desk => simp [View.setLine, State.view]; rfl
    | channel y =>
      show ((s.setChannelQueue x q).paths y).queue = _
      rw [State.paths_setChannelQueue]
      by_cases e : x = y
      · subst e; simp [View.setLine]
      · simp [View.setLine, e, Ne.symm e, State.view]

theorem State.view_setDeskQueue (s : State) (q : List Ref) :
    (s.setDeskQueue q).view = s.view.setLine .desk q := by
  refine View.ext rfl rfl rfl (funext fun k => ?_) rfl
  cases k with
  | desk => simp [View.setLine]; rfl
  | channel y => simp [View.setLine, State.view]; rfl

theorem State.view_leaveQueues (s : State) (r : Ref) : (s.leaveQueues r).view = s.view.leave r := by
  refine View.ext rfl rfl (funext fun d => ?_) (funext fun k => ?_) rfl
  · show ((s.leaveQueues r).paths d.riser).holder d.side = (s.paths d.riser).holder d.side
    rw [State.paths_leaveQueues]
    cases d.side <;> rfl
  · cases k with
    | desk => rfl
    | channel y =>
      show ((s.leaveQueues r).paths y).queue = _
      rw [State.paths_leaveQueues]
      rfl

/-- A slot is written: the reference with its generation names the new record, and no other reference
names one there. -/
theorem State.view_setSlot (s : State) (r : Ref) (x : Slot) (hx : x.generation = r.gen)
    (h : (s.slot r.slot).call = none ∨ (s.slot r.slot).generation = r.gen) :
    (s.setSlot r.slot x).view = s.view.setCall r (x.call.map Call.bare) := by
  refine View.ext (funext fun q => ?_) rfl rfl rfl rfl
  show ((s.setSlot r.slot x).call? q).map Call.bare = _
  simp only [State.call?, State.slot_setSlot, View.setCall, Function.update, State.view]
  by_cases e : q = r
  · subst e; simp [hx]
  · by_cases k : r.slot = q.slot
    · have g : r.gen ≠ q.gen := fun g => e (by cases q; cases r; simp_all)
      rcases h with h | h <;> simp [e, ← k, hx, h, g]
    · simp [e, k]

/-- The record of a live call is written. -/
theorem State.view_setCall {s : State} {r : Ref} (c : Call) (h : s.view.call r ≠ none) :
    (s.setCall r c).view = s.view.setCall r (some c.bare) := by
  obtain ⟨d, hd⟩ := Option.ne_none_iff_exists'.1 fun e : s.call? r = none =>
    h (by rw [State.view_call, e]; rfl)
  have g := ((s.call?_eq_some r d).1 hd).1
  exact s.view_setSlot r _ g (.inr g)

/-- A change of a live call's offers alone. -/
theorem State.view_modifyCall (s : State) (r : Ref) (f : Call → Call)
    (hf : ∀ c, (f c).bare = c.bare) : (s.modifyCall r f).view = s.view := by
  unfold State.modifyCall
  split
  · next c hc =>
    have live : s.view.call r = some c.bare := State.view_call_some hc
    rw [State.view_setCall _ (by simp [live]), hf, View.setCall]
    refine View.ext (funext fun q => ?_) rfl rfl rfl rfl
    by_cases e : q = r
    · subst e; simp [live]
    · simp [e]
  · rfl

theorem State.view_advise (s : State) (x : RiserIx) (f : Advisory) :
    (s.advise x f).view = s.view := (advise_onlyRiser s x f).view

theorem State.view_completeFaulted (s : State) (r : Ref) (a : Nat) (t : Option Nat)
    (o : OfferStatus) : (s.completeFaulted r a t o).view = s.view :=
  s.view_modifyCall r _ fun _ => rfl

theorem State.view_solicit (s : State) (x : RiserIx) (f : Solicited) :
    (s.solicit x f).1.view = s.view := by
  have h := (offerFrame_onlyRiser s x (.solicited f)).view
  unfold State.solicit
  split
  · next heq => rw [heq] at h; exact h
  · next heq =>
    rw [heq] at h
    split
    · exact (State.view_completeFaulted ..).trans h
    · exact h

theorem State.view_foldl {α : Type} (f : State → α → State) (hf : ∀ s a, (f s a).view = s.view)
    (l : List α) (s : State) : (l.foldl f s).view = s.view := by
  induction l generalizing s with
  | nil => rfl
  | cons a l ih => exact (ih _).trans (hf s a)

theorem State.view_queueOffers (s : State) (x : RiserIx) (r : Ref) (k : CallKind) (o : PortIx)
    (l : List Nat) : (s.queueOffers x r k o l).view = s.view :=
  State.view_foldl _ (fun t a => t.view_solicit x (.offer a r k o)) l s

theorem Call.bare_eq_of_sameButSending {c d : Call} (h : c.SameButSending d) : d.bare = c.bare := by
  rw [h.1]; rfl

theorem State.call?_of_sameButSending {s t : State} {r : Ref}
    (h : (s.slot r.slot).SameButSending (t.slot r.slot)) :
    (t.call? r).map Call.bare = (s.call? r).map Call.bare := by
  obtain ⟨hg, -, hc⟩ := h
  unfold State.call?
  rw [hg]
  split
  · cases h1 : (s.slot r.slot).call <;> cases h2 : (t.slot r.slot).call <;> simp_all
    exact Call.bare_eq_of_sameButSending hc
  · rfl

theorem Settled.view {s t : State} (h : Settled s t) : t.view = s.view := by
  have call : t.view.call = s.view.call := funext fun r => State.call?_of_sameButSending (h.slots _)
  refine View.ext call ?_ ?_ ?_ ?_ <;>
    simp only [State.view, funext (State.hold_congr h.psw), State.paths_congr h.psw, h.psw,
      State.flat_congr h.dir]

theorem State.view_recomputeFlat (s : State) (i : FlatIx) : (s.recomputeFlat i).view = s.view := by
  unfold State.recomputeFlat
  dsimp only
  split
  · rfl
  · refine (State.view_emit ..).trans (View.ext rfl rfl rfl rfl (funext fun j => ?_))
    show ((s.setFlat i _).flat j).riser = (s.flat j).riser
    rw [State.flat_setFlat]
    split
    · next e => subst e; rfl
    · rfl

theorem State.view_recomputeFlats (s : State) (w : Flat → Bool) :
    (s.recomputeFlats w).view = s.view := State.view_foldl _ State.view_recomputeFlat _ s

end Sys2Proof.Machine
end

