-- ==== Sys2Proof/Proofs/PathGrants.lean ====
section
/-!
SUPPORT. The law of the paths across the operations of a call's life: grants of desks and channels, ends,
and the entry of a leg.
-/

namespace Sys2Proof.Machine

open Function (update)

/-- The records of the calls in flight are the same. -/
def FlightKept (g : Ref → Option Holdings) (s t : State) : Prop :=
  ∀ q, g q ≠ none → t.view.call q = s.view.call q

theorem FlightKept.of_view {g : Ref → Option Holdings} {s t : State} (h : t.view = s.view) :
    FlightKept g s t := fun q _ => congrFun (congrArg View.call h) q

theorem FlightKept.trans {g : Ref → Option Holdings} {s t u : State} (h : FlightKept g s t)
    (k : FlightKept g t u) : FlightKept g s u := fun q e => (k q e).trans (h q e)

/-- Kept for more calls, kept for these. -/
theorem FlightKept.weaken {g : Ref → Option Holdings} {r : Ref} {h : Holdings} {s t : State}
    (k : FlightKept (update g r (some h)) s t) : FlightKept g s t := fun q e => by
  refine k q ?_
  by_cases e' : q = r
  · simp [e']
  · simpa [e'] using e

theorem update_none {g : Ref → Option Holdings} {r : Ref} (h : g r = none) : update g r none = g := by
  rw [Function.update_eq_self_iff, h]

/-- R4: what the record of a call that waits for a channel holds. -/
theorem Call.StateLaw.waitsForChannel {c : Call} (law : c.StateLaw) (w : c.state = .waiting)
    (k : c.waitingFor = some .channel) :
    c.leg = .flat ∧ c.channel = none ∧ c.deskPort = none ∧ c.answerer = none := by
  obtain ⟨-, ans, rest⟩ := law
  rw [w] at rest
  cases hl : c.leg <;> simp_all

/-- R4: what the record of a call that waits for a desk holds. -/
theorem Call.StateLaw.waitsForDesk {c : Call} (law : c.StateLaw) (w : c.state = .waiting)
    (k : c.waitingFor = some .desk) :
    c.leg = .concierge ∧ c.channel = none ∧ c.deskPort = none ∧ c.answerer = none := by
  obtain ⟨-, ans, rest⟩ := law
  rw [w] at rest
  cases hl : c.leg <;> simp_all

/-! ## Desks -/

theorem State.view_grantDesk {s : State} {r : Ref} (c : Call) (p : PortIx)
    (h : s.view.call r ≠ none) : (s.grantDesk r c p).view =
      (s.view.setHold p (some ⟨r, .desk⟩)).setCall r (some { c.bare with
        deskPort := some p, state := .ringing, waitingFor := none
        timer := some (s.callTimer .deskRing) }) := by
  have e : (((s.setHold p (some ⟨r, .desk⟩)).ring p (.on c.origin c.kind c.flat)).display p
      .ringing).view = s.view.setHold p (some ⟨r, .desk⟩) := State.view_setHold s p _
  refine (State.view_setCall _ (by rw [e]; exact h)).trans ?_
  rw [e]
  rfl

/-- R140: a call in flight on its concierge leg comes to rest at the desk it is granted. -/
theorem grantDesk_law {s : State} {g : Ref → Option Holdings} {r : Ref} {c : Call} {p : PortIx}
    (L : s.view.Law g) (hg : g r = some ⟨some c.origin, none, none⟩) (live : s.view.call r ≠ none)
    (free : s.hold p = none) (leg : c.leg = .concierge) (channel : c.channel = none)
    (answerer : c.answerer = none) : (s.grantDesk r c p).view.Law (update g r none) := by
  rw [State.view_grantDesk c p live]
  have L1 := L.takePort (role := .desk) hg rfl free
  have L2 := L1.writeLive (r := r) (by simp) live (some { c.bare with
    deskPort := some p, state := .ringing, waitingFor := none
    timer := some (s.callTimer .deskRing) })
  have L3 := L2.land (r := r) (by simp [View.setCall]; rfl)
    (by simp [Holdings.setPort, Call.holdings, Call.bare, channel])
    (by simp [Call.StateLaw, Call.bare, leg, channel, answerer, State.callTimer]) (by simp)
    (by simp [Call.bare, channel])
  simpa using L3

theorem grantDesk_kept {s : State} {g : Ref → Option Holdings} {r : Ref} {c : Call} {p : PortIx}
    (live : s.view.call r ≠ none) (hg : g r = none) : FlightKept g s (s.grantDesk r c p) := by
  intro q e
  rw [State.view_grantDesk c p live]
  have : q ≠ r := fun k => e (k ▸ hg)
  simp [View.setCall, View.setHold, this]

theorem serveDeskFrom_law {p : PortIx} {q : List Ref} {s : State} {g : Ref → Option Holdings}
    (hq : s.psw.deskQueue = q) (L : s.view.Law g) (free : s.hold p = none) :
    (State.serveDeskFrom p q s).view.Law g ∧ FlightKept g s (State.serveDeskFrom p q s) := by
  induction q generalizing s with
  | nil => exact ⟨L, fun _ _ => rfl⟩
  | cons r rest ih =>
    have line : s.view.line .desk = r :: rest := hq
    have view := State.view_setDeskQueue s rest
    unfold State.serveDeskFrom
    dsimp only
    split
    · next c hc =>
      obtain ⟨L1, hg, w, pl⟩ := L.dequeue line (State.view_call_some hc)
      have law := L.states r _ hg (State.view_call_some hc)
      obtain ⟨leg, channel, desk, answerer⟩ :=
        ((Call.StateLaw_bare c).1 law).waitsForDesk w (View.place_desk.1 pl)
      rw [← view] at L1
      have live : (s.setDeskQueue rest).view.call r ≠ none := by
        rw [State.view_call_some hc]; simp
      have L2 := grantDesk_law (c := c) L1 (by simp [Call.holdings, Call.bare, channel, desk]) live
        free leg channel answerer
      exact ⟨by simpa [update_none hg] using L2, grantDesk_kept live hg⟩
    · next hc =>
      have L1 := L.pass line (by rw [State.view_call]; exact congrArg _ hc)
      rw [← view] at L1
      exact ih rfl L1 free

/-- R62: the desk grant rule keeps the law, whatever calls are in flight. -/
theorem serveDesk_law {p : PortIx} {s : State} {g : Ref → Option Holdings} (L : s.view.Law g) :
    (s.serveDesk p).view.Law g ∧ FlightKept g s (s.serveDesk p) := by
  unfold State.serveDesk
  split
  · next h =>
    refine serveDeskFrom_law rfl L ?_
    simp only [State.eligible, Bool.and_eq_true, Option.isNone_iff_eq_none] at h
    exact h.2
  · exact ⟨L, fun _ _ => rfl⟩

/-- R58: a call in flight releases a port it holds. -/
theorem releasePort_law {p : PortIx} {s : State} {g : Ref → Option Holdings} {r : Ref} {h : Holdings}
    {role : Role} (L : s.view.Law g) (hg : g r = some h) (hp : h.port role = some p) :
    (s.releasePort p).view.Law (update g r (some (h.setPort role none))) ∧
      FlightKept g s (s.releasePort p) := by
  have L1 := L.freePort hg hp
  rw [← State.view_setHold] at L1
  obtain ⟨L2, k⟩ := serveDesk_law (p := p) L1
  refine ⟨L2, fun q e => (k.weaken q e).trans ?_⟩
  rw [State.view_setHold]
  rfl

theorem releaseDesk_law {p : PortIx} {s : State} {g : Ref → Option Holdings} {r : Ref} {h : Holdings}
    (L : s.view.Law g) (hg : g r = some h) (hp : h.desk = some p) :
    (s.releaseDesk p).view.Law (update g r (some { h with desk := none })) ∧
      FlightKept g s (s.releaseDesk p) :=
  releasePort_law (s := (s.ring p .off).display p .ready) (role := .desk) L hg hp

/-- R149: the desk port of a call, if it has one, is released. -/
def State.freeDesk (s : State) (c : Call) : State :=
  match c.deskPort with
  | some p => s.releaseDesk p
  | none => s

theorem releasePorts_eq (s : State) (r : Ref) (c : Call) :
    s.releasePorts r c = ((s.freeDesk c).releasePort c.origin).leaveQueues r := rfl

theorem freeDesk_law {s : State} {g : Ref → Option Holdings} {r : Ref} {c : Call} {h : Holdings}
    (L : s.view.Law g) (hg : g r = some h) (hd : h.desk = c.deskPort) :
    (s.freeDesk c).view.Law (update g r (some { h with desk := none })) ∧
      FlightKept g s (s.freeDesk c) := by
  unfold State.freeDesk
  cases hp : c.deskPort with
  | none =>
    have e : update g r (some { h with desk := none }) = g := by
      rw [Function.update_eq_self_iff, hg, ← hp, ← hd]
    exact ⟨by rwa [e], fun _ _ => rfl⟩
  | some p => exact releaseDesk_law L hg (hd.trans hp)

/-- R29: a call that is over frees its ports and leaves the wait queues; its channel stays. -/
theorem releasePorts_law {s : State} {g : Ref → Option Holdings} {r : Ref} {c : Call}
    {k : Option Channel} (L : s.view.Law g) (hg : g r = some ⟨some c.origin, c.deskPort, k⟩) :
    (s.releasePorts r c).view.Law (update g r (some ⟨none, none, k⟩)) ∧
      FlightKept g s (s.releasePorts r c) ∧ ∀ m, r ∉ (s.releasePorts r c).view.line m := by
  obtain ⟨L1, k1⟩ := freeDesk_law (c := c) L hg rfl
  obtain ⟨L2, k2⟩ := releasePort_law (role := .origin) L1 (Function.update_self ..) rfl
  rw [Function.update_idem] at L2
  rw [releasePorts_eq, State.view_leaveQueues]
  refine ⟨L2.leave (by simp), k1.trans fun q e => ?_, fun m => by simp [View.leave]⟩
  rw [State.view_leaveQueues]
  exact k2.weaken q e

/-! ## Ends -/

theorem State.view_endRecord {s : State} {r : Ref} (c : Call) (why : EndReason)
    (h : s.view.call r ≠ none) : (s.endRecord r c why).view = s.view.setCall r none := by
  obtain ⟨d, hd⟩ := Option.ne_none_iff_exists'.1 fun e : s.call? r = none =>
    h (by rw [State.view_call, e]; rfl)
  have back : ∃ t : State, t.ccu = s.ccu ∧ t.view = s.view ∧ s.endRecord r c why =
      (((t.removeJoin r).display c.origin why.display).emit
        (.callEnded r c.kind c.origin c.code c.flat c.answerer why)).setSlot r.slot
        { generation := r.gen, lastEnd := some why, call := none } := by
    unfold State.endRecord
    split
    · exact ⟨s, rfl, rfl, rfl⟩
    · split
      · exact ⟨s, rfl, rfl, rfl⟩
      · have o := takeBackAtEnd_onlyRiser s (by assumption) r why c.answerer c.offers
        exact ⟨_, o.ccu, o.view, rfl⟩
  obtain ⟨t, hc, hv, e⟩ := back
  have same : (((t.removeJoin r).display c.origin why.display).emit
      (.callEnded r c.kind c.origin c.code c.flat c.answerer why)).view = s.view :=
    (State.view_emit ..).trans hv
  rw [e, State.view_setSlot _ r _ rfl (.inr ?_), same]
  · rfl
  · rw [State.slot_congr (s := s) (by simpa using hc)]
    exact ((s.call?_eq_some r d).1 hd).1

/-- R11: the record of a call that holds the channel it was granted. -/
def Call.granted (c : Call) (ch : Channel) : Call :=
  { c with timer := none, waitingFor := none, channel := some ch }

/-- R11: the channel is held and the record written. -/
def State.granted (s : State) (r : Ref) (c : Call) (ch : Channel) : State :=
  (s.setHolder ch (some r)).setCall r (c.granted ch)

/-- What grant handling can do: the call offers its flat, or it holds the channel and fails a check. -/
theorem grantChannel_cases (s : State) (r : Ref) (c : Call) (ch : Channel) :
    (∃ i, c.flat = some i ∧ (s.granted r c ch).entryCheck r i = none ∧
      s.grantChannel r c ch = ((s.granted r c ch).offerFlat r (c.granted ch) i, none)) ∨
    ∃ why, s.grantChannel r c ch = (s.granted r c ch, some why) ∧
      (c.flat = none ∧ why = .unreachableNoStation ∨
        ∃ i, c.flat = some i ∧ (s.granted r c ch).entryCheck r i = some why) := by
  have e : s.grantChannel r c ch =
      match c.flat with
      | none => (s.granted r c ch, some .unreachableNoStation)
      | some i =>
        match (s.granted r c ch).entryCheck r i with
        | some why => (s.granted r c ch, some why)
        | none => ((s.granted r c ch).offerFlat r (c.granted ch) i, none) := rfl
  rw [e]
  cases c.flat with
  | none => exact .inr ⟨_, rfl, .inl ⟨rfl, rfl⟩⟩
  | some i =>
    cases he : (s.granted r c ch).entryCheck r i with
    | none => exact .inl ⟨i, rfl, he, by simp [he]⟩
    | some why => exact .inr ⟨why, by simp [he], .inr ⟨i, rfl, he⟩⟩

theorem State.view_offerFlat {s : State} {r : Ref} (c : Call) (i : FlatIx)
    (h : s.view.call r ≠ none) : (s.offerFlat r c i).view =
      s.view.setCall r (some { c.bare with timer := none, waitingFor := none, state := .offering }) := by
  unfold State.offerFlat
  dsimp only
  generalize ((s.offeredStations (s.flat i)).map fun a =>
    ({ station := a, status := .queued, tag := none } : Offer)) = os
  have e := State.view_queueOffers (s.setCall r { c with offers := os, timer := none, waitingFor := none })
    (s.flat i).riser r c.kind c.origin (s.offeredStations (s.flat i))
  rw [State.view_setCall _ h] at e
  generalize State.queueOffers _ _ _ _ _ _ = t at e ⊢
  have call : t.view.call r = some { c.bare with timer := none, waitingFor := none } := by
    rw [e]; simp [View.setCall, Call.bare]
  obtain ⟨d, hd, hb⟩ := Option.map_eq_some_iff.1 call
  show (t.modifyCall r _).view = _
  unfold State.modifyCall
  rw [hd]
  dsimp only
  rw [State.view_setCall _ (by simp [call]), e]
  simp only [View.setCall, Function.update_idem]
  congr 3
  rw [← show ({ d.bare with state := .offering } : Call) = Call.bare { d with state := .offering }
    from rfl, hb]

theorem State.view_granted {s : State} {r : Ref} (c : Call) (ch : Channel) (h : s.view.call r ≠ none) :
    (s.granted r c ch).view =
      (s.view.setHolder ch (some r)).setCall r (some (c.granted ch).bare) := by
  unfold State.granted
  rw [State.view_setCall _ (by rw [State.view_setHolder]; exact h), State.view_setHolder]

/-- R11: a call in flight is given a channel that is nobody's. -/
theorem granted_law {s : State} {g : Ref → Option Holdings} {r : Ref} {c : Call} {ch : Channel}
    (L : (s.view.setHolder ch none).Law g) (hg : g r = some ⟨some c.origin, none, none⟩)
    (live : s.view.call r ≠ none) :
    (s.granted r c ch).view.Law (update g r (some ⟨some c.origin, none, some ch⟩)) := by
  have L1 := L.takeChannel (ch := ch) hg rfl (by simp [View.setHolder])
  have e : (s.view.setHolder ch none).setHolder ch (some r) = s.view.setHolder ch (some r) := by
    simp [View.setHolder]
  rw [e] at L1
  rw [State.view_granted c ch live]
  exact L1.writeLive (by simp) live _

/-- R11: a call that holds its channel offers its flat and comes to rest. -/
theorem offerFlat_law {s : State} {g : Ref → Option Holdings} {r : Ref} {c : Call} {ch : Channel}
    {i : FlatIx} (L : s.view.Law g) (hg : g r = some ⟨some c.origin, none, some ch⟩)
    (live : s.view.call r ≠ none) (channel : c.channel = some ch) (leg : c.leg = .flat)
    (desk : c.deskPort = none) (answerer : c.answerer = none) (flat : c.flat ≠ none)
    (home : s.view.riserOf c = some ch.riser) :
    (s.offerFlat r c i).view.Law (update g r none) := by
  rw [State.view_offerFlat c i live]
  have L1 := L.writeLive (r := r) (by simp [hg]) live
    (some { c.bare with timer := none, waitingFor := none, state := .offering })
  refine L1.land (r := r) (by simp [View.setCall]; rfl) ?_ ?_ (by simp) ?_
  · simp [hg, Call.holdings, Call.bare, desk, channel]
  · simp [Call.StateLaw, Call.bare, leg, desk, answerer, flat, channel]
  · intro d e
    have e : c.channel = some d := e
    obtain rfl : ch = d := Option.some.inj (channel ▸ e)
    exact home

/-- R28, R29: the end of a call that has its channel still, which is then nobody's. -/
theorem endKeepingChannel_law {s : State} {g : Ref → Option Holdings} {r : Ref} {c : Call}
    {k : Option Channel} {why : EndReason} (L : s.view.Law g)
    (hg : g r = some ⟨some c.origin, c.deskPort, k⟩) (live : s.view.call r ≠ none) :
    ((s.endRecord r c why).releasePorts r c).view.Law (update g r (some ⟨none, none, k⟩)) ∧
      ((s.endRecord r c why).releasePorts r c).view.call r = none ∧
      (∀ m, r ∉ ((s.endRecord r c why).releasePorts r c).view.line m) ∧
      ∀ q, q ≠ r → g q ≠ none →
        ((s.endRecord r c why).releasePorts r c).view.call q = s.view.call q := by
  have view := State.view_endRecord c why live
  have L1 := L.write (r := r) (by simp [hg]) none (.inl rfl)
  rw [← view] at L1
  have dead : (s.endRecord r c why).view.call r = none := by simp [view, View.setCall]
  obtain ⟨L2, k2, free⟩ := releasePorts_law L1 hg
  refine ⟨L2, by rw [k2 r (by simp [hg]), dead], free, fun q hq e => ?_⟩
  rw [k2 q e, view]
  simp [View.setCall, hq]

/-- R56: the loop that serves a channel, from a state in which that channel is nobody's. -/
theorem serveChannel_law {n : Nat} {ch : Channel} {s : State} {g : Ref → Option Holdings}
    (L : (s.view.setHolder ch none).Law g) :
    (State.serveChannel n ch s).view.Law g ∧ FlightKept g s (State.serveChannel n ch s) := by
  induction n generalizing s with
  | zero =>
    unfold State.serveChannel
    rw [State.view_setHolder]
    exact ⟨L, fun q _ => by rw [State.view_setHolder]; rfl⟩
  | succ n ih =>
    unfold State.serveChannel
    split
    · rw [State.view_setHolder]
      exact ⟨L, fun q _ => by rw [State.view_setHolder]; rfl⟩
    · next r rest hq =>
      have line : (s.view.setHolder ch none).line (.channel ch.riser) = r :: rest := hq
      have view := State.view_setChannelQueue s ch.riser rest
      have freed : (s.setChannelQueue ch.riser rest).view.setHolder ch none =
          (s.view.setHolder ch none).setLine (.channel ch.riser) rest := by rw [view]; rfl
      have kept : FlightKept g s (s.setChannelQueue ch.riser rest) := fun q _ => by rw [view]; rfl
      have call : (s.setChannelQueue ch.riser rest).call? r = s.call? r := rfl
      dsimp only
      rw [call]
      split
      · next hc =>
        have L1 := L.pass line (by
          show s.view.call r = none
          rw [State.view_call, hc]; rfl)
        rw [← freed] at L1
        exact ⟨(ih L1).1, kept.trans (ih L1).2⟩
      · next c hc =>
        have hv : s.view.call r = some c.bare := State.view_call_some hc
        obtain ⟨L1, hg, w, pl⟩ := L.dequeue line hv
        have law := L.states r _ hg hv
        obtain ⟨wf, home⟩ := View.place_channel.1 pl
        obtain ⟨leg, channel, desk, answerer⟩ :=
          ((Call.StateLaw_bare c).1 law).waitsForChannel w wf
        rw [← freed] at L1
        have here : (s.setChannelQueue ch.riser rest).view.call r ≠ none := by
          rw [view]; simp [View.setLine, hv]
        generalize s.setChannelQueue ch.riser rest = s1 at *
        have other : ∀ q, g q ≠ none → q ≠ r := fun q hq e => hq (e ▸ hg)
        have L2 := granted_law (c := c) L1 (by simp [Call.holdings, Call.bare, desk, channel]) here
        rw [Function.update_idem] at L2
        have live2 : (s1.granted r c ch).view.call r ≠ none := by
          rw [State.view_granted c ch here]; simp [View.setCall]
        have kept2 : FlightKept g s (s1.granted r c ch) := kept.trans fun q hq => by
          rw [State.view_granted c ch here]
          simp [View.setCall, View.setHolder, other q hq]
        rcases grantChannel_cases s1 r c ch with ⟨i, hf, -, e⟩ | ⟨why, e, -⟩
        · rw [e]
          have L3 := offerFlat_law (c := c.granted ch) (i := i) L2 (Function.update_self ..) live2 rfl
            leg desk answerer (by simp [Call.granted, hf])
            (by rw [State.view_granted c ch here, ← home, view]; rfl)
          rw [Function.update_idem, update_none hg] at L3
          refine ⟨L3, kept2.trans fun q hq => ?_⟩
          rw [State.view_offerFlat _ i live2]
          simp [View.setCall, other q hq]
        · rw [e]
          have same : (s1.granted r c ch).call? r = some (c.granted ch) := by
            obtain ⟨d, hd⟩ := Option.ne_none_iff_exists'.1 fun e : s1.call? r = none =>
              here (by rw [State.view_call, e]; rfl)
            unfold State.granted
            rw [State.call?_setCall, if_pos rfl, if_pos]
            exact ((s1.call?_eq_some r d).1 hd).1
          dsimp only
          rw [same]
          obtain ⟨L3, dead, free, k3⟩ := endKeepingChannel_law (c := c.granted ch) (k := some ch)
            (why := why) L2 (by simp [Call.granted, desk]) live2
          have L4 := (L3.freeChannel (Function.update_self ..) rfl).landDead (r := r) dead
            (Function.update_self ..) free
          rw [Function.update_idem, Function.update_idem, Function.update_idem, update_none hg] at L4
          refine ⟨(ih L4).1, kept2.trans (FlightKept.trans (fun q hq => ?_) (ih L4).2)⟩
          exact k3 q (other q hq) (by simpa [other q hq] using hq)

/-- R56: a call that is over or moves on releases the channel kept for it. -/
theorem releaseChannel_law {s : State} {g : Ref → Option Holdings} {r : Ref} {h : Holdings}
    {ch : Channel} (L : s.view.Law g) (hg : g r = some h) (hc : h.channel = some ch) :
    (s.releaseChannel ch).view.Law (update g r (some { h with channel := none })) ∧
      FlightKept g s (s.releaseChannel ch) := by
  obtain ⟨L1, k1⟩ := serveChannel_law (n := (s.paths ch.riser).queue.length) (L.freeChannel hg hc)
  exact ⟨L1, k1.weaken⟩

/-- R56: the channel of a call, if it has one, is released. -/
def State.freeChannel (s : State) (c : Call) : State :=
  match c.channel with
  | some ch => s.releaseChannel ch
  | none => s

theorem freeChannel_law {s : State} {g : Ref → Option Holdings} {r : Ref} {c : Call} {h : Holdings}
    (L : s.view.Law g) (hg : g r = some h) (hc : h.channel = c.channel) :
    (s.freeChannel c).view.Law (update g r (some { h with channel := none })) ∧
      FlightKept g s (s.freeChannel c) := by
  unfold State.freeChannel
  cases hch : c.channel with
  | none =>
    have e : update g r (some { h with channel := none }) = g := by
      rw [Function.update_eq_self_iff, hg, ← hch, ← hc]
    exact ⟨by rwa [e], fun _ _ => rfl⟩
  | some ch => exact releaseChannel_law L hg (hc.trans hch)

/-- The end of a live call in its steps. -/
theorem endCall_live {s : State} {r : Ref} {c : Call} (hc : s.call? r = some c) (why : EndReason) :
    s.endCall r why = ((s.endRecord r c why).freeChannel c).releasePorts r c := by
  unfold State.endCall
  rw [hc]
  rfl

/-- The end of a call that is over already does nothing. -/
theorem endCall_stale {s : State} {r : Ref} (hc : s.call? r = none) (why : EndReason) :
    s.endCall r why = s := by
  unfold State.endCall
  rw [hc]

/-- R28, R29: the end of a live call, at rest or in flight with what its record says. -/
theorem endCall_law {s : State} {g : Ref → Option Holdings} {r : Ref} {why : EndReason}
    (L : s.view.Law g) (hg : ∀ c, s.call? r = some c → g r = none ∨ g r = some c.holdings) :
    (s.endCall r why).view.Law (if s.call? r = none then g else update g r none) := by
  cases hc : s.call? r with
  | none => rwa [endCall_stale hc, if_pos rfl]
  | some c =>
    have live : s.view.call r = some c.bare := State.view_call_some hc
    rw [endCall_live hc, if_neg (by simp)]
    have view := State.view_endRecord c why (by simp [live] : s.view.call r ≠ none)
    have L1 := L.kill live (hg c hc)
    rw [← view] at L1
    have dead : (s.endRecord r c why).view.call r = none := by simp [view, View.setCall]
    obtain ⟨L2, k2⟩ := freeChannel_law (c := c) L1 (Function.update_self ..) rfl
    rw [Function.update_idem] at L2
    obtain ⟨L3, k3, free⟩ := releasePorts_law (c := c) (k := none) L2 (Function.update_self ..)
    have L4 := L3.landDead (r := r) (by rw [k3 r (by simp), k2 r (by simp), dead])
      (Function.update_self ..) free
    simpa using L4

end Sys2Proof.Machine
end

