-- ==== Sys2Proof/Proofs/PathOperations.lean ====
section
/-!
SUPPORT. `PathLaw` across every operation by which a call begins, moves on or ends.
-/

namespace Sys2Proof.Machine

open Function (update)

/-! ## What a record holds (R4) -/

theorem Call.StateLaw.offering {c : Call} (law : c.StateLaw) (st : c.state = .offering) :
    c.leg = .flat ∧ c.channel ≠ none ∧ c.deskPort = none ∧ c.answerer = none := by
  obtain ⟨-, ans, rest⟩ := law
  rw [st] at rest
  cases leg : c.leg <;> simp_all

theorem Call.StateLaw.onDesk {c : Call} (law : c.StateLaw) (leg : c.leg = .concierge)
    (w : c.state ≠ .waiting) :
    c.waitingFor = none ∧ c.channel = none ∧ c.deskPort ≠ none ∧ c.answerer = none := by
  obtain ⟨-, ans, rest⟩ := law
  rw [leg] at rest
  cases st : c.state <;> simp_all

/-! ## Entering a leg -/

theorem State.call?_of_view {s : State} {r : Ref} (h : s.view.call r ≠ none) :
    ∃ c, s.call? r = some c :=
  Option.ne_none_iff_exists'.1 fun e : s.call? r = none => h (by rw [State.view_call, e]; rfl)

/-- A record written over a live call is the one its reference matches then. -/
theorem State.call?_setCall_live {s : State} {r : Ref} (c : Call) (h : s.view.call r ≠ none) :
    (s.setCall r c).call? r = some c := by
  obtain ⟨d, hd⟩ := State.call?_of_view h
  rw [State.call?_setCall, if_pos rfl, if_pos]
  exact ((s.call?_eq_some r d).1 hd).1

theorem State.view_display (s : State) (p : PortIx) (d : Display) :
    (s.display p d).view = s.view := rfl

theorem State.view_enterState {s : State} {r : Ref} (c : Call) (st : CallState)
    (w : Option WaitingFor) (t : Option TimerKind) (h : s.view.call r ≠ none) :
    (s.enterState r c st w t).view = s.view.setCall r
      (some { c.bare with state := st, waitingFor := w, timer := t.map s.callTimer }) := by
  have e := State.view_setCall { c with state := st, waitingFor := w, timer := t.map s.callTimer } h
  exact e

theorem View.setHolder_self {v : View} {ch : Channel} {o : Option Ref} (h : v.holder ch = o) :
    v.setHolder ch o = v := by
  refine View.ext rfl rfl ?_ rfl rfl
  simp [View.setHolder, ← h]

/-- R139: the record of a call on its concierge leg, before its state is written. -/
def Call.onConcierge (c : Call) : Call :=
  { c with leg := .concierge, deskVisited := true, timer := none, waitingFor := none }

/-- What entering the concierge leg can do: the lowest eligible desk is granted, or the call joins the
desk wait queue. -/
theorem enterConciergeLeg_cases (s : State) (r : Ref) (c : Call) :
    (∃ p, s.lowestDesk = some p ∧
      s.enterConciergeLeg r c = (s.setCall r c.onConcierge).grantDesk r c.onConcierge p) ∨
    (s.lowestDesk = none ∧ s.enterConciergeLeg r c =
      ((s.setCall r c.onConcierge).setDeskQueue (s.psw.deskQueue ++ [r])).enterState r c.onConcierge
        .waiting (some .desk) (some .pathWait)) := by
  have e : s.enterConciergeLeg r c = match s.lowestDesk with
      | some p => (s.setCall r c.onConcierge).grantDesk r c.onConcierge p
      | none => ((s.setCall r c.onConcierge).setDeskQueue (s.psw.deskQueue ++ [r])).enterState r
          c.onConcierge .waiting (some .desk) (some .pathWait) := rfl
  rw [e]
  cases h : s.lowestDesk with
  | some p => exact .inl ⟨p, rfl, rfl⟩
  | none => exact .inr ⟨rfl, rfl⟩

theorem State.eligible_free {s : State} {p : PortIx} (h : s.eligible p = true) : s.hold p = none := by
  simp only [State.eligible, Bool.and_eq_true, Option.isNone_iff_eq_none] at h
  exact h.2

/-- R60, R139: a call in flight that holds its origin alone enters its concierge leg. -/
theorem enterConciergeLeg_law {s : State} {g : Ref → Option Holdings} {r : Ref} {c : Call}
    (L : s.view.Law g) (hg : g r = some ⟨some c.origin, none, none⟩) (live : s.view.call r ≠ none)
    (channel : c.channel = none) (desk : c.deskPort = none) (answerer : c.answerer = none) :
    (s.enterConciergeLeg r c).view.Law (update g r none) := by
  have view := State.view_setCall c.onConcierge live
  have L1 := L.writeLive (r := r) (by simp [hg]) live (some c.onConcierge.bare)
  rw [← view] at L1
  have live1 : (s.setCall r c.onConcierge).view.call r ≠ none := by rw [view]; simp [View.setCall]
  rcases enterConciergeLeg_cases s r c with ⟨p, hp, e⟩ | ⟨-, e⟩ <;> rw [e]
  · exact grantDesk_law L1 hg live1 (State.eligible_free (s := s) (List.find?_some hp)) rfl channel
      answerer
  · have queue := State.view_setDeskQueue (s.setCall r c.onConcierge) (s.psw.deskQueue ++ [r])
    generalize s.setCall r c.onConcierge = s1 at *
    obtain ⟨d, hd⟩ : ∃ d : Call, d = { c.onConcierge with
      state := .waiting, waitingFor := some .desk, timer := some (s1.callTimer .pathWait) } := ⟨_, rfl⟩
    have L2 := L1.writeLive (r := r) (by simp [hg]) live1 (some d.bare)
    have L3 := L2.wait (r := r) (c := d.bare) (k := .desk) (by simp [View.setCall])
      (by simp [hg, hd, Call.onConcierge, Call.holdings, Call.bare, channel, desk])
      (by
        simp [hd, Call.onConcierge, Call.StateLaw, Call.bare, channel, desk, answerer,
          State.callTimer])
      (by subst hd; rfl) (View.place_desk.2 (by subst hd; rfl))
    have e : ((s1.setDeskQueue (s.psw.deskQueue ++ [r])).enterState r c.onConcierge .waiting
        (some .desk) (some .pathWait)).view =
        (s1.view.setCall r (some d.bare)).setLine .desk (s.view.line .desk ++ [r]) := by
      refine (State.view_setCall (s := s1.setDeskQueue (s.psw.deskQueue ++ [r])) _
        (by rw [queue]; exact live1)).trans ?_
      rw [queue, hd]
      rfl
    rw [e]
    have same : (s1.view.setCall r (some d.bare)).line = s.view.line := by rw [view]; rfl
    rwa [same] at L3

/-- R54: a call in flight is granted a channel that is FREE. -/
theorem grantNow_law {s : State} {g : Ref → Option Holdings} {r : Ref} {c : Call} {ch : Channel}
    (L : s.view.Law g) (hg : g r = some ⟨some c.origin, none, none⟩) (live : s.view.call r ≠ none)
    (free : s.view.holder ch = none) (home : s.view.riserOf c = some ch.riser) (leg : c.leg = .flat)
    (desk : c.deskPort = none) (answerer : c.answerer = none) :
    (s.grantNow r c ch).view.Law (update g r none) := by
  have L1 := granted_law (c := c) (ch := ch) (by rwa [View.setHolder_self free]) hg live
  have view := State.view_granted c ch live
  have live1 : (s.granted r c ch).view.call r ≠ none := by rw [view]; simp [View.setCall]
  unfold State.grantNow
  rcases grantChannel_cases s r c ch with ⟨i, hf, -, e⟩ | ⟨why, e, -⟩
  · rw [e]
    have L2 := offerFlat_law (c := c.granted ch) (i := i) L1 (Function.update_self ..) live1 rfl leg
      desk answerer (by simp [Call.granted, hf]) (by rw [view]; exact home)
    rwa [Function.update_idem] at L2
  · rw [e]
    have same : (s.granted r c ch).call? r = some (c.granted ch) :=
      State.call?_setCall_live _ (by rw [State.view_setHolder]; exact live)
    have L2 := endCall_law (why := why) L1 fun d hd => .inr (by
      rw [same] at hd
      cases hd
      simp [Call.holdings, Call.granted, desk])
    rw [same] at L2
    simpa using L2

/-- R9, R10: a call in flight that holds its origin alone tries its flat. -/
theorem enterFlatLeg_law {s : State} {g : Ref → Option Holdings} {r : Ref} {c : Call} {i : FlatIx}
    (L : s.view.Law g) (hg : g r = some ⟨some c.origin, none, none⟩)
    (live : s.view.call r = some c.bare) (flat : c.flat = some i) (leg : c.leg = .flat)
    (channel : c.channel = none) (desk : c.deskPort = none) (answerer : c.answerer = none) :
    (s.enterFlatLeg r c i).view.Law (update g r none) := by
  have alive : s.view.call r ≠ none := by simp [live]
  have ends : ∀ why, (s.endCall r why).view.Law (update g r none) := fun why => by
    obtain ⟨d, hd⟩ := State.call?_of_view alive
    have L1 := endCall_law (why := why) L fun e he => .inr (by
      have : e.bare = c.bare := Option.some.inj ((State.view_call_some he).symm.trans live)
      rw [hg, show e.holdings = e.bare.holdings from rfl, this]
      simp [Call.holdings, Call.bare, channel, desk])
    rw [hd] at L1
    simpa using L1
  have home : s.view.riserOf c = some (s.flat i).riser := by
    simp only [View.riserOf, flat]; rfl
  unfold State.enterFlatLeg
  split
  · exact ends _
  · unfold State.requestChannel
    split
    · exact ends _
    · split
      · next h => exact grantNow_law L hg alive h home leg desk answerer
      · split
        · next h => exact grantNow_law L hg alive h home leg desk answerer
        · obtain ⟨d, hd⟩ : ∃ d : Call, d = { c with
            state := .waiting, waitingFor := some .channel, timer := some (s.callTimer .pathWait) } :=
            ⟨_, rfl⟩
          have L2 := L.writeLive (r := r) (by simp [hg]) alive (some d.bare)
          have L3 := L2.wait (r := r) (c := d.bare) (k := .channel (s.flat i).riser)
            (by simp [View.setCall])
            (by subst hd; simp [hg, Call.holdings, Call.bare, channel, desk])
            (by
              subst hd
              simp [Call.StateLaw, Call.bare, leg, flat, channel, desk, answerer, State.callTimer])
            (by subst hd; rfl)
            (View.place_channel.2 ⟨by subst hd; rfl, by subst hd; exact home⟩)
          have queue := State.view_setChannelQueue s (s.flat i).riser
            ((s.paths (s.flat i).riser).queue ++ [r])
          have e : ((s.setChannelQueue (s.flat i).riser
              ((s.paths (s.flat i).riser).queue ++ [r])).enterState r c .waiting (some .channel)
              (some .pathWait)).view = (s.view.setCall r (some d.bare)).setLine
                (.channel (s.flat i).riser) (s.view.line (.channel (s.flat i).riser) ++ [r]) := by
            refine (State.view_setCall (s := s.setChannelQueue (s.flat i).riser
              ((s.paths (s.flat i).riser).queue ++ [r])) _ (by rw [queue]; exact alive)).trans ?_
            rw [queue]
            subst hd
            rfl
          rw [e]
          exact L3

/-! ## Calls at rest -/

/-- A call that does not wait is taken in flight with what its record says. -/
theorem State.PathLaw.launch {s : State} (L : s.PathLaw) {r : Ref} {c : Call}
    (hc : s.call? r = some c) (w : c.state ≠ .waiting) :
    s.view.Law (update noFlight r (some c.holdings)) := by
  have L := (s.pathLaw_iff_view).1 L
  have live := State.view_call_some hc
  exact L.launch (c := c.bare) live rfl fun k => L.not_mem_line live (fun _ => w) k

theorem pathLaw_of_landed {s : State} {r : Ref} (L : s.view.Law (update noFlight r none)) :
    s.PathLaw := (s.pathLaw_iff_view).2 (by rwa [update_none rfl] at L)

/-- A step that leaves the view keeps the law. -/
theorem State.PathLaw.of_view {s t : State} (L : s.PathLaw) (h : t.view = s.view) : t.PathLaw :=
  (t.pathLaw_iff_view).2 (h ▸ (s.pathLaw_iff_view).1 L)

/-- The record of a call that does not wait is replaced by another that holds the same, is one of its
state and does not wait. -/
theorem State.PathLaw.rewrite {s t : State} (L : s.PathLaw) {r : Ref} {c d : Call}
    (hc : s.call? r = some c) (w : c.state ≠ .waiting)
    (h : t.view = s.view.setCall r (some d.bare)) (same : d.holdings = c.holdings)
    (flat : d.flat = c.flat) (law : d.StateLaw) (w' : d.state ≠ .waiting) : t.PathLaw := by
  have live := State.view_call_some hc
  have L1 := (L.launch hc w).writeLive (r := r) (by simp) (by simp [live]) (some d.bare)
  refine pathLaw_of_landed (r := r) ?_
  have homes := ((s.pathLaw_iff_view).1 L).homes r c.bare
  rw [h]
  have L2 := L1.land (r := r) (c := d.bare) (by simp [View.setCall]) (by simp [← same]; rfl) law w'
    fun ch e => by
      refine Eq.trans ?_ (homes ch rfl live ?_)
      · show Option.map _ d.flat = Option.map _ c.flat
        rw [flat]; rfl
      · exact (congrArg Holdings.channel same).symm.trans e
  rwa [Function.update_idem] at L2

theorem endCall_pathLaw {s : State} (L : s.PathLaw) (r : Ref) (why : EndReason) :
    (s.endCall r why).PathLaw := by
  have := endCall_law (r := r) (why := why) ((s.pathLaw_iff_view).1 L) fun _ _ => .inl rfl
  refine ((s.endCall r why).pathLaw_iff_view).2 ?_
  rwa [update_none rfl, ite_self] at this

/-- R28: the end of a call in flight that holds what its record says. -/
theorem endCall_flight_pathLaw {s : State} {r : Ref} {c : Call}
    (L : s.view.Law (update noFlight r (some c.holdings))) (hc : s.call? r = some c)
    (why : EndReason) : (s.endCall r why).PathLaw := by
  have L1 := endCall_law (r := r) (why := why) L fun d hd => .inr (by
    obtain rfl : c = d := Option.some.inj (hc ▸ hd)
    simp)
  rw [hc, Function.update_idem] at L1
  exact pathLaw_of_landed L1

theorem serveDesk_pathLaw {s : State} (L : s.PathLaw) (p : PortIx) : (s.serveDesk p).PathLaw :=
  (State.pathLaw_iff_view _).2 (serveDesk_law ((s.pathLaw_iff_view).1 L)).1

/-! ## A new call -/

theorem State.view_createCall (s : State) (i : SlotIx) (c : Call) (h : (s.slot i).call = none) :
    (s.createCall i c).1.view =
      (s.view.setHold c.origin (some ⟨(s.createCall i c).2, .origin⟩)).setCall (s.createCall i c).2
        (some c.bare) := by
  refine (State.view_emit ..).trans ((State.view_setHold _ _ _).trans ?_)
  have := s.view_setSlot (s.createCall i c).2
    { generation := (s.slot i).generation + 1, lastEnd := none, call := some c } rfl (.inl h)
  exact congrArg (View.setHold · c.origin _) this

theorem State.freeSlot?_some {s : State} {i : SlotIx} (h : s.freeSlot? = some i) :
    (s.slot i).call = none := by
  simpa using List.find?_some h

/-- R7: a new call is in flight with its origin port. -/
theorem createCall_law {s : State} (L : s.PathLaw) {i : SlotIx} {c : Call}
    (h : (s.slot i).call = none) (free : s.hold c.origin = none) :
    (s.createCall i c).1.view.Law
      (update noFlight (s.createCall i c).2 (some ⟨some c.origin, none, none⟩)) := by
  rw [State.view_createCall s i c h]
  have none : s.view.call (s.createCall i c).2 = none := by
    have : s.call? (s.createCall i c).2 = none := by
      unfold State.call?
      split
      · exact h
      · rfl
    rw [State.view_call, this]; rfl
  obtain ⟨L1, out⟩ := ((s.pathLaw_iff_view).1 L).appear none rfl
  have L2 := L1.takePort (role := .origin) (p := c.origin) (Function.update_self ..) rfl free
  rw [Function.update_idem] at L2
  exact L2.write (by simp) _ (.inr out)

theorem continueCall_law {s : State} {r : Ref} {c : Call}
    (L : s.view.Law (update noFlight r (some ⟨some c.origin, none, none⟩)))
    (live : s.call? r = some c) (leg : c.code ≠ none → c.leg = .flat)
    (channel : c.channel = none) (desk : c.deskPort = none) (answerer : c.answerer = none) :
    (s.continueCall r c).PathLaw := by
  have alive : s.view.call r ≠ none := by simp [State.view_call_some live]
  have land : ∀ {t : State}, t.view.Law (update (update noFlight r
      (some ⟨some c.origin, none, none⟩)) r none) → t.PathLaw := fun h => by
    rw [Function.update_idem] at h
    exact pathLaw_of_landed h
  unfold State.continueCall
  split
  · exact land (enterConciergeLeg_law L (Function.update_self ..) alive channel desk answerer)
  · next code hcode =>
    split
    · refine endCall_flight_pathLaw ?_ live _
      simpa [Call.holdings, desk, channel] using L
    · next i _ =>
      have view := State.view_setCall (s := s) (r := r) { c with flat := some i } alive
      have L1 := L.writeLive (r := r) (by simp) alive (some { c with flat := some i }.bare)
      rw [← view] at L1
      have live1 : (s.setCall r { c with flat := some i }).view.call r =
        some { c with flat := some i }.bare := by rw [view]; simp [View.setCall]
      dsimp only
      split
      · exact land (enterConciergeLeg_law (c := { c with flat := some i }) L1
          (Function.update_self ..) (by simp [live1]) channel desk answerer)
      · exact land (enterFlatLeg_law (c := { c with flat := some i }) L1 (Function.update_self ..)
          live1 rfl (leg (by simp [hcode])) channel desk answerer)

theorem startCall_pathLaw {s : State} (L : s.PathLaw) (p : PortIx) (q : StartRequest)
    (code : Option Nat) (hq : code ≠ none → q ≠ .concierge) : (s.startCall p q code).PathLaw := by
  unfold State.startCall
  split
  · exact L.of_view (State.view_emit ..)
  · split
    · exact L.of_view rfl
    · next held =>
      split
      · exact L
      · next i hi =>
        have slot := State.freeSlot?_some hi
        have L1 := createCall_law L (c := Call.fresh q.callKind p code) slot
          (by simpa [Call.fresh] using held)
        have view := State.view_createCall s i (Call.fresh q.callKind p code) slot
        dsimp only
        refine continueCall_law (c := Call.fresh q.callKind p code) L1 ?_ (fun h => ?_) rfl rfl rfl
        · unfold State.createCall
          dsimp only
          rw [State.call?_congr (State.emit_ccu _ _)]
          show State.call? (s.setSlot i _) _ = _
          simp [State.call?]
        · have := hq h
          cases q <;> simp_all [Call.fresh, StartRequest.callKind]

/-! ## Answers, completions, diverts and forwards -/

/-- R17: the record of a call that a station answers, before its offers and its timer are written. -/
def Call.answered (c : Call) (a : Nat) : Call :=
  { c with answerer := some a, timer := none, state := .connected }

/-- R63, R113: the channel of an answered call is joined to its origin, and JOIN goes to the station. -/
def State.joinAnswer (s : State) (x : RiserIx) (a : Nat) (r : Ref) (c : Call) : State :=
  match c.channel with
  | some ch =>
    (s.makeJoin { call := r, origin := c.origin, other := .channel ch }).advise x (.join a r ch.side)
  | none => s

theorem joinAnswer_view (s : State) (x : RiserIx) (a : Nat) (r : Ref) (c : Call) :
    (s.joinAnswer x a r c).view = s.view := by
  unfold State.joinAnswer
  split
  · exact State.view_advise ..
  · rfl

/-- R17: the answer in its steps. -/
theorem takeAnswer_eq (s : State) (x : RiserIx) (a : Nat) (r : Ref) (c : Call) :
    s.takeAnswer x a r c =
      let back := ((s.setCall r (c.answered a)).joinAnswer x a r c).takeBackAll x r
        .answeredElsewhere (fun o => decide (o.station = a)) c.offers
      ((back.1.setCall r { c.answered a with
        offers := back.2, timer := some (back.1.callTimer .talk) }).display c.origin .speak).emit
          (.callAnswered r (some a) none) := rfl

theorem takeAnswer_pathLaw {s : State} (L : s.PathLaw) {x : RiserIx} {a : Nat} {r : Ref} {c : Call}
    (hc : s.call? r = some c) (may : s.mayAnswer x a c = true) : (s.takeAnswer x a r c).PathLaw := by
  simp only [State.mayAnswer, Bool.and_eq_true, Bool.or_eq_true, decide_eq_true_eq,
    Option.isNone_iff_eq_none] at may
  obtain ⟨⟨⟨⟨leg, st⟩, -⟩, -⟩, -⟩ := may
  have law := L.1 r c hc
  have alive : s.view.call r ≠ none := by simp [State.view_call_some hc]
  obtain ⟨w, waits, channel, desk⟩ : c.state ≠ .waiting ∧ c.waitingFor = none ∧ c.channel ≠ none ∧
      c.deskPort = none := by
    obtain ⟨-, -, rest⟩ := law
    rcases st with e | e <;> rw [leg, e] at rest <;> simp_all
  rw [takeAnswer_eq]
  dsimp only
  have view : (((s.setCall r (c.answered a)).joinAnswer x a r c).takeBackAll x r
      .answeredElsewhere (fun o => decide (o.station = a)) c.offers).1.view =
      s.view.setCall r (some (c.answered a).bare) :=
    (takeBackAll_onlyRiser ..).view.trans ((joinAnswer_view ..).trans (State.view_setCall _ alive))
  generalize State.takeBackAll _ _ _ _ _ _ = back at view ⊢
  obtain ⟨d, hd⟩ : ∃ d : Call, d = { c.answered a with
    offers := back.2, timer := some (back.1.callTimer .talk) } := ⟨_, rfl⟩
  rw [← hd]
  refine L.rewrite (d := d) hc w ?_ (by rw [hd]; rfl) (by rw [hd]; rfl) ?_
    (by simp [hd, Call.answered])
  · refine (State.view_emit ..).trans ?_
    have e := State.view_setCall (s := back.1) (r := r) d (by rw [view]; simp [View.setCall])
    rw [view] at e
    rw [State.view_display, e]
    simp [View.setCall]
  · simp [hd, Call.answered, Call.StateLaw, leg, law.1 leg, waits, channel, desk, State.callTimer]

/-- What a live call found by `find?` among the live calls is. -/
theorem State.mem_liveCalls {s : State} {rc : Ref × Call} :
    rc ∈ s.liveCalls ↔ s.call? rc.1 = some rc.2 := by
  obtain ⟨⟨i, g⟩, c⟩ := rc
  simp only [State.liveCalls, List.mem_filterMap, List.mem_finRange, true_and, State.call?_eq_some]
  constructor
  · rintro ⟨j, h⟩
    split at h
    · next d hd =>
      simp only [Option.some.injEq, Prod.mk.injEq, Ref.mk.injEq] at h
      obtain ⟨⟨rfl, rfl⟩, rfl⟩ := h
      exact ⟨rfl, hd⟩
    · cases h
  · rintro ⟨hg, hc⟩
    exact ⟨i, by rw [hc]; simp [hg]⟩

theorem lift_pathLaw {s : State} (L : s.PathLaw) (x : RiserIx) (a : Nat) : (s.lift x a).PathLaw := by
  unfold State.lift
  split
  · next rc h =>
    exact takeAnswer_pathLaw L (State.mem_liveCalls.1 (List.mem_of_find?_eq_some h))
      (List.find?_some (p := fun rc : Ref × Call => s.mayAnswer x a rc.2) h)
  · unfold State.turnAway
    split
    · exact L
    · split
      · exact L.of_view (State.view_advise ..)
      · split <;> exact L.of_view (State.view_advise ..)

theorem hangup_pathLaw {s : State} (L : s.PathLaw) (x : RiserIx) (a : Nat) :
    (s.hangup x a).PathLaw := by
  unfold State.hangup
  split
  · exact endCall_pathLaw L _ _
  · exact L

/-- A change of a live call's offers alone. -/
theorem State.PathLaw.setCall_bare {s : State} (L : s.PathLaw) {r : Ref} {c d : Call}
    (hc : s.call? r = some c) (h : d.bare = c.bare) : (s.setCall r d).PathLaw := by
  refine L.of_view ?_
  have live := State.view_call_some hc
  rw [State.view_setCall _ (by simp [live]), h]
  refine View.ext (funext fun q => ?_) rfl rfl rfl rfl
  by_cases e : q = r
  · subst e; simp [View.setCall, live]
  · simp [View.setCall, e]

theorem Call.bare_markOffers (c : Call) (a : Nat) (t : Option Nat) (o : OfferStatus) :
    (c.markOffers a t o).bare = c.bare := rfl

theorem complete_pathLaw {s : State} (L : s.PathLaw) (x : RiserIx) (r : Ref) (a : Nat)
    (t : Option Nat) (o : OfferStatus) : (s.complete x r a t o).PathLaw := by
  unfold State.complete
  split
  · split
    · exact L.of_view (State.view_advise ..)
    · exact L
  · next c hc =>
    split
    · dsimp only
      split
      · next st =>
        split
        · have law := L.1 r c hc
          have w : c.state ≠ .waiting := by simp [st]
          obtain ⟨leg, channel, desk, answerer⟩ := law.offering st
          refine L.rewrite (d := { c with
            state := .ringing, waitingFor := none, timer := some (s.callTimer .ring) }) hc w ?_ rfl
            rfl ?_ (by simp)
          · rw [State.view_enterState _ _ _ _ (by simp [State.view_call_some hc])]
            rfl
          · simp [Call.StateLaw, leg, channel, desk, answerer, law.1 leg, State.callTimer]
        · split
          · exact L.setCall_bare hc (c.bare_markOffers ..)
          · exact endCall_pathLaw (L.setCall_bare hc (c.bare_markOffers ..)) _ _
      · exact L.setCall_bare hc (c.bare_markOffers ..)
    · exact L

theorem deskAnswer_pathLaw {s : State} (L : s.PathLaw) {p : PortIx} {r : Ref} {c : Call}
    (hc : s.call? r = some c) (leg : c.leg = .concierge) (st : c.state = .ringing) :
    (s.deskAnswer p r c).PathLaw := by
  obtain ⟨waits, channel, desk, answerer⟩ := (L.1 r c hc).onDesk leg (by simp [st])
  refine L.rewrite (d := { c with state := .connected, timer := some (s.callTimer .talk) }) hc
    (by simp [st]) ?_ rfl rfl ?_ (by simp)
  · refine (State.view_emit ..).trans ?_
    exact State.view_setCall (s := s.ring p .off) _ (by
      show s.view.call r ≠ none
      simp [State.view_call_some hc])
  · simp [Call.StateLaw, leg, waits, channel, desk, answerer, State.callTimer]

/-- R145: the record of a forwarded call without its desk, before and after its leg is written. -/
def Call.unplugged (c : Call) : Call := { c with timer := none, deskPort := none }
def Call.forwarded (c : Call) : Call := { c.unplugged with leg := .flat }

/-- R145: the forward in its steps. -/
theorem forward_eq (s : State) (p : PortIx) (r : Ref) (c : Call) (i : FlatIx) :
    s.forward p r c i = ((((s.setCall r c.unplugged).removeJoin r).releaseDesk p).setCall r
      c.forwarded).enterFlatLeg r c.forwarded i := rfl

theorem forward_pathLaw {s : State} (L : s.PathLaw) {p : PortIx} {r : Ref} {c : Call} {i : FlatIx}
    (hc : s.call? r = some c) (held : s.hold p = some ⟨r, .desk⟩) (flat : c.flat = some i)
    (leg : c.leg = .concierge) (st : c.state = .connected) : (s.forward p r c i).PathLaw := by
  obtain ⟨-, channel, -, answerer⟩ := (L.1 r c hc).onDesk leg (by simp [st])
  have desk : c.deskPort = some p := by
    obtain ⟨d, hd, e⟩ := L.2.2.1.1 p _ held
    obtain rfl : c = d := Option.some.inj (hc ▸ hd)
    exact e
  have alive : s.view.call r ≠ none := by simp [State.view_call_some hc]
  have stopped := State.view_setCall (s := s) c.unplugged alive
  have L1 := (L.launch hc (by simp [st])).writeLive (r := r) (by simp) alive (some c.unplugged.bare)
  rw [← stopped] at L1
  obtain ⟨L2, kept⟩ := releaseDesk_law (s := (s.setCall r c.unplugged).removeJoin r) (p := p) L1
    (Function.update_self ..) desk
  rw [Function.update_idem] at L2
  have live2 : (((s.setCall r c.unplugged).removeJoin r).releaseDesk p).view.call r ≠ none := by
    rw [kept r (by simp)]
    show (s.setCall r c.unplugged).view.call r ≠ none
    rw [stopped]
    simp [View.setCall]
  rw [forward_eq]
  generalize ((s.setCall r c.unplugged).removeJoin r).releaseDesk p = s2 at *
  have view := State.view_setCall c.forwarded live2
  have L3 := L2.writeLive (r := r) (by simp) live2 (some c.forwarded.bare)
  rw [← view] at L3
  have L4 := enterFlatLeg_law (r := r) (c := c.forwarded) (i := i) L3
    (by simp [Call.forwarded, Call.unplugged, Call.holdings, channel])
    (by rw [view]; simp [View.setCall]) flat rfl channel rfl answerer
  rw [Function.update_idem] at L4
  exact pathLaw_of_landed L4

/-- R23: the divert of a call whose ring timer has just been stopped. -/
theorem divert_pathLaw {s : State} {r : Ref} {c : Call}
    (L : s.view.Law (update noFlight r (some c.holdings))) (live : s.call? r = some c)
    (desk : c.deskPort = none) (answerer : c.answerer = none) : (s.divert r c).PathLaw := by
  have alive : s.view.call r ≠ none := by simp [State.view_call_some live]
  have back : ∃ (t : State) (os : List Offer), t.view = s.view ∧ s.divert r c =
      ((t.setCall r { c with offers := os }).freeChannel c).enterConciergeLeg r
        { c with offers := os, channel := none } := by
    unfold State.divert
    split
    · exact ⟨_, _, (takeBackAll_onlyRiser ..).view, rfl⟩
    · exact ⟨_, _, rfl, rfl⟩
  obtain ⟨t, os, view, e⟩ := back
  rw [e]
  have call := State.view_setCall (s := t) (r := r) { c with offers := os } (by rwa [view])
  have L1 := L.writeLive (r := r) (by simp) alive (some { c with offers := os }.bare)
  rw [← view, ← call] at L1
  obtain ⟨L2, kept⟩ := freeChannel_law (c := c) L1 (Function.update_self ..) rfl
  rw [Function.update_idem] at L2
  have L3 := enterConciergeLeg_law (r := r) (c := { c with offers := os, channel := none }) L2
    (by simp [Call.holdings, desk]) (by rw [kept r (by simp), call]; simp [View.setCall]) rfl desk
    answerer
  rw [Function.update_idem] at L3
  exact pathLaw_of_landed L3

/-! ## Expiries -/

/-- R21: the timer of a call that does not wait is stopped. -/
theorem stopTimer_law {s : State} (L : s.PathLaw) {r : Ref} {c : Call} (hc : s.call? r = some c)
    (w : c.state ≠ .waiting) (e : Nat) :
    ((s.advanceTo e).setCall r { c with timer := none }).view.Law
      (update noFlight r (some c.holdings)) := by
  have alive : s.view.call r ≠ none := by simp [State.view_call_some hc]
  have L1 := (L.launch hc w).writeLive (r := r) (by simp) alive (some { c with timer := none }.bare)
  have view : ((s.advanceTo e).setCall r { c with timer := none }).view = _ :=
    State.view_setCall (s := s.advanceTo e) { c with timer := none } alive
  rwa [view]

end Sys2Proof.Machine
end

