-- ==== Sys2Proof/Proofs/KeptByCalls.lean ====
section
/-!
SUPPORT. The induction over everything a step can do, packaged once: a predicate that reads the view alone
and that the operations of a call's life keep is kept by every step.
-/

namespace Sys2Proof.Machine

/-! ## Operations that leave the view -/

@[simp] theorem State.view_modifyRiser (s : State) (x : RiserIx) (f : Riser → Riser) :
    (s.modifyRiser x f).view = s.view := rfl
@[simp] theorem State.view_modifyPort (s : State) (p : PortIx) (f : Port → Port) :
    (s.modifyPort p f).view = s.view := rfl
@[simp] theorem State.view_setLock (s : State) (p : PortIx) (l : Lock) :
    (s.setLock p l).view = s.view := rfl
@[simp] theorem State.view_advanceTo (s : State) (e : Nat) : (s.advanceTo e).view = s.view := rfl
@[simp] theorem State.view_reply (s : State) (k n : Nat) (st : Status) (b : ReplyBody) :
    (s.reply k n st b).view = s.view := rfl
@[simp] theorem State.view_setWindow (s : State) (i : WindowIx) (w : Window) :
    (s.setWindow i w).view = s.view := rfl

theorem State.view_syncDone (s : State) (x : RiserIx) (n : Nat) (o : MarkerOutcome) :
    (s.syncDone x n o).view = s.view := (syncDone_settled s x n o).view

theorem State.view_startIdle (s : State) (x : RiserIx) : (s.startIdle x).view = s.view := by
  unfold State.startIdle; split <;> rfl

theorem State.view_startWake (s : State) (x : RiserIx) : (s.startWake x).view = s.view :=
  (startWake_onlyRiser s x).view

theorem State.view_enterActive (s : State) (x : RiserIx) : (s.enterActive x).view = s.view := rfl

theorem State.view_setStationPrivacy (s : State) (x : RiserIx) (a : Nat) (v : Bool) :
    (s.setStationPrivacy x a v).view = s.view := by
  unfold State.setStationPrivacy
  split
  · rfl
  · exact State.view_recomputeFlats ..

theorem State.view_stationHeard (s : State) (x : RiserIx) (a : Nat) :
    (s.stationHeard x a).view = s.view := by
  unfold State.stationHeard
  dsimp only
  split
  · exact State.view_emit ..
  · rfl

theorem State.view_stationLost (s : State) (x : RiserIx) (a : Nat) :
    (s.stationLost x a).view = s.view := by
  unfold State.stationLost
  refine (State.view_setStationPrivacy ..).trans ?_
  split
  · exact State.view_emit ..
  · rfl

theorem State.view_forgetStations (s : State) (x : RiserIx) : (s.forgetStations x).view = s.view :=
  State.view_recomputeFlats ..

theorem State.view_flushEntry (x : RiserIx) (s : State) (i : QueueItem) :
    (State.flushEntry x s i).view = s.view := by
  unfold State.flushEntry
  split
  · rfl
  · exact State.view_syncDone ..
  · split
    · rfl
    · exact State.view_completeFaulted ..
  · rfl

theorem State.view_flushRiser (s : State) (x : RiserIx) : (s.flushRiser x).view = s.view := by
  unfold State.flushRiser
  refine (State.view_foldl _ (State.view_flushEntry x) _ _).trans
    (State.view_foldl _ (fun t o => ?_) _ s)
  unfold State.completeOutstandingFaulted
  split
  · exact State.view_completeFaulted ..
  · rfl

theorem State.view_takeStationFrame (s : State) (x : RiserIx) (a : Nat) (v : Bool) :
    (s.takeStationFrame x a v).view = s.view := by
  have h : ∀ t : State, t.view = s.view → (t.stationHeard x a).view = s.view := fun t e =>
    (State.view_stationHeard ..).trans e
  unfold State.takeStationFrame
  dsimp only
  have h3 : (State.stationHeard (if (s.riser x).link = .quiet ∨ (s.riser x).link = .waking then
      (s.modifyRiser x fun y => { y with receiving := none }).enterActive x
      else s.modifyRiser x fun y => { y with receiving := none }) x a).view = s.view :=
    h _ (by split <;> rfl)
  split
  · exact (State.view_startIdle ..).trans h3
  · exact h3

theorem State.view_endTransmission (s : State) (x : RiserIx) (tx : RiserTx) :
    (s.endTransmission x tx).view = s.view := by
  unfold State.endTransmission
  split
  · exact State.view_startIdle ..
  · dsimp only
    split
    · rfl
    · exact State.view_startIdle ..
  · dsimp only
    split
    · rfl
    · exact State.view_startIdle ..
  · rfl

theorem State.view_badStationFrame (s : State) (x : RiserIx) :
    (s.badStationFrame x).view = s.view :=
  ((settleRiser_settled _ x).trans (settleHost_settled _)).view

theorem State.view_surveyPoll (s : State) (x : RiserIx) : (s.surveyPoll x).view = s.view := by
  unfold State.surveyPoll
  split
  · have h := s.view_solicit x (.poll (s.riser x).surveyPos)
    split <;> next heq => rw [heq] at h; exact h
  · rfl

theorem State.view_settle (s : State) : s.settle.view = s.view := (settle_settled s).view
theorem State.view_settleLinks (s : State) : s.settleLinks.view = s.view :=
  (settleLinks_settled s).view
theorem State.view_settleHost (s : State) : s.settleHost.view = s.view := (settleHost_settled s).view
theorem State.view_settleLine (s : State) (x : RiserIx) : (s.settleLine x).view = s.view :=
  ((settleRiser_settled s x).trans (settleHost_settled _)).view

/-- R157: a release request touches no call and no path. -/
theorem State.view_releaseRequest (s : State) (r : Ref) (p : PortIx) (h : Option (FlatIx × Nat)) :
    (s.releaseRequest r p h).1.view = s.view := by
  unfold State.releaseRequest
  split
  · rfl
  · dsimp only
    split
    · exact State.view_emit ..
    · split
      · exact State.view_emit ..
      · split <;> rfl

theorem State.view_handsetDoor (s : State) (x : RiserIx) (a : Nat) :
    (s.handsetDoor x a).view = s.view := by
  unfold State.handsetDoor
  split
  · split
    · exact (State.view_advise ..).trans (State.view_releaseRequest ..)
    · exact State.view_advise ..
  · exact State.view_advise ..

/-! ## The package -/

/-- What a predicate on the paths and the calls has to be kept by, for every step to keep it. -/
structure KeptByCalls (L : State → Prop) : Prop where
  quiet     : ∀ {s t : State}, L s → t.view = s.view → L t
  blank     : ∀ {t : State}, t.psw = Psw.cold → (∀ i, (t.slot i).call = none) → L t
  rehomed   : ∀ {s : State} {i : FlatIx} (f : Flat), L s → s.flatBusy i = false → L (s.setFlat i f)
  served    : ∀ {s : State} (p : PortIx), L s → L (s.serveDesk p)
  ended     : ∀ {s : State} (r : Ref) (why : EndReason), L s → L (s.endCall r why)
  started   : ∀ {s : State} (p : PortIx) (q : StartRequest) (code : Option Nat), L s →
    (code ≠ none → q ≠ .concierge) → L (s.startCall p q code)
  lifted    : ∀ {s : State} (x : RiserIx) (a : Nat), L s → L (s.lift x a)
  completed : ∀ {s : State} (x : RiserIx) (r : Ref) (a : Nat) (t : Option Nat) (o : OfferStatus),
    L s → L (s.complete x r a t o)
  answered  : ∀ {s : State} (p : PortIx) {r : Ref} {c : Call}, L s → s.call? r = some c →
    c.leg = .concierge → c.state = .ringing → L (s.deskAnswer p r c)
  forwarded : ∀ {s : State} {p : PortIx} {r : Ref} {c : Call} {i : FlatIx}, L s →
    s.call? r = some c → s.hold p = some ⟨r, .desk⟩ → c.flat = some i → c.leg = .concierge →
    c.state = .connected → L (s.forward p r c i)
  gaveUp    : ∀ {s : State} {r : Ref} {c : Call} {e : Nat} (why : EndReason), L s →
    s.call? r = some c → c.timer = some { kind := .pathWait, expiry := e } →
    L ((((s.advanceTo e).setCall r { c with timer := none }).leaveQueues r).endCall r why)
  expired   : ∀ {s : State} {r : Ref} {c : Call} {k : TimerKind} {e : Nat} (why : EndReason), L s →
    s.call? r = some c → c.timer = some { kind := k, expiry := e } → k ≠ .pathWait →
    L (((s.advanceTo e).setCall r { c with timer := none }).endCall r why)
  diverted  : ∀ {s : State} {r : Ref} {c : Call} {e : Nat}, L s → s.call? r = some c →
    c.timer = some { kind := .ring, expiry := e } →
    L (((s.advanceTo e).setCall r { c with timer := none }).divert r { c with timer := none })

namespace KeptByCalls
variable {L : State → Prop}

/-! ## Risers that fail -/

theorem failRiser (K : KeptByCalls L) {s : State} (x : RiserIx) (l : LinkState) (c : RiserCause)
    (why : EndReason) (h : L s) : L (s.failRiser x l c why) := by
  have calls : ∀ (rs : List Ref) (t : State), L t → L (rs.foldl (fun t r => t.endCall r why) t) := by
    intro rs
    induction rs with
    | nil => exact fun t h => h
    | cons r rs ih => exact fun t h => ih _ (K.ended r why h)
  refine K.quiet (calls _ _ (K.quiet h ?_)) (State.view_forgetStations ..)
  exact (State.view_emit ..).trans (State.view_flushRiser ..)

theorem overrunFirst (K : KeptByCalls L) {s : State} (x : RiserIx) (h : L s) :
    L (s.overrunFirst x) := by
  unfold State.overrunFirst
  split
  · exact K.quiet (K.failRiser x .active .overrun .faultRiserOverrun h)
      ((State.view_settle _).trans (State.view_enterActive ..))
  · exact h

theorem overrunFirst? (K : KeptByCalls L) {s : State} (n : Nat) (h : L s) :
    L (s.overrunFirst? n) := by
  unfold State.overrunFirst?
  split
  · exact K.overrunFirst _ h
  · exact h

/-! ## Requests of the host -/

theorem answer (K : KeptByCalls L) {s : State} {k n : Nat} {st : State → State}
    {act : State → State × Status × ReplyBody} (hst : ∀ t, (st t).view = t.view)
    (hact : ∀ t, L t → L (act t).1) (h : L s) : L (s.answer k n st act) :=
  K.quiet (hact s h) (hst _)

/-- An act of a request that leaves the view. -/
theorem answer_quiet (K : KeptByCalls L) {s : State} {k n : Nat} {st : State → State}
    {act : State → State × Status × ReplyBody} (hst : ∀ t, (st t).view = t.view)
    (hact : ∀ t, (act t).1.view = t.view) (h : L s) : L (s.answer k n st act) :=
  K.answer hst (fun t ht => K.quiet ht (hact t)) h

theorem takeSetPort (K : KeptByCalls L) {s : State} (num p f i r : Nat) (h : L s) :
    L (s.takeSetPort num p f i r) := by
  refine K.answer State.view_settleLinks (fun t ht => ?_) h
  unfold State.setPortAct
  split
  · next q g _ _ _ _ =>
    split
    · exact ht
    · split
      · exact ht
      · unfold State.storePort
        dsimp only
        split
        · split
          · exact K.served _ (K.quiet ht rfl)
          · exact K.quiet ht rfl
        · exact K.quiet ht rfl
  · exact ht

theorem takeSetFlat (K : KeptByCalls L) {s : State} (num f v r a n d o : Nat) (h : L s) :
    L (s.takeSetFlat num f v r a n d o) := by
  refine K.answer State.view_settleLinks (fun t ht => ?_) h
  unfold State.setFlatAct
  split
  · split
    · exact ht
    · split
      · exact ht
      · next hb =>
        split
        · exact ht
        · have free := Bool.eq_false_iff.2 hb
          unfold State.storeFlat
          dsimp only
          split
          · exact K.quiet (K.rehomed _ ht free) rfl
          · exact K.quiet (K.quiet (K.rehomed _ ht free) rfl) (State.view_recomputeFlat ..)
  · exact ht

theorem takeSetRiser (K : KeptByCalls L) {s : State} (num r e v q a b : Nat) (h : L s) :
    L (s.takeSetRiser num r e v q a b) := by
  have enable : ∀ (t : State) x, (t.enableRiser x).view = t.view := fun t x => by
    unfold State.enableRiser
    split <;> exact State.view_emit ..
  have disable : ∀ (t : State) x, (t.disableRiser x).view = t.view := fun t x =>
    (State.view_emit ..).trans ((State.view_forgetStations ..).trans (State.view_flushRiser ..))
  have store : ∀ (t : State) x v q a b, (t.storeRiser x v q a b).view = t.view := fun t x v q a b => by
    unfold State.storeRiser
    dsimp only
    split
    · refine (State.view_startWake ..).trans ?_
      split
      · rfl
      · split <;> rfl
    · split
      · rfl
      · split <;> rfl
  have apply : ∀ (t : State) x e, (t.applyEnable x e).view = t.view := fun t x e => by
    unfold State.applyEnable
    split
    · split
      · exact enable ..
      · rfl
    · split
      · rfl
      · exact disable ..
  refine K.answer_quiet State.view_settle (fun t => ?_) (K.overrunFirst? r h)
  unfold State.setRiserAct
  split
  · split
    · rfl
    · exact ((goQuiet_settled _ _).view).trans ((apply ..).trans (store ..))
  · rfl

theorem takeClearCheck (K : KeptByCalls L) {s : State} (num ps : Nat) (h : L s) :
    L (s.takeClearCheck num ps) := by
  refine K.answer State.view_settleLinks (fun t ht => ?_) h
  have serve : ∀ (l : List PortIx) (u : State), L u → L (l.foldl State.serveDesk u) := by
    intro l
    induction l with
    | nil => exact fun u h => h
    | cons p l ih => exact fun u h => ih _ (K.served p h)
  have cleared : ∀ (l : List PortIx),
      (l.foldl (fun u p => u.modifyPort p Port.clearCheck) t).view = t.view :=
    fun l => State.view_foldl _ (fun u p => State.view_modifyPort u p _) l t
  exact serve _ _ (K.quiet ht (cleared _))

theorem takeSetPrivacy (K : KeptByCalls L) {s : State} (num f v : Nat) (h : L s) :
    L (s.takeSetPrivacy num f v) := by
  refine K.answer_quiet State.view_settleLinks (fun t => ?_) h
  unfold State.setPrivacyAct
  split
  · refine (State.view_recomputeFlat ..).trans (View.ext rfl rfl rfl rfl (funext fun j => ?_))
    show ((t.setFlat _ _).flat j).riser = (t.flat j).riser
    rw [State.flat_setFlat]
    split
    · next e => subst e; rfl
    · rfl
  · rfl

theorem takeDoorHold (K : KeptByCalls L) {s : State} (num l t : Nat) (h : L s) :
    L (s.takeDoorHold num l t) := by
  refine K.answer_quiet State.view_settleLinks (fun t => ?_) h
  unfold State.doorHoldAct
  split
  · rfl
  · split
    · rfl
    · split
      · rfl
      · split
        · exact State.view_emit ..
        · split <;> rfl

theorem takeDoorFree (K : KeptByCalls L) {s : State} (num l t : Nat) (h : L s) :
    L (s.takeDoorFree num l t) := by
  refine K.answer_quiet State.view_settleLinks (fun t => ?_) h
  unfold State.doorFreeAct
  split
  · rfl
  · split
    · rfl
    · split
      · exact State.view_emit ..
      · rfl

theorem takeEndCall (K : KeptByCalls L) {s : State} (num n g : Nat) (h : L s) :
    L (s.takeEndCall num n g) := by
  refine K.answer State.view_settle (fun t ht => ?_) h
  unfold State.endCallAct
  split
  · exact ht
  · split
    · exact ht
    · dsimp only
      split
      · exact ht
      · exact K.ended _ _ ht

theorem takeRiserSync (K : KeptByCalls L) {s : State} (num r : Nat) (h : L s) :
    L (s.takeRiserSync num r) := by
  refine K.quiet (K.overrunFirst? r h) ((State.view_settleHost _).trans ?_)
  unfold State.riserSync
  split
  · rfl
  · split
    · rfl
    · split
      · rfl
      · split <;> rfl

/-- R169: a request that is taken. -/
theorem takeRequest (K : KeptByCalls L) {s : State} (c : Instr) (h : L s) :
    L (s.takeRequest c) := by
  unfold State.takeRequest
  split
  case h_1 => exact K.answer_quiet State.view_settleHost (fun _ => rfl) h
  case h_2 => exact K.takeSetPort _ _ _ _ _ h
  case h_3 =>
    refine K.answer_quiet State.view_settleHost (fun t => ?_) h
    unfold State.setWindowAct
    split
    · split <;> rfl
    · rfl
  case h_4 => exact K.takeSetFlat _ _ _ _ _ _ _ _ h
  case h_5 =>
    refine K.answer_quiet State.view_settleHost (fun t => ?_) h
    unfold State.setTimesAct
    dsimp only
    split <;> rfl
  case h_6 =>
    refine K.answer_quiet State.view_settleHost (fun t => ?_) h
    unfold State.setRouteAct
    split <;> rfl
  case h_7 =>
    refine K.answer_quiet State.view_settleHost (fun t => ?_) h
    unfold State.setModeAct
    split <;> rfl
  case h_8 => exact K.takeSetRiser _ _ _ _ _ _ _ h
  case h_9 => exact K.takeClearCheck _ _ h
  case h_10 => exact K.takeSetPrivacy _ _ _ h
  case h_11 => exact K.takeDoorHold _ _ _ h
  case h_12 => exact K.takeDoorFree _ _ _ h
  case h_13 => exact K.takeEndCall _ _ _ h
  case h_19 =>
    refine K.answer_quiet State.view_settleHost (fun t => ?_) (K.overrunFirst? _ h)
    split <;> rfl
  case h_20 =>
    refine K.answer_quiet State.view_settleHost (fun t => ?_) (K.overrunFirst? _ h)
    split <;> rfl
  case h_21 => exact K.takeRiserSync _ _ h
  case h_23 => exact h
  all_goals
    refine K.answer_quiet State.view_settleHost (fun t => ?_) h
    split <;> rfl

theorem takeRequests (K : KeptByCalls L) (n : Nat) {s : State} (h : L s) :
    L (State.takeRequests n s) := by
  induction n generalizing s with
  | zero => exact h
  | succ n ih =>
    unfold State.takeRequests
    split
    · split
      · exact h
      · exact ih (K.takeRequest _ (K.quiet h rfl))
    · exact h

theorem serveBuffer (K : KeptByCalls L) {s : State} (h : L s) : L s.serveBuffer :=
  K.takeRequests _ h

/-- R168, R169: the command of a request, which `exec` runs as its taking. -/
theorem onRequest (K : KeptByCalls L) {s : State} (c : Instr) (h : L s) :
    L (s.onRequest c (State.takeRequest c)) := by
  unfold State.onRequest
  split
  · exact K.takeRequest c h
  · split
    · exact h
    · split
      · exact K.quiet h rfl
      · exact h

theorem hostBytes (K : KeptByCalls L) {s : State} (bytes : List Byte) (h : L s) :
    L (s.hostBytes bytes) := by
  have frames : ∀ (fs : List HostFrame) (t : State), L t → L (fs.foldl State.frameReceived t) := by
    intro fs
    induction fs with
    | nil => exact fun t h => h
    | cons f fs ih => exact fun t h => ih _ (K.serveBuffer (K.quiet h rfl))
  exact frames _ _ (K.quiet h rfl)

/-! ## Starts -/

theorem start (K : KeptByCalls L) (s : State) (k : StartKind) (cause : StartCause) :
    L (s.start k cause) := by
  cases k with
  | cold => exact K.blank rfl fun i => by simp [State.slot, State.start, State.coldStart,
      State.reset, Ccu.cold, Slot.cold]
  | warm => exact K.blank rfl fun i => by simp [State.slot, State.start, State.warmStart, Slot.warm]

/-! ## Panels -/

theorem onPanelFrame (K : KeptByCalls L) {s : State} {p : PortIx} {f : PortFunction}
    {st act : State → State} (hst : ∀ t, (st t).view = t.view) (hact : ∀ t, L t → L (act t))
    (h : L s) : L (s.onPanelFrame p f st act) := by
  have h1 : L (s.panelFrameEnd p) := K.quiet h rfl
  unfold State.onPanelFrame
  dsimp only
  split
  · exact K.quiet (hact _ h1) (hst _)
  · exact h1

theorem callAt_some {s : State} {p : PortIx} {role : Role} {r : Ref} {c : Call}
    (h : s.callAt p = some (role, r, c)) : s.hold p = some ⟨r, role⟩ ∧ s.call? r = some c := by
  unfold State.callAt at h
  split at h
  · cases h
  · next d hd =>
    split at h
    · cases h
    · next e he =>
      cases h
      exact ⟨hd, he⟩

theorem panelCall (K : KeptByCalls L) {s : State} (p : PortIx) (code : Nat) (h : L s) :
    L (s.after (execPanelCall p code s)) := by
  simp only [execPanelCall, State.after]
  refine K.onPanelFrame State.view_settle (fun t ht => ?_) h
  split
  · exact K.started p .call (some code) ht (by simp)
  · exact ht

theorem panelConcierge (K : KeptByCalls L) {s : State} (p : PortIx) (h : L s) :
    L (s.after (execPanelConcierge p s)) := by
  simp only [execPanelConcierge, State.after]
  exact K.onPanelFrame State.view_settleLinks (fun t ht => K.started p .concierge none ht (by simp)) h

theorem panelCancel (K : KeptByCalls L) {s : State} (p : PortIx) (h : L s) :
    L (s.after (execPanelCancel p s)) := by
  simp only [execPanelCancel, State.after]
  refine K.onPanelFrame State.view_settle (fun t ht => ?_) h
  split
  · exact K.ended _ _ ht
  · exact ht

theorem deskDial (K : KeptByCalls L) {s : State} (p : PortIx) (code : Nat) (h : L s) :
    L (s.after (execDeskDial p code s)) := by
  simp only [execDeskDial, State.after]
  refine K.onPanelFrame State.view_settle (fun t ht => ?_) h
  split
  · exact K.started p .dial (some code) ht (by simp)
  · exact ht

theorem deskAnswer (K : KeptByCalls L) {s : State} (p : PortIx) (h : L s) :
    L (s.after (execDeskAnswer p s)) := by
  simp only [execDeskAnswer, State.after]
  refine K.onPanelFrame State.view_settleLinks (fun t ht => ?_) h
  split
  · next hc =>
    split
    · next g => exact K.answered p ht (callAt_some hc).2 g.1 g.2
    · exact ht
  · exact K.quiet ht rfl

theorem deskClear (K : KeptByCalls L) {s : State} (p : PortIx) (h : L s) :
    L (s.after (execDeskClear p s)) := by
  simp only [execDeskClear, State.after]
  refine K.onPanelFrame State.view_settle (fun t ht => ?_) h
  split
  · split
    · exact K.ended _ _ ht
    · exact ht
  · exact K.ended _ _ ht
  · exact ht

theorem deskForward (K : KeptByCalls L) {s : State} (p : PortIx) (h : L s) :
    L (s.after (execDeskForward p s)) := by
  simp only [execDeskForward, State.after]
  refine K.onPanelFrame State.view_settle (fun t ht => ?_) h
  split
  · next hc =>
    split
    · next hi =>
      split
      · next g => exact K.forwarded ht (callAt_some hc).2 (callAt_some hc).1 hi g.2.1 g.2.2
      · exact K.quiet ht rfl
    · exact K.quiet ht rfl
  · exact K.quiet ht rfl

theorem deskDoor (K : KeptByCalls L) {s : State} (p : PortIx) (h : L s) :
    L (s.after (execDeskDoor p s)) := by
  simp only [execDeskDoor, State.after]
  refine K.onPanelFrame State.view_settleLinks (fun t ht => ?_) h
  split
  · split
    · exact K.quiet ht (State.view_releaseRequest ..)
    · exact K.quiet ht rfl
  · exact K.quiet ht rfl

theorem takePanelCommand (K : KeptByCalls L) {s : State} (c : Instr) (h : L s) :
    L (s.takePanelCommand c) := by
  unfold State.takePanelCommand
  split
  · exact K.panelCall _ _ h
  · exact K.panelConcierge _ h
  · exact K.panelCancel _ h
  · exact K.deskDial _ _ h
  · exact K.deskAnswer _ h
  · exact K.deskClear _ h
  · exact K.deskForward _ h
  · exact K.deskDoor _ h
  · exact K.quiet h rfl
  · exact h

theorem panelByte (K : KeptByCalls L) {s : State} (p : PortIx) (b : Byte) (h : L s) :
    L (State.panelByte p s b) := by
  unfold State.panelByte
  split
  · split
    · exact K.quiet h rfl
    · exact K.quiet h rfl
    · exact K.takePanelCommand _ (K.quiet h rfl)
  · exact h

/-! ## Risers -/

theorem onStationFrame (K : KeptByCalls L) {s : State} {x : RiserIx} {a : Nat} {act : State → State}
    (hact : ∀ t, L t → L (act t)) (h : L s) : L (s.onStationFrame x a act) := by
  have h1 := K.overrunFirst x h
  unfold State.onStationFrame
  dsimp only
  split
  · exact h1
  · split
    · exact K.quiet (hact _ h1) (State.view_settle _)
    · exact K.quiet h1 (State.view_badStationFrame ..)

theorem takeReply (K : KeptByCalls L) {s : State} (x : RiserIx) (a tag res v : Nat) (h : L s) :
    L (s.takeReply x a tag res v) := by
  unfold State.takeReply
  split
  · exact K.quiet h (State.view_takeStationFrame ..)
  · next o _ =>
    have h1 : ∀ b f, L (((s.takeStationFrame x a b).setStationPrivacy x a
        (privacyLevel v)).modifyRiser x f) := fun b f => K.quiet h
      ((State.view_modifyRiser ..).trans
        ((State.view_setStationPrivacy ..).trans (State.view_takeStationFrame ..)))
    dsimp only
    split
    · exact K.completed _ _ _ _ _ (h1 _ _)
    · exact h1 _ _

theorem takeStationCommand (K : KeptByCalls L) {s : State} (c : Instr) (h : L s) :
    L (s.takeStationCommand c) := by
  have heard : ∀ {t : State} (x : RiserIx) (a : Nat), L t → L (t.takeStationFrame x a true) :=
    fun x a ht => K.quiet ht (State.view_takeStationFrame ..)
  unfold State.takeStationCommand
  split
  · simp only [execStationReply, State.after]
    exact K.onStationFrame (fun t ht => K.takeReply _ _ _ _ _ ht) h
  · simp only [execStationLift, State.after]
    exact K.onStationFrame (fun t ht => K.lifted _ _ (heard _ _ ht)) h
  · simp only [execStationHangup, State.after]
    refine K.onStationFrame (fun t ht => ?_) h
    unfold State.hangup
    split
    · exact K.ended _ _ (heard _ _ ht)
    · exact heard _ _ ht
  · simp only [execStationDoor, State.after]
    exact K.onStationFrame (fun t ht => K.quiet (heard _ _ ht) (State.view_handsetDoor ..)) h
  · simp only [execStationPrivacyOn, State.after]
    exact K.onStationFrame (fun t ht => K.quiet (heard _ _ ht) (State.view_setStationPrivacy ..)) h
  · simp only [execStationPrivacyOff, State.after]
    exact K.onStationFrame (fun t ht => K.quiet (heard _ _ ht) (State.view_setStationPrivacy ..)) h
  · simp only [execUnknownStationFrame, State.after]
    refine K.onStationFrame (fun t ht => ?_) h
    split
    · exact K.quiet ht (State.view_badStationFrame ..)
    · split
      · exact K.quiet (heard _ _ ht) (State.view_advise ..)
      · exact heard _ _ ht
  · simp only [execRiserBadFrame, State.after]
    exact K.quiet (K.overrunFirst _ h) (State.view_badStationFrame ..)
  · exact h

theorem riserByte (K : KeptByCalls L) {s : State} (x : RiserIx) (b : Byte) (h : L s) :
    L (State.riserByte x s b) := by
  have h1 := K.overrunFirst x h
  unfold State.riserByte
  dsimp only
  split
  · split
    · exact K.quiet h1 rfl
    · split
      · exact h1
      · exact K.quiet h1 (State.view_badStationFrame ..)
    · exact K.takeStationCommand _ (K.quiet h1 rfl)
  · exact h1

theorem lineSense (K : KeptByCalls L) {s : State} (x : RiserIx) (c : LineCondition) (h : L s) :
    L (s.lineSense x c) := by
  unfold State.lineSense
  dsimp only
  split
  · exact K.quiet h rfl
  · split
    · exact K.quiet h (State.view_emit ..)
    · exact K.quiet h rfl
  · split
    · exact K.quiet h rfl
    · exact K.failRiser _ _ _ _ (K.quiet h rfl)

theorem replyTimeout (K : KeptByCalls L) {s : State} (x : RiserIx) (tag : Nat) (h : L s) :
    L (s.after (execReplyTimeout x tag s)) := by
  have h1 := K.overrunFirst x h
  unfold execReplyTimeout
  dsimp only [State.after]
  split
  · exact h1
  · next o _ =>
    split
    · exact h1
    · refine K.quiet ?_ (State.view_settle _)
      split
      · refine K.quiet h1 ?_
        unfold State.secondAttempt
        split <;> rfl
      · have lost : ∀ (b : Bool) (e n : Nat) (f : Riser → Riser),
            State.view (if b then ((s.overrunFirst x).advanceTo e).modifyRiser x f
              else (((s.overrunFirst x).advanceTo e).modifyRiser x f).stationLost x n) =
            (s.overrunFirst x).view := fun b e n f => by
          split
          · rfl
          · exact State.view_stationLost ..
        unfold State.noReply
        dsimp only
        split
        · exact K.completed _ _ _ _ _ (K.quiet h1 (lost ..))
        · exact K.quiet h1 (lost ..)

/-! ## Expiries of call timers -/

/-- R21: an expiry does nothing, or it is taken for the timer that runs. -/
theorem onExpiry (K : KeptByCalls L) {s : State} {r : Ref} {k : TimerKind}
    {act : State → Call → State}
    (hact : ∀ c e, s.call? r = some c → c.timer = some { kind := k, expiry := e } →
      L (act ((s.advanceTo e).setCall r { c with timer := none }) { c with timer := none }))
    (h : L s) : L (s.onExpiry r k act) := by
  unfold State.onExpiry
  split
  · exact h
  · next c hc =>
    split
    · exact h
    · next t ht =>
      split
      · next e =>
        subst e
        exact K.quiet (hact c t.expiry hc ht) (State.view_settle _)
      · exact h

/-! ## Every command -/

/-- Every command keeps what the operations of a call keep. -/
theorem exec (K : KeptByCalls L) {s : State} (c : Instr) (h : L s) : L (s.after (exec c s)) := by
  cases c
  case powerUp =>
    have cold : L (s.coldStart .powerUp) := K.start s .cold .powerUp
    exact K.quiet cold (State.view_settleHost _)
  case resetPin =>
    have cold : ∀ u : State, L (u.coldStart .resetPin) := fun u => K.start u .cold .resetPin
    exact K.quiet (cold _) (State.view_settleHost _)
  case hostFrameReceived b =>
    simp only [Machine.exec, execHostFrameReceived, State.after]
    split
    · exact h
    · exact K.hostBytes _ h
  case hostRxTimeout =>
    simp only [Machine.exec, execHostRxTimeout, State.after]
    split
    · exact K.quiet h rfl
    · exact K.quiet h rfl
  case hostTxEnd =>
    have idle : ∀ f : Hlp, State.view ({ s with hlp := f }.settleHost) = s.view := fun f =>
      (State.view_settleHost _).trans rfl
    have free : L s.hostLineFree := K.serveBuffer (K.quiet h (idle _))
    simp only [Machine.exec, execHostTxEnd, State.after]
    split
    · exact h
    · exact free
    · split
      · exact K.quiet (K.start ..) (State.view_settle _)
      · exact free
  case illegalRequest k n b =>
    simp only [Machine.exec, execIllegalRequest, State.after]
    split
    · exact h
    · exact K.onRequest (.illegalRequest k n b) h
  case setPort a b c d e => exact K.onRequest (.setPort a b c d e) h
  case setWindow a b c d e f g i => exact K.onRequest (.setWindow a b c d e f g i) h
  case setFlat a b c d e f g i => exact K.onRequest (.setFlat a b c d e f g i) h
  case setTimes a b c d e => exact K.onRequest (.setTimes a b c d e) h
  case setRoute a b c => exact K.onRequest (.setRoute a b c) h
  case setMode a b => exact K.onRequest (.setMode a b) h
  case setRiser a b c d e f g => exact K.onRequest (.setRiser a b c d e f g) h
  case clearCheck a b => exact K.onRequest (.clearCheck a b) h
  case setPrivacy a b c => exact K.onRequest (.setPrivacy a b c) h
  case doorHold a b c => exact K.onRequest (.doorHold a b c) h
  case doorFree a b c => exact K.onRequest (.doorFree a b c) h
  case endCall a b c => exact K.onRequest (.endCall a b c) h
  case queryCall a b => exact K.onRequest (.queryCall a b) h
  case queryWindow a b => exact K.onRequest (.queryWindow a b) h
  case queryFlat a b => exact K.onRequest (.queryFlat a b) h
  case queryPort a b => exact K.onRequest (.queryPort a b) h
  case queryLock a b => exact K.onRequest (.queryLock a b) h
  case queryRiser a b => exact K.onRequest (.queryRiser a b) h
  case queryStation a b c => exact K.onRequest (.queryStation a b c) h
  case riserSync a b => exact K.onRequest (.riserSync a b) h
  case restart a b => exact K.onRequest (.restart a b) h
  case panelCall p n => exact K.panelCall p n h
  case panelConcierge p => exact K.panelConcierge p h
  case panelCancel p => exact K.panelCancel p h
  case deskDial p n => exact K.deskDial p n h
  case deskAnswer p => exact K.deskAnswer p h
  case deskClear p => exact K.deskClear p h
  case deskForward p => exact K.deskForward p h
  case deskDoor p => exact K.deskDoor p h
  case panelFrameDiscard p => exact K.quiet h rfl
  case panelRxTimeout p =>
    simp only [Machine.exec, execPanelRxTimeout, State.after]
    split
    · exact K.quiet h rfl
    · exact h
  case panelPresent p =>
    simp only [Machine.exec, execPanelPresent, State.after]
    split
    · exact h
    · exact K.quiet h ((State.view_settleLinks _).trans (State.view_emit ..))
  case panelAbsent p =>
    simp only [Machine.exec, execPanelAbsent, State.after]
    split
    · refine K.quiet ?_ (State.view_settle _)
      have h1 := K.quiet (t := (s.modifyPort p Port.goAbsent).emit
        (.panelChange p (s.port p).function false true)) h (State.view_emit ..)
      split
      · exact K.ended _ _ h1
      · exact h1
    · exact h
  case panelTxEnd p =>
    simp only [Machine.exec, execPanelTxEnd, State.after]
    split
    · exact h
    · exact K.quiet h rfl
  case riserTxEnd x =>
    simp only [Machine.exec, execRiserTxEnd, State.after]
    split
    · exact K.quiet (K.overrunFirst x h) ((State.view_settleLine ..).trans (State.view_endTransmission ..))
    · exact K.overrunFirst x h
  case stationReply x a b c d => exact K.takeStationCommand (.stationReply x a b c d) h
  case stationLift x a => exact K.takeStationCommand (.stationLift x a) h
  case stationHangup x a => exact K.takeStationCommand (.stationHangup x a) h
  case stationDoor x a => exact K.takeStationCommand (.stationDoor x a) h
  case stationPrivacyOn x a => exact K.takeStationCommand (.stationPrivacyOn x a) h
  case stationPrivacyOff x a => exact K.takeStationCommand (.stationPrivacyOff x a) h
  case unknownStationFrame x a k => exact K.takeStationCommand (.unknownStationFrame x a k) h
  case riserBadFrame x => exact K.takeStationCommand (.riserBadFrame x) h
  case riserRxTimeout x =>
    simp only [Machine.exec, execRiserRxTimeout, State.after]
    split
    · exact K.quiet (K.overrunFirst x h) (State.view_badStationFrame ..)
    · exact K.overrunFirst x h
  case replyTimeout x t => exact K.replyTimeout x t h
  case idleTimeout x =>
    simp only [Machine.exec, execIdleTimeout, State.after]
    split
    · exact K.quiet (K.overrunFirst x h) (State.view_settleLine ..)
    · exact K.overrunFirst x h
  case wakeTimeout x =>
    simp only [Machine.exec, execWakeTimeout, State.after]
    split
    · exact K.quiet (K.overrunFirst x h) (State.view_settleLine ..)
    · exact K.overrunFirst x h
  case surveyStep x =>
    simp only [Machine.exec, execSurveyStep, State.after]
    split
    · exact K.quiet (K.overrunFirst x h) ((State.view_settleLine ..).trans (State.view_surveyPoll ..))
    · exact K.overrunFirst x h
  case lineFault x c =>
    simp only [Machine.exec, execLineFault, State.after]
    exact K.quiet (K.lineSense x c (K.overrunFirst x h)) (State.view_settle _)
  case lineRestored x =>
    simp only [Machine.exec, execLineRestored, State.after]
    exact K.quiet (K.lineSense x _ (K.overrunFirst x h)) (State.view_settle _)
  case overrun x => exact K.overrunFirst x h
  case pathWaitExpiry r =>
    simp only [Machine.exec, execPathWaitExpiry, State.after]
    exact K.onExpiry (fun c e hc ht => K.gaveUp _ h hc ht) h
  case ringExpiry r =>
    simp only [Machine.exec, execRingExpiry, State.after]
    refine K.onExpiry (fun c e hc ht => ?_) h
    split
    · exact K.diverted h hc ht
    · exact K.expired _ h hc ht (by simp)
  case deskRingExpiry r =>
    simp only [Machine.exec, execDeskRingExpiry, State.after]
    exact K.onExpiry (fun c e hc ht => K.expired _ h hc ht (by simp)) h
  case talkExpiry r =>
    simp only [Machine.exec, execTalkExpiry, State.after]
    exact K.onExpiry (fun c e hc ht => K.expired _ h hc ht (by simp)) h
  case releaseTimerExpiry p =>
    simp only [Machine.exec, execReleaseTimerExpiry, State.after]
    split
    · exact K.quiet h ((State.view_settleLinks _).trans (State.view_emit ..))
    · exact h
  case lineConditionChange x c =>
    simp only [Machine.exec, execLineConditionChange, State.after]
    exact K.quiet (K.lineSense x c (K.overrunFirst x h)) (State.view_settle _)
  case resetPinRelease => exact K.quiet h (State.view_settleHost _)
  case syncByteReceived b =>
    have panel : ∀ (p : PortIx) (bs : List Byte) (t : State), L t →
        L (bs.foldl (State.panelByte p) t) := by
      intro p bs
      induction bs with
      | nil => exact fun t h => h
      | cons b bs ih => exact fun t h => ih _ (K.panelByte p b h)
    have riser : ∀ (x : RiserIx) (bs : List Byte) (t : State), L t →
        L (bs.foldl (State.riserByte x) t) := by
      intro x bs
      induction bs with
      | nil => exact fun t h => h
      | cons b bs ih => exact fun t h => ih _ (K.riserByte x b h)
    simp only [Machine.exec, execSyncByteReceived, State.after]
    split
    · split
      · exact h
      · exact K.hostBytes _ h
    · exact panel _ _ _ h
    · exact riser _ _ _ h

/-- Every step keeps what the operations of a call keep. -/
theorem step (K : KeptByCalls L) : KeptByStep L := by
  intro s t h e
  have ran : ∀ (c : Instr) (u : State), L u → Machine.exec c u = .next t → L t := fun c u hu e => by
    have := K.exec c hu
    rwa [e] at this
  have waiting : ∀ rest : List Instr, L { s with pending := rest } := fun rest => K.quiet h rfl
  unfold Machine.step at e
  split at e
  · next c rest _ => exact ran c _ (waiting rest) e
  · split at e
    · next c _ => exact ran c s h e
    · rw [← Host.Outcome.next.inj e]
      exact K.quiet h (State.view_settle _)

end KeptByCalls

end Sys2Proof.Machine
end

