-- ==== Sys2Proof/Proofs/PathLaws.lean ====
section
/-!
SUPPORT. The two laws of the paths as instances of `KeptByCalls`, and the obligation they make.
-/

namespace Sys2Proof.Machine

open Function (update)

/-! ## The law of the channel queues (R55) -/

theorem RiserPaths.setHolder_some_ne_none {p : RiserPaths} {side : Side} {r : Ref}
    (h : p.holderA ≠ none ∧ p.holderB ≠ none) :
    (p.setHolder side (some r)).holderA ≠ none ∧ (p.setHolder side (some r)).holderB ≠ none := by
  cases side <;> simp [RiserPaths.setHolder, h]

theorem RiserPaths.setHolder_queue (p : RiserPaths) (side : Side) (o : Option Ref) :
    (p.setHolder side o).queue = p.queue := by
  cases side <;> rfl

theorem State.ChannelQueueLaw.of_risers {s t : State} (L : s.ChannelQueueLaw)
    (h : t.psw.risers = s.psw.risers) : t.ChannelQueueLaw := fun x => by
  simpa only [State.paths, h] using L x

/-- One change of a call operation keeps the law of the channel queues. -/
theorem CallMove.channelQueueLaw {s t : State} (m : CallMove s t) (L : s.ChannelQueueLaw) :
    t.ChannelQueueLaw := by
  cases m
  case channelHeld ch r =>
    intro x
    rw [State.paths_setHolder]
    split
    · rw [RiserPaths.setHolder_queue]
      exact fun h => RiserPaths.setHolder_some_ne_none (L _ h)
    · exact L x
  case channelFreed ch empty =>
    intro x
    rw [State.paths_setHolder]
    split
    · rw [RiserPaths.setHolder_queue]
      exact fun h => absurd empty h
    · exact L x
  case channelQueueShrinks y q sub =>
    intro x
    rw [State.paths_setChannelQueue]
    split
    · refine fun h => L y fun e => h ?_
      rw [e] at sub
      exact List.sublist_nil.1 sub
    · exact L x
  case channelQueueGrows y r ha hb =>
    intro x
    rw [State.paths_setChannelQueue]
    split
    · exact fun _ => ⟨ha, hb⟩
    · exact L x
  case queuesLeft r =>
    intro x
    rw [State.paths_leaveQueues]
    exact fun h => L x fun e => h (by simp [e])
  case wake y => exact L.of_risers (congrArg Psw.risers (startWake_onlyRiser s y).psw)
  all_goals exact L.of_risers rfl

theorem CallMoves.channelQueueLaw {s t : State} (m : CallMoves s t) (L : s.ChannelQueueLaw) :
    t.ChannelQueueLaw := by
  induction m with
  | refl => exact L
  | tail _ g ih => exact g.channelQueueLaw ih

/-- The law reads the view alone. -/
theorem State.channelQueueLaw_of_view {s t : State} (L : s.ChannelQueueLaw) (h : t.view = s.view) :
    t.ChannelQueueLaw := by
  intro x
  have line : (t.paths x).queue = (s.paths x).queue :=
    congrFun (congrArg View.line h) (.channel x)
  have a : (t.paths x).holderA = (s.paths x).holderA :=
    congrFun (congrArg View.holder h) ⟨x, .a⟩
  have b : (t.paths x).holderB = (s.paths x).holderB :=
    congrFun (congrArg View.holder h) ⟨x, .b⟩
  rw [line, a, b]
  exact L x

theorem channelQueueLaw_keptByCalls : KeptByCalls State.ChannelQueueLaw where
  quiet := State.channelQueueLaw_of_view
  blank h _ x := by simp [State.paths, h, Psw.cold, Table.read_fill, RiserPaths.cold]
  rehomed _ L _ := L.of_risers rfl
  served p L := (serveDesk_moves _ p).channelQueueLaw L
  ended r why L := (endCall_moves _ r why).channelQueueLaw L
  started p q code L _ := (startCall_moves _ p q code).channelQueueLaw L
  lifted x a L := (lift_moves _ x a).channelQueueLaw L
  completed x r a t o L := (complete_moves _ x r a t o).channelQueueLaw L
  answered p r c L _ _ _ := (deskAnswer_moves _ p r c).channelQueueLaw L
  forwarded L _ _ _ _ _ := (forward_moves ..).channelQueueLaw L
  gaveUp {s r c e} why L _ _ :=
    (endCall_moves _ r why).channelQueueLaw <|
      ((setCall_moves (s.advanceTo e) r _).after (.queuesLeft _ r)).channelQueueLaw (L.of_risers rfl)
  expired {s r c k e} why L _ _ _ :=
    (endCall_moves _ r why).channelQueueLaw <|
      (setCall_moves (s.advanceTo e) r _).channelQueueLaw (L.of_risers rfl)
  diverted {s r c e} L _ _ :=
    (divert_moves _ r _).channelQueueLaw <|
      (setCall_moves (s.advanceTo e) r _).channelQueueLaw (L.of_risers rfl)

/-! ## The law of the paths -/

/-- A flat that no live call has may be given another riser. -/
theorem View.Law.rehome {v : View} {g : Ref → Option Holdings} (L : v.Law g) {w : View}
    (call : w.call = v.call) (hold : w.hold = v.hold) (holder : w.holder = v.holder)
    (line : w.line = v.line) (home : ∀ q c i, v.call q = some c → c.flat = some i →
      w.home i = v.home i) : w.Law g := by
  have held : w.held g = v.held g := by funext q; simp [View.held, call]
  have riserOf : ∀ q c, v.call q = some c → w.riserOf c = v.riserOf c := fun q c hc => by
    unfold View.riserOf
    cases hf : c.flat with
    | none => rfl
    | some i => exact congrArg some (home q c i hc hf)
  have place : ∀ q c, v.call q = some c → w.place c = v.place c := fun q c hc => by
    unfold View.place
    rw [riserOf q c hc]
  refine ⟨by rw [call]; exact L.states, fun q c ch hg hc e => ?_, by rw [held, holder]; exact L.holders,
    by rw [held, hold]; exact L.holds, by rw [line]; exact L.nodup, fun k q m => ?_,
    fun q c hg hc st => ?_⟩
  · rw [call] at hc
    rw [riserOf q c hc]
    exact L.homes q c ch hg hc e
  · rw [line] at m
    rw [call]
    rcases L.queued k q m with h | ⟨hg, c, hc, st, pl⟩
    · exact .inl h
    · exact .inr ⟨hg, c, hc, st, by rw [place q c hc]; exact pl⟩
  · rw [call] at hc
    rw [place q c hc, line]
    exact L.waits q c hg hc st

theorem State.flatBusy_false {s : State} {i : FlatIx} (h : s.flatBusy i = false) {r : Ref} {c : Call}
    (hc : s.call? r = some c) : c.flat ≠ some i := by
  intro e
  have : s.flatBusy i = true :=
    List.any_eq_true.2 ⟨(r, c), State.mem_liveCalls.2 hc, decide_eq_true e⟩
  simp [this] at h

theorem setFlat_pathLaw {s : State} {i : FlatIx} (f : Flat) (L : s.PathLaw)
    (h : s.flatBusy i = false) : (s.setFlat i f).PathLaw := by
  rw [State.pathLaw_iff_view] at L ⊢
  refine L.rehome rfl rfl rfl rfl fun q c j hc hj => ?_
  obtain ⟨d, hd, rfl⟩ := Option.map_eq_some_iff.1 hc
  show ((s.setFlat i f).flat j).riser = (s.flat j).riser
  rw [State.flat_setFlat, if_neg]
  rintro rfl
  exact State.flatBusy_false h hd hj

/-- R4: which state runs which timer. -/
theorem Call.StateLaw.waiting_iff {c : Call} (law : c.StateLaw) {k : TimerKind} {e : Nat}
    (h : c.timer = some { kind := k, expiry := e }) : c.state = .waiting ↔ k = .pathWait := by
  obtain ⟨-, -, rest⟩ := law
  cases st : c.state <;> cases leg : c.leg <;> simp_all

/-- R4: what the record of a call holds whose ring timer runs. -/
theorem Call.StateLaw.ringing {c : Call} (law : c.StateLaw) {e : Nat}
    (h : c.timer = some { kind := .ring, expiry := e }) :
    c.state = .ringing ∧ c.leg = .flat ∧ c.channel ≠ none ∧ c.deskPort = none ∧ c.answerer = none := by
  obtain ⟨-, ans, rest⟩ := law
  cases st : c.state <;> cases leg : c.leg <;> simp_all

/-- R25: a call whose path wait timer has run out leaves its queue. -/
theorem giveUp_law {s : State} (L : s.PathLaw) {r : Ref} {c : Call} (hc : s.call? r = some c) (e : Nat) :
    (((s.advanceTo e).setCall r { c with timer := none }).leaveQueues r).view.Law
      (update noFlight r (some c.holdings)) := by
  have live : s.view.call r = some c.bare := State.view_call_some hc
  have L1 := ((s.pathLaw_iff_view.1 L).leaveLive live rfl).writeLive (r := r) (by simp)
    (by show s.view.call r ≠ none; simp [live]) (some { c with timer := none }.bare)
  rw [State.view_leaveQueues, State.view_setCall (s := s.advanceTo e) _ (by
    show s.view.call r ≠ none; simp [live])]
  exact L1

theorem pathLaw_keptByCalls : KeptByCalls State.PathLaw where
  quiet := State.PathLaw.of_view
  blank {t} h calls := by
    have hold : ∀ p, t.hold p = none := fun p => by simp [State.hold, h, Psw.cold, Table.read_fill]
    have call : ∀ r, t.call? r = none := fun r => by simp [State.call?, calls]
    have paths : ∀ x, t.paths x = RiserPaths.cold := fun x => by
      simp [State.paths, h, Psw.cold, Table.read_fill]
    have desk : t.psw.deskQueue = [] := by rw [h]; rfl
    rw [State.pathLaw_iff_view]
    refine ⟨?_, ?_, ?_, ?_, ?_, ?_, ?_⟩
    all_goals simp [State.view, call, hold, paths, desk]
    · rintro ⟨x, side⟩; cases side <;> simp [RiserPaths.holder, RiserPaths.cold]
    · rintro (x | _) <;> simp [RiserPaths.cold]
    · rintro (x | _) <;> simp [RiserPaths.cold]
  rehomed f L h := setFlat_pathLaw f L h
  served p L := serveDesk_pathLaw L p
  ended r why L := endCall_pathLaw L r why
  started p q code L h := startCall_pathLaw L p q code h
  lifted x a L := lift_pathLaw L x a
  completed x r a t o L := complete_pathLaw L x r a t o
  answered p r c L hc leg st := deskAnswer_pathLaw L hc leg st
  forwarded L hc held flat leg st := forward_pathLaw L hc held flat leg st
  gaveUp {s r c e} why L hc ht := by
    have live : s.view.call r ≠ none := by simp [State.view_call_some hc]
    exact endCall_flight_pathLaw (c := { c with timer := none }) (giveUp_law L hc e)
      (State.call?_setCall_live (s := s.advanceTo e) _ live) why
  expired {s r c k e} why L hc ht hk := by
    have live : s.view.call r ≠ none := by simp [State.view_call_some hc]
    have w : c.state ≠ .waiting := fun h => hk (((L.1 r c hc).waiting_iff ht).1 h)
    exact endCall_flight_pathLaw (c := { c with timer := none }) (stopTimer_law L hc w e)
      (State.call?_setCall_live (s := s.advanceTo e) _ live) why
  diverted {s r c e} L hc ht := by
    have live : s.view.call r ≠ none := by simp [State.view_call_some hc]
    obtain ⟨st, leg, -, desk, answerer⟩ := (L.1 r c hc).ringing ht
    exact divert_pathLaw (c := { c with timer := none }) (stopTimer_law L hc (by simp [st]) e)
      (State.call?_setCall_live (s := s.advanceTo e) _ live) desk answerer

/-- Settles O11: both laws are kept by the operations of a call's life, and so by every step. -/
theorem everyStepKeepsChannelQueueLaw : Obligations.EveryStepKeepsChannelQueueLaw :=
  ⟨channelQueueLaw_keptByCalls.step, pathLaw_keptByCalls.step⟩

end Sys2Proof.Machine
end

