-- ==== Sys2Proof/Proofs/ColdStart.lean ====
section
/-!
SUPPORT. The state after reset, block by block (O3).
-/

namespace Sys2Proof.Machine

theorem reset_riser (r : RiserIx) : State.reset.riser r = Riser.cold .good := Table.read_fill ..

theorem reset_port (p : PortIx) : State.reset.port p = Port.cold false := Table.read_fill ..

/-- Every table of the reset state is filled with its cold record. -/
theorem reset_coldValues : ColdValues State.reset where
  slots _ := Table.read_fill ..
  times := rfl
  intercept := rfl
  served := rfl
  windows _ := Table.read_fill ..
  flats _ := Table.read_fill ..
  paths _ := Table.read_fill ..
  holds _ := Table.read_fill ..
  joins := rfl
  deskQueue := rfl
  risers r := by rw [reset_riser]; rfl
  stations r a := by rw [reset_riser]; exact Table.read_fill ..
  ports p := by rw [reset_port]; rfl
  locks _ := Table.read_fill ..
  routes _ := Table.read_fill ..
  lost := rfl

/-- Settles O3. -/
theorem resetIsColdStart : Obligations.ResetIsColdStart :=
  ⟨reset_coldValues, ⟨rfl, rfl, rfl, rfl, rfl, rfl⟩, rfl, rfl, fun r => by rw [reset_riser]; rfl,
    fun p => by rw [reset_port]; rfl, rfl, rfl, rfl⟩

end Sys2Proof.Machine
end

