-- ==== Sys2Proof/Proofs/HostAnswers.lean ====
section
/-!
SUPPORT. Requests that the host link alone answers: what is left of the state when the act of one has
stored its values and the host transmitter has been looked at (O28, O33).
-/

namespace Sys2Proof.Machine

/-- R169: a request that is taken at once. -/
theorem exec_taken {s : State} (h : s.Takes) {c : Instr} {take : State → State}
    (e : exec c s = .next (s.onRequest c take)) : exec c s = .next (take s) := by
  rw [e, onRequest_takes h]

/-- R169 to R173: a request whose act leaves the host link and the notices is answered, and nothing else
moves but the host transmitter. -/
theorem answer_settleHost {s a : State} (h : s.Takes) {kind num : Nat} {st : Status} {b : ReplyBody}
    {act : State → State × Status × ReplyBody} (e : act s = (a, st, b)) (hb : replyBody st b = b)
    (hlp : a.hlp = s.hlp) (notices : a.ntu.notices = s.ntu.notices) (lost : a.ntu.lost = s.ntu.lost) :
    let t := s.answer kind num State.settleHost act
    t = { a with hlp := t.hlp, ntu := t.ntu } ∧ t.noticeLine = s.noticeLine ∧
      t.ntu.lost = s.ntu.lost ∧ t.ntu.routes = a.ntu.routes ∧ Answers s t ⟨kind, num, st, b⟩ := by
  have m := settleHost_moved (a.reply kind num st b)
  have eq : s.answer kind num State.settleHost act = (a.reply kind num st b).settleHost := by
    simp only [State.answer, e]
  have line : (a.reply kind num st b).noticeLine = s.noticeLine := by
    show (match a.hlp.tx with | .notice n => [n] | _ => []) ++ a.ntu.notices = _
    rw [hlp, notices]
    rfl
  simp only [eq]
  have ans := answers_settleHost (k := kind) (n := num) (st := st) (b := b) h hlp
  rw [hb] at ans
  exact ⟨m.same, m.notices.trans line, m.lost.trans lost, m.routes, ans⟩

/-- The same for an act that leaves the notice unit altogether. -/
theorem answer_quietly {s a : State} (h : s.Takes) {kind num : Nat} {st : Status} {b : ReplyBody}
    {act : State → State × Status × ReplyBody} (e : act s = (a, st, b)) (hb : replyBody st b = b)
    (hlp : a.hlp = s.hlp) (ntu : a.ntu = s.ntu) :
    let t := s.answer kind num State.settleHost act
    t = { a with hlp := t.hlp, ntu := t.ntu } ∧ Raises s t [] ∧ Answers s t ⟨kind, num, st, b⟩ := by
  obtain ⟨same, notices, lost, routes, ans⟩ :=
    answer_settleHost h (kind := kind) (num := num) e hb hlp (by rw [ntu]) (by rw [ntu])
  exact ⟨same, ⟨notices, lost, routes.trans (by rw [ntu])⟩, ans⟩

/-! ## What a riser is asked for (R66, R96) -/

/-- With no overrun processing due nothing comes before a request for a riser. -/
theorem overrunFirst?_idle {s : State} {n : Nat} (h : ∀ r : RiserIx, r.val = n →
    (s.riser r).overrunDue = false) : s.overrunFirst? n = s := by
  unfold State.overrunFirst?
  split
  · next r hr =>
    unfold riser? at hr
    split at hr
    · obtain rfl := Option.some.inj hr
      rw [State.overrunFirst, h _ rfl]
      rfl
    · cases hr
  · rfl

theorem Riser.advisories_length (x : Riser) :
    x.advisories.length = x.queue.countP fun i => i.entry.isAdvisory := by
  rw [Riser.advisories, ← List.countP_eq_length_filter, List.countP_map]
  rfl

theorem Riser.solicited_length (x : Riser) : (x.frames.filter QueueEntry.isSolicited).length =
    x.queue.countP fun i => i.entry.isSolicited := by
  rw [Riser.frames, List.filter_filter, ← List.countP_eq_length_filter, List.countP_map]
  refine List.countP_congr fun i _ => ?_
  cases h : i.entry <;> simp [h, QueueEntry.isFrame, QueueEntry.isSolicited]

theorem Riser.markers_length (x : Riser) :
    x.queue.length - x.frames.length = x.queue.countP fun i => i.entry.isMarker := by
  have split := List.length_eq_countP_add_countP (l := x.queue)
    (p := fun i : QueueItem => i.entry.isFrame)
  have frames : x.frames.length = x.queue.countP fun i => i.entry.isFrame := by
    rw [Riser.frames, ← List.countP_eq_length_filter, List.countP_map]
    rfl
  have others : (x.queue.countP fun i => decide ¬i.entry.isFrame = true) =
      x.queue.countP fun i => i.entry.isMarker := List.countP_congr fun i _ => by
    cases i.entry <;> simp [QueueEntry.isFrame, QueueEntry.isMarker]
  omega

theorem Riser.countPresence_eq (x : Riser) (v : Presence) : x.countPresence v =
    ((List.finRange 62).filter fun i => decide ((x.stations.read i).presence = v)).length :=
  List.countP_eq_length_filter ..

/-! ## The queries -/

theorem slot?_val (i : SlotIx) : slot? (i.val + 1) = some i := by
  unfold slot?
  rw [dif_pos ⟨by omega, by omega⟩]
  rfl

theorem station?_val (i : Fin 62) : station? (i.val + 1) = some i := by
  unfold station?
  rw [dif_pos ⟨by omega, by omega⟩]
  rfl

/-- R30, R36: a request whose act only reads. -/
theorem request_reads {s : State} {kind num : Nat} {st : Status} {b : ReplyBody}
    {act : State → State × Status × ReplyBody} {c : Instr} {take : State → State}
    (e : exec c s = .next (s.onRequest c take))
    (et : take s = s.answer kind num State.settleHost act) (ea : act s = (s, st, b))
    (hb : replyBody st b = b) (h : s.Takes) :
    ∃ t, exec c s = .next t ∧ t = { s with hlp := t.hlp, ntu := t.ntu } ∧ Raises s t [] ∧
      Answers s t ⟨kind, num, st, b⟩ :=
  ⟨_, (exec_taken h e).trans (congrArg _ et), answer_quietly h ea hb rfl rfl⟩

/-- Settles O33: each query's act leaves the state and answers with the record it reads. -/
theorem queriesReportAndChangeNothing : Obligations.QueriesReportAndChangeNothing := by
  unfold Obligations.QueriesReportAndChangeNothing
  constructor
  · intro num n s
    refine ⟨fun i hi => ?_, fun hn => ?_, fun i hi => ?_, fun hn => ?_, fun i hi => ?_, fun hn => ?_,
      fun p hp => ?_, fun hn => ?_⟩
    · subst hi
      refine ⟨fun c hc => request_reads rfl rfl ?_ rfl, fun hc => request_reads rfl rfl ?_ rfl⟩
      · simp only [slot?_val, State.callReport, hc]; rfl
      · simp only [slot?_val, State.callReport, hc]
    · refine request_reads rfl rfl ?_ rfl
      have : slot? n = none := dif_neg (by omega)
      simp only [this]
    · subst hi
      refine request_reads rfl rfl ?_ rfl
      have : window? i.val = some i := dif_pos i.isLt
      simp only [this]
    · refine request_reads rfl rfl ?_ rfl
      have : window? n = none := dif_neg (by omega)
      simp only [this]
    · subst hi
      refine request_reads rfl rfl ?_ rfl
      have : flat? i.val = some i := dif_pos i.isLt
      simp only [this]
    · refine request_reads rfl rfl ?_ rfl
      have : flat? n = none := dif_neg (by omega)
      simp only [this]
    · subst hp
      have : port? p.val = some p := dif_pos p.isLt
      exact ⟨request_reads rfl rfl (by simp only [this]; rfl) rfl, request_reads rfl rfl (by simp only [this]; rfl) rfl⟩
    · have : port? n = none := dif_neg (by omega)
      exact ⟨request_reads rfl rfl (by simp only [this]) rfl, request_reads rfl rfl (by simp only [this]) rfl⟩
  · intro num n a s
    refine ⟨fun hn => ?_, fun r hr idle => ?_⟩
    · have none : riser? n = none := dif_neg (by omega)
      have idle : ∀ r : RiserIx, r.val = n → (s.riser r).overrunDue = false := fun r e => by
        have := r.isLt; omega
      exact ⟨request_reads rfl (by rw [State.takeQueryRiser, overrunFirst?_idle idle])
          (by simp only [none]) rfl,
        request_reads rfl (by rw [State.takeQueryStation, overrunFirst?_idle idle])
          (by simp only [none]) rfl⟩
    · subst hr
      have found : riser? r.val = some r := dif_pos r.isLt
      have idle : ∀ x : RiserIx, x.val = r.val → (s.riser x).overrunDue = false := fun x e => by
        rw [Fin.ext e]; exact idle
      refine ⟨request_reads rfl (by rw [State.takeQueryRiser, overrunFirst?_idle idle]) ?_ rfl, fun i hi => ?_, fun ha => ?_⟩
      · simp only [found, State.riserReport, Riser.advisories_length, Riser.solicited_length,
          Riser.markers_length, Riser.countPresence_eq]
        rfl
      · subst hi
        refine request_reads rfl (by rw [State.takeQueryStation, overrunFirst?_idle idle]) ?_ rfl
        simp only [found, station?_val]
      · refine request_reads rfl (by rw [State.takeQueryStation, overrunFirst?_idle idle]) ?_ rfl
        have : station? a = none := dif_neg (by omega)
        simp only [found, this]

end Sys2Proof.Machine
end

