-- ==== Sys2Proof/Proofs/TimesRoutesMode.lean ====
section
/-!
SUPPORT. SET TIMES, SET ROUTE and SET MODE, and the routing of an event (O28).
-/

namespace Sys2Proof.Machine

/-! ## Values brought within their range, and codes -/

theorem clamp_eq {lo hi : Nat} (h : lo ≤ hi) (v : Nat) : clamp lo hi v = max lo (min v hi) := by
  unfold clamp
  split
  · omega
  · split <;> omega

theorem clampTimes_eq (a b c d : Nat) : clampTimes a b c d =
    { flatRing := max 5 (min a 120), deskRing := max 5 (min b 120)
      pathWait := max 2 (min c 60), talk := max 10 (min d 600) } := by
  simp [clampTimes, clamp_eq]

/-- Each of the thirteen codes names the kind in its place of the route map (R201). -/
theorem eventKind?_of_index (k : Fin 13) :
    ∃ kind, eventKind? (k.val + 0x40) = some kind ∧ kind.index = k := by
  revert k; decide

theorem eventKind?_none {e : Nat} (h : e < 0x40 ∨ 0x4C < e) : eventKind? e = none := by
  unfold eventKind?
  split <;> first | rfl | omega

theorem route?_of_lt {r : Nat} (h : r < 4) :
    route? r = some ([Route.none, .host, .desk, .both][r]) := by
  interval_cases r <;> rfl

theorem route?_none {r : Nat} (h : 4 ≤ r) : route? r = none := by
  unfold route?
  split <;> first | rfl | omega

theorem yesNo?_of_lt {m : Nat} (h : m < 2) : yesNo? m = some (decide (m = 1)) := by
  interval_cases m <;> rfl

theorem yesNo?_none {m : Nat} (h : 2 ≤ m) : yesNo? m = none := by
  unfold yesNo?
  split <;> first | rfl | omega

/-! ## The three requests -/

theorem setTimes_stored {s : State} (h : s.Takes) (num a b c d : Nat) :
    let x : Times := { flatRing := max 5 (min a 120), deskRing := max 5 (min b 120)
                       pathWait := max 2 (min c 60), talk := max 10 (min d 600) }
    ∃ t, exec (.setTimes num a b c d) s = .next t ∧
      t = { s with ccu := { s.ccu with times := x }, hlp := t.hlp, ntu := t.ntu } ∧
      Raises s t [] ∧
      Answers s t (if (5 ≤ a ∧ a ≤ 120) ∧ (5 ≤ b ∧ b ≤ 120) ∧ (2 ≤ c ∧ c ≤ 60) ∧ (10 ≤ d ∧ d ≤ 600) then
          ⟨0x04, num, .ok, .none⟩
        else ⟨0x04, num, .adjusted, .times x⟩) := by
  intro x
  let stored : State := { s with ccu := { s.ccu with times := x } }
  have e : s.setTimesAct a b c d = (stored,
      if x = { flatRing := a, deskRing := b, pathWait := c, talk := d } then (Status.ok, ReplyBody.none)
      else (.adjusted, .times x)) := by
    unfold State.setTimesAct
    rw [clampTimes_eq]
    dsimp only
    split <;> rfl
  have same : x = { flatRing := a, deskRing := b, pathWait := c, talk := d } ↔
      (5 ≤ a ∧ a ≤ 120) ∧ (5 ≤ b ∧ b ≤ 120) ∧ (2 ≤ c ∧ c ≤ 60) ∧ (10 ≤ d ∧ d ≤ 600) := by
    simp only [x, Times.mk.injEq]
    omega
  refine ⟨_, exec_taken h rfl, ?_⟩
  by_cases within : x = { flatRing := a, deskRing := b, pathWait := c, talk := d }
  · rw [if_pos within] at e
    rw [if_pos (same.1 within)]
    exact answer_quietly h (a := stored) (st := .ok) e rfl rfl rfl
  · rw [if_neg within] at e
    rw [if_neg (mt same.2 within)]
    exact answer_quietly h (a := stored) (st := .adjusted) e rfl rfl rfl

theorem setRoute_stored {s : State} (h : s.Takes) (num : Nat) (k : Fin 13) {r : Nat} (hr : r < 4) :
    let routes := s.ntu.routes.write k ([Route.none, .host, .desk, .both][r])
    ∃ t, exec (.setRoute num (k.val + 0x40) r) s = .next t ∧
      t = { s with hlp := t.hlp, ntu := t.ntu } ∧ t.noticeLine = s.noticeLine ∧
      t.ntu.lost = s.ntu.lost ∧ t.ntu.routes = routes ∧
      Answers s t ⟨0x05, num, .ok, .routes routes⟩ := by
  obtain ⟨kind, hk, index⟩ := eventKind?_of_index k
  refine ⟨_, exec_taken h rfl, ?_⟩
  exact answer_settleHost h
    (a := { s with ntu := { s.ntu with
      routes := s.ntu.routes.write k ([Route.none, .host, .desk, .both][r]) } })
    (by simp only [State.setRouteAct, hk, route?_of_lt hr, index]) rfl rfl rfl rfl

theorem setRoute_refused {s : State} (h : s.Takes) (num : Nat) {e r : Nat}
    (bad : e < 0x40 ∨ 0x4C < e ∨ 4 ≤ r) : ∃ t, exec (.setRoute num e r) s = .next t ∧
      t = { s with hlp := t.hlp, ntu := t.ntu } ∧ Raises s t [] ∧
      Answers s t ⟨0x05, num, .badValue, .none⟩ := by
  refine request_reads (act := fun t => t.setRouteAct e r) rfl rfl ?_ rfl h
  unfold State.setRouteAct
  split
  · next hk hr =>
    rcases bad with b | b | b
    · rw [eventKind?_none (.inl b)] at hk; cases hk
    · rw [eventKind?_none (.inr b)] at hk; cases hk
    · rw [route?_none b] at hr; cases hr
  · rfl

/-! ## Routing (R184) -/

/-- The code of an event is its place in the route map (R192, R201). -/
theorem Event.number_eq (e : Event) : e.number = e.kind.index.val + 0x40 := by
  cases e
  case callEnded why => cases why <;> rfl
  all_goals rfl

theorem Ntu.offer_eq_offered (n : Ntu) (e : Event) : n.offer (.event e) = n.offered e := rfl

/-- R184: an event goes where the route of its kind says, and nowhere else. -/
theorem emit_routed (s : State) (e : Event) {k : Fin 13} (hk : k.val + 0x40 = e.number) :
    let route := s.ntu.routes.read k
    let t := s.emit e
    t = { s with ntu := t.ntu, ports := t.ports } ∧
      t.ntu = (if route = .host ∨ route = .both then s.ntu.offered e else s.ntu) ∧
      ∀ p, t.port p =
        if (route = .desk ∨ route = .both) ∧ (s.port p).present = true ∧
            (s.port p).function = .concierge then
          { s.port p with alertSlot := some e }
        else s.port p := by
  obtain rfl : k = e.kind.index := Fin.ext (by rw [Event.number_eq] at hk; omega)
  have taken : ∀ p, Port.takeAlert e (s.port p) =
      if (s.port p).present = true ∧ (s.port p).function = .concierge then
        { s.port p with alertSlot := some e }
      else s.port p := fun p => by
    simp only [Port.takeAlert, and_comm]
  unfold State.emit State.routeOf
  cases s.ntu.routes.read e.kind.index with
  | none => exact ⟨rfl, rfl, fun p => by simp⟩
  | host => exact ⟨rfl, rfl, fun p => by simp; rfl⟩
  | desk => exact ⟨rfl, rfl, fun p => by simp [taken]⟩
  | both =>
    refine ⟨rfl, rfl, fun p => ?_⟩
    show ((s.offerNotice e).writeAlerts e).port p = _
    simpa [State.port_congr (State.offerNotice_ports s e)] using taken p

/-- Settles O28. -/
theorem timesRoutesAndModeAreStored : Obligations.TimesRoutesAndModeAreStored := by
  unfold Obligations.TimesRoutesAndModeAreStored
  refine ⟨fun num a b c d s h => setTimes_stored h num a b c d, fun num e r s h => ⟨?_, ?_⟩,
    fun num m s h => ⟨fun hm => ?_, fun hm => ?_⟩, fun e s k hk => emit_routed s e hk⟩
  · rintro k rfl hr
    exact setRoute_stored h num k hr
  · exact setRoute_refused h num
  · refine ⟨_, exec_taken h rfl, answer_quietly h (a := { s with ccu := { s.ccu with intercept := decide (m = 1) } }) ?_ rfl rfl
      rfl⟩
    simp only [State.setModeAct, yesNo?_of_lt hm]
  · refine request_reads (act := fun t => t.setModeAct m) rfl rfl ?_ rfl h
    simp only [State.setModeAct, yesNo?_none hm]

end Sys2Proof.Machine
end

