-- ==== Sys2Proof/Proofs/PanelFrames.lean ====
section
/-!
SUPPORT. Frames of panels: taken, or discarded (R126), and the start requests that are refused (O38).
-/

namespace Sys2Proof.Machine

/-! ## The end of a panel's frame -/

theorem panelFrameEnd_eq (s : State) (p : PortIx) : s.panelFrameEnd p =
    { s with ports := s.ports.write p { s.port p with receiving := none } } := rfl

@[simp] theorem panelFrameEnd_hold (s : State) (p q : PortIx) : (s.panelFrameEnd p).hold q = s.hold q :=
  rfl

/-- The end of a frame at a port leaves the port's settings. -/
theorem panelFrameEnd_settings (s : State) (p q : PortIx) :
    (s.port q).SameSettings ((s.panelFrameEnd p).port q) := by
  unfold State.panelFrameEnd Port.SameSettings
  rw [State.port_modifyPort]
  split
  · next e => subst e; exact ⟨rfl, rfl, rfl, rfl⟩
  · exact ⟨rfl, rfl, rfl, rfl⟩

theorem panelFrameEnd_takesFrame (s : State) (p : PortIx) (f : PortFunction) :
    (s.panelFrameEnd p).takesFrame p f = s.takesFrame p f := by
  obtain ⟨function, -, present, -⟩ := panelFrameEnd_settings s p p
  simp only [State.takesFrame, function, present]

/-- R126: a frame of a PRESENT port with the function it belongs to. -/
theorem onPanelFrame_taken {s : State} {p : PortIx} {f : PortFunction}
    (present : (s.port p).present = true) (function : (s.port p).function = f)
    (settle act : State → State) :
    s.onPanelFrame p f settle act = settle (act (s.panelFrameEnd p)) := by
  unfold State.onPanelFrame
  dsimp only
  rw [if_pos]
  rw [panelFrameEnd_takesFrame]
  simp [State.takesFrame, present, function]

/-- R126: a frame of an ABSENT port or of one with another function is discarded. -/
theorem onPanelFrame_discarded {s : State} {p : PortIx} {f : PortFunction}
    (h : (s.port p).present = false ∨ (s.port p).function ≠ f) (settle act : State → State) :
    s.onPanelFrame p f settle act = s.panelFrameEnd p := by
  unfold State.onPanelFrame
  dsimp only
  rw [if_neg]
  rw [panelFrameEnd_takesFrame]
  rcases h with h | h <;> simp [State.takesFrame, h]

/-! ## Start requests (R6) -/

/-- What a start request does in each case of R6. -/
theorem startCall_checked {s : State} {p : PortIx} (h : (s.port p).check = true) (q : StartRequest)
    (code : Option Nat) :
    s.startCall p q code = (s.display p .service).emit (.callRefused p q) := if_pos h

theorem startCall_busy {s : State} {p : PortIx} (h : (s.port p).check = false) (held : s.hold p ≠ none)
    (q : StartRequest) (code : Option Nat) : s.startCall p q code = s.display p .busy := by
  unfold State.startCall
  rw [if_neg (by simp [h]), if_pos (Option.isSome_iff_ne_none.2 held)]

/-- R6, R124: the three refusals of a frame that carries a start request. -/
theorem startRequest_refused {s : State} {p : PortIx} {f : PortFunction} {q : StartRequest}
    {c : Instr} {code : Option Nat} {settle : State → State} (hs : ∀ t, Settled t (settle t))
    (e : exec c s = .next (s.onPanelFrame p f settle fun t => t.startCall p q code)) :
    let clear : State := { s with ports := s.ports.write p { s.port p with receiving := none } }
    ((s.port p).present = true → (s.port p).function = f → (s.port p).check = true →
      ∃ t, exec c s = .next t ∧
        Settled ((clear.display p .service).emit (.callRefused p q)) t) ∧
    ((s.port p).present = true → (s.port p).function = f → (s.port p).check = false →
      s.hold p ≠ none → ∃ t, exec c s = .next t ∧ Settled (clear.display p .busy) t) ∧
    ((s.port p).present = false ∨ (s.port p).function ≠ f → exec c s = .next clear) := by
  obtain ⟨-, -, -, check⟩ := panelFrameEnd_settings s p p
  refine ⟨fun present function h => ?_, fun present function h held => ?_, fun h => ?_⟩
  · rw [onPanelFrame_taken present function, startCall_checked (check.trans h)] at e
    exact ⟨_, e, hs _⟩
  · rw [onPanelFrame_taken present function, startCall_busy (check.trans h) held] at e
    exact ⟨_, e, hs _⟩
  · rw [onPanelFrame_discarded h] at e
    exact e

/-- Settles O38: a CALL, a CONCIERGE and a DIAL are the same start request (R6). -/
theorem startRequestIsRefused : Obligations.StartRequestIsRefused := by
  intro p code s hcode
  have code? : isCode code = true := decide_eq_true hcode
  refine ⟨startRequest_refused (code := some code) settle_settled ?_,
    startRequest_refused (code := none) settleLinks_settled rfl,
    startRequest_refused (code := some code) settle_settled ?_⟩
  · simp only [exec, execPanelCall, code?, if_true]
  · simp only [exec, execDeskDial, code?, if_true]

end Sys2Proof.Machine
end

