-- ==== Sys2Proof/Proofs/EventFrames.lean ====
section
/-!
SUPPORT. What the events of calls, panels, risers and timers keep (O17): `ConfigKept` and `CallEventKept`
are preorders, and each operation is one of their steps.
-/

namespace Sys2Proof.Machine

/-! ## The two frames as preorders -/

theorem Port.SameSettings.refl (p : Port) : p.SameSettings p := ⟨rfl, rfl, rfl, rfl⟩

theorem Port.SameSettings.trans {p q r : Port} (h : p.SameSettings q) (k : q.SameSettings r) :
    p.SameSettings r :=
  ⟨k.1.trans h.1, k.2.1.trans h.2.1, k.2.2.1.trans h.2.2.1, k.2.2.2.trans h.2.2.2⟩

theorem Riser.SameSettings.refl (x : Riser) : x.SameSettings x :=
  ⟨rfl, rfl, rfl, rfl, rfl, rfl, rfl⟩

theorem Riser.SameSettings.trans {x y z : Riser} (h : x.SameSettings y) (k : y.SameSettings z) :
    x.SameSettings z := by
  obtain ⟨h1, h2, h3, h4, h5, h6, h7⟩ := h
  obtain ⟨k1, k2, k3, k4, k5, k6, k7⟩ := k
  exact ⟨k1.trans h1, k2.trans h2, k3.trans h3, k4.trans h4, k5.trans h5, k6.trans h6, k7.trans h7⟩

/-- Two riser controllers with what the host has set. -/
def Riser.HostSettings (x y : Riser) : Prop :=
  y.survey = x.survey ∧ y.quietAllowed = x.quietAllowed ∧ y.surveyStepMs = x.surveyStepMs ∧
    y.quietIdleS = x.quietIdleS

theorem Riser.SameSettings.host {x y : Riser} (h : x.SameSettings y) : x.HostSettings y :=
  ⟨h.2.1, h.2.2.1, h.2.2.2.1, h.2.2.2.2.1⟩

theorem ConfigKept.refl (s : State) : ConfigKept s s :=
  ⟨rfl, rfl, ⟨rfl, rfl⟩, fun _ => rfl, rfl, rfl, rfl, rfl, rfl, ⟨rfl, rfl⟩, fun _ => ⟨rfl, rfl⟩,
    fun _ => ⟨rfl, rfl, rfl, rfl⟩, fun _ => rfl⟩

theorem ConfigKept.trans {s t u : State} (h : ConfigKept s t) (k : ConfigKept t u) :
    ConfigKept s u where
  pending := k.pending.trans h.pending
  resetHeld := k.resetHeld.trans h.resetHeld
  windows := ⟨k.windows.1.trans h.windows.1, k.windows.2.trans h.windows.2⟩
  flats i := by
    have e := k.flats i
    rw [h.flats i] at e
    exact e
  times := k.times.trans h.times
  intercept := k.intercept.trans h.intercept
  routes := k.routes.trans h.routes
  buffer := k.buffer.trans h.buffer
  startDue := k.startDue.trans h.startDue
  received := ⟨k.received.rx.trans h.received.rx, k.received.rxDeadline.trans h.received.rxDeadline⟩
  functions p := ⟨(k.functions p).1.trans (h.functions p).1, (k.functions p).2.trans (h.functions p).2⟩
  settings r := by
    obtain ⟨h1, h2, h3, h4⟩ := h.settings r
    obtain ⟨k1, k2, k3, k4⟩ := k.settings r
    exact ⟨k1.trans h1, k2.trans h2, k3.trans h3, k4.trans h4⟩
  lockTimes p := (k.lockTimes p).trans (h.lockTimes p)

theorem CallEventKept.refl (s : State) : CallEventKept s s :=
  ⟨.refl s, rfl, rfl, fun _ => .refl _, fun _ => .refl _⟩

theorem CallEventKept.trans {s t u : State} (h : CallEventKept s t) (k : CallEventKept t u) :
    CallEventKept s u :=
  ⟨h.config.trans k.config, k.dir.trans h.dir, k.locks.trans h.locks,
    fun p => (h.ports p).trans (k.ports p), fun r => (h.risers r).trans (k.risers r)⟩

theorem ConfigKept.foldl {α : Type} (f : State → α → State) (hf : ∀ s a, ConfigKept s (f s a))
    (l : List α) (s : State) : ConfigKept s (l.foldl f s) := by
  induction l generalizing s with
  | nil => exact .refl s
  | cons a l ih => exact (hf s a).trans (ih _)

/-- A change that leaves the directory and the locks, and of the host link and the notices the rest. -/
theorem CallEventKept.of_blocks {s t : State} (pending : t.pending = s.pending)
    (resetHeld : t.resetHeld = s.resetHeld) (dir : t.dir = s.dir) (locks : t.locks = s.locks)
    (times : t.ccu.times = s.ccu.times) (intercept : t.ccu.intercept = s.ccu.intercept)
    (routes : t.ntu.routes = s.ntu.routes) (buffer : t.hlp.buffer = s.hlp.buffer)
    (startDue : t.hlp.startDue = s.hlp.startDue) (received : ReceiveKept s t)
    (ports : ∀ p, (s.port p).SameSettings (t.port p))
    (risers : ∀ r, (s.riser r).SameSettings (t.riser r)) : CallEventKept s t where
  config :=
    { pending := pending, resetHeld := resetHeld, windows := by rw [dir]; exact ⟨rfl, rfl⟩
      flats := fun i => by rw [State.flat_congr dir]
      times := times, intercept := intercept, routes := routes, buffer := buffer
      startDue := startDue, received := received
      functions := fun p => ⟨(ports p).1, (ports p).2.1⟩
      settings := fun r => (risers r).host
      lockTimes := fun p => by rw [State.lock_congr locks] }
  dir := dir
  locks := locks
  ports := ports
  risers := risers

/-! ## Looking at the free lines, and the moves of a call -/

theorem Settled.callEventKept {s t : State} (h : Settled s t) : CallEventKept s t :=
  .of_blocks h.pending h.resetHeld h.dir h.locks h.times h.intercept h.routes h.buffer h.startDue
    ⟨h.rx, h.rxDeadline⟩ (fun p => (h.ports p).settings) fun r => (h.risers r).settings

theorem Port.place_settings (d : Display) (p : Port) : p.SameSettings (Port.place d p) := by
  unfold Port.place; split <;> exact ⟨rfl, rfl, rfl, rfl⟩

theorem Port.placeRing_settings (l : RingLevel) (p : Port) : p.SameSettings (Port.placeRing l p) := by
  unfold Port.placeRing; split <;> exact ⟨rfl, rfl, rfl, rfl⟩

theorem Port.takeAlert_settings (e : Event) (p : Port) : p.SameSettings (Port.takeAlert e p) := by
  unfold Port.takeAlert; split <;> exact ⟨rfl, rfl, rfl, rfl⟩

theorem State.port_modifyPort_settings (s : State) (p : PortIx) {f : Port → Port}
    (h : ∀ x : Port, x.SameSettings (f x)) (q : PortIx) :
    (s.port q).SameSettings ((s.modifyPort p f).port q) := by
  rw [State.port_modifyPort]
  split
  · next e => subst e; exact h _
  · exact .refl _

theorem State.riser_modifyRiser_settings (s : State) (x : RiserIx) {f : Riser → Riser}
    (h : ∀ y : Riser, y.SameSettings (f y) := by exact fun _ => ⟨rfl, rfl, rfl, rfl, rfl, rfl, rfl⟩)
    (z : RiserIx) :
    (s.riser z).SameSettings ((s.modifyRiser x f).riser z) := by
  rw [State.riser_modifyRiser]
  split
  · next e => subst e; exact h _
  · exact .refl _

/-- A call's moves leave the settings of every port. -/
theorem CallMove.ports {s t : State} (m : CallMove s t) (p : PortIx) :
    (s.port p).SameSettings (t.port p) := by
  cases m
  case display q d => exact s.port_modifyPort_settings q (Port.place_settings d) p
  case ring q l => exact s.port_modifyPort_settings q (Port.placeRing_settings l) p
  case alerts e => rw [State.port_writeAlerts]; exact Port.takeAlert_settings ..
  case wake x => rw [State.port_congr (startWake_onlyRiser s x).ports]; exact .refl _
  all_goals exact Port.SameSettings.refl _

/-- A call's moves leave the settings, line and stations of every riser. -/
theorem CallMove.risers {s t : State} (m : CallMove s t) (z : RiserIx) :
    (s.riser z).SameSettings (t.riser z) := by
  cases m
  case wake x =>
    unfold State.startWake
    split
    · exact s.riser_modifyRiser_settings x (z := z)
    · exact .refl _
  case frame x e _ _ _ =>
    exact s.riser_modifyRiser_settings x (z := z)
  case overrun x _ _ =>
    exact s.riser_modifyRiser_settings x (z := z)
  case cancelMark x _ _ _ =>
    exact s.riser_modifyRiser_settings x (z := z)
  case withdrawn x _ _ =>
    exact s.riser_modifyRiser_settings x (z := z)
  all_goals exact Riser.SameSettings.refl _

theorem CallMoves.callEventKept {s t : State} (m : CallMoves s t) : CallEventKept s t := by
  have k := m.kept
  refine .of_blocks k.pending k.resetHeld k.dir k.locks k.times k.intercept k.routes (by rw [k.hlp])
    (by rw [k.hlp]) ⟨by rw [k.hlp], by rw [k.hlp]⟩ ?_ ?_
  · intro p
    induction m with
    | refl => exact .refl _
    | tail ms m ih => exact (ih (CallMoves.kept ms)).trans (m.ports p)
  · intro x
    induction m with
    | refl => exact .refl _
    | tail ms m ih => exact (ih (CallMoves.kept ms)).trans (m.risers x)

theorem ConfigKept.of_moves {s t : State} (m : CallMoves s t) : ConfigKept s t :=
  m.callEventKept.config

theorem ConfigKept.of_settled {s t : State} (h : Settled s t) : ConfigKept s t :=
  h.callEventKept.config

theorem ConfigKept.emit (s : State) (e : Event) : ConfigKept s (s.emit e) := .of_moves (emit_moves s e)

theorem advanceTo_callEventKept (s : State) (e : Nat) : CallEventKept s (s.advanceTo e) :=
  .of_blocks rfl rfl rfl rfl rfl rfl rfl rfl rfl ⟨rfl, rfl⟩ (fun _ => .refl _) fun _ => .refl _

/-! ## Single changes of ports, risers, locks and flats -/

theorem ConfigKept.modifyPort (s : State) (p : PortIx) {f : Port → Port}
    (h : ∀ x : Port, (f x).function = x.function ∧ (f x).intercept = x.intercept := by
      exact fun _ => ⟨rfl, rfl⟩) :
    ConfigKept s (s.modifyPort p f) :=
  { ConfigKept.refl s with
    received := ⟨rfl, rfl⟩
    functions := fun q => by
      rw [State.port_modifyPort]
      split
      · next e => subst e; exact h _
      · exact ⟨rfl, rfl⟩ }

theorem ConfigKept.modifyRiser (s : State) (x : RiserIx) {f : Riser → Riser}
    (h : ∀ y : Riser, y.HostSettings (f y) := by exact fun _ => ⟨rfl, rfl, rfl, rfl⟩) :
    ConfigKept s (s.modifyRiser x f) :=
  { ConfigKept.refl s with
    received := ⟨rfl, rfl⟩
    settings := fun z => by
      rw [State.riser_modifyRiser]
      split
      · next e => subst e; exact h _
      · exact ⟨rfl, rfl, rfl, rfl⟩ }

theorem ConfigKept.setLock (s : State) (p : PortIx) {l : Lock}
    (h : l.releaseTime = (s.lock p).releaseTime := by rfl) : ConfigKept s (s.setLock p l) :=
  { ConfigKept.refl s with
    received := ⟨rfl, rfl⟩
    lockTimes := fun q => by
      rw [State.lock_setLock]
      split
      · next e => subst e; exact h
      · rfl }

theorem ConfigKept.recomputeFlat (s : State) (i : FlatIx) : ConfigKept s (s.recomputeFlat i) := by
  unfold State.recomputeFlat
  dsimp only
  split
  · exact .refl s
  · refine ConfigKept.trans ?_ (.emit _ _)
    refine { ConfigKept.refl s with
      received := ⟨rfl, rfl⟩, windows := ⟨rfl, rfl⟩, flats := fun j => ?_ }
    rw [State.flat_setFlat]
    split
    · next e => subst e; rfl
    · rfl

theorem ConfigKept.recomputeFlats (s : State) (w : Flat → Bool) : ConfigKept s (s.recomputeFlats w) :=
  .foldl _ ConfigKept.recomputeFlat _ s

/-! ## Operations of a riser controller -/

theorem Riser.modifyStation_hostSettings (x : Riser) (a : Nat) (f : Station → Station) :
    x.HostSettings (x.modifyStation a f) := by
  unfold Riser.modifyStation; split <;> exact ⟨rfl, rfl, rfl, rfl⟩

theorem ConfigKept.startIdle (s : State) (x : RiserIx) : ConfigKept s (s.startIdle x) := by
  unfold State.startIdle
  split
  · exact .modifyRiser s x
  · exact .refl s

theorem ConfigKept.enterActive (s : State) (x : RiserIx) : ConfigKept s (s.enterActive x) :=
  .modifyRiser s x

theorem ConfigKept.setStationPrivacy (s : State) (x : RiserIx) (a : Nat) (v : Bool) :
    ConfigKept s (s.setStationPrivacy x a v) := by
  unfold State.setStationPrivacy
  split
  · exact .refl s
  · exact (ConfigKept.modifyRiser s x fun y => y.modifyStation_hostSettings a _).trans
      (.recomputeFlats ..)

theorem ConfigKept.stationHeard (s : State) (x : RiserIx) (a : Nat) :
    ConfigKept s (s.stationHeard x a) := by
  have h := ConfigKept.modifyRiser s x (f := fun y => y.modifyStation a fun t =>
    { t with presence := .present }) fun y => y.modifyStation_hostSettings a _
  unfold State.stationHeard
  dsimp only
  split
  · exact h.trans (.emit ..)
  · exact h

theorem ConfigKept.stationLost (s : State) (x : RiserIx) (a : Nat) :
    ConfigKept s (s.stationLost x a) := by
  have h := ConfigKept.modifyRiser s x (f := fun y => y.modifyStation a fun t =>
    { t with presence := .absent }) fun y => y.modifyStation_hostSettings a _
  unfold State.stationLost
  refine ConfigKept.trans ?_ (.setStationPrivacy ..)
  split
  · exact h.trans (.emit ..)
  · exact h

theorem ConfigKept.forgetStations (s : State) (x : RiserIx) : ConfigKept s (s.forgetStations x) := by
  unfold State.forgetStations State.riserFlagsCleared
  exact (ConfigKept.modifyRiser s x).trans (.recomputeFlats ..)

theorem ConfigKept.flushRiser (s : State) (x : RiserIx) : ConfigKept s (s.flushRiser x) := by
  have request : ∀ (t : State) (o : Outstanding), ConfigKept t (t.completeOutstandingFaulted o) :=
    fun t o => by
      unfold State.completeOutstandingFaulted
      split
      · exact .of_moves (completeFaulted_moves ..)
      · exact .refl t
  have entry : ∀ (t : State) (i : QueueItem), ConfigKept t (State.flushEntry x t i) := fun t i => by
    unfold State.flushEntry
    split
    · exact .refl t
    · exact .of_settled (syncDone_settled ..)
    · split
      · exact .refl t
      · exact .of_moves (completeFaulted_moves ..)
    · exact .refl t
  unfold State.flushRiser
  exact ((ConfigKept.foldl _ request _ s).trans (.foldl _ entry _ _)).trans
    (.modifyRiser _ x)

theorem ConfigKept.failRiser (s : State) (x : RiserIx) (l : LinkState) (c : RiserCause)
    (why : EndReason) : ConfigKept s (s.failRiser x l c why) :=
  (((ConfigKept.modifyRiser s x).trans (.flushRiser ..)).trans
    (.emit ..)).trans ((ConfigKept.of_moves (failCalls_moves ..)).trans (.forgetStations ..))

theorem ConfigKept.settle (s : State) : ConfigKept s s.settle := .of_settled (settle_settled s)
theorem ConfigKept.settleLinks (s : State) : ConfigKept s s.settleLinks :=
  .of_settled (settleLinks_settled s)
theorem ConfigKept.settleLine (s : State) (x : RiserIx) : ConfigKept s (s.settleLine x) :=
  .of_settled ((settleRiser_settled s x).trans (settleHost_settled _))

theorem ConfigKept.overrunFirst (s : State) (x : RiserIx) : ConfigKept s (s.overrunFirst x) := by
  unfold State.overrunFirst
  split
  · exact ((ConfigKept.failRiser ..).trans (.enterActive ..)).trans (.settle _)
  · exact .refl s

theorem ConfigKept.takeStationFrame (s : State) (x : RiserIx) (a : Nat) (v : Bool) :
    ConfigKept s (s.takeStationFrame x a v) := by
  have h1 := ConfigKept.modifyRiser s x (f := fun y => { y with receiving := none })
  have h2 : ∀ t : State, ConfigKept s t → ConfigKept s
      (if v then (t.stationHeard x a).startIdle x else t.stationHeard x a) := fun t h => by
    split
    · exact (h.trans (.stationHeard ..)).trans (.startIdle ..)
    · exact h.trans (.stationHeard ..)
  unfold State.takeStationFrame
  refine h2 _ ?_
  split
  · exact h1.trans (.enterActive ..)
  · exact h1

theorem ConfigKept.badStationFrame (s : State) (x : RiserIx) : ConfigKept s (s.badStationFrame x) :=
  (ConfigKept.modifyRiser s x).trans (.settleLine ..)

theorem ConfigKept.onStationFrame (s : State) (x : RiserIx) (a : Nat) {act : State → State}
    (h : ∀ t, ConfigKept t (act t)) : ConfigKept s (s.onStationFrame x a act) := by
  unfold State.onStationFrame
  dsimp only
  split
  · exact .overrunFirst ..
  · split
    · exact ((ConfigKept.overrunFirst ..).trans (h _)).trans (.settle _)
    · exact (ConfigKept.overrunFirst ..).trans (.badStationFrame ..)

theorem ConfigKept.endTransmission (s : State) (x : RiserIx) (tx : RiserTx) :
    ConfigKept s (s.endTransmission x tx) := by
  unfold State.endTransmission
  split
  · exact (ConfigKept.modifyRiser s x).trans (.startIdle ..)
  · dsimp only
    split
    · exact .modifyRiser s x
    · exact (ConfigKept.modifyRiser s x).trans (.startIdle ..)
  · dsimp only
    split
    · exact .modifyRiser s x
    · exact (ConfigKept.modifyRiser s x).trans (.startIdle ..)
  · exact .modifyRiser s x

theorem ConfigKept.lineSense (s : State) (x : RiserIx) (c : LineCondition) :
    ConfigKept s (s.lineSense x c) := by
  have record := ConfigKept.modifyRiser s x (f := fun y => { y with line := c })
  unfold State.lineSense
  dsimp only
  split
  · exact record
  · split
    · exact (record.trans (.enterActive ..)).trans (.emit ..)
    · exact record
  · split
    · exact record
    · exact (ConfigKept.modifyRiser s x).trans (.failRiser ..)

theorem ConfigKept.surveyPoll (s : State) (x : RiserIx) : ConfigKept s (s.surveyPoll x) := by
  have h := ConfigKept.of_moves (solicit_moves s x (.poll (s.riser x).surveyPos))
  unfold State.surveyPoll
  split
  · split
    · next e =>
      rw [e] at h
      exact h.trans (.modifyRiser _ x)
    · next e => rw [e] at h; exact h
  · exact .refl s

theorem ConfigKept.takeReply (s : State) (x : RiserIx) (a tag res v : Nat) :
    ConfigKept s (s.takeReply x a tag res v) := by
  unfold State.takeReply
  split
  · exact .takeStationFrame ..
  · next o _ =>
    have h : ∀ b, ConfigKept s (((s.takeStationFrame x a b).setStationPrivacy x a
        (privacyLevel v)).modifyRiser x fun y => y.dropRequest tag) := fun b =>
      ((ConfigKept.takeStationFrame ..).trans (.setStationPrivacy ..)).trans
        (.modifyRiser _ x)
    dsimp only
    split
    · exact (h _).trans (.of_moves (complete_moves ..))
    · exact h _

theorem ConfigKept.secondAttempt (s : State) (x : RiserIx) (o : Outstanding) :
    ConfigKept s (s.secondAttempt x o) := by
  unfold State.secondAttempt
  split
  · exact .modifyRiser s x
  · exact .modifyRiser s x

theorem ConfigKept.noReply (s : State) (x : RiserIx) (o : Outstanding) :
    ConfigKept s (s.noReply x o) := by
  have drop := ConfigKept.modifyRiser s x (f := fun y => y.dropRequest o.tag)
  have lost : ∀ (b : Bool) (a : Nat), ConfigKept s (if b then s.modifyRiser x (fun y => y.dropRequest o.tag)
      else (s.modifyRiser x fun y => y.dropRequest o.tag).stationLost x a) := fun b a => by
    split
    · exact drop
    · exact drop.trans (.stationLost ..)
  unfold State.noReply
  dsimp only
  split
  · exact (lost ..).trans (.of_moves (complete_moves ..))
  · exact lost ..

/-! ## Doors -/

theorem ConfigKept.releaseRequest (s : State) (r : Ref) (p : PortIx) (h : Option (FlatIx × Nat)) :
    ConfigKept s (s.releaseRequest r p h).1 := by
  have opened := ConfigKept.setLock s p (l := { s.lock p with
    state := .released, claim := some (.call r), timer := some (s.inSeconds (s.lock p).releaseTime) }) rfl
  unfold State.releaseRequest
  split
  · exact .refl s
  · dsimp only
    split
    · exact .emit ..
    · split
      · exact (opened.trans (.emit ..)).trans (.of_moves (.one (.display ..)))
      · split
        · exact opened.trans (.of_moves (.one (.display ..)))
        · exact .refl s

theorem ConfigKept.handsetDoor (s : State) (x : RiserIx) (a : Nat) :
    ConfigKept s (s.handsetDoor x a) := by
  unfold State.handsetDoor
  split
  · split
    · exact (ConfigKept.releaseRequest ..).trans (.of_moves (advise_moves ..))
    · exact .of_moves (advise_moves ..)
  · exact .of_moves (advise_moves ..)

/-! ## Panels -/

theorem panelFrameEnd_callEventKept (s : State) (p : PortIx) : CallEventKept s (s.panelFrameEnd p) :=
  .of_blocks rfl rfl rfl rfl rfl rfl rfl rfl rfl ⟨rfl, rfl⟩
    (s.port_modifyPort_settings p fun _ => ⟨rfl, rfl, rfl, rfl⟩) fun _ => .refl _

/-- A panel's frame whose act is a call's, and which looks at free lines at its end. -/
theorem onPanelFrame_callEventKept (s : State) (p : PortIx) (f : PortFunction)
    {settle act : State → State} (hs : ∀ t, Settled t (settle t)) (ha : ∀ t, CallMoves t (act t)) :
    CallEventKept s (s.onPanelFrame p f settle act) := by
  have h := panelFrameEnd_callEventKept s p
  unfold State.onPanelFrame
  dsimp only
  split
  · exact (h.trans (ha _).callEventKept).trans (hs _).callEventKept
  · exact h

/-- The expiry of a call timer whose rule is a call's. -/
theorem onExpiry_callEventKept (s : State) (r : Ref) (k : TimerKind) {act : State → Call → State}
    (ha : ∀ t c, CallMoves t (act t c)) : CallEventKept s (s.onExpiry r k act) := by
  unfold State.onExpiry
  split
  · exact .refl s
  · split
    · exact .refl s
    · split
      · exact (((advanceTo_callEventKept ..).trans (setCall_moves ..).callEventKept).trans
          (ha _ _).callEventKept).trans (settle_settled _).callEventKept
      · exact .refl s

/-- A panel's frame, of whatever function, whose act keeps what the host has set. -/
theorem onPanelFrame_configKept (s : State) (p : PortIx) (f : PortFunction)
    {settle act : State → State} (hs : ∀ t, Settled t (settle t)) (ha : ∀ t, ConfigKept t (act t)) :
    ConfigKept s (s.onPanelFrame p f settle act) := by
  have h := (panelFrameEnd_callEventKept s p).config
  unfold State.onPanelFrame
  dsimp only
  split
  · exact (h.trans (ha _)).trans (.of_settled (hs _))
  · exact h

/-! ## Every command of the two groups -/

/-- A call's change behind a condition. -/
theorem CallMoves.guarded {s t : State} {b : Prop} [Decidable b] (m : CallMoves s t) :
    CallMoves s (if b then t else s) := by
  split
  · exact m
  · exact .refl _

theorem panelCall_kept (p : PortIx) (code : Nat) (s : State) :
    CallEventKept s (s.after (exec (.panelCall p code) s)) := by
  simp only [exec, execPanelCall, State.after]
  exact onPanelFrame_callEventKept s p _ settle_settled fun u => (startCall_moves ..).guarded

theorem panelConcierge_kept (p : PortIx) (s : State) :
    CallEventKept s (s.after (exec (.panelConcierge p) s)) := by
  simp only [exec, execPanelConcierge, State.after]
  exact onPanelFrame_callEventKept s p _ settleLinks_settled fun u => startCall_moves ..

theorem panelCancel_kept (p : PortIx) (s : State) :
    CallEventKept s (s.after (exec (.panelCancel p) s)) := by
  simp only [exec, execPanelCancel, State.after]
  refine onPanelFrame_callEventKept s p _ settle_settled fun u => ?_
  split
  · exact endCall_moves ..
  · exact .refl u

theorem deskDial_kept (p : PortIx) (code : Nat) (s : State) :
    CallEventKept s (s.after (exec (.deskDial p code) s)) := by
  simp only [exec, execDeskDial, State.after]
  exact onPanelFrame_callEventKept s p _ settle_settled fun u => (startCall_moves ..).guarded

theorem deskAnswer_kept (p : PortIx) (s : State) :
    CallEventKept s (s.after (exec (.deskAnswer p) s)) := by
  simp only [exec, execDeskAnswer, State.after]
  refine onPanelFrame_callEventKept s p _ settleLinks_settled fun u => ?_
  split
  · exact (deskAnswer_moves ..).guarded
  · exact .one (.display ..)

theorem deskClear_kept (p : PortIx) (s : State) :
    CallEventKept s (s.after (exec (.deskClear p) s)) := by
  simp only [exec, execDeskClear, State.after]
  refine onPanelFrame_callEventKept s p _ settle_settled fun u => ?_
  split
  · exact (endCall_moves ..).guarded
  · exact endCall_moves ..
  · exact .refl u

theorem deskForward_kept (p : PortIx) (s : State) :
    CallEventKept s (s.after (exec (.deskForward p) s)) := by
  simp only [exec, execDeskForward, State.after]
  refine onPanelFrame_callEventKept s p _ settle_settled fun u => ?_
  split
  · split
    · split
      · exact forward_moves ..
      · exact .one (.display ..)
    · exact .one (.display ..)
  · exact .one (.display ..)

theorem pathWaitExpiry_kept (r : Ref) (s : State) :
    CallEventKept s (s.after (exec (.pathWaitExpiry r) s)) := by
  simp only [exec, execPathWaitExpiry, State.after]
  exact onExpiry_callEventKept s r .pathWait fun u c =>
    (CallMoves.one (.queuesLeft u r)).trans (endCall_moves ..)

theorem ringExpiry_kept (r : Ref) (s : State) :
    CallEventKept s (s.after (exec (.ringExpiry r) s)) := by
  simp only [exec, execRingExpiry, State.after]
  refine onExpiry_callEventKept s r .ring fun u c => ?_
  split
  · exact divert_moves ..
  · exact endCall_moves ..

theorem deskRingExpiry_kept (r : Ref) (s : State) :
    CallEventKept s (s.after (exec (.deskRingExpiry r) s)) := by
  simp only [exec, execDeskRingExpiry, State.after]
  exact onExpiry_callEventKept s r .deskRing fun u c => endCall_moves ..

theorem talkExpiry_kept (r : Ref) (s : State) :
    CallEventKept s (s.after (exec (.talkExpiry r) s)) := by
  simp only [exec, execTalkExpiry, State.after]
  exact onExpiry_callEventKept s r .talk fun u c => endCall_moves ..

theorem deskDoor_kept (p : PortIx) (s : State) :
    ConfigKept s (s.after (exec (.deskDoor p) s)) := by
  simp only [exec, execDeskDoor, State.after]
  refine onPanelFrame_configKept s p _ settleLinks_settled fun u => ?_
  have shown : ∀ {v : State} d, ConfigKept u v → ConfigKept u (v.display p d) := fun d h =>
    h.trans (.of_moves (.one (.display ..)))
  split
  · split
    · exact shown _ (.releaseRequest ..)
    · exact shown _ (.refl u)
  · exact shown _ (.refl u)

theorem panelFrameDiscard_kept (p : PortIx) (s : State) :
    ConfigKept s (s.after (exec (.panelFrameDiscard p) s)) := (panelFrameEnd_callEventKept s p).config

theorem panelRxTimeout_kept (p : PortIx) (s : State) :
    ConfigKept s (s.after (exec (.panelRxTimeout p) s)) := by
  simp only [exec, execPanelRxTimeout, State.after]
  split
  · exact ((panelFrameEnd_callEventKept s p).trans (advanceTo_callEventKept ..)).config
  · exact .refl s

theorem panelPresent_kept (p : PortIx) (s : State) :
    ConfigKept s (s.after (exec (.panelPresent p) s)) := by
  simp only [exec, execPanelPresent, State.after]
  split
  · exact .refl s
  · exact (((ConfigKept.modifyPort s p).trans (.emit ..)).trans
      (.of_moves ((CallMoves.one (.display ..)).after (.ring ..)))).trans (.settleLinks _)

theorem panelAbsent_kept (p : PortIx) (s : State) :
    ConfigKept s (s.after (exec (.panelAbsent p) s)) := by
  simp only [exec, execPanelAbsent, State.after]
  split
  · have lost := (ConfigKept.modifyPort s p (f := Port.goAbsent) fun _ => ⟨rfl, rfl⟩).trans
      (.emit _ (.panelChange p (s.port p).function false true))
    refine ConfigKept.trans ?_ (.settle _)
    split
    · exact lost.trans (.of_moves (endCall_moves ..))
    · exact lost
  · exact .refl s

theorem panelTxEnd_kept (p : PortIx) (s : State) :
    ConfigKept s (s.after (exec (.panelTxEnd p) s)) := by
  have started : ∀ x : Port, (Port.startTransmission { x with tx := none }).function = x.function ∧
      (Port.startTransmission { x with tx := none }).intercept = x.intercept := fun x =>
    ⟨(Port.startTransmission_settled { x with tx := none }).settings.1,
      (Port.startTransmission_settled { x with tx := none }).settings.2.1⟩
  simp only [exec, execPanelTxEnd, State.after]
  split
  · exact .refl s
  · exact .modifyPort s p started

theorem riserTxEnd_kept (x : RiserIx) (s : State) :
    ConfigKept s (s.after (exec (.riserTxEnd x) s)) := by
  simp only [exec, execRiserTxEnd, State.after]
  split
  · exact ((ConfigKept.overrunFirst s x).trans (.endTransmission ..)).trans (.settleLine ..)
  · exact .overrunFirst s x

theorem stationReply_kept (x : RiserIx) (a b c d : Nat) (s : State) :
    ConfigKept s (s.after (exec (.stationReply x a b c d) s)) := by
  simp only [exec, execStationReply, State.after]
  exact .onStationFrame s x a fun u => .takeReply u ..

theorem stationLift_kept (x : RiserIx) (a : Nat) (s : State) :
    ConfigKept s (s.after (exec (.stationLift x a) s)) := by
  simp only [exec, execStationLift, State.after]
  exact .onStationFrame s x a fun u => (ConfigKept.takeStationFrame ..).trans (.of_moves (lift_moves ..))

theorem stationHangup_kept (x : RiserIx) (a : Nat) (s : State) :
    ConfigKept s (s.after (exec (.stationHangup x a) s)) := by
  simp only [exec, execStationHangup, State.after]
  exact .onStationFrame s x a fun u => (ConfigKept.takeStationFrame ..).trans (.of_moves (hangup_moves ..))

theorem stationDoor_kept (x : RiserIx) (a : Nat) (s : State) :
    ConfigKept s (s.after (exec (.stationDoor x a) s)) := by
  simp only [exec, execStationDoor, State.after]
  exact .onStationFrame s x a fun u => (ConfigKept.takeStationFrame ..).trans (.handsetDoor ..)

theorem stationPrivacyOn_kept (x : RiserIx) (a : Nat) (s : State) :
    ConfigKept s (s.after (exec (.stationPrivacyOn x a) s)) := by
  simp only [exec, execStationPrivacyOn, State.after]
  exact .onStationFrame s x a fun u => (ConfigKept.takeStationFrame ..).trans (.setStationPrivacy ..)

theorem stationPrivacyOff_kept (x : RiserIx) (a : Nat) (s : State) :
    ConfigKept s (s.after (exec (.stationPrivacyOff x a) s)) := by
  simp only [exec, execStationPrivacyOff, State.after]
  exact .onStationFrame s x a fun u => (ConfigKept.takeStationFrame ..).trans (.setStationPrivacy ..)

theorem riserBadFrame_kept (x : RiserIx) (s : State) :
    ConfigKept s (s.after (exec (.riserBadFrame x) s)) := by
  simp only [exec, execRiserBadFrame, State.after]
  exact (ConfigKept.overrunFirst s x).trans (.badStationFrame ..)

theorem unknownStationFrame_kept (x : RiserIx) (a k : Nat) (s : State) :
    ConfigKept s (s.after (exec (.unknownStationFrame x a k) s)) := by
  simp only [exec, execUnknownStationFrame, State.after]
  refine ConfigKept.onStationFrame s x a fun u => ?_
  split
  · exact .badStationFrame ..
  · split
    · exact (ConfigKept.takeStationFrame ..).trans (.of_moves (advise_moves ..))
    · exact .takeStationFrame ..

theorem riserRxTimeout_kept (x : RiserIx) (s : State) :
    ConfigKept s (s.after (exec (.riserRxTimeout x) s)) := by
  simp only [exec, execRiserRxTimeout, State.after]
  split
  · exact ((ConfigKept.overrunFirst s x).trans (advanceTo_callEventKept ..).config).trans
      (.badStationFrame ..)
  · exact .overrunFirst s x

theorem replyTimeout_kept (x : RiserIx) (tag : Nat) (s : State) :
    ConfigKept s (s.after (exec (.replyTimeout x tag) s)) := by
  simp only [exec, execReplyTimeout, State.after]
  split
  · exact .overrunFirst s x
  · split
    · exact .overrunFirst s x
    · next e _ =>
      have due := (ConfigKept.overrunFirst s x).trans (advanceTo_callEventKept _ e).config
      refine ConfigKept.trans ?_ (.settle _)
      split
      · exact due.trans (.secondAttempt ..)
      · exact due.trans (.noReply ..)

theorem idleTimeout_kept (x : RiserIx) (s : State) :
    ConfigKept s (s.after (exec (.idleTimeout x) s)) := by
  simp only [exec, execIdleTimeout, State.after]
  split
  · exact (((ConfigKept.overrunFirst s x).trans (advanceTo_callEventKept _ _).config).trans
      (.modifyRiser _ x)).trans (.settleLine ..)
  · exact .overrunFirst s x

theorem wakeTimeout_kept (x : RiserIx) (s : State) :
    ConfigKept s (s.after (exec (.wakeTimeout x) s)) := by
  simp only [exec, execWakeTimeout, State.after]
  split
  · exact (((ConfigKept.overrunFirst s x).trans (advanceTo_callEventKept _ _).config).trans
      (.enterActive ..)).trans (.settleLine ..)
  · exact .overrunFirst s x

theorem surveyStep_kept (x : RiserIx) (s : State) :
    ConfigKept s (s.after (exec (.surveyStep x) s)) := by
  simp only [exec, execSurveyStep, State.after]
  split
  · exact ((((ConfigKept.overrunFirst s x).trans (advanceTo_callEventKept _ _).config).trans
      (.modifyRiser _ x)).trans (.surveyPoll ..)).trans (.settleLine ..)
  · exact .overrunFirst s x

theorem lineReport_kept (x : RiserIx) (c : LineCondition) (s : State) :
    ConfigKept s ((s.overrunFirst x).lineSense x c).settle :=
  ((ConfigKept.overrunFirst s x).trans (.lineSense ..)).trans (.settle _)

theorem lineFault_kept (x : RiserIx) (c : LineCondition) (s : State) :
    ConfigKept s (s.after (exec (.lineFault x c) s)) := by
  simp only [exec, execLineFault, State.after]
  exact lineReport_kept x c s

theorem lineRestored_kept (x : RiserIx) (s : State) :
    ConfigKept s (s.after (exec (.lineRestored x) s)) := by
  simp only [exec, execLineRestored, State.after]
  exact lineReport_kept x .good s

theorem lineConditionChange_kept (x : RiserIx) (c : LineCondition) (s : State) :
    ConfigKept s (s.after (exec (.lineConditionChange x c) s)) := by
  simp only [exec, execLineConditionChange, State.after]
  exact lineReport_kept x c s

theorem releaseTimerExpiry_kept (p : PortIx) (s : State) :
    ConfigKept s (s.after (exec (.releaseTimerExpiry p) s)) := by
  simp only [exec, execReleaseTimerExpiry, State.after]
  split
  · exact (((advanceTo_callEventKept _ _).config.trans (.setLock _ p)).trans (.emit ..)).trans
      (.settleLinks _)
  · exact .refl s

/-- Settles O17: command by command, each from what its operations keep. -/
theorem eventsKeepOtherBlocks : Obligations.EventsKeepOtherBlocks := by
  constructor <;> intro c s t e h
  · have call : CallEventKept s (s.after (exec c s)) → ConfigKept s t := fun k => by
      rw [e] at k; exact k.config
    have ran : ConfigKept s (s.after (exec c s)) → ConfigKept s t := fun k => by rwa [e] at k
    cases c
    case panelCall p n => exact call (panelCall_kept p n s)
    case panelConcierge p => exact call (panelConcierge_kept p s)
    case panelCancel p => exact call (panelCancel_kept p s)
    case deskDial p n => exact call (deskDial_kept p n s)
    case deskAnswer p => exact call (deskAnswer_kept p s)
    case deskClear p => exact call (deskClear_kept p s)
    case deskForward p => exact call (deskForward_kept p s)
    case pathWaitExpiry r => exact call (pathWaitExpiry_kept r s)
    case ringExpiry r => exact call (ringExpiry_kept r s)
    case deskRingExpiry r => exact call (deskRingExpiry_kept r s)
    case talkExpiry r => exact call (talkExpiry_kept r s)
    case deskDoor p => exact ran (deskDoor_kept p s)
    case panelFrameDiscard p => exact ran (panelFrameDiscard_kept p s)
    case panelRxTimeout p => exact ran (panelRxTimeout_kept p s)
    case panelPresent p => exact ran (panelPresent_kept p s)
    case panelAbsent p => exact ran (panelAbsent_kept p s)
    case panelTxEnd p => exact ran (panelTxEnd_kept p s)
    case riserTxEnd x => exact ran (riserTxEnd_kept x s)
    case stationReply x a b c d => exact ran (stationReply_kept x a b c d s)
    case stationLift x a => exact ran (stationLift_kept x a s)
    case stationHangup x a => exact ran (stationHangup_kept x a s)
    case stationDoor x a => exact ran (stationDoor_kept x a s)
    case stationPrivacyOn x a => exact ran (stationPrivacyOn_kept x a s)
    case stationPrivacyOff x a => exact ran (stationPrivacyOff_kept x a s)
    case unknownStationFrame x a k => exact ran (unknownStationFrame_kept x a k s)
    case riserBadFrame x => exact ran (riserBadFrame_kept x s)
    case riserRxTimeout x => exact ran (riserRxTimeout_kept x s)
    case replyTimeout x n => exact ran (replyTimeout_kept x n s)
    case idleTimeout x => exact ran (idleTimeout_kept x s)
    case wakeTimeout x => exact ran (wakeTimeout_kept x s)
    case surveyStep x => exact ran (surveyStep_kept x s)
    case lineFault x c => exact ran (lineFault_kept x c s)
    case lineRestored x => exact ran (lineRestored_kept x s)
    case lineConditionChange x c => exact ran (lineConditionChange_kept x c s)
    case overrun x => exact ran (ConfigKept.overrunFirst s x)
    case releaseTimerExpiry p => exact ran (releaseTimerExpiry_kept p s)
    all_goals exact h.elim
  · have ran : CallEventKept s (s.after (exec c s)) → CallEventKept s t := fun k => by rwa [e] at k
    cases c
    case panelCall p n => exact ran (panelCall_kept p n s)
    case panelConcierge p => exact ran (panelConcierge_kept p s)
    case panelCancel p => exact ran (panelCancel_kept p s)
    case deskDial p n => exact ran (deskDial_kept p n s)
    case deskAnswer p => exact ran (deskAnswer_kept p s)
    case deskClear p => exact ran (deskClear_kept p s)
    case deskForward p => exact ran (deskForward_kept p s)
    case pathWaitExpiry r => exact ran (pathWaitExpiry_kept r s)
    case ringExpiry r => exact ran (ringExpiry_kept r s)
    case deskRingExpiry r => exact ran (deskRingExpiry_kept r s)
    case talkExpiry r => exact ran (talkExpiry_kept r s)
    all_goals exact h.elim

end Sys2Proof.Machine
end

