-- ==== Sys2Proof/Proofs/FramesGiven.lean ====
section
/-!
SUPPORT. What a riser controller is left with when waiting OFFERs have been withdrawn and frames have been
given to it, one by one (R75, R77, R83, R84): the relation that each such change extends, and `FramesGiven`
from it once the free lines have been looked at.
-/

namespace Sys2Proof.Machine

/-- A queue entry that is not in transmission. -/
def QueueEntry.waiting (e : QueueEntry) : QueueItem := { entry := e, sending := false }

/-- R84: a queue without the waiting OFFERs of a call to these stations. -/
def withoutOffers (r : Ref) (stations : List Nat) (q : List QueueItem) : List QueueItem :=
  stations.foldl (fun q a => q.eraseP fun i => i.isWaitingOffer a r) q

/-- R84: the OFFER of a call to a station taken out of a riser's queue. -/
def Riser.dropOffer (x : Riser) (a : Nat) (r : Ref) : Riser :=
  { x with queue := x.queue.eraseP fun i => i.isWaitingOffer a r }

/-- R75, R77: a frame at the tail of a riser's queue, and the wake it starts. -/
def Riser.enqueue (x : Riser) (now : Nat) (e : QueueEntry) : Riser :=
  let y := { x with queue := x.queue ++ [e.waiting] }
  if y.link = .quiet then { y with link := .waking, wakeTimer := some (now + 200) } else y

/-- R83: what the queuing of a frame marks. -/
def Riser.markFor (x : Riser) (now : Nat) (e : QueueEntry) : Riser :=
  match e with
  | .advisory (.cancel a _ (some c)) => x.markCancel (now + 250) a c
  | _ => x

/-- R75, R77, R83: a riser that has been given a frame. -/
def Riser.give (x : Riser) (now : Nat) (e : QueueEntry) : Riser := (x.enqueue now e).markFor now e

/-- What withdrawing the waiting OFFERs of a call to some stations, and then frames given in order, have
made of a riser. -/
structure Riser.Given (x y : Riser) (now : Nat) (r : Ref) (ws : List Nat) (es : List QueueEntry) :
    Prop where
  queue       : y.queue = withoutOffers r ws x.queue ++ es.map QueueEntry.waiting
  outstanding : (x.outstanding.map fun o => o.tag).Nodup → y.outstanding = x.requestsGiven now es
  resends     : (x.outstanding.map fun o => o.tag).Nodup → y.resends = x.resendsGiven es
  tx          : y.tx = x.tx
  overrunDue  : y.overrunDue = x.overrunDue
  link        : y.link = if x.link = .quiet ∧ es ≠ [] then .waking else x.link
  wakeTimer   : x.link = .quiet → es ≠ [] → y.wakeTimer = some (now + 200)

/-! ## One frame -/

theorem Riser.enqueue_eq (x : Riser) (now : Nat) (e : QueueEntry) : x.enqueue now e =
    { x with
      queue := x.queue ++ [e.waiting]
      link := if x.link = .quiet then .waking else x.link
      wakeTimer := if x.link = .quiet then some (now + 200) else x.wakeTimer } := by
  unfold Riser.enqueue
  dsimp only
  split <;> rfl

theorem any_never {α : Type} (l : List α) : (l.any fun _ => false) = false := by
  induction l with
  | nil => rfl
  | cons _ _ ih => exact ih

/-- A CANCEL that names a call is the one frame that marks requests. -/
theorem Riser.markFor_eq (x : Riser) (now : Nat) (e : QueueEntry) : x.markFor now e =
    { x with
      outstanding := x.outstanding.map fun o =>
        if e.cancels o.frame then
          { o with
            cancelPending := true
            timer := if o.tag ∈ x.resends then some (now + 250) else o.timer }
        else o
      resends := x.resends.filter fun t =>
        !(x.outstanding.any fun o => decide (o.tag = t) && e.cancels o.frame) } := by
  unfold Riser.markFor
  split
  · next a _ c =>
    unfold Riser.markCancel
    simp only [QueueEntry.cancels, List.contains_iff_mem]
    congr! 4
  · next h =>
    have none : ∀ f, e.cancels f = false := fun f => by
      unfold QueueEntry.cancels
      split
      · exact absurd rfl (h _ _ _)
      · rfl
    simp [none, any_never]

theorem Riser.Given.same {x y : Riser} (queue : y.queue = x.queue)
    (outstanding : y.outstanding = x.outstanding) (resends : y.resends = x.resends) (tx : y.tx = x.tx)
    (overrunDue : y.overrunDue = x.overrunDue) (link : y.link = x.link) (now : Nat) (r : Ref) :
    x.Given y now r [] [] where
  queue := by simpa [withoutOffers] using queue
  outstanding _ := by simpa [Riser.requestsGiven] using outstanding
  resends _ := by simpa [Riser.resendsGiven, any_never] using resends
  tx := tx
  overrunDue := overrunDue
  link := by simpa using link
  wakeTimer _ h := absurd rfl h

theorem Riser.Given.refl (x : Riser) (now : Nat) (r : Ref) : x.Given x now r [] [] :=
  .same rfl rfl rfl rfl rfl rfl now r

/-- A change of fields that the relation does not speak of. -/
theorem Riser.Given.congr {x y z : Riser} {now : Nat} {r : Ref} {ws : List Nat}
    {es : List QueueEntry} (h : x.Given y now r ws es) (queue : z.queue = y.queue)
    (outstanding : z.outstanding = y.outstanding) (resends : z.resends = y.resends)
    (tx : z.tx = y.tx) (overrunDue : z.overrunDue = y.overrunDue) (link : z.link = y.link)
    (wakeTimer : z.wakeTimer = y.wakeTimer) : x.Given z now r ws es where
  queue := queue.trans h.queue
  outstanding u := outstanding.trans (h.outstanding u)
  resends u := resends.trans (h.resends u)
  tx := tx.trans h.tx
  overrunDue := overrunDue.trans h.overrunDue
  link := link.trans h.link
  wakeTimer q n := wakeTimer.trans (h.wakeTimer q n)

/-- Requests of different tags are different requests. -/
theorem eq_of_tag_eq {l : List Outstanding} (h : (l.map fun o => o.tag).Nodup) {o q : Outstanding}
    (ho : o ∈ l) (hq : q ∈ l) (e : o.tag = q.tag) : o = q :=
  List.inj_on_of_nodup_map h ho hq e

/-- The marks of a list of frames, with one more frame. -/
theorem Riser.requestsGiven_snoc (x : Riser) (now : Nat) (es : List QueueEntry) (e : QueueEntry)
    (h : (x.outstanding.map fun o => o.tag).Nodup) :
    x.requestsGiven now (es ++ [e]) = (x.requestsGiven now es).map fun o =>
      if e.cancels o.frame then
        { o with
          cancelPending := true
          timer := if o.tag ∈ x.resendsGiven es then some (now + 250) else o.timer }
      else o := by
  unfold Riser.requestsGiven
  rw [List.map_map]
  refine List.map_congr_left fun o ho => ?_
  have kept : o.tag ∈ x.resendsGiven es ↔
      o.tag ∈ x.resends ∧ ¬ (es.any fun e => e.cancels o.frame) = true := by
    simp only [Riser.resendsGiven, List.mem_filter, Bool.not_eq_true', List.any_eq_false,
      Bool.and_eq_true, decide_eq_true_eq, not_and]
    constructor
    · rintro ⟨m, n⟩
      exact ⟨m, n o ho rfl⟩
    · rintro ⟨m, n⟩
      refine ⟨m, fun q hq t => ?_⟩
      obtain rfl := eq_of_tag_eq h hq ho t
      exact n
  simp only [Function.comp_def, List.any_append, List.any_cons, List.any_nil, Bool.or_false]
  by_cases ces : (es.any fun e => e.cancels o.frame) = true
  · have sent : o.tag ∉ x.resendsGiven es := fun m => (kept.1 m).2 ces
    simp only [ces, Bool.true_or, if_true, sent, if_false, ite_self]
  · have same : o.tag ∈ x.resendsGiven es ↔ o.tag ∈ x.resends := kept.trans (and_iff_left ces)
    simp only [Bool.not_eq_true] at ces
    simp only [ces, Bool.false_or, Bool.false_eq_true, if_false, same]

theorem Riser.resendsGiven_snoc (x : Riser) (now : Nat) (es : List QueueEntry) (e : QueueEntry) :
    x.resendsGiven (es ++ [e]) = (x.resendsGiven es).filter fun t =>
      !((x.requestsGiven now es).any fun o => decide (o.tag = t) && e.cancels o.frame) := by
  unfold Riser.resendsGiven Riser.requestsGiven
  rw [List.filter_filter]
  refine List.filter_congr fun t _ => ?_
  have frame : ∀ o : Outstanding, (if (es.any fun e => e.cancels o.frame) = true then
      { o with cancelPending := true
               timer := if o.tag ∈ x.resends then some (now + 250) else o.timer }
    else o).frame = o.frame := fun o => by split <;> rfl
  have tag : ∀ o : Outstanding, (if (es.any fun e => e.cancels o.frame) = true then
      { o with cancelPending := true
               timer := if o.tag ∈ x.resends then some (now + 250) else o.timer }
    else o).tag = o.tag := fun o => by split <;> rfl
  rw [Bool.eq_iff_iff]
  simp only [List.any_map, Function.comp_def, frame, tag, List.any_append, List.any_cons, List.any_nil,
    Bool.or_false, Bool.and_eq_true, Bool.not_eq_true', List.any_eq_false, decide_eq_true_eq,
    Bool.or_eq_true, not_and, not_or]
  exact ⟨fun h => ⟨fun o ho t => (h o ho t).2, fun o ho t => (h o ho t).1⟩,
    fun h o ho t => ⟨h.2 o ho t, h.1 o ho t⟩⟩

/-- R75, R77, R83: one more frame. -/
theorem Riser.Given.give {x y : Riser} {now : Nat} {r : Ref} {ws : List Nat} {es : List QueueEntry}
    (h : x.Given y now r ws es) (e : QueueEntry) : x.Given (y.give now e) now r ws (es ++ [e]) := by
  unfold Riser.give
  rw [Riser.markFor_eq, Riser.enqueue_eq]
  refine ⟨?_, fun u => ?_, fun u => ?_, h.tx, h.overrunDue, ?_, fun q _ => ?_⟩
  · simp [h.queue]
  · rw [x.requestsGiven_snoc now es e u, ← h.outstanding u, ← h.resends u]
  · rw [x.resendsGiven_snoc now es e, ← h.outstanding u, ← h.resends u]
  · show (if y.link = .quiet then _ else y.link) = _
    rw [h.link]
    by_cases q : x.link = .quiet <;> by_cases n : es = [] <;> simp [q, n]
  · show (if y.link = .quiet then _ else y.wakeTimer) = _
    by_cases n : es = []
    · rw [if_pos]
      rw [h.link, if_neg (by simp [n]), q]
    · rw [if_neg, h.wakeTimer q n]
      rw [h.link, if_pos ⟨q, n⟩]
      simp

/-! ## Withdrawals -/

theorem withoutOffers_append (r : Ref) (ws vs : List Nat) (q : List QueueItem) :
    withoutOffers r (ws ++ vs) q = withoutOffers r vs (withoutOffers r ws q) :=
  List.foldl_append

theorem withoutOffers_sublist (r : Ref) (ws : List Nat) (q : List QueueItem) :
    (withoutOffers r ws q).Sublist q := by
  induction ws generalizing q with
  | nil => exact List.Sublist.refl q
  | cons a ws ih => exact (ih _).trans List.eraseP_sublist

/-- R84: a withdrawal goes past frames given after the OFFER, none of which is one. -/
theorem Riser.Given.dropOffer {x y : Riser} {now : Nat} {r : Ref} {ws : List Nat}
    {es : List QueueEntry} (h : x.Given y now r ws es) (a : Nat)
    (clear : ∀ e ∈ es, e.waiting.isWaitingOffer a r = false) :
    x.Given (y.dropOffer a r) now r (ws ++ [a]) es := by
  refine ⟨?_, h.outstanding, h.resends, h.tx, h.overrunDue, h.link, h.wakeTimer⟩
  have past : ∀ q : List QueueItem, (q ++ es.map QueueEntry.waiting).eraseP
      (fun i => i.isWaitingOffer a r) =
      (q.eraseP fun i => i.isWaitingOffer a r) ++ es.map QueueEntry.waiting := fun q => by
    rw [List.eraseP_append]
    split
    · rfl
    · next none =>
      rw [List.eraseP_of_forall_not, List.eraseP_of_forall_not]
      · simpa using none
      · simpa [List.any_eq_true] using clear
  show y.queue.eraseP _ = _
  rw [h.queue, past, withoutOffers_append]
  rfl

/-! ## Room (R77) -/

/-- The waiting OFFERs that are there take their places with them when they are withdrawn. -/
theorem withoutOffers_length {x : Riser} {r : Ref} {ws : List Nat} (u : ws.Nodup)
    (h : ∀ a ∈ ws, x.HoldsOffer a r) :
    (withoutOffers r ws x.queue).length + ws.length = x.queue.length := by
  induction ws generalizing x with
  | nil => rfl
  | cons a ws ih =>
    obtain ⟨out, u⟩ := List.nodup_cons.1 u
    have here : ∃ i ∈ x.queue, i.isWaitingOffer a r = true := by
      obtain ⟨k, o, m⟩ := h a (by simp)
      exact ⟨_, m, by simp [QueueItem.isWaitingOffer, Solicited.isOfferOf]⟩
    obtain ⟨i, m, hi⟩ := here
    have shorter := List.length_eraseP_of_mem (p := fun i => i.isWaitingOffer a r) m hi
    have pos : 0 < x.queue.length := List.length_pos_of_mem m
    have rest := ih (x := x.dropOffer a r) u fun b hb => by
      obtain ⟨k, o, m⟩ := h b (by simp [hb])
      refine ⟨k, o, List.mem_eraseP_of_neg ?_ |>.2 m⟩
      have : b ≠ a := fun e => out (e ▸ hb)
      simp [QueueItem.isWaitingOffer, Solicited.isOfferOf, this]
    show (withoutOffers r ws (x.dropOffer a r).queue).length + (ws.length + 1) = _
    have e : (x.dropOffer a r).queue.length = x.queue.length - 1 := shorter
    omega

theorem Riser.Given.length {x y : Riser} {now : Nat} {r : Ref} {ws : List Nat}
    {es : List QueueEntry} (h : x.Given y now r ws es) :
    y.queue.length = (withoutOffers r ws x.queue).length + es.length := by
  simp [h.queue]

theorem Riser.Given.isOff {x y : Riser} {now : Nat} {r : Ref} {ws : List Nat}
    {es : List QueueEntry} (h : x.Given y now r ws es) : y.link.isOff = x.link.isOff := by
  rw [h.link]
  split
  · next q => rw [q.1]; rfl
  · rfl

/-! ## When the free lines have been looked at -/

theorem QueueEntry.frames_waiting {es : List QueueEntry} (h : ∀ e ∈ es, e.isFrame = true) :
    ((es.map QueueEntry.waiting).map fun i => i.entry).filter QueueEntry.isFrame = es := by
  have e : ((es.map QueueEntry.waiting).map fun i => i.entry) = es := by
    simp [Function.comp_def, QueueEntry.waiting]
  rw [e, List.filter_eq_self]
  exact h

theorem RiserSettled.resends_suffix {x y : Riser} (h : RiserSettled x y) : y.resends <:+ x.resends := by
  rcases h.line with h | h
  · rw [h.2.2.1]
  · rcases h.sent with ⟨_, _, h, _⟩ | ⟨_, hx, hy, _⟩ | ⟨_, _, hx, hy, _⟩
    · rw [h]; exact List.suffix_cons ..
    · rw [hx, hy]
    · rw [hx, hy]

/-- R75, R77, R83, R84: what was given stands in the queue, but for a transmission that has started. -/
theorem Riser.Given.framesGiven {x y z : Riser} {now : Nat} {r : Ref} {ws : List Nat}
    {es : List QueueEntry} (h : x.Given y now r ws es) (k : RiserSettled y z)
    (frame : ∀ e ∈ es, e.isFrame = true) : FramesGiven x z now r ws es where
  frames := by
    rw [k.frames, Riser.frames, h.queue, List.map_append, List.filter_append,
      QueueEntry.frames_waiting frame]
    rfl
  requests u := by
    rw [← h.outstanding u, ← h.resends u]
    exact ⟨k.outstanding, k.resends_suffix⟩
  busy u b := by
    have same : y.SameLine z := k.sameLine <| by
      rw [h.tx, h.link]
      rcases b with b | b
      · left
        split
        · simp
        · exact b
      · exact .inr (.inl b)
    rw [← h.outstanding u, ← h.resends u]
    exact ⟨same.2.1, same.2.2.1⟩
  wakes q n := by
    have waking : y.link = .waking := by rw [h.link, if_pos ⟨q, n⟩]
    refine ⟨?_, k.wakeTimer.trans (h.wakeTimer q n)⟩
    rcases k.link with l | l
    · exact l.1.trans waking
    · exact absurd (waking.symm.trans l.1) (by simp)

end Sys2Proof.Machine
end

