-- ==== Sys2Proof/Proofs/OffersTakenBack.lean ====
section
/-!
SUPPORT. The operations that give frames to a riser, in terms of `Riser.Given`: advisories, OFFERs, and the
taking back of offers at a call's end, at its answer and at its divert (R13, R17, R23, R28).
-/

namespace Sys2Proof.Machine

/-! ## Changes of one riser record -/

theorem State.modifyRiser_modifyRiser (s : State) (x : RiserIx) (f g : Riser → Riser) :
    (s.modifyRiser x f).modifyRiser x g = s.modifyRiser x fun y => g (f y) := by
  simp only [State.modifyRiser, Table.write_write, Table.read_write_same]

theorem State.modifyRiser_congr {s : State} {x : RiserIx} {f g : Riser → Riser}
    (h : f (s.riser x) = g (s.riser x)) : s.modifyRiser x f = s.modifyRiser x g :=
  congrArg (fun y => { s with risers := s.risers.write x y }) h

theorem State.modifyRiser_same {s : State} {x : RiserIx} {f : Riser → Riser}
    (h : f (s.riser x) = s.riser x) : s.modifyRiser x f = s :=
  (State.modifyRiser_congr (g := id) h).trans (by simp [State.modifyRiser])

/-- A frame is queued where there is room, and wakes a QUIET riser. -/
theorem offerFrame_room {s : State} {x : RiserIx} (off : (s.riser x).link.isOff = false)
    (place : (s.riser x).noPlace = false) (e : QueueEntry) :
    s.offerFrame x e = (s.modifyRiser x fun y => y.enqueue s.clock e, true) := by
  unfold State.offerFrame State.startWake
  rw [if_neg (by simp [off]), if_neg (by simp [place])]
  refine Prod.ext ?_ rfl
  dsimp only
  split
  · next q =>
    rw [State.modifyRiser_modifyRiser]
    refine State.modifyRiser_congr ?_
    unfold Riser.enqueue
    rw [if_pos (by simpa using q)]
    rfl
  · next q =>
    refine State.modifyRiser_congr ?_
    unfold Riser.enqueue
    rw [if_neg (by simpa using q)]
    rfl

theorem advise_room {s : State} {x : RiserIx} (off : (s.riser x).link.isOff = false)
    (place : (s.riser x).noPlace = false) (f : Advisory) :
    s.advise x f = s.modifyRiser x fun y => y.give s.clock (.advisory f) := by
  unfold State.advise
  rw [offerFrame_room off place]
  dsimp only
  split
  · rw [State.modifyRiser_modifyRiser]
    rfl
  · next h =>
    refine State.modifyRiser_congr ?_
    unfold Riser.give Riser.markFor
    split
    · next e => exact absurd (QueueEntry.advisory.inj e) (h _ _ _)
    · rfl

theorem solicit_room {s : State} {x : RiserIx} (off : (s.riser x).link.isOff = false)
    (place : (s.riser x).noPlace = false) (f : Solicited) :
    (s.solicit x f).1 = s.modifyRiser x fun y => y.give s.clock (.solicited f) := by
  unfold State.solicit
  rw [offerFrame_room off place]
  rfl

/-- R84: the state a withdrawal leaves, whatever its answer. -/
theorem withdraw_state (s : State) (x : RiserIx) (a : Nat) (r : Ref) :
    (s.withdraw x a r).1 = s.modifyRiser x fun y => y.dropOffer a r := by
  unfold State.withdraw
  dsimp only
  split
  · rfl
  · next none =>
    have same : (s.riser x).dropOffer a r = s.riser x := by
      unfold Riser.dropOffer
      rw [List.eraseP_of_forall_not]
      simpa using none
    rw [State.modifyRiser_same same]
    split <;> rfl

/-- R84: an OFFER that waits is withdrawn. -/
theorem withdraw_done {s : State} {x : RiserIx} {a : Nat} {r : Ref}
    (h : (s.riser x).HoldsOffer a r) : (s.withdraw x a r).2 = .done := by
  obtain ⟨k, o, m⟩ := h
  unfold State.withdraw
  dsimp only
  rw [if_pos]
  exact List.any_eq_true.2 ⟨_, m, by simp [QueueItem.isWaitingOffer, Solicited.isOfferOf]⟩

theorem withdrawOffer_queued {s : State} {x : RiserIx} {o : Offer} {r : Ref}
    (q : o.status = .queued) (h : (s.riser x).HoldsOffer o.station r) :
    State.withdrawOffer x r s o = ((s.withdraw x o.station r).1, { o with status := .withdrawn }) := by
  have done := withdraw_done h
  unfold State.withdrawOffer
  rw [q]
  dsimp only
  generalize s.withdraw x o.station r = d at done ⊢
  obtain ⟨u, w⟩ := d
  cases done
  rfl

theorem withdrawOffer_other {s : State} {x : RiserIx} {o : Offer} {r : Ref}
    (q : o.status ≠ .queued) : State.withdrawOffer x r s o = (s, o) := by
  unfold State.withdrawOffer
  split
  · contradiction
  · rfl

theorem cancelOffer_eq (x : RiserIx) (r : Ref) (why : CancelReason) (s : State) (o : Offer) :
    State.cancelOffer x r why s o = if o.status = .sent ∨ o.status = .ringing then
      (s.advise x (.cancel o.station why (some r)), { o with status := .cancelled }) else (s, o) := by
  unfold State.cancelOffer
  cases o.status <;> rfl

/-! ## States that differ in one riser, which has been given frames -/

/-- A state is another one with these OFFERs withdrawn from a riser that was then given these frames. -/
structure Gives (base : Riser) (x : RiserIx) (r : Ref) (ws : List Nat) (es : List QueueEntry)
    (s t : State) : Prop where
  only  : OnlyRiser x s t
  given : base.Given (t.riser x) s.clock r ws es

/-- A riser that works and is not to be emptied. -/
structure Riser.Takes (x : Riser) : Prop where
  on  : x.link.isOff = false
  due : x.overrunDue = false

section
variable {base : Riser} {x : RiserIx} {r : Ref} {ws : List Nat} {es : List QueueEntry} {s t : State}

theorem Gives.refl (x : RiserIx) (r : Ref) (s : State) : Gives (s.riser x) x r [] [] s s :=
  ⟨.refl x s, .refl ..⟩

theorem Gives.modify (h : Gives base x r ws es s t) {f : Riser → Riser} {vs : List Nat}
    {ds : List QueueEntry} (g : base.Given (f (t.riser x)) s.clock r vs ds) :
    Gives base x r vs ds s (t.modifyRiser x f) :=
  ⟨h.only.trans (.modify ..), by rw [State.riser_modifyRiser, if_pos rfl]; exact g⟩

theorem Gives.noPlace (h : Gives base x r ws es s t) (ok : base.Takes)
    (room : (withoutOffers r ws base.queue).length + es.length < 32) :
    (t.riser x).link.isOff = false ∧ (t.riser x).noPlace = false := by
  refine ⟨h.given.isOff.trans ok.on, ?_⟩
  have shorter : (t.riser x).queue.length < 32 := h.given.length ▸ room
  simp [Riser.noPlace, h.given.overrunDue, ok.due, Config.riserQueueRoom, Nat.not_le.2 shorter]

theorem Gives.advise (h : Gives base x r ws es s t) (ok : base.Takes)
    (room : (withoutOffers r ws base.queue).length + es.length < 32) (f : Advisory) :
    Gives base x r ws (es ++ [.advisory f]) s (t.advise x f) := by
  obtain ⟨off, place⟩ := h.noPlace ok room
  rw [advise_room off place, h.only.clock]
  exact h.modify (h.given.give _)

theorem Gives.solicit (h : Gives base x r ws es s t) (ok : base.Takes)
    (room : (withoutOffers r ws base.queue).length + es.length < 32) (f : Solicited) :
    Gives base x r ws (es ++ [.solicited f]) s (t.solicit x f).1 := by
  obtain ⟨off, place⟩ := h.noPlace ok room
  rw [solicit_room off place, h.only.clock]
  exact h.modify (h.given.give _)

theorem Gives.withdraw (h : Gives base x r ws es s t) (a : Nat)
    (clear : ∀ e ∈ es, e.waiting.isWaitingOffer a r = false) :
    Gives base x r (ws ++ [a]) es s (t.withdraw x a r).1 := by
  rw [withdraw_state]
  exact h.modify (h.given.dropOffer a clear)

/-- R11: the OFFERs of a call, in the order of its stations. -/
theorem Gives.queueOffers (h : Gives base x r ws es s t) (ok : base.Takes) (call : Ref)
    (k : CallKind) (o : PortIx) (l : List Nat)
    (room : (withoutOffers r ws base.queue).length + es.length + l.length ≤ 32) :
    Gives base x r ws (es ++ l.map fun a => .solicited (.offer a call k o)) s
      (t.queueOffers x call k o l) := by
  induction l generalizing t es with
  | nil => simpa [State.queueOffers] using h
  | cons a l ih =>
    simp only [List.length_cons] at room
    have one := h.solicit ok (by omega) (.offer a call k o)
    have rest := ih one (by simp; omega)
    simpa [State.queueOffers] using rest

/-! ## Offers taken back -/

/-- R13: the offers when those still QUEUED have been withdrawn. -/
def Offer.withdrawn (o : Offer) : Offer :=
  if o.status = .queued then { o with status := .withdrawn } else o

/-- The stations of the offers still QUEUED. -/
def queuedStations (os : List Offer) : List Nat :=
  (os.filter fun o => decide (o.status = .queued)).map fun o => o.station

theorem queuedStations_cons (o : Offer) (os : List Offer) :
    queuedStations (o :: os) =
      if o.status = .queued then o.station :: queuedStations os else queuedStations os := by
  unfold queuedStations
  by_cases q : o.status = .queued <;> simp [q]

/-- The OFFERs to other stations stay when one is withdrawn. -/
theorem Riser.HoldsOffer.dropOffer {y : Riser} {a b : Nat} (h : y.HoldsOffer b r) (ne : b ≠ a) :
    (y.dropOffer a r).HoldsOffer b r := by
  obtain ⟨k, o, m⟩ := h
  refine ⟨k, o, (List.mem_eraseP_of_neg ?_).2 m⟩
  simp [QueueItem.isWaitingOffer, Solicited.isOfferOf, ne]

/-- R13: a pass that withdraws the QUEUED offers, all of which wait in the riser's queue. -/
theorem Gives.eachWithdraw {f : State → Offer → State × Offer} {os : List Offer}
    (h : Gives base x r ws es s t)
    (hf : ∀ u, ∀ o ∈ os, f u o = if o.status = .queued then State.withdrawOffer x r u o else (u, o))
    (held : ∀ o ∈ os, o.status = .queued → (t.riser x).HoldsOffer o.station r)
    (nodup : (os.map fun o => o.station).Nodup)
    (clear : ∀ e ∈ es, ∀ a, e.waiting.isWaitingOffer a r = false) :
    Gives base x r (ws ++ queuedStations os) es s (State.eachOffer f os t).1 ∧
      (State.eachOffer f os t).2 = os.map Offer.withdrawn := by
  induction os generalizing t ws with
  | nil => exact ⟨by simpa [queuedStations, State.eachOffer] using h, rfl⟩
  | cons o os ih =>
    obtain ⟨out, nodup⟩ := List.nodup_cons.1 nodup
    have this := hf t o (by simp)
    simp only [State.eachOffer, this, queuedStations_cons, List.map_cons]
    by_cases q : o.status = .queued
    · have done := withdrawOffer_queued q (held o (by simp) q)
      have rest := ih (h.withdraw o.station fun e he => clear e he _)
        (fun u p hp => hf u p (by simp [hp])) (fun p hp qp => ?_) nodup
      · simp only [q, if_true, done, Offer.withdrawn]
        rw [List.append_assoc] at rest
        exact ⟨rest.1, congrArg _ rest.2⟩
      · rw [withdraw_state, State.riser_modifyRiser, if_pos rfl]
        refine (held p (by simp [hp]) qp).dropOffer fun e => out ?_
        exact List.mem_map.2 ⟨p, hp, e⟩
    · have rest := ih h (fun u p hp => hf u p (by simp [hp])) (fun p hp => held p (by simp [hp])) nodup
      simp only [q, if_false, Offer.withdrawn]
      exact ⟨rest.1, congrArg _ rest.2⟩

/-- R13: a pass that takes the offers with a property back with a CANCEL. -/
theorem Gives.eachCancel {f : State → Offer → State × Offer} {why : CancelReason} {p : Offer → Bool}
    {os : List Offer} (h : Gives base x r ws es s t) (ok : base.Takes)
    (hf : ∀ u, ∀ o ∈ os, f u o = if p o then
      (u.advise x (.cancel o.station why (some r)), { o with status := .cancelled }) else (u, o))
    (room : (withoutOffers r ws base.queue).length + es.length + (os.filter p).length ≤ 32) :
    Gives base x r ws
        (es ++ (os.filter p).map fun o => .advisory (.cancel o.station why (some r))) s
        (State.eachOffer f os t).1 ∧
      (State.eachOffer f os t).2 =
        os.map fun o => if p o then { o with status := .cancelled } else o := by
  induction os generalizing t es with
  | nil => exact ⟨by simpa [State.eachOffer] using h, rfl⟩
  | cons o os ih =>
    have this := hf t o (by simp)
    simp only [State.eachOffer, this, List.map_cons]
    by_cases q : p o = true
    · rw [List.filter_cons_of_pos q] at room ⊢
      simp only [List.length_cons] at room
      have one := h.advise ok (by omega) (.cancel o.station why (some r))
      have rest := ih one (fun u p hp => hf u p (by simp [hp])) (by simp; omega)
      simp only [q, if_true]
      rw [List.append_assoc] at rest
      exact ⟨rest.1, congrArg _ rest.2⟩
    · rw [List.filter_cons_of_neg q] at room ⊢
      have rest := ih h (fun u p hp => hf u p (by simp [hp])) room
      simp only [q, if_false, Bool.false_eq_true]
      exact ⟨rest.1, congrArg _ rest.2⟩

/-- A list of advisories, some of which are left out. -/
theorem Gives.adviseEach {α : Type} {f : State → α → State} {frame : α → Option Advisory}
    {l : List α} (h : Gives base x r ws es s t) (ok : base.Takes)
    (hf : ∀ u, ∀ a ∈ l, f u a = match frame a with
      | some g => u.advise x g
      | none => u)
    (room : (withoutOffers r ws base.queue).length + es.length + (l.filterMap frame).length ≤ 32) :
    Gives base x r ws (es ++ (l.filterMap frame).map .advisory) s (l.foldl f t) := by
  induction l generalizing t es with
  | nil => simpa using h
  | cons a l ih =>
    have this := hf t a (by simp)
    rw [List.foldl_cons, this]
    cases q : frame a with
    | none =>
      rw [List.filterMap_cons_none q] at room ⊢
      exact ih h (fun u b hb => hf u b (by simp [hb])) room
    | some g =>
      rw [List.filterMap_cons_some q] at room ⊢
      simp only [List.length_cons] at room
      have one := h.advise ok (by omega) g
      have rest := ih one (fun u b hb => hf u b (by simp [hb])) (by simp; omega)
      simpa using rest

end

/-! ## At a call's end (R28) -/

/-- R28: the advisory an offer gets at its call's end. -/
def Offer.endFrame (r : Ref) (why : EndReason) (answerer : Option Nat) (o : Offer) : Option Advisory :=
  if answerer = some o.station then
    if why = .clearedAnswererHungUp then none
    else some (.cancel o.station why.cancelReason (some r))
  else if o.status = .sent ∨ o.status = .ringing then
    some (.cancel o.station why.cancelReason (some r))
  else none

theorem Call.cancelsAtEnd_eq (c : Call) (r : Ref) (why : EndReason) : c.cancelsAtEnd r why =
    (c.offers.filterMap (Offer.endFrame r why c.answerer)).map .advisory := by
  unfold Call.cancelsAtEnd
  rw [List.map_filterMap]
  refine List.filterMap_congr fun o _ => ?_
  unfold Offer.endFrame
  split
  · split <;> rfl
  · split <;> rfl

/-- A withdrawn offer gets what a QUEUED one gets. -/
theorem Offer.endFrame_withdrawn (r : Ref) (why : EndReason) (answerer : Option Nat) (o : Offer) :
    o.withdrawn.endFrame r why answerer = o.endFrame r why answerer := by
  unfold Offer.withdrawn
  split
  · next q => simp [Offer.endFrame, q]
  · rfl

theorem cancelAtEnd_eq (x : RiserIx) (r : Ref) (why : EndReason) (answerer : Option Nat) (u : State)
    (o : Offer) : State.cancelAtEnd x r why answerer u o =
      match o.endFrame r why answerer with
      | some g => u.advise x g
      | none => u := by
  unfold State.cancelAtEnd Offer.endFrame State.cancelOffer
  split
  · split <;> rfl
  · cases o.status <;> rfl

/-- R28: what end processing gives the riser of a call: the OFFERs still QUEUED leave the queue, and the
CANCELs join it. -/
theorem takeBackAtEnd_gives {s : State} {x : RiserIx} {r : Ref} {c : Call} {why : EndReason}
    (ok : (s.riser x).Takes)
    (room : (s.riser x).queue.length + (c.cancelsAtEnd r why).length ≤
      32 + (c.offers.filter fun o => decide (o.status = .queued)).length)
    (held : ∀ o ∈ c.offers, o.status = .queued → (s.riser x).HoldsOffer o.station r)
    (nodup : (c.offers.map fun o => o.station).Nodup) :
    Gives (s.riser x) x r c.queuedStations (c.cancelsAtEnd r why) s
      (s.takeBackAtEnd x r why c.answerer c.offers) := by
  obtain ⟨back, offers⟩ := (Gives.refl x r s).eachWithdraw (f := State.withdrawOffer x r) (os := c.offers)
    (fun u o _ => by
      split
      · rfl
      · next q => exact withdrawOffer_other q) held nodup (by simp)
  have shorter := withoutOffers_length (x := s.riser x) (r := r) (ws := queuedStations c.offers)
    ((nodup.sublist (List.filter_sublist.map _))) fun a ha => by
      obtain ⟨o, ho, rfl⟩ := List.mem_map.1 ha
      obtain ⟨ho, q⟩ := List.mem_filter.1 ho
      exact held o ho (of_decide_eq_true q)
  have places : (queuedStations c.offers).length =
      (c.offers.filter fun o => decide (o.status = .queued)).length := List.length_map ..
  have same : (c.offers.map Offer.withdrawn).filterMap (Offer.endFrame r why c.answerer) =
      c.offers.filterMap (Offer.endFrame r why c.answerer) := by
    rw [List.filterMap_map]
    exact List.filterMap_congr fun o _ => o.endFrame_withdrawn ..
  have all := back.adviseEach ok (l := c.offers.map Offer.withdrawn)
    (fun u o _ => cancelAtEnd_eq x r why c.answerer u o) (by
      rw [Call.cancelsAtEnd_eq, List.length_map] at room
      simp only [same, List.nil_append, List.length_nil]
      omega)
  rw [same, ← Call.cancelsAtEnd_eq] at all
  unfold State.takeBackAtEnd
  dsimp only
  rw [offers]
  exact all

/-! ## At an answer and at a divert (R17, R23) -/

/-- R13: an offer that is SENT or RINGING. -/
def Offer.isOut (o : Offer) : Bool := decide (o.status = .sent ∨ o.status = .ringing)

/-- R17, R23: an offer after the CANCEL that takes it back, unless it is left alone. -/
def Offer.recalled (skip : Offer → Bool) (o : Offer) : Offer :=
  if !skip o && o.isOut then { o with status := .cancelled } else o

@[simp] theorem Offer.recalled_station (skip : Offer → Bool) (o : Offer) :
    (o.recalled skip).station = o.station := by
  unfold Offer.recalled; split <;> rfl

@[simp] theorem Offer.withdrawn_station (o : Offer) : o.withdrawn.station = o.station := by
  unfold Offer.withdrawn; split <;> rfl

theorem Offer.recalled_of_queued {skip : Offer → Bool} {o : Offer}
    (h : (o.recalled skip).status = .queued) : o.recalled skip = o ∧ o.status = .queued := by
  unfold Offer.recalled at h ⊢
  split at h
  · cases h
  · next k => exact ⟨if_neg k, h⟩

theorem Offer.recalled_queued (skip : Offer → Bool) (o : Offer) :
    (o.recalled skip).status = .queued ↔ o.status = .queued := by
  refine ⟨fun h => (Offer.recalled_of_queued h).2, fun q => ?_⟩
  unfold Offer.recalled
  rw [if_neg (by simp [Offer.isOut, q])]
  exact q

/-- Once taken back, no offer but one that is left alone is SENT or RINGING. -/
theorem Offer.recalled_withdrawn_out {skip : Offer → Bool}
    (station : ∀ o u : Offer, u.station = o.station → skip u = skip o) (o : Offer) :
    (!skip (o.recalled skip).withdrawn && (o.recalled skip).withdrawn.isOut) = false := by
  rw [station o _ (by simp)]
  unfold Offer.recalled Offer.withdrawn
  by_cases k : (!skip o && o.isOut) = true
  · rw [if_pos k, if_neg (by simp)]
    simp [Offer.isOut]
  · rw [if_neg k]
    split
    · simp [Offer.isOut]
    · simpa using k

/-- R17, R23: the offers taken back, where those that are left alone are not QUEUED: a CANCEL to each that is
SENT or RINGING, and the QUEUED ones withdrawn. -/
theorem takeBackAll_gives {base : Riser} {s t : State} {x : RiserIx} {r : Ref} {why : CancelReason}
    {skip : Offer → Bool} {es : List QueueEntry} {os : List Offer} (h : Gives base x r [] es s t)
    (ok : base.Takes)
    (room : base.queue.length + es.length + (os.filter fun o => !skip o && o.isOut).length ≤ 32)
    (clear : ∀ e ∈ es, ∀ a, e.waiting.isWaitingOffer a r = false)
    (held : ∀ o ∈ os, o.status = .queued → base.HoldsOffer o.station r)
    (nodup : (os.map fun o => o.station).Nodup) (spared : ∀ o ∈ os, skip o → o.status ≠ .queued)
    (station : ∀ o u : Offer, u.station = o.station → skip u = skip o) :
    Gives base x r (queuedStations os)
        (es ++ (os.filter fun o => !skip o && o.isOut).map fun o =>
          .advisory (.cancel o.station why (some r))) s (t.takeBackAll x r why skip os).1 ∧
      (t.takeBackAll x r why skip os).2 = os.map fun o => (o.recalled skip).withdrawn := by
  have cancels : ∀ (u : State) (o : Offer),
      (if skip o then (u, o) else State.cancelOffer x r why u o) = if !skip o && o.isOut then
        (u.advise x (.cancel o.station why (some r)), { o with status := .cancelled }) else (u, o) :=
    fun u o => by
      rw [cancelOffer_eq]
      by_cases k : skip o = true <;> simp [k, Offer.isOut]
  obtain ⟨first, offers⟩ := h.eachCancel (why := why) (os := os) ok (fun u o _ => cancels u o)
    (by simpa [withoutOffers] using room)
  unfold State.takeBackAll
  dsimp only
  generalize State.eachOffer _ os t = a at first offers ⊢
  obtain ⟨u, as⟩ := a
  obtain rfl : as = os.map (Offer.recalled skip) := offers
  have queued : queuedStations (os.map (Offer.recalled skip)) = queuedStations os := by
    simp [queuedStations, List.filter_map, Function.comp_def, Offer.recalled_queued]
  have stations : (os.map (Offer.recalled skip)).map (fun o => o.station) =
      os.map fun o => o.station := by simp [Function.comp_def]
  obtain ⟨second, offers⟩ := first.eachWithdraw
    (f := fun v o => if skip o then (v, o) else State.withdrawOffer x r v o)
    (os := os.map (Offer.recalled skip))
    (fun v o ho => by
      obtain ⟨b, hb, rfl⟩ := List.mem_map.1 ho
      split
      · next k =>
        rw [if_neg]
        rw [Offer.recalled_queued]
        exact spared b hb (station b (b.recalled skip) (b.recalled_station skip) ▸ k)
      · split
        · rfl
        · next q => exact withdrawOffer_other q)
    (fun o ho q => by
      obtain ⟨b, hb, rfl⟩ := List.mem_map.1 ho
      obtain ⟨e, q⟩ := Offer.recalled_of_queued q
      obtain ⟨k, p, m⟩ := held b hb q
      rw [e]
      refine ⟨k, p, ?_⟩
      rw [first.given.queue]
      exact List.mem_append_left _ m)
    (by rw [stations]; exact nodup)
    (fun e he a => by
      rcases List.mem_append.1 he with he | he
      · exact clear e he a
      · obtain ⟨o, -, rfl⟩ := List.mem_map.1 he
        rfl)
  dsimp only at second offers ⊢
  generalize State.eachOffer _ (os.map (Offer.recalled skip)) u = b at second offers ⊢
  obtain ⟨v, bs⟩ := b
  obtain rfl : bs = _ := offers
  rw [List.nil_append, queued] at second
  have none : (((os.map (Offer.recalled skip)).map Offer.withdrawn).filter
      fun o => !skip o && o.isOut) = [] := by
    rw [List.filter_eq_nil_iff]
    intro o ho
    rw [List.map_map] at ho
    obtain ⟨c, -, rfl⟩ := List.mem_map.1 ho
    simp only [Function.comp_apply, Offer.recalled_withdrawn_out station, Bool.false_eq_true,
      not_false_eq_true]
  have shorter := (withoutOffers_sublist r (queuedStations os) base.queue).length_le
  obtain ⟨third, offers⟩ := second.eachCancel (why := why)
    (os := (os.map (Offer.recalled skip)).map Offer.withdrawn) ok (fun u o _ => cancels u o) (by
      rw [none]
      simp only [List.length_append, List.length_map, List.length_nil]
      omega)
  rw [none, List.map_nil, List.append_nil] at third
  refine ⟨third, offers.trans ?_⟩
  simp only [List.map_map]
  refine List.map_congr_left fun o _ => ?_
  simp only [Function.comp_apply, Offer.recalled_withdrawn_out station, Bool.false_eq_true, if_false]

end Sys2Proof.Machine
end

