-- ==== Sys2Proof/Proofs/EndAlone.lean ====
section
/-!
SUPPORT. Raised events as what is on its way out, and the end of a call with no call waiting for what it
frees: the end as a chain of single changes, and `Ended` from it (R27, R28, R29).
-/

namespace Sys2Proof.Machine

/-! ## Events -/

/-- What an event does to the notice unit depends on the notice unit alone. -/
theorem emit_ntu_congr {s t : State} (h : t.ntu = s.ntu) (e : Event) :
    (t.emit e).ntu = (s.emit e).ntu := by
  unfold State.emit State.routeOf
  rw [h]
  split <;> simp [State.offerNotice, State.writeAlerts, h]

theorem emits_ntu_congr {s t : State} (h : t.ntu = s.ntu) (es : List Event) :
    (es.foldl State.emit t).ntu = (es.foldl State.emit s).ntu := by
  induction es generalizing s t with
  | nil => exact h
  | cons e es ih => exact ih (emit_ntu_congr h e)

theorem emits_hlp (es : List Event) (s : State) : (es.foldl State.emit s).hlp = s.hlp := by
  induction es generalizing s with
  | nil => rfl
  | cons e es ih => rw [List.foldl_cons, ih, State.emit_hlp]

theorem emits_routes (es : List Event) (s : State) :
    (es.foldl State.emit s).ntu.routes = s.ntu.routes := by
  induction es generalizing s with
  | nil => rfl
  | cons e es ih => rw [List.foldl_cons, ih, (emit_moves s e).kept.routes]

theorem noticeLine_congr {s t : State} (tx : t.hlp.tx = s.hlp.tx) (ntu : t.ntu = s.ntu) :
    t.noticeLine = s.noticeLine := by
  simp only [State.noticeLine, tx, ntu]

/-- R184 to R188: a state whose notice unit is what routing these events makes of another's raises them. -/
theorem Raises.of_settled {s u t : State} {es : List Event} (tx : u.hlp.tx = s.hlp.tx)
    (ntu : u.ntu = (es.foldl State.emit s).ntu) (h : Settled u t) : Raises s t es where
  notices := h.notices.trans (noticeLine_congr (by rw [tx, emits_hlp]) ntu)
  lost := h.lost.trans (by rw [ntu])
  routes := h.routes.trans (by rw [ntu, emits_routes])

/-- An event reaches a port as an alert or not at all. -/
theorem emit_port (s : State) (e : Event) (p : PortIx) :
    (s.emit e).port p = s.port p ∨ (s.emit e).port p = Port.takeAlert e (s.port p) := by
  unfold State.emit
  split
  · exact .inl rfl
  · exact .inl rfl
  · exact .inr (State.port_writeAlerts ..)
  · exact .inr (State.port_writeAlerts ..)

@[simp] theorem Port.takeAlert_displaySlot (e : Event) (p : Port) :
    (Port.takeAlert e p).displaySlot = p.displaySlot := by unfold Port.takeAlert; split <;> rfl
@[simp] theorem Port.takeAlert_lastDisplay (e : Event) (p : Port) :
    (Port.takeAlert e p).lastDisplay = p.lastDisplay := by unfold Port.takeAlert; split <;> rfl
@[simp] theorem Port.takeAlert_ringSlot (e : Event) (p : Port) :
    (Port.takeAlert e p).ringSlot = p.ringSlot := by unfold Port.takeAlert; split <;> rfl
@[simp] theorem Port.takeAlert_tx (e : Event) (p : Port) : (Port.takeAlert e p).tx = p.tx := by
  unfold Port.takeAlert; split <;> rfl
@[simp] theorem Port.placeRing_displaySlot (l : RingLevel) (p : Port) :
    (Port.placeRing l p).displaySlot = p.displaySlot := by unfold Port.placeRing; split <;> rfl
@[simp] theorem Port.placeRing_lastDisplay (l : RingLevel) (p : Port) :
    (Port.placeRing l p).lastDisplay = p.lastDisplay := by unfold Port.placeRing; split <;> rfl
@[simp] theorem Port.placeRing_tx (l : RingLevel) (p : Port) : (Port.placeRing l p).tx = p.tx := by
  unfold Port.placeRing; split <;> rfl
@[simp] theorem Port.place_ringSlot (d : Display) (p : Port) :
    (Port.place d p).ringSlot = p.ringSlot := by unfold Port.place; split <;> rfl
@[simp] theorem Port.place_tx (d : Display) (p : Port) : (Port.place d p).tx = p.tx := by
  unfold Port.place; split <;> rfl

/-! ## What a port is given -/

theorem Port.place_shows {d : Display} {p : Port} (h : p.function ≠ .off) : (Port.place d p).Shows d := by
  unfold Port.place
  rw [if_neg h]
  exact ⟨rfl, .inl rfl⟩

theorem Port.placeRing_rings {l : RingLevel} {p : Port} (f : p.function = .concierge)
    (h : p.present = true) : (Port.placeRing l p).Rings l := by
  unfold Port.placeRing
  rw [if_pos ⟨f, h⟩]
  exact .inl rfl

theorem Port.Shows.placeRing {d : Display} {p : Port} (h : p.Shows d) (l : RingLevel) :
    (Port.placeRing l p).Shows d := by
  simpa [Port.Shows] using h

theorem Port.Shows.takeAlert {d : Display} {p : Port} (h : p.Shows d) (e : Event) :
    (Port.takeAlert e p).Shows d := by
  simpa [Port.Shows] using h

theorem Port.Rings.place {l : RingLevel} {p : Port} (h : p.Rings l) (d : Display) :
    (Port.place d p).Rings l := by
  simpa [Port.Rings] using h

theorem Port.Rings.takeAlert {l : RingLevel} {p : Port} (h : p.Rings l) (e : Event) :
    (Port.takeAlert e p).Rings l := by
  simpa [Port.Rings] using h

theorem Port.Shows.emit {s : State} {p : PortIx} {d : Display} (h : (s.port p).Shows d) (e : Event) :
    ((s.emit e).port p).Shows d := by
  rcases emit_port s e p with k | k <;> rw [k]
  · exact h
  · exact h.takeAlert e

theorem Port.Rings.emit {s : State} {p : PortIx} {l : RingLevel} (h : (s.port p).Rings l) (e : Event) :
    ((s.emit e).port p).Rings l := by
  rcases emit_port s e p with k | k <;> rw [k]
  · exact h
  · exact h.takeAlert e

/-- The settings of a port after an event. -/
theorem emit_settings (s : State) (e : Event) (p : PortIx) :
    (s.port p).SameSettings ((s.emit e).port p) := (emit_moves s e).callEventKept.ports p

/-! ## The end with nothing granted -/

/-- R28: the frames to the handsets at a call's end. -/
def State.endFrames (s : State) (r : Ref) (c : Call) (why : EndReason) : State :=
  if why.isRiserFailure then s
  else
    match s.riserOfCall c with
    | none => s
    | some x => s.takeBackAtEnd x r why c.answerer c.offers

/-- The CALL_ENDED event of a call. -/
def Call.endEvent (c : Call) (r : Ref) (why : EndReason) : Event :=
  .callEnded r c.kind c.origin c.code c.flat c.answerer why

theorem endRecord_eq (s : State) (r : Ref) (c : Call) (why : EndReason) : s.endRecord r c why =
    (((((s.endFrames r c why).removeJoin r).display c.origin why.display).emit
      (c.endEvent r why)).setSlot r.slot
        { generation := r.gen, lastEnd := some why, call := none }) := rfl

/-- The frames at an end touch the riser of the call's flat alone. -/
theorem endFrames_onlyRiser (s : State) (r : Ref) (c : Call) (why : EndReason) :
    s.endFrames r c why = s ∨ ∃ x, s.riserOfCall c = some x ∧ OnlyRiser x s (s.endFrames r c why) := by
  unfold State.endFrames
  split
  · exact .inl rfl
  · split
    · exact .inl rfl
    · next x e => exact .inr ⟨x, e, takeBackAtEnd_onlyRiser ..⟩

theorem endFrames_same (s : State) (r : Ref) (c : Call) (why : EndReason) :
    ∃ rs, s.endFrames r c why = { s with risers := rs } := by
  rcases endFrames_onlyRiser s r c why with e | ⟨x, -, y, e⟩
  · exact ⟨s.risers, e⟩
  · exact ⟨_, e⟩

/-- R29: the channel of a call becomes FREE, with no call waiting for it. -/
def State.clearChannel (s : State) (c : Call) : State :=
  match c.channel with
  | some ch => s.setHolder ch none
  | none => s

/-- R149: the desk port of a call becomes FREE, with no call waiting for a desk. -/
def State.clearDesk (s : State) (c : Call) : State :=
  match c.deskPort with
  | some p => ((s.ring p .off).display p .ready).setHold p none
  | none => s

/-- R28, R29: the end of a call that grants nothing. -/
def State.endedAlone (s : State) (r : Ref) (c : Call) (why : EndReason) : State :=
  ((((s.endRecord r c why).clearChannel c).clearDesk c).setHold c.origin none).leaveQueues r

/-- A queue of entries that name no live call is passed over (log entry 20). -/
theorem serveDeskFrom_dead {p : PortIx} {q : List Ref} {s : State} (hq : s.psw.deskQueue = q)
    (h : ∀ r ∈ q, s.call? r = none) : State.serveDeskFrom p q s = s.setDeskQueue [] := by
  induction q generalizing s with
  | nil =>
    unfold State.serveDeskFrom
    simp [State.setDeskQueue, ← hq]
  | cons r rest ih =>
    unfold State.serveDeskFrom
    have dead : (s.setDeskQueue rest).call? r = none := h r (by simp)
    simp only [dead]
    exact ih (s := s.setDeskQueue rest) rfl fun q hq => h q (by simp [hq])

/-- R62: with no live call waiting, the desk grant rule grants nothing. -/
theorem serveDesk_dead {s : State} (p : PortIx) (h : ∀ r ∈ s.psw.deskQueue, s.call? r = none) :
    s.serveDesk p = s ∨ s.serveDesk p = s.setDeskQueue [] := by
  unfold State.serveDesk
  split
  · exact .inr (serveDeskFrom_dead rfl h)
  · exact .inl rfl

theorem leaveQueues_setDeskQueue {s : State} {r : Ref} (h : ∀ q ∈ s.psw.deskQueue, q = r) :
    (s.setDeskQueue []).leaveQueues r = s.leaveQueues r := by
  have e : s.psw.deskQueue.filter (fun q => q ≠ r) = [] :=
    List.filter_eq_nil_iff.2 fun q hq => by simp [h q hq]
  unfold State.leaveQueues State.setDeskQueue
  simp only [e, List.filter_nil]

/-- R29: ports released by a call that is over, with no other call waiting for a desk. -/
theorem releasePorts_alone {s : State} {r : Ref} (c : Call) (dead : s.call? r = none)
    (h : ∀ q ∈ s.psw.deskQueue, q = r) :
    s.releasePorts r c = ((s.clearDesk c).setHold c.origin none).leaveQueues r := by
  have served : ∀ (t : State) (p : PortIx), t.ccu = s.ccu → t.psw.deskQueue = s.psw.deskQueue →
      t.serveDesk p = t ∨ t.serveDesk p = t.setDeskQueue [] := fun t p hc hq =>
    serveDesk_dead p fun q m => by
      rw [hq] at m
      rw [State.call?_congr hc, h q m, dead]
  have last : ∀ (t : State), t.ccu = s.ccu → t.psw.deskQueue = s.psw.deskQueue →
      (t.releasePort c.origin).leaveQueues r = (t.setHold c.origin none).leaveQueues r :=
    fun t hc hq => by
      rcases served (t.setHold c.origin none) c.origin hc hq with e | e
      · rw [State.releasePort, e]
      · rw [State.releasePort, e, leaveQueues_setDeskQueue]
        show ∀ q ∈ t.psw.deskQueue, q = r
        rwa [hq]
  have emptied : ∀ (t : State), t.psw.deskQueue = s.psw.deskQueue →
      ((t.setDeskQueue []).releasePort c.origin).leaveQueues r =
        (t.setHold c.origin none).leaveQueues r := fun t hq => by
    have e : (t.setDeskQueue []).releasePort c.origin =
        ((t.setDeskQueue []).setHold c.origin none).serveDesk c.origin := rfl
    rcases serveDesk_dead (s := (t.setDeskQueue []).setHold c.origin none) c.origin
      (fun q m => by cases m) with k | k <;>
    · rw [e, k]
      refine Eq.trans ?_ (leaveQueues_setDeskQueue (s := t.setHold c.origin none) ?_)
      · rfl
      · show ∀ q ∈ t.psw.deskQueue, q = r
        rwa [hq]
  rw [releasePorts_eq]
  unfold State.freeDesk State.clearDesk
  cases c.deskPort with
  | none => exact last s rfl rfl
  | some p =>
    have released : s.releaseDesk p =
        (((s.ring p .off).display p .ready).setHold p none).serveDesk p := rfl
    dsimp only
    rw [released]
    rcases served (((s.ring p .off).display p .ready).setHold p none) p rfl rfl with e | e
    · rw [e]
      exact last _ rfl rfl
    · rw [e]
      exact emptied _ rfl

/-- R56: a channel queue whose entries name no live call is passed over. -/
theorem serveChannel_dead {n : Nat} {ch : Channel} {s : State}
    (hn : (s.paths ch.riser).queue.length ≤ n)
    (h : ∀ q ∈ (s.paths ch.riser).queue, s.call? q = none) :
    State.serveChannel n ch s = (s.setHolder ch none).setChannelQueue ch.riser [] := by
  have none_left : ∀ t : State, (t.paths ch.riser).queue = [] →
      t.setHolder ch none = (t.setHolder ch none).setChannelQueue ch.riser [] := fun t e => by
    cases side : ch.side <;>
    · simp only [State.setHolder, State.setChannelQueue, State.setPaths, State.paths,
        RiserPaths.setHolder, side, Table.read_write_same, Table.write_write, ← e]
  induction n generalizing s with
  | zero =>
    unfold State.serveChannel
    exact none_left s (List.length_eq_zero_iff.1 (Nat.le_zero.1 hn))
  | succ n ih =>
    unfold State.serveChannel
    split
    · next e => exact none_left s e
    · next r rest e =>
      have queue : ((s.setChannelQueue ch.riser rest).paths ch.riser).queue = rest := by simp
      have dead : (s.setChannelQueue ch.riser rest).call? r = none := h r (by simp [e])
      simp only [dead]
      rw [ih (by rw [queue]; rw [e] at hn; simpa using hn) fun q m => by
        rw [queue] at m
        exact h q (by simp [e, m])]
      cases side : ch.side <;>
      · simp [State.setHolder, State.setChannelQueue, State.setPaths, State.paths, RiserPaths.setHolder,
          side]

theorem leaveQueues_setChannelQueue {s : State} {r : Ref} {x : RiserIx}
    (h : ∀ q ∈ (s.paths x).queue, q = r) :
    (s.setChannelQueue x []).leaveQueues r = s.leaveQueues r := by
  have e : (s.paths x).queue.filter (fun q => q ≠ r) = [] := by
    rw [List.filter_eq_nil_iff]
    simpa using h
  have same : Table.mapEach (fun p : RiserPaths => { p with queue := p.queue.filter fun q => q ≠ r })
      (s.psw.risers.write x { s.paths x with queue := [] }) =
      Table.mapEach (fun p : RiserPaths => { p with queue := p.queue.filter fun q => q ≠ r })
        s.psw.risers := Table.ext_read fun y => by
    rw [Table.read_mapEach, Table.read_mapEach, Table.read_write]
    split
    · next k =>
      subst k
      show _ = ({ s.paths x with queue := (s.paths x).queue.filter fun q => q ≠ r } : RiserPaths)
      rw [e]
      rfl
    · rfl
  unfold State.leaveQueues State.setChannelQueue State.setPaths
  simp only [same]

/-- A record that has been written for an end is no live call. -/
theorem endRecord_dead (s : State) (r : Ref) (c : Call) (why : EndReason) :
    (s.endRecord r c why).call? r = none := by
  rw [endRecord_eq]
  simp [State.call?]

theorem endRecord_psw_queues (s : State) (r : Ref) (c : Call) (why : EndReason) :
    (s.endRecord r c why).psw = { s.psw with joins := s.psw.joins.filter fun j => j.call ≠ r } := by
  obtain ⟨rs, e⟩ := endFrames_same s r c why
  rw [endRecord_eq, e]
  simp [State.removeJoin]

/-- R28, R29: the end of a call for whose channel, desk and port no other call waits. -/
theorem endCall_alone {s : State} {r : Ref} {c : Call} (hc : s.call? r = some c)
    (nw : s.NoWaiters r c) (why : EndReason) : s.endCall r why = s.endedAlone r c why := by
  obtain ⟨desks, channels⟩ := nw
  have psw := endRecord_psw_queues s r c why
  have dead := endRecord_dead s r c why
  rw [endCall_live hc]
  unfold State.endedAlone State.freeChannel State.clearChannel
  generalize s.endRecord r c why = u at psw dead ⊢
  have queue : u.psw.deskQueue = s.psw.deskQueue := by rw [psw]
  cases hch : c.channel with
  | none => exact releasePorts_alone c dead (by rwa [queue])
  | some ch =>
    dsimp only
    have line : (u.paths ch.riser).queue = (s.paths ch.riser).queue := by simp [State.paths, psw]
    have gone : ∀ q ∈ (u.paths ch.riser).queue, q = r := by rw [line]; exact channels ch hch
    rw [State.releaseChannel, serveChannel_dead (Nat.le_refl _) fun q m => by rw [gone q m, dead]]
    rw [releasePorts_alone (s := (u.setHolder ch none).setChannelQueue ch.riser []) c dead (by
      show ∀ q ∈ u.psw.deskQueue, q = r
      rwa [queue])]
    have comm : ((((u.setHolder ch none).setChannelQueue ch.riser []).clearDesk c).setHold
        c.origin none) = (((u.setHolder ch none).clearDesk c).setHold c.origin none).setChannelQueue
          ch.riser [] := by
      unfold State.clearDesk
      split <;> rfl
    rw [comm, leaveQueues_setChannelQueue]
    have same : (((u.setHolder ch none).clearDesk c).setHold c.origin none).paths ch.riser =
        (u.setHolder ch none).paths ch.riser := by
      unfold State.clearDesk
      split <;> rfl
    rw [same, State.paths_setHolder, if_pos rfl, RiserPaths.setHolder_queue]
    exact gone

end Sys2Proof.Machine
end

