-- ==== Sys2Proof/Proofs/CallEnds.lean ====
section
/-!
SUPPORT. What stands after an end that grants nothing, part by part, and `Ended` from it (R27, R28, R29).
-/

namespace Sys2Proof.Machine

/-! ## The parts of the state after the end -/

/-- R28: the end of a call up to its event: the frames, the join, the display. -/
def State.endRaised (s : State) (r : Ref) (c : Call) (why : EndReason) : State :=
  (((s.endFrames r c why).removeJoin r).display c.origin why.display).emit (c.endEvent r why)

section
variable (s : State) (r : Ref) (c : Call) (why : EndReason)

theorem endRecord_raised : s.endRecord r c why = (s.endRaised r c why).setSlot r.slot
    { generation := r.gen, lastEnd := some why, call := none } := rfl

@[simp] theorem endRaised_ccu : (s.endRaised r c why).ccu = s.ccu := by
  obtain ⟨rs, e⟩ := endFrames_same s r c why
  simp [State.endRaised, e]

@[simp] theorem endRaised_dir : (s.endRaised r c why).dir = s.dir := by
  obtain ⟨rs, e⟩ := endFrames_same s r c why
  simp [State.endRaised, e]

@[simp] theorem endRaised_clock : (s.endRaised r c why).clock = s.clock := by
  obtain ⟨rs, e⟩ := endFrames_same s r c why
  simp [State.endRaised, e]

@[simp] theorem endRaised_hlp : (s.endRaised r c why).hlp = s.hlp := by
  obtain ⟨rs, e⟩ := endFrames_same s r c why
  simp [State.endRaised, e]

@[simp] theorem endRaised_ntu :
    (s.endRaised r c why).ntu = (s.emit (c.endEvent r why)).ntu := by
  obtain ⟨rs, e⟩ := endFrames_same s r c why
  exact emit_ntu_congr (by rw [e]; rfl) _

@[simp] theorem endRaised_risers :
    (s.endRaised r c why).risers = (s.endFrames r c why).risers := by
  simp [State.endRaised]

@[simp] theorem endRaised_psw : (s.endRaised r c why).psw =
    { s.psw with joins := s.psw.joins.filter fun j => j.call ≠ r } := by
  obtain ⟨rs, e⟩ := endFrames_same s r c why
  simp [State.endRaised, e, State.removeJoin]

/-- The origin is given the display of the end; the event may reach a port as an alert. -/
theorem endRaised_port (p : PortIx) :
    (s.endRaised r c why).port p =
        (if c.origin = p then Port.place why.display (s.port p) else s.port p) ∨
      (s.endRaised r c why).port p = Port.takeAlert (c.endEvent r why)
        (if c.origin = p then Port.place why.display (s.port p) else s.port p) := by
  obtain ⟨rs, e⟩ := endFrames_same s r c why
  have shown : (((s.endFrames r c why).removeJoin r).display c.origin why.display).port p =
      if c.origin = p then Port.place why.display (s.port p) else s.port p := by
    have same : ∀ q, ((s.endFrames r c why).removeJoin r).port q = s.port q := fun q => by
      rw [e]; rfl
    rw [State.port_display, same, same]
    split
    · next k => rw [k]
    · rfl
  rw [← shown]
  exact emit_port _ _ _

@[simp] theorem endedAlone_ccu : (s.endedAlone r c why).ccu = { s.ccu with
    slots := s.ccu.slots.write r.slot
      { generation := r.gen, lastEnd := some why, call := none } } := by
  unfold State.endedAlone State.clearChannel State.clearDesk
  rw [endRecord_raised]
  cases c.channel <;> cases c.deskPort <;> simp

@[simp] theorem endedAlone_dir : (s.endedAlone r c why).dir = s.dir := by
  unfold State.endedAlone State.clearChannel State.clearDesk
  rw [endRecord_raised]
  cases c.channel <;> cases c.deskPort <;> simp

@[simp] theorem endedAlone_clock : (s.endedAlone r c why).clock = s.clock := by
  unfold State.endedAlone State.clearChannel State.clearDesk
  rw [endRecord_raised]
  cases c.channel <;> cases c.deskPort <;> simp

@[simp] theorem endedAlone_hlp : (s.endedAlone r c why).hlp = s.hlp := by
  unfold State.endedAlone State.clearChannel State.clearDesk
  rw [endRecord_raised]
  cases c.channel <;> cases c.deskPort <;> simp

@[simp] theorem endedAlone_ntu :
    (s.endedAlone r c why).ntu = (s.emit (c.endEvent r why)).ntu := by
  unfold State.endedAlone State.clearChannel State.clearDesk
  rw [endRecord_raised]
  cases c.channel <;> cases c.deskPort <;> simp

@[simp] theorem endedAlone_risers :
    (s.endedAlone r c why).risers = (s.endFrames r c why).risers := by
  unfold State.endedAlone State.clearChannel State.clearDesk
  rw [endRecord_raised]
  cases c.channel <;> cases c.deskPort <;> simp

theorem endedAlone_slot (j : SlotIx) : (s.endedAlone r c why).slot j =
    if r.slot = j then { generation := r.gen, lastEnd := some why, call := none } else s.slot j := by
  simp only [State.slot, endedAlone_ccu, Table.read_write]

/-- R149: what the end gives the desk port on top of what the event leaves. -/
theorem endedAlone_port (p : PortIx) : (s.endedAlone r c why).port p =
    if c.deskPort = some p then
      Port.place .ready (Port.placeRing .off ((s.endRaised r c why).port p))
    else (s.endRaised r c why).port p := by
  have rest : ∀ (t : State) (q : PortIx) (h : Option Hold),
      ((t.setHold q h).leaveQueues r).port p = t.port p := fun _ _ _ => rfl
  have first : ((s.endRecord r c why).clearChannel c).port p = (s.endRaised r c why).port p := by
    unfold State.clearChannel
    rw [endRecord_raised]
    cases c.channel <;> rfl
  rw [State.endedAlone, rest, ← first]
  unfold State.clearDesk
  cases c.deskPort with
  | none => simp
  | some q =>
    have held : ∀ (t : State) (h : Option Hold), (t.setHold q h).port p = t.port p := fun _ _ => rfl
    simp only [held, State.port_display, State.port_ring, Option.some.injEq]
    split
    · next e => simp [e]
    · rfl

theorem endedAlone_hold (p : PortIx) : (s.endedAlone r c why).hold p =
    if c.origin = p ∨ c.deskPort = some p then none else s.hold p := by
  have left : ∀ t : State, (t.leaveQueues r).hold p = t.hold p := fun _ => rfl
  have first : ((s.endRecord r c why).clearChannel c).hold p = s.hold p := by
    have psw := endRecord_psw_queues s r c why
    unfold State.clearChannel
    cases c.channel <;> simp [State.hold, State.setHolder, State.setPaths, psw]
  rw [State.endedAlone, left, State.hold_setHold]
  by_cases o : c.origin = p
  · simp [o]
  · rw [if_neg o, ← first]
    unfold State.clearDesk
    cases c.deskPort with
    | none => simp [o]
    | some q =>
      have rung : ∀ t : State, ((t.ring q .off).display q .ready).hold p = t.hold p := fun _ => rfl
      simp [rung, o]

theorem endedAlone_paths (x : RiserIx) : (s.endedAlone r c why).paths x =
    { holderA := if c.channel = some { riser := x, side := .a } then none else (s.paths x).holderA
      holderB := if c.channel = some { riser := x, side := .b } then none else (s.paths x).holderB
      queue := (s.paths x).queue.filter fun q => q ≠ r } := by
  have psw := endRecord_psw_queues s r c why
  have desk : ∀ t : State, ((t.clearDesk c).setHold c.origin none).paths x = t.paths x := fun t => by
    unfold State.clearDesk
    cases c.deskPort <;> rfl
  have kept : (s.endRecord r c why).paths = s.paths := by
    funext y
    simp [State.paths, psw]
  rw [State.endedAlone, State.paths_leaveQueues, desk]
  unfold State.clearChannel
  cases c.channel with
  | none => simp [kept]
  | some ch =>
    obtain ⟨y, side⟩ := ch
    by_cases e : y = x <;> cases side <;> simp [e, kept, RiserPaths.setHolder]

theorem endedAlone_lists : (s.endedAlone r c why).psw.joins =
      s.psw.joins.filter (fun j => j.call ≠ r) ∧
    (s.endedAlone r c why).psw.deskQueue = s.psw.deskQueue.filter (fun q => q ≠ r) := by
  have psw := endRecord_psw_queues s r c why
  unfold State.endedAlone State.clearChannel State.clearDesk
  cases c.channel <;> cases c.deskPort <;>
  · simp [State.leaveQueues, State.setHolder, State.setPaths, psw]

theorem endFrames_riser {x : RiserIx} (home : s.riserOfCall c = some x)
    (f : why.isRiserFailure = false) :
    s.endFrames r c why = s.takeBackAtEnd x r why c.answerer c.offers := by
  unfold State.endFrames
  rw [if_neg (by simp [f]), home]

end

/-! ## `Ended` -/

/-- A riser that takes frames as another does. -/
structure Riser.SameQueue (x y : Riser) : Prop where
  queue       : y.queue = x.queue
  outstanding : y.outstanding = x.outstanding
  resends     : y.resends = x.resends
  tx          : y.tx = x.tx
  overrunDue  : y.overrunDue = x.overrunDue
  link        : y.link = x.link

theorem Riser.SameQueue.refl (x : Riser) : x.SameQueue x := ⟨rfl, rfl, rfl, rfl, rfl, rfl⟩

theorem Riser.Given.of_sameQueue {x y z : Riser} {now : Nat} {r : Ref} {ws : List Nat}
    {es : List QueueEntry} (q : x.SameQueue y) (h : y.Given z now r ws es) : x.Given z now r ws es where
  queue := by rw [h.queue, q.queue]
  outstanding u := by
    rw [h.outstanding (by rw [q.outstanding]; exact u)]
    simp only [Riser.requestsGiven, q.outstanding, q.resends]
  resends u := by
    rw [h.resends (by rw [q.outstanding]; exact u)]
    simp only [Riser.resendsGiven, q.outstanding, q.resends]
  tx := h.tx.trans q.tx
  overrunDue := h.overrunDue.trans q.overrunDue
  link := by rw [h.link, q.link]
  wakeTimer l := h.wakeTimer (q.link.trans l)

/-- A state in which a call's end does what it does in another: the paths but for the call's own channel,
the other calls, the ports' settings and the riser of the call are the same. -/
structure EndsAlike (s u : State) (r : Ref) (c : Call) : Prop where
  others : ∀ j, j ≠ r.slot → (s.slot j).SameButSending (u.slot j)
  holds  : ∀ p, u.hold p = s.hold p
  paths  : ∀ x,
    (c.channel ≠ some { riser := x, side := .a } → (u.paths x).holderA = (s.paths x).holderA) ∧
    (c.channel ≠ some { riser := x, side := .b } → (u.paths x).holderB = (s.paths x).holderB) ∧
    (u.paths x).queue.filter (fun q => q ≠ r) = (s.paths x).queue.filter fun q => q ≠ r
  joins  : u.psw.joins.filter (fun j => j.call ≠ r) = s.psw.joins.filter fun j => j.call ≠ r
  desks  : u.psw.deskQueue.filter (fun q => q ≠ r) = s.psw.deskQueue.filter fun q => q ≠ r
  ports  : ∀ p, (s.port p).SameSettings (u.port p)
  home   : ∀ x, s.riserOfCall c = some x → u.riserOfCall c = some x ∧ (s.riser x).SameQueue (u.riser x)
  tx     : u.hlp.tx = s.hlp.tx
  ntu    : u.ntu = s.ntu

theorem EndsAlike.refl (s : State) (r : Ref) (c : Call) : EndsAlike s s r c :=
  ⟨fun _ _ => .refl _, fun _ => rfl, fun _ => ⟨fun _ => rfl, fun _ => rfl, rfl⟩, rfl, rfl, fun _ => .refl _,
    fun _ h => ⟨h, .refl _⟩, rfl, rfl⟩

/-- A state that differs from another in its host link at most, and not in what is on the host line. -/
structure SameButReplies (s u : State) : Prop where
  ccu    : u.ccu = s.ccu
  psw    : u.psw = s.psw
  risers : u.risers = s.risers
  ports  : u.ports = s.ports
  ntu    : u.ntu = s.ntu
  clock  : u.clock = s.clock
  tx     : u.hlp.tx = s.hlp.tx

theorem SameButReplies.refl (s : State) : SameButReplies s s := ⟨rfl, rfl, rfl, rfl, rfl, rfl, rfl⟩

theorem endsCancels_frames (c : Call) (r : Ref) (why : EndReason) :
    ∀ e ∈ c.cancelsAtEnd r why, e.isFrame = true := by
  rw [Call.cancelsAtEnd_eq]
  intro e he
  obtain ⟨f, -, rfl⟩ := List.mem_map.1 he
  rfl

/-- R27, R28, R29: an end that grants nothing, once the free lines have been looked at. -/
theorem Ended.of_alone {s u w t : State} {r : Ref} {c : Call} {why : EndReason}
    (a : EndsAlike s u r c) (same : SameButReplies (u.endedAlone r c why) w) (k : Settled w t) :
    Ended s t r c why := by
  have slots : ∀ j, w.slot j = _ := fun j =>
    (State.slot_congr same.ccu j).trans (endedAlone_slot u r c why j)
  have ports : ∀ p, w.port p = _ := fun p =>
    (State.port_congr same.ports p).trans (endedAlone_port u r c why p)
  have holds : ∀ p, t.hold p = if c.origin = p ∨ c.deskPort = some p then none else s.hold p :=
    fun p => by
      rw [← a.holds p, ← endedAlone_hold u r c why p]
      exact State.hold_congr (k.psw.trans same.psw) p
  have function : ∀ p, (u.port p).function = (s.port p).function := fun p => (a.ports p).1
  have raised : ∀ p, ((u.endRaised r c why).port p).function = (s.port p).function := fun p => by
    rw [← function p]
    rcases endRaised_port u r c why p with e | e <;> rw [e] <;> split <;> simp
  have present : ∀ p, ((u.endRaised r c why).port p).present = (s.port p).present := fun p => by
    rw [← (a.ports p).2.2.1]
    rcases endRaised_port u r c why p with e | e <;> rw [e] <;> split <;> simp
  exact {
    slot := by
      have e := k.slots r.slot
      rw [slots, if_pos rfl] at e
      obtain ⟨gen, last, call⟩ := e
      generalize t.slot r.slot = z at gen last call ⊢
      obtain ⟨g, l, d⟩ := z
      cases d with
      | none => subst gen; subst last; rfl
      | some d => exact call.elim
    others j ne := by
      have e := k.slots j
      rw [slots, if_neg (Ne.symm ne)] at e
      exact (a.others j ne).trans e
    origin := by rw [holds, if_pos (.inl rfl)]
    desk p d := by rw [holds, if_pos (.inr d)]
    holds p o d := by rw [holds, if_neg (by rintro (h | h); exacts [o h.symm, d h])]
    channels x := by
      obtain ⟨ha, hb, hq⟩ := a.paths x
      rw [State.paths_congr (k.psw.trans same.psw) x, endedAlone_paths, hq]
      congr 1
      · split
        · rfl
        · next ne => exact ha ne
      · split
        · rfl
        · next ne => exact hb ne
    joins := by
      rw [k.psw, same.psw, (endedAlone_lists u r c why).1, a.joins]
    deskQueue := by
      rw [k.psw, same.psw, (endedAlone_lists u r c why).2, a.desks]
    shows f d := by
      refine (k.ports _).shows _ ?_
      rw [ports, if_neg d]
      have placed := Port.place_shows (d := why.display) (p := u.port c.origin) (by rw [function]; exact f)
      rcases endRaised_port u r c why c.origin with e | e <;> rw [e, if_pos rfl]
      · exact placed
      · exact placed.takeAlert _
    deskShows p d f := by
      refine (k.ports _).shows _ ?_
      rw [ports, if_pos d]
      exact Port.place_shows (by rw [Port.placeRing_function, raised]; exact f)
    deskRings p d f h := by
      refine (k.ports _).rings _ ?_
      rw [ports, if_pos d]
      exact (Port.placeRing_rings (by rw [raised]; exact f) (by rw [present]; exact h)).place _
    raises := by
      refine Raises.of_settled (u := w) (same.tx.trans ((congrArg Hlp.tx (endedAlone_hlp ..)).trans a.tx))
        ?_ k
      rw [same.ntu, endedAlone_ntu]
      exact emit_ntu_congr a.ntu _
    cancels x home fault on due room held nodup := by
      obtain ⟨home', q⟩ := a.home x home
      have back := takeBackAtEnd_gives (s := u) (x := x) (r := r) (c := c) (why := why)
        ⟨by rw [q.link]; exact on, by rw [q.overrunDue]; exact due⟩ (by rw [q.queue]; exact room)
        (fun o ho w => by
          obtain ⟨kd, og, m⟩ := held o ho w
          exact ⟨kd, og, by rw [q.queue]; exact m⟩) nodup
      rw [← endFrames_riser u r c why home' fault] at back
      have clock : t.clock = u.clock := k.clock.trans (same.clock.trans (endedAlone_clock ..))
      rw [clock]
      refine (back.given.of_sameQueue q).framesGiven ?_ (endsCancels_frames c r why)
      have riser : w.riser x = (u.endFrames r c why).riser x :=
        State.riser_congr (same.risers.trans (endedAlone_risers ..)) x
      rw [← riser]
      exact k.risers x }

/-- What end processing does not read of a record. -/
theorem Ended.of_record {s t : State} {r : Ref} {c : Call} {why : EndReason} {leg : Leg}
    {state : CallState} {waitingFor : Option WaitingFor} {deskVisited : Bool} {timer : Option CallTimer}
    (h : Ended s t r { c with leg := leg, state := state, waitingFor := waitingFor
                              deskVisited := deskVisited, timer := timer } why) :
    Ended s t r c why :=
  ⟨h.slot, h.others, h.origin, h.desk, h.holds, h.channels, h.joins, h.deskQueue, h.shows, h.deskShows,
    h.deskRings, h.raises, h.cancels⟩

/-- The same, in a state that has been brought to the end by an event. -/
theorem endCall_ended {s u w t : State} {r : Ref} {c : Call} {why : EndReason}
    (a : EndsAlike s u r c) (hc : u.call? r = some c) (nw : u.NoWaiters r c)
    (same : SameButReplies (u.endCall r why) w) (k : Settled w t) : Ended s t r c why := by
  rw [endCall_alone hc nw] at same
  exact .of_alone a same k

end Sys2Proof.Machine
end

