-- ==== Sys2Proof/Proofs/ExpiredCalls.lean ====
section
/-!
SUPPORT. Ends that a request of the host, an expiry or a frame of a panel asks for (O44, O45).
-/

namespace Sys2Proof.Machine

/-! ## END CALL -/

/-- R171: making a reply ready moves nothing but the ready list. -/
theorem reply_settled (s : State) (kind num : Nat) (st : Status) (b : ReplyBody) :
    Settled s (s.reply kind num st b) := by
  refine ⟨rfl, rfl, rfl, rfl, rfl, rfl, rfl, rfl, rfl, rfl, rfl, rfl, rfl, rfl, ?_, rfl,
    fun _ => .refl _, fun _ => .refl _, fun _ => .refl _⟩
  simp [State.reply, State.makeReady, Hlp.replyLine]

theorem reply_replyLine (s : State) (kind num : Nat) (st : Status) (b : ReplyBody) :
    (s.reply kind num st b).hlp.replyLine = s.hlp.replyLine ++ [⟨kind, num, st, replyBody st b⟩] := by
  simp [State.reply, State.makeReady, Hlp.replyLine]

theorem reply_sameButReplies (s : State) (kind num : Nat) (st : Status) (b : ReplyBody) :
    SameButReplies s (s.reply kind num st b) := ⟨rfl, rfl, rfl, rfl, rfl, rfl, rfl⟩

/-- R171, R173: the reply of a request whose act left the host link follows those that were on their way. -/
theorem reply_leads {s a : State} (hlp : a.hlp = s.hlp) (kind num : Nat) (st : Status) (b : ReplyBody) :
    s.hlp.replyLine ++ [⟨kind, num, st, replyBody st b⟩] <+:
      (a.reply kind num st b).settle.hlp.replyLine := by
  rw [← hlp, ← reply_replyLine]
  exact (settle_settled _).replies

theorem endCall_hlp (s : State) (r : Ref) (why : EndReason) : (s.endCall r why).hlp = s.hlp :=
  (endCall_moves s r why).kept.hlp

/-- R26, R177: the reference that END CALL carries. -/
theorem endCallAct_of_ref {n g : Nat} {r : Ref} (hn : r.slot.val + 1 = n) (hg : r.gen.toNat = g)
    (s : State) :
    (s.call? r = none → s.endCallAct n g = (s, .notExecutable, .none)) ∧
      ∀ c, s.call? r = some c → s.endCallAct n g = (s.endCall r .forced, .ok, .ref r) := by
  have small : ¬ 255 < g := by
    have := r.gen.isLt
    omega
  have ref : ({ slot := r.slot, gen := byteOf g } : Ref) = r := by
    have gen : byteOf g = r.gen := by rw [← hg]; exact BitVec.ofNat_toNat _ _
    rw [gen]
  unfold State.endCallAct
  rw [← hn, slot?_val]
  dsimp only
  rw [if_neg small, ref]
  exact ⟨fun h => by rw [h], fun c h => by rw [h]⟩

/-- R26: a slot number or a generation that no reference has. -/
theorem endCallAct_badValue {n g : Nat} (h : n = 0 ∨ 16 < n ∨ 255 < g) (s : State) :
    s.endCallAct n g = (s, .badValue, .none) := by
  unfold State.endCallAct slot?
  split
  · rfl
  · next i hi =>
    split at hi
    · rw [if_pos (by omega)]
    · cases hi

/-- R171, R177: an END CALL that ends nothing is answered, and nothing else is changed. -/
theorem endCall_refused {num n g : Nat} {s : State} {st : Status} (h : s.Takes)
    (e : s.endCallAct n g = (s, st, .none)) (body : replyBody st .none = .none) :
    ∃ t, exec (.endCall num n g) s = .next t ∧ Settled s t ∧ Raises s t [] ∧
      s.hlp.replyLine ++ [⟨0x0C, num, st, .none⟩] <+: t.hlp.replyLine := by
  have eq : s.takeEndCall num n g = (s.reply 0x0C num st .none).settle := by
    simp only [State.takeEndCall, State.answer, e]
  have line := reply_leads (s := s) (a := s) rfl 0x0C num st .none
  rw [body] at line
  refine ⟨_, exec_taken h rfl, ?_⟩
  rw [eq]
  have k := (reply_settled s 0x0C num st .none).trans (settle_settled _)
  exact ⟨k, .of_settled (u := s) rfl rfl k, line⟩

/-- Settles O44: the three answers of END CALL's act. -/
theorem endCallRequestForcesTheEnd : Obligations.EndCallRequestForcesTheEnd := by
  intro num n g s h
  refine ⟨fun bad => endCall_refused h (endCallAct_badValue bad s) rfl, fun r hn hg =>
    ⟨fun stale => endCall_refused h ((endCallAct_of_ref hn hg s).1 stale) rfl, fun c hc nw => ?_⟩⟩
  have e := (endCallAct_of_ref hn hg s).2 c hc
  have eq : s.takeEndCall num n g = ((s.endCall r .forced).reply 0x0C num .ok (.ref r)).settle := by
    simp only [State.takeEndCall, State.answer, e]
  have k := settle_settled ((s.endCall r .forced).reply 0x0C num .ok (.ref r))
  have hlp := endCall_hlp s r .forced
  refine ⟨_, exec_taken h rfl, ?_⟩
  rw [eq]
  refine ⟨endCall_ended (.refl s r c) hc nw (reply_sameButReplies _ 0x0C num .ok (.ref r)) k, ?_,
    ⟨?_, ?_⟩, reply_leads hlp 0x0C num .ok (.ref r)⟩
  · exact k.buffer.trans ((congrArg Hlp.buffer hlp).trans h.2)
  · exact k.rx.trans (show (s.endCall r .forced).hlp.rx = _ by rw [hlp])
  · exact k.rxDeadline.trans (show (s.endCall r .forced).hlp.rxDeadline = _ by rw [hlp])

/-! ## Expiries of call timers -/

/-- R21: the state in which the rule of an expiry that runs is applied. -/
def State.expired (s : State) (r : Ref) (c : Call) (e : Nat) : State :=
  (s.advanceTo e).setCall r { c with timer := none }

/-- R21: the expiry of the timer that runs. -/
theorem onExpiry_runs {s : State} {r : Ref} {c : Call} {k : TimerKind} {e : Nat}
    (hc : s.call? r = some c) (ht : c.timer = some { kind := k, expiry := e })
    (act : State → Call → State) :
    s.onExpiry r k act = (act (s.expired r c e) { c with timer := none }).settle := by
  unfold State.onExpiry
  rw [hc]
  dsimp only
  rw [ht]
  dsimp only
  rw [if_pos rfl]
  rfl

/-- R21: any other expiry does nothing. -/
theorem onExpiry_idle {s : State} {r : Ref} {k : TimerKind}
    (h : ∀ c, s.call? r = some c → c.timer.map (fun t => t.kind) ≠ some k)
    (act : State → Call → State) : s.onExpiry r k act = s := by
  unfold State.onExpiry
  split
  · rfl
  · next c hc =>
    split
    · rfl
    · next t ht =>
      have other := h c hc
      rw [ht] at other
      exact if_neg fun e => other (congrArg some e)

theorem expired_call {s : State} {r : Ref} {c : Call} (hc : s.call? r = some c) (e : Nat) :
    (s.expired r c e).call? r = some { c with timer := none } := by
  have gen := ((s.call?_eq_some r c).1 hc).1
  unfold State.expired
  rw [State.call?_setCall, if_pos rfl, if_pos]
  exact gen

theorem expired_slot (s : State) (r : Ref) (c : Call) (e : Nat) {j : SlotIx} (ne : j ≠ r.slot) :
    (s.expired r c e).slot j = s.slot j := by
  unfold State.expired
  rw [State.slot_setCall, if_neg (Ne.symm ne)]
  rfl

/-- An end at an expiry is the end in the state before it. -/
theorem expired_endsAlike (s : State) (r : Ref) (c : Call) (e : Nat) :
    EndsAlike s (s.expired r c e) r { c with timer := none } where
  others j ne := by rw [expired_slot s r c e ne]; exact .refl _
  holds _ := rfl
  paths _ := ⟨fun _ => rfl, fun _ => rfl, rfl⟩
  joins := rfl
  desks := rfl
  ports _ := .refl _
  home _ h := ⟨h, .refl _⟩
  tx := rfl
  ntu := rfl

/-- R25: the same for a call that has left its wait queue. -/
theorem EndsAlike.leaveQueues {s u : State} {r : Ref} {c : Call} (h : EndsAlike s u r c) :
    EndsAlike s (u.leaveQueues r) r c where
  others := h.others
  holds := h.holds
  paths x := by
    obtain ⟨ha, hb, hq⟩ := h.paths x
    rw [State.paths_leaveQueues]
    exact ⟨ha, hb, by rw [← hq]; simp [List.filter_filter]⟩
  joins := h.joins
  desks := by
    rw [← h.desks]
    simp [State.leaveQueues, List.filter_filter]
  ports := h.ports
  home := h.home
  tx := h.tx
  ntu := h.ntu

/-- R21: an expiry that runs and ends its call. -/
theorem expiry_ends {s u : State} {r : Ref} {c : Call} {k : TimerKind} {e : Nat} {cmd : Instr}
    {why : EndReason} {act : State → Call → State} (hc : s.call? r = some c)
    (ht : c.timer = some { kind := k, expiry := e })
    (run : exec cmd s = .next (s.onExpiry r k act))
    (ended : act (s.expired r c e) { c with timer := none } = u.endCall r why)
    (live : u.call? r = some { c with timer := none })
    (alike : EndsAlike s u r { c with timer := none }) (nw : u.NoWaiters r c)
    (clock : u.clock = max s.clock e) :
    ∃ t, exec cmd s = .next t ∧ Ended s t r c why ∧ t.clock = max s.clock e := by
  rw [onExpiry_runs hc ht, ended] at run
  have k := settle_settled (u.endCall r why)
  have done := endCall_ended (c := { c with timer := none }) alike live nw (.refl _) k
  refine ⟨_, run, done.of_record, ?_⟩
  rw [k.clock, (endCall_moves u r why).kept.clock, clock]

/-- Settles O45: each expiry applies the one rule of its timer's kind. -/
theorem callTimerExpiryEndsTheCall : Obligations.CallTimerExpiryEndsTheCall := by
  refine ⟨fun r c s hc nw => ?_, fun r s => ⟨fun h => congrArg _ (onExpiry_idle h _),
    fun h => congrArg _ (onExpiry_idle h _), fun h => congrArg _ (onExpiry_idle h _),
    fun h => congrArg _ (onExpiry_idle h _)⟩⟩
  have alike := expired_endsAlike s r c
  have live := expired_call hc
  obtain ⟨desks, channels⟩ := nw
  have queues : ∀ e, ((s.expired r c e).leaveQueues r).NoWaiters r c := fun e =>
    ⟨fun q m => desks q (List.mem_filter.1 m).1, fun ch hch q m =>
      channels ch hch q (List.mem_filter.1 (by rwa [State.paths_leaveQueues] at m)).1⟩
  refine ⟨fun w e ht => ?_, fun w e ht => ?_, fun no e ht => ?_, fun e ht => ?_, fun e ht => ?_⟩
  · refine expiry_ends (u := (s.expired r c e).leaveQueues r) hc ht rfl ?_ (live e) (alike e).leaveQueues (queues e) rfl
    dsimp only
    rw [if_neg (by simp [w])]
  · refine expiry_ends (u := (s.expired r c e).leaveQueues r) hc ht rfl ?_ (live e) (alike e).leaveQueues (queues e) rfl
    dsimp only
    rw [if_pos w]
  · refine expiry_ends hc ht rfl ?_ (live e) (alike e) ⟨desks, channels⟩ rfl
    have stays : (s.expired r c e).diverts { c with timer := none } = false := by
      unfold State.diverts
      rcases no with no | no | no | no
      · simp [no]
      · simp [no]
      · have none : (s.expired r c e).hasDesk = false :=
          List.any_eq_false.2 fun p _ => by
            have same : (s.expired r c e).port p = s.port p := rfl
            rw [same]
            simpa using no p
        simp [none]
      · cases hf : c.flat with
        | none => simp
        | some i =>
          have : ((s.expired r c e).flat i).divert = false := no i hf
          simp [this]
    rw [stays]
    rfl
  · exact expiry_ends hc ht rfl rfl (live e) (alike e) ⟨desks, channels⟩ rfl
  · exact expiry_ends hc ht rfl rfl (live e) (alike e) ⟨desks, channels⟩ rfl

end Sys2Proof.Machine
end

