-- ==== Sys2Proof/Proofs/PanelPresence.lean ====
section
/-!
SUPPORT. What looking at the free lines leaves of each port record, and the presence of a panel (O48).
-/

namespace Sys2Proof.Machine

/-! ## The panel transmitters -/

theorem syncDone_ports (s : State) (r : RiserIx) (n : Nat) (o : MarkerOutcome) :
    (s.syncDone r n o).ports = s.ports := by
  unfold State.syncDone
  dsimp only
  split <;> rfl

theorem completeMarkers_ports (s : State) (r : RiserIx) : (s.completeMarkers r).ports = s.ports := by
  have fold : ∀ (l : List Nat) (t : State),
      (l.foldl (fun s n => s.syncDone r n .drained) t).ports = t.ports := fun l => by
    induction l with
    | nil => exact fun _ => rfl
    | cons n l ih => exact fun t => (ih _).trans (syncDone_ports ..)
  exact fold _ _

theorem modifyCall_ports (s : State) (r : Ref) (f : Call → Call) : (s.modifyCall r f).ports = s.ports := by
  unfold State.modifyCall
  split <;> rfl

theorem startTransmission_ports (s : State) (r : RiserIx) : (s.startTransmission r).ports = s.ports := by
  unfold State.startTransmission
  dsimp only
  split
  · split
    · split <;> rfl
    · split
      · rfl
      · split
        · unfold State.startSolicited
          split
          · exact modifyCall_ports ..
          · rfl
        · rfl
      · rfl
  · rfl

theorem goQuiet_ports (s : State) (r : RiserIx) : (s.goQuiet r).ports = s.ports := by
  unfold State.goQuiet
  dsimp only
  split <;> rfl

theorem settleRiser_ports (s : State) (r : RiserIx) : (s.settleRiser r).ports = s.ports :=
  (goQuiet_ports _ r).trans ((startTransmission_ports _ r).trans (completeMarkers_ports s r))

theorem settleRisers_ports (s : State) : s.settleRisers.ports = s.ports := by
  have fold : ∀ (l : List RiserIx) (t : State), (l.foldl State.settleRiser t).ports = t.ports :=
    fun l => by
      induction l with
      | nil => exact fun _ => rfl
      | cons r l ih => exact fun t => (ih _).trans (settleRiser_ports t r)
  exact fold _ s

theorem settlePanels_port (s : State) (p : PortIx) :
    s.settlePanels.port p = (s.port p).startTransmission := by
  simp only [State.settlePanels, State.port, Table.read_mapEach]

theorem settleLinks_port (s : State) (p : PortIx) :
    s.settleLinks.port p = (s.port p).startTransmission := by
  rw [← settlePanels_port]
  have same := (settleHost_moved s.settlePanels).same
  exact State.port_congr (show s.settleLinks.ports = _ by
    rw [State.settleLinks, same]) p

/-- R132: each panel line is looked at once. -/
theorem settle_port (s : State) (p : PortIx) : s.settle.port p = (s.port p).startTransmission := by
  rw [State.settle, settleLinks_port, State.port_congr (settleRisers_ports s) p]

theorem Port.startTransmission_absent {p : Port} (h : p.present = false) : p.startTransmission = p := by
  unfold Port.startTransmission
  rw [if_neg (by simp [h])]

/-- R121, R130: an ABSENT port is given no ring level and no alert. -/
theorem Port.placeRing_absent {p : Port} (h : p.present = false) (l : RingLevel) :
    Port.placeRing l p = p := by
  unfold Port.placeRing
  rw [if_neg (by simp [h])]

theorem Port.takeAlert_absent {p : Port} (h : p.present = false) (e : Event) :
    Port.takeAlert e p = p := by
  unfold Port.takeAlert
  rw [if_neg (by simp [h])]

theorem emit_port_absent {s : State} {p : PortIx} (h : (s.port p).present = false) (e : Event) :
    (s.emit e).port p = s.port p := by
  rcases emit_port s e p with k | k
  · exact k
  · rw [k, Port.takeAlert_absent h]

/-! ## A port that becomes PRESENT -/

/-- R184: routing an event touches the notices and the ports alone. -/
theorem emit_same (s : State) (e : Event) :
    s.emit e = { s with ntu := (s.emit e).ntu, ports := (s.emit e).ports } :=
  (emit_routed s e (k := e.kind.index) (Event.number_eq e).symm).1

theorem Port.takeAlert_intercept (e : Event) (p : Port) :
    (Port.takeAlert e p).intercept = p.intercept := by unfold Port.takeAlert; split <;> rfl

/-- The state in which a report of a panel's line sense has been taken, but for the event. -/
theorem panelPresent_takes {s : State} {p : PortIx} (h : (s.port p).present = false) :
    exec (.panelPresent p) s = .next
      (((((s.modifyPort p fun x => { x with present := true, check := true }).emit
        (.panelChange p (s.port p).function true true)).display p .service).ring p .off).settleLinks)
    := by
  simp only [exec, execPanelPresent, h, Bool.false_eq_true, if_false]

theorem panelPresent_shows {s : State} {p : PortIx} (h : (s.port p).present = false) :
    let x := s.port p
    ∃ t, exec (.panelPresent p) s = .next t ∧
      t = { s with ports := t.ports, hlp := t.hlp, ntu := t.ntu } ∧
      (t.port p).present = true ∧ (t.port p).check = true ∧
      (t.port p).function = x.function ∧ (t.port p).intercept = x.intercept ∧
      (x.function ≠ .off → (t.port p).Shows .service) ∧
      (x.function = .concierge → (t.port p).Rings .off) ∧
      (∀ q, q ≠ p → (s.port q).SameSettings (t.port q) ∧
        (t.port q).lastDisplay = (s.port q).lastDisplay) ∧
      t.hlp.replyLine = s.hlp.replyLine ∧ Raises s t [.panelChange p x.function true true] := by
  intro x
  refine ⟨_, panelPresent_takes h, ?_⟩
  have present : ((s.modifyPort p fun x => { x with present := true, check := true }).port p) =
      { x with present := true, check := true } := by rw [State.port_modifyPort, if_pos rfl]
  have others : ∀ q, q ≠ p →
      ((s.modifyPort p fun x => { x with present := true, check := true }).port q) = s.port q :=
    fun q ne => by rw [State.port_modifyPort, if_neg (Ne.symm ne)]
  have base : (s.modifyPort p fun x => { x with present := true, check := true }) =
      { s with ports := (s.modifyPort p fun x => { x with present := true, check := true }).ports } :=
    rfl
  generalize s.modifyPort p (fun x => { x with present := true, check := true }) = m
    at present others base ⊢
  have raised := emit_same m (.panelChange p (s.port p).function true true)
  have port := emit_port m (.panelChange p (s.port p).function true true)
  have ntu : (m.emit (.panelChange p x.function true true)).ntu =
      (s.emit (.panelChange p x.function true true)).ntu := emit_ntu_congr (by rw [base]) _
  generalize m.emit (.panelChange p (s.port p).function true true) = v at raised port ntu ⊢
  have here : ((v.display p .service).ring p .off).port p =
      Port.placeRing .off (Port.place .service (v.port p)) := by simp
  have there : ∀ q, q ≠ p → ((v.display p .service).ring p .off).port q = v.port q :=
    fun q ne => by simp [Ne.symm ne]
  have k := settleLinks_settled ((v.display p .service).ring p .off)
  have moved := settleHost_moved ((v.display p .service).ring p .off).settlePanels
  have shape : ∃ ps n, v = { s with ports := ps, ntu := n } :=
    ⟨v.ports, v.ntu, raised.trans (by rw [base])⟩
  have same : (((v.display p .service).ring p .off).settleLinks) = { s with
      ports := ((v.display p .service).ring p .off).settleLinks.ports
      hlp := ((v.display p .service).ring p .off).settleLinks.hlp
      ntu := ((v.display p .service).ring p .off).settleLinks.ntu } := by
    have ports : ((v.display p .service).ring p .off).settleLinks.ports =
        ((v.display p .service).ring p .off).settlePanels.ports := by
      rw [State.settleLinks, moved.same]
    rw [ports]
    refine moved.same.trans ?_
    obtain ⟨ps, n, rfl⟩ := shape
    rfl
  have settings : ∀ q, (m.port q).SameSettings (v.port q) := fun q => by
    rcases port q with e | e <;> rw [e]
    · exact .refl _
    · exact ⟨by simp, Port.takeAlert_intercept .., by simp, by simp⟩
  have got := k.ports p
  rw [here] at got
  obtain ⟨f, i, pr, ch⟩ := settings p
  rw [present] at f i pr ch
  obtain ⟨f', i', pr', ch'⟩ := got.settings
  simp only [Port.placeRing_function, Port.place_function, Port.placeRing_present, Port.place_present,
    Port.placeRing_check, Port.place_check] at f' pr' ch'
  refine ⟨same, pr'.trans pr, ch'.trans ch, f'.trans f, i'.trans ?_, fun on => got.shows _ ?_,
    fun desk => got.rings _ ?_, fun q ne => ?_, ?_, ?_⟩
  · exact ((Port.place_settings ..).trans (Port.placeRing_settings ..)).2.1.trans i
  · exact (Port.place_shows (by rw [f]; exact on)).placeRing _
  · exact Port.placeRing_rings (by rw [Port.place_function, f]; exact desk)
      (by rw [Port.place_present, pr])
  · have gotq := k.ports q
    rw [there q ne] at gotq
    rw [← others q ne]
    refine ⟨(settings q).trans gotq.settings, gotq.lastDisplay.trans ?_⟩
    rcases port q with e | e <;> rw [e]
    exact Port.takeAlert_lastDisplay ..
  · refine moved.replies.trans ?_
    obtain ⟨ps, n, rfl⟩ := shape
    rfl
  · refine .of_settled (u := (v.display p .service).ring p .off) ?_ ntu k
    obtain ⟨ps, n, rfl⟩ := shape
    rfl

/-! ## A port that becomes ABSENT -/

/-- R122: what a lost port holds when its call has ended: of its slots, the display slot at most. -/
theorem endedAlone_port_absent {s : State} {r : Ref} {c : Call} {why : EndReason} {p : PortIx}
    (h : (s.port p).present = false) : (s.endedAlone r c why).port p =
      if c.deskPort = some p then
        Port.place .ready (if c.origin = p then Port.place why.display (s.port p) else s.port p)
      else if c.origin = p then Port.place why.display (s.port p) else s.port p := by
  have shown : ∀ q : Port, q.present = false →
      (if c.origin = p then Port.place why.display q else q).present = false := fun q hq => by
    split
    · rw [Port.place_present, hq]
    · exact hq
  have raised : (s.endRaised r c why).port p =
      if c.origin = p then Port.place why.display (s.port p) else s.port p := by
    rcases endRaised_port s r c why p with e | e
    · exact e
    · rw [e, Port.takeAlert_absent (shown _ h)]
  rw [endedAlone_port, raised, Port.placeRing_absent (shown _ h)]

/-- R122: the slots of a port after a display state has been placed there. -/
theorem Port.place_slot {d : Display} {q : Port} (empty : q.displaySlot = none) :
    (Port.place d q).displaySlot = if q.function = .off then none else some d := by
  unfold Port.place
  split
  · exact empty
  · rfl

/-- What a PANEL_ABSENT event does to a port, but for its display slot. -/
structure Port.Lost (x q : Port) : Prop where
  present   : q.present = false
  check     : q.check = true
  function  : q.function = x.function
  intercept : q.intercept = x.intercept
  tx        : q.tx = none
  ringSlot  : q.ringSlot = none
  alertSlot : q.alertSlot = none
  receiving : q.receiving = none

theorem Port.goAbsent_lost (x : Port) : x.Lost x.goAbsent := ⟨rfl, rfl, rfl, rfl, rfl, rfl, rfl, rfl⟩

theorem Port.Lost.place {x q : Port} (h : x.Lost q) (d : Display) : x.Lost (Port.place d q) := by
  unfold Port.place
  split
  · exact h
  · exact ⟨h.present, h.check, h.function, h.intercept, h.tx, h.ringSlot, h.alertSlot, h.receiving⟩

/-- R122 step 4: the end of the call that holds a lost port. -/
theorem panelAbsent_ends {s : State} {p : PortIx} {r : Ref} {c : Call} {role : Role}
    (present : (s.port p).present = true) (held : s.hold p = some { call := r, role := role })
    (live : s.call? r = some c) (nw : s.NoWaiters r c) :
    let x := s.port p
    let u : State := { s with ports := s.ports.write p x.goAbsent }
    let placed : Option Display :=
      if x.function = .off then none
      else if c.deskPort = some p then some .ready
      else if c.origin = p then some .fault else none
    ∃ t, exec (.panelAbsent p) s = .next t ∧
      Ended (u.emit (.panelChange p x.function false true)) t r c role.lostReason ∧
      x.Lost (t.port p) ∧ (t.port p).displaySlot = placed := by
  intro x u placed
  have gone : u.port p = x.goAbsent := Table.read_write_same ..
  have absent : ((u.emit (.panelChange p x.function false true)).port p) = x.goAbsent :=
    (emit_port_absent (by rw [gone]; rfl) _).trans gone
  have psw : (u.emit (.panelChange p x.function false true)).psw = s.psw := by rw [State.emit_psw]
  have ccu : (u.emit (.panelChange p x.function false true)).ccu = s.ccu := by rw [State.emit_ccu]
  have run : exec (.panelAbsent p) s = .next
      ((u.emit (.panelChange p x.function false true)).endCall r role.lostReason).settle := by
    have at? : (u.emit (.panelChange p x.function false true)).callAt p = some (role, r, c) := by
      unfold State.callAt
      rw [State.hold_congr psw, held]
      dsimp only
      rw [State.call?_congr ccu, live]
    simp only [exec, execPanelAbsent, present, if_true]
    exact congrArg Host.Outcome.next (congrArg State.settle (by
      show (match (u.emit (.panelChange p x.function false true)).callAt p with
        | some (role, r, _) => (u.emit (.panelChange p x.function false true)).endCall r role.lostReason
        | none => _) = _
      rw [at?]))
  generalize u.emit (.panelChange p x.function false true) = v at absent psw ccu run ⊢
  have nw' : v.NoWaiters r c := by
    obtain ⟨desks, channels⟩ := nw
    exact ⟨by rw [psw]; exact desks, fun ch hch => by
      rw [State.paths_congr psw]
      exact channels ch hch⟩
  have live' : v.call? r = some c := (State.call?_congr ccu r).trans live
  refine ⟨_, run, endCall_ended (.refl v r c) live' nw' (.refl _) (settle_settled _), ?_⟩
  have port : (v.endCall r role.lostReason).settle.port p =
      if c.deskPort = some p then
        Port.place .ready (if c.origin = p then Port.place .fault x.goAbsent else x.goAbsent)
      else if c.origin = p then Port.place .fault x.goAbsent else x.goAbsent := by
    have fault : role.lostReason.display = .fault := by cases role <;> rfl
    have slots := endedAlone_port_absent (r := r) (c := c) (why := role.lostReason)
      (show (v.port p).present = false by rw [absent]; rfl)
    rw [absent, fault, ← endCall_alone live' nw'] at slots
    rw [settle_port, slots]
    refine Port.startTransmission_absent ?_
    split <;> split <;> simp [Port.goAbsent]
  rw [port]
  have lost := x.goAbsent_lost
  constructor
  · split <;> split
    · exact (lost.place _).place _
    · exact lost.place _
    · exact lost.place _
    · exact lost
  · have empty : x.goAbsent.displaySlot = none := rfl
    have function : x.goAbsent.function = x.function := rfl
    by_cases off : x.function = .off <;> by_cases d : c.deskPort = some p <;>
      by_cases o : c.origin = p <;>
      simp [placed, Port.place, function, off, d, o, empty]

/-- R122: a lost port that no call holds. -/
theorem panelAbsent_free {s : State} {p : PortIx} (present : (s.port p).present = true)
    (free : s.hold p = none) :
    let x := s.port p
    let u : State := { s with ports := s.ports.write p x.goAbsent }
    ∃ t, exec (.panelAbsent p) s = .next t ∧
      Settled (u.emit (.panelChange p x.function false true)) t ∧
      ((t.port p).present = false ∧ (t.port p).check = true ∧
        (t.port p).function = x.function ∧ (t.port p).intercept = x.intercept ∧
        (t.port p).tx = none ∧ (t.port p).ringSlot = none ∧ (t.port p).alertSlot = none ∧
        (t.port p).receiving = none) ∧
      (t.port p).displaySlot = none ∧ (t.port p).lastDisplay = x.lastDisplay := by
  intro x u
  have gone : u.port p = x.goAbsent := Table.read_write_same ..
  have absent : ((u.emit (.panelChange p x.function false true)).port p) = x.goAbsent :=
    (emit_port_absent (by rw [gone]; rfl) _).trans gone
  have psw : (u.emit (.panelChange p x.function false true)).psw = s.psw := by rw [State.emit_psw]
  have run : exec (.panelAbsent p) s = .next
      (u.emit (.panelChange p x.function false true)).settle := by
    have at? : (u.emit (.panelChange p x.function false true)).callAt p = none := by
      unfold State.callAt
      rw [State.hold_congr psw, free]
    simp only [exec, execPanelAbsent, present, if_true]
    exact congrArg Host.Outcome.next (congrArg State.settle (by
      show (match (u.emit (.panelChange p x.function false true)).callAt p with
        | some (role, r, _) => (u.emit (.panelChange p x.function false true)).endCall r role.lostReason
        | none => _) = _
      rw [at?]
      rfl))
  generalize u.emit (.panelChange p x.function false true) = v at absent run ⊢
  have port : v.settle.port p = x.goAbsent := by
    rw [settle_port, absent]
    exact Port.startTransmission_absent rfl
  refine ⟨_, run, settle_settled v, ?_⟩
  rw [port]
  exact ⟨⟨rfl, rfl, rfl, rfl, rfl, rfl, rfl, rfl⟩, rfl, rfl⟩

/-- Settles O48: one case for each report of a panel's line sense. -/
theorem presenceChangesSetTheCheckFlag : Obligations.PresenceChangesSetTheCheckFlag := by
  intro p s
  refine ⟨⟨fun h => ?_, fun h => ?_⟩, panelPresent_shows, fun present => ⟨fun free => ?_, ?_⟩⟩
  · simp only [exec, execPanelPresent, h, if_true]
  · simp only [exec, execPanelAbsent, h, Bool.false_eq_true, if_false]
  · exact panelAbsent_free present free
  · intro r c live nw
    refine ⟨fun held => ?_, fun held => ?_⟩ <;>
    · obtain ⟨t, run, ended, lost, slot⟩ := panelAbsent_ends present held live nw
      exact ⟨t, run, ended, ⟨lost.present, lost.check, lost.function, lost.intercept, lost.tx,
        lost.ringSlot, lost.alertSlot, lost.receiving⟩, slot⟩

end Sys2Proof.Machine
end

