-- ==== Sys2Proof/Proofs/StationsHeard.lean ====
section
/-!
SUPPORT. A frame of a station on an ACTIVE riser: what is done before it is handled by its kind (R74, R76,
R91, R92), and HANGUP (O50).
-/

namespace Sys2Proof.Machine

/-! ## A station heard -/

/-- What the hearing of a station at an ACTIVE riser leaves as it was. -/
theorem Riser.heard_active {x : Riser} (h : x.link = .active) (now a : Nat) (b : Bool) :
    x.heard now a b =
      { x with
        receiving := none
        idleTimer := if b then some (now + x.quietIdleS * 1000) else x.idleTimer
        runOut := if b then false else x.runOut
        stations := (x.modifyStation a fun t => { t with presence := .present }).stations } := by
  have awake : ¬ (x.link = .quiet ∨ x.link = .waking) := by simp [h]
  unfold Riser.heard
  simp only [awake, or_false, if_false, false_and]
  rw [← h]

theorem Riser.modifyStation_eq (x : Riser) (a : Nat) (f : Station → Station) :
    x.modifyStation a f = { x with stations := (x.modifyStation a f).stations } := by
  unfold Riser.modifyStation
  split <;> rfl

theorem modifyStation_received (y : Riser) (a : Nat) (f : Station → Station) :
    (({ y with receiving := none } : Riser).modifyStation a f).stations =
      (y.modifyStation a f).stations := by
  unfold Riser.modifyStation
  split <;> rfl

/-- R92: STATION_CHANGE is raised for a station that was ABSENT. -/
def State.noted (s : State) (x : RiserIx) (a : Nat) : State :=
  if ((s.riser x).station a).presence = .absent then s.emit (.stationChange x a .present) else s

theorem noted_risers (s : State) (x : RiserIx) (a : Nat) : (s.noted x a).risers = s.risers := by
  unfold State.noted
  split
  · rw [State.emit_risers]
  · rfl

theorem noted_clock (s : State) (x : RiserIx) (a : Nat) : (s.noted x a).clock = s.clock := by
  unfold State.noted
  split
  · rw [State.emit_clock]
  · rfl

theorem heard_eq (s : State) (x : RiserIx) (a : Nat) (b : Bool) : s.heard x a b =
    { s.noted x a with risers := s.risers.write x ((s.riser x).heard s.clock a b) } := by
  unfold State.heard State.noted
  dsimp only
  split
  · exact emit_withRisers ..
  · rfl

theorem heard_riser (s : State) (x : RiserIx) (a : Nat) (b : Bool) (y : RiserIx) :
    (s.heard x a b).riser y = if x = y then (s.riser x).heard s.clock a b else s.riser y := by
  rw [heard_eq]
  exact Table.read_write ..

/-- R74: a frame that restarts the idle timer does so after the station is PRESENT. -/
theorem startIdle_heard {s : State} {x : RiserIx} (h : (s.riser x).link = .active) (a : Nat) :
    (s.heard x a false).startIdle x = s.heard x a true := by
  have riser := heard_riser s x a false x
  rw [if_pos rfl] at riser
  have link : ((s.riser x).heard s.clock a false).link = .active := rfl
  unfold State.startIdle
  rw [riser, if_pos link]
  rw [heard_eq, heard_eq]
  unfold State.modifyRiser
  simp only [Table.read_write_same, Table.write_write]
  refine congrArg (fun y => { s.noted x a with risers := s.risers.write x y }) ?_
  show _ = (s.riser x).heard s.clock a true
  rw [Riser.heard_active h, Riser.heard_active h, State.inSeconds]
  show _ = _
  simp only [noted_clock, if_true]

/-- R74, R76, R91, R92: a frame that is taken at an ACTIVE riser. -/
theorem takeStationFrame_heard {s : State} {x : RiserIx} (h : (s.riser x).link = .active) (a : Nat)
    (b : Bool) : s.takeStationFrame x a b = s.heard x a b := by
  have awake : ¬ ((s.riser x).link = .quiet ∨ (s.riser x).link = .waking) := by simp [h]
  have received : (s.modifyRiser x fun y => { y with receiving := none }).stationHeard x a =
      s.heard x a false := by
    unfold State.stationHeard State.heard
    have same : (((s.modifyRiser x fun y => { y with receiving := none }).riser x).station a) =
        (s.riser x).station a := by
      rw [State.riser_modifyRiser, if_pos rfl]
      rfl
    have put : ((s.modifyRiser x fun y => { y with receiving := none }).modifyRiser x fun y =>
        y.modifyStation a fun t => { t with presence := .present }) =
        { s with risers := s.risers.write x ((s.riser x).heard s.clock a false) } := by
      rw [State.modifyRiser_modifyRiser, Riser.heard_active h]
      refine congrArg (fun y => { s with risers := s.risers.write x y }) ?_
      dsimp only
      rw [Riser.modifyStation_eq, modifyStation_received]
      rfl
    dsimp only
    rw [same, put]
  unfold State.takeStationFrame
  dsimp only
  rw [if_neg awake, received]
  cases b with
  | false => rfl
  | true =>
    rw [if_pos rfl, startIdle_heard h]

/-- R78, R91: a frame of a station that is taken. -/
theorem onStationFrame_taken {s : State} {x : RiserIx} {a : Nat} (active : (s.riser x).link = .active)
    (due : (s.riser x).overrunDue = false) (free : (s.riser x).tx = none) (low : 1 ≤ a) (high : a ≤ 62)
    (act : State → State) : s.onStationFrame x a act = (act s).settle := by
  have idle : s.overrunFirst x = s := by
    unfold State.overrunFirst
    rw [if_neg (by simp [due])]
  have address : isStation a = true := by
    simp [isStation, Config.lastStation, low, high]
  unfold State.onStationFrame
  dsimp only
  rw [idle, if_neg (by simp [active, free, LinkState.isOff]), if_pos address]

/-! ## What the hearing leaves -/

section
variable {s : State} {x : RiserIx} {a : Nat}

theorem noted_quiet (h : ((s.riser x).station a).presence ≠ .absent) : s.noted x a = s := if_neg h

theorem noted_same (s : State) (x : RiserIx) (a : Nat) :
    s.noted x a = { s with ntu := (s.noted x a).ntu, ports := (s.noted x a).ports } := by
  unfold State.noted
  split
  · exact emit_same ..
  · rfl

/-- A station that was not ABSENT is heard without an event. -/
theorem heard_quiet (h : ((s.riser x).station a).presence ≠ .absent) (b : Bool) : s.heard x a b =
    { s with risers := s.risers.write x ((s.riser x).heard s.clock a b) } := by
  rw [heard_eq, noted_quiet h]

theorem heard_blocks (h : ((s.riser x).station a).presence ≠ .absent) (b : Bool) :
    (s.heard x a b).ccu = s.ccu ∧ (s.heard x a b).dir = s.dir ∧ (s.heard x a b).psw = s.psw ∧
      (s.heard x a b).ports = s.ports ∧ (s.heard x a b).locks = s.locks ∧
      (s.heard x a b).hlp = s.hlp ∧ (s.heard x a b).ntu = s.ntu := by
  rw [heard_quiet h]
  exact ⟨rfl, rfl, rfl, rfl, rfl, rfl, rfl⟩

theorem heard_presence (low : 1 ≤ a) (high : a ≤ 62) (b : Bool) :
    (((s.heard x a b).riser x).station a).presence = .present := by
  rw [heard_riser, if_pos rfl]
  show (((s.riser x).modifyStation a fun t => { t with presence := .present }).station a).presence = _
  rw [station_modifyStation _ ⟨low, high⟩, if_pos rfl]

theorem heard_sameQueue (h : (s.riser x).link = .active) (b : Bool) (y : RiserIx) :
    (s.riser y).SameQueue ((s.heard x a b).riser y) := by
  rw [heard_riser]
  split
  · next e =>
    subst e
    exact ⟨rfl, rfl, rfl, rfl, rfl, h.symm⟩
  · exact .refl _

theorem heard_idle (h : (s.riser x).link = .active) :
    ((s.heard x a true).riser x).idleTimer = some (s.clock + (s.riser x).quietIdleS * 1000) ∧
      ((s.heard x a true).riser x).runOut = false := by
  rw [heard_riser, if_pos rfl, Riser.heard_active h]
  exact ⟨rfl, rfl⟩

/-- R99: the call a station is in is a matter of the call records and the flats. -/
theorem stationsCall?_congr {t u : State} (ccu : u.ccu = t.ccu) (dir : u.dir = t.dir) (y : RiserIx)
    (b : Nat) : u.stationsCall? y b = t.stationsCall? y b := by
  have live : u.liveCalls = t.liveCalls := by
    unfold State.liveCalls
    simp only [State.slot_congr ccu]
  have home : ∀ c, u.riserOfCall c = t.riserOfCall c := fun c => by
    unfold State.riserOfCall
    simp only [State.flat_congr dir]
  unfold State.stationsCall? State.isStationsCall
  simp only [live, home]

end

/-- R74: a riser whose run-out mark is clear keeps its link state and its timers at the end of an event. -/
theorem RiserSettled.awake {x y : Riser} (h : RiserSettled x y) (mark : x.runOut = false) :
    y.link = x.link ∧ y.idleTimer = x.idleTimer ∧ y.stepTimer = x.stepTimer ∧ y.runOut = x.runOut := by
  rcases h.link with k | k
  · exact k
  · exact absurd (mark.symm.trans k.2.1) (by simp)

theorem RiserSettled.station {x y : Riser} (h : RiserSettled x y) (a : Nat) :
    y.station a = x.station a := by
  obtain ⟨-, -, -, -, -, stations, -⟩ := h.settings
  unfold Riser.station
  rw [stations]

theorem Riser.SameSettings.station {x y : Riser} (h : x.SameSettings y) (a : Nat) :
    y.station a = x.station a := by
  obtain ⟨-, -, -, -, -, stations, -⟩ := h
  unfold Riser.station
  rw [stations]

/-- A state with the same calls, paths, ports and notices, whose risers take frames alike. -/
theorem EndsAlike.of_blocks {s u : State} {r : Ref} (c : Call) (ccu : u.ccu = s.ccu)
    (dir : u.dir = s.dir) (psw : u.psw = s.psw) (ports : u.ports = s.ports)
    (risers : ∀ y, (s.riser y).SameQueue (u.riser y)) (hlp : u.hlp = s.hlp) (ntu : u.ntu = s.ntu) :
    EndsAlike s u r c where
  others j _ := by rw [State.slot_congr ccu j]; exact .refl _
  holds := State.hold_congr psw
  paths x := by rw [State.paths_congr psw]; exact ⟨fun _ => rfl, fun _ => rfl, rfl⟩
  joins := by rw [psw]
  desks := by rw [psw]
  ports p := by rw [State.port_congr ports]; exact .refl _
  home x h := ⟨by
    rw [← h]
    unfold State.riserOfCall
    simp only [State.flat_congr dir], risers x⟩
  tx := by rw [hlp]
  ntu := ntu

/-! ## HANGUP -/

/-- Settles O50: a HANGUP is heard, and then ends the station's call if it has one. -/
theorem hangupEndsTheStationsCall : Obligations.HangupEndsTheStationsCall := by
  intro x a s active due free low high there
  have run : exec (.stationHangup x a) s = .next ((s.heard x a true).hangup x a).settle := by
    simp only [exec, execStationHangup]
    rw [onStationFrame_taken active due free low high, takeStationFrame_heard active]
  have present := heard_presence (s := s) (x := x) low high true
  have queue := fun y => heard_sameQueue (a := a) active true y
  have idle := heard_idle (a := a) active
  obtain ⟨ccu, dir, psw, ports, locks, hlp, ntu⟩ := heard_blocks there true
  generalize s.heard x a true = u at run present queue idle ccu dir psw ports locks hlp ntu
  have station : u.stationsCall? x a = s.stationsCall? x a := stationsCall?_congr ccu dir x a
  refine ⟨fun r c at? live nw => ?_, fun at? => ?_⟩
  · have act : u.hangup x a = u.endCall r .clearedAnswererHungUp := by
      unfold State.hangup
      rw [station, at?]
    rw [act] at run
    have k := settle_settled (u.endCall r .clearedAnswererHungUp)
    refine ⟨_, run, endCall_ended (.of_blocks c ccu dir psw ports queue hlp ntu)
      ((State.call?_congr ccu r).trans live) ?_ (.refl _) k, ?_⟩
    · obtain ⟨desks, channels⟩ := nw
      exact ⟨by rw [psw]; exact desks, fun ch hch => by
        rw [State.paths_congr psw]
        exact channels ch hch⟩
    · rw [(k.risers x).station, ((endCall_moves ..).callEventKept.risers x).station, present]
  · have act : u.hangup x a = u := by
      unfold State.hangup
      rw [station, at?]
    rw [act] at run
    have k := settle_settled u
    refine ⟨_, run, k.psw.trans psw, k.locks.trans locks, fun j => ?_, ?_, ?_, ?_, ?_⟩
    · rw [← State.slot_congr ccu j]
      exact k.slots j
    · rw [(k.risers x).frames, Riser.frames, (queue x).queue]
      rfl
    · rw [(k.risers x).station, present]
    · rw [((k.risers x).awake idle.2).2.1, idle.1]
    · exact .of_settled (by rw [hlp]) ntu k

end Sys2Proof.Machine
end

