-- ==== Sys2Proof/Proofs/QuietRisers.lean ====
section
/-!
SUPPORT. The timers and the link state of a riser over the events of calls, and at the end of an event at
which it may go QUIET (R74); and when the looking at a free line starts no request (R78, R80).
-/

namespace Sys2Proof.Machine

/-! ## Over the events of calls -/

/-- The same link state, with the timers and the mark of an ACTIVE riser. -/
def Riser.SameAwake (x y : Riser) : Prop :=
  y.link = x.link ∧ y.idleTimer = x.idleTimer ∧ y.stepTimer = x.stepTimer ∧ y.runOut = x.runOut

theorem Riser.SameAwake.refl (x : Riser) : x.SameAwake x := ⟨rfl, rfl, rfl, rfl⟩

theorem Riser.SameAwake.trans {x y z : Riser} (h : x.SameAwake y) (k : y.SameAwake z) :
    x.SameAwake z := by
  obtain ⟨a, b, c, d⟩ := h
  obtain ⟨e, f, g, i⟩ := k
  exact ⟨e.trans a, f.trans b, g.trans c, i.trans d⟩

theorem Riser.SameAwake.modify {s : State} {r : RiserIx} {f : Riser → Riser}
    (h : (s.riser r).SameAwake (f (s.riser r))) (x : RiserIx) :
    (s.riser x).SameAwake ((s.modifyRiser r f).riser x) := by
  rw [State.riser_modifyRiser]
  split
  · next e => exact e ▸ h
  · exact .refl _

/-- R74: no call event changes the link state or a timer of an ACTIVE riser. -/
theorem CallMove.awake {s t : State} (m : CallMove s t) {x : RiserIx}
    (h : (s.riser x).link = .active) : (s.riser x).SameAwake (t.riser x) := by
  cases m
  case wake r =>
    unfold State.startWake
    split
    · next q =>
      rw [State.riser_modifyRiser]
      split
      · next e =>
        subst e
        exact absurd (h.symm.trans q) (by simp)
      · exact .refl _
    · exact .refl _
  case frame r e _ _ _ => exact .modify (f := fun y =>
      { y with queue := y.queue ++ [{ entry := e, sending := false }] }) ⟨rfl, rfl, rfl, rfl⟩ x
  case overrun r _ _ =>
    exact .modify (f := fun y => { y with overrunDue := true }) ⟨rfl, rfl, rfl, rfl⟩ x
  case cancelMark r n a c =>
    exact .modify (f := fun y => y.markCancel n a c) ⟨rfl, rfl, rfl, rfl⟩ x
  case withdrawn r a c => exact .modify (f := fun y =>
      { y with queue := y.queue.eraseP fun i => i.isWaitingOffer a c }) ⟨rfl, rfl, rfl, rfl⟩ x
  all_goals exact .refl _

theorem CallMoves.awake {s t : State} (m : CallMoves s t) {x : RiserIx}
    (h : (s.riser x).link = .active) : (s.riser x).SameAwake (t.riser x) := by
  induction m with
  | refl => exact .refl _
  | tail _ n ih => exact ih.trans (n.awake (ih.1.trans h))

/-! ## One riser's turn at the end of an event -/

theorem completeMarkers_rest (s : State) (r : RiserIx) :
    (s.completeMarkers r).risers =
        (s.modifyRiser r fun x => { x with queue := (drainMarkers x.queue).2 }).risers ∧
      (s.completeMarkers r).psw = s.psw := by
  have fold : ∀ (l : List Nat) (t : State),
      (l.foldl (fun s n => s.syncDone r n .drained) t).risers = t.risers ∧
        (l.foldl (fun s n => s.syncDone r n .drained) t).psw = t.psw := fun l => by
    induction l with
    | nil => exact fun _ => ⟨rfl, rfl⟩
    | cons n l ih =>
      intro t
      have one : (t.syncDone r n .drained).risers = t.risers ∧
          (t.syncDone r n .drained).psw = t.psw := by
        unfold State.syncDone
        dsimp only
        split <;> exact ⟨rfl, rfl⟩
      exact ⟨(ih _).1.trans one.1, (ih _).2.trans one.2⟩
  exact fold _ _

theorem modifyCall_risers (s : State) (r : Ref) (f : Call → Call) :
    (s.modifyCall r f).risers = s.risers := by
  unfold State.modifyCall
  split <;> rfl

theorem startSolicited_risers (s : State) (r : RiserIx) (f : Solicited) (tag : Nat) (rest : List Nat)
    (q : List QueueItem) : (s.startSolicited r f tag rest q).risers = s.risers.write r
      { s.riser r with
        queue := q
        freeTags := rest
        outstanding := (s.riser r).outstanding ++
          [{ tag := tag, frame := f, attempt := 1, cancelPending := false, timer := none }]
        tx := some (.entry (.solicited tag f)) } := by
  unfold State.startSolicited
  dsimp only
  split
  · exact modifyCall_risers ..
  · rfl

/-- The start of a transmission touches its own riser, and there no timer and not the link state. -/
theorem startTransmission_riser (s : State) (r : RiserIx) :
    ∃ y, (s.startTransmission r).risers = s.risers.write r y ∧ (s.riser r).SameAwake y ∧
      ((s.riser r).queue = [] → y.queue = []) := by
  have same : s.risers = s.risers.write r (s.riser r) := (Table.write_read_self ..).symm
  have some_left : ∀ {b : Bool} {e : QueueEntry} {q : List QueueItem},
      sendingRule b (s.riser r).queue = some (e, q) → (s.riser r).queue ≠ [] := fun h k => by
    rw [k] at h
    cases h
  unfold State.startTransmission
  dsimp only
  split
  · split
    · split
      · exact ⟨_, rfl, ⟨rfl, rfl, rfl, rfl⟩, id⟩
      · exact ⟨_, same, .refl _, id⟩
    · split
      · next h => exact ⟨_, rfl, ⟨rfl, rfl, rfl, rfl⟩, fun k => absurd k (some_left h)⟩
      · next h =>
        split
        · exact ⟨_, startSolicited_risers .., ⟨rfl, rfl, rfl, rfl⟩, fun k => absurd k (some_left h)⟩
        · exact ⟨_, same, .refl _, id⟩
      · exact ⟨_, same, .refl _, id⟩
  · exact ⟨_, same, .refl _, id⟩

theorem goQuiet_other (s : State) {r x : RiserIx} (ne : r ≠ x) : (s.goQuiet r).riser x = s.riser x := by
  unfold State.goQuiet
  dsimp only
  split
  · rw [State.riser_modifyRiser, if_neg ne]
  · rfl

/-- A riser's turn leaves the other risers. -/
theorem settleRiser_other (s : State) {r x : RiserIx} (ne : r ≠ x) :
    (s.settleRiser r).riser x = s.riser x := by
  obtain ⟨y, risers, -⟩ := startTransmission_riser (s.completeMarkers r) r
  rw [State.settleRiser, goQuiet_other _ ne, State.riser, risers, Table.read_write_ne _ _ ne,
    (completeMarkers_rest s r).1]
  exact (State.riser_modifyRiser ..).trans (if_neg ne)

/-- With no frame left, the markers of a queue complete and the queue is empty (R87). -/
theorem drainMarkers_empty {q : List QueueItem}
    (h : (q.map fun i => i.entry).filter QueueEntry.isFrame = []) : (drainMarkers q).2 = [] := by
  induction q with
  | nil => rfl
  | cons i q ih =>
    obtain ⟨e, sending⟩ := i
    unfold drainMarkers
    cases e with
    | marker n => exact ih (by simpa [QueueEntry.isFrame] using h)
    | advisory f => simp [QueueEntry.isFrame] at h
    | solicited f => simp [QueueEntry.isFrame] at h

/-- R71: no call uses a channel of a riser. -/
theorem riserInUse_iff (s : State) (r : RiserIx) : s.riserInUse r = false ↔
    s.paths r = { holderA := none, holderB := none, queue := [] } := by
  unfold State.riserInUse
  generalize s.paths r = p
  obtain ⟨a, b, q⟩ := p
  cases a <;> cases b <;> cases q <;> simp

/-- R74: whether a riser goes QUIET in its turn is told by what is left there after it. -/
theorem settleRiser_quietIf {s : State} {r : RiserIx} (h : (s.riser r).link = .active) :
    (s.riser r).QuietIf ((s.settleRiser r).riser r)
      (((s.settleRiser r).riser r).frames = [] ∧ ((s.settleRiser r).riser r).outstanding = [] ∧
        s.paths r = { holderA := none, holderB := none, queue := [] }) := by
  obtain ⟨risers, psw⟩ := completeMarkers_rest s r
  have drained : (s.completeMarkers r).riser r =
      { s.riser r with queue := (drainMarkers (s.riser r).queue).2 } :=
    (State.riser_congr risers r).trans ((State.riser_modifyRiser ..).trans (if_pos rfl))
  have first := (completeMarkers_settled s r).trans (startTransmission_settled _ r)
  have frames := (first.risers r).frames
  have use := State.paths_congr first.psw r
  obtain ⟨-, -, allowed, -⟩ := (first.risers r).settings
  obtain ⟨y, sent, awake, empty⟩ := startTransmission_riser (s.completeMarkers r) r
  have riser : ((s.completeMarkers r).startTransmission r).riser r = y := by
    rw [State.riser, sent, Table.read_write_same]
  rw [drained] at awake empty
  have quiet := goQuiet_quietIf ((s.completeMarkers r).startTransmission r) r
    (by rw [riser]; exact awake.1.trans h)
  have last := (goQuiet_settled ((s.completeMarkers r).startTransmission r) r).risers r
  unfold State.settleRiser
  generalize (s.completeMarkers r).startTransmission r = w at quiet last frames use allowed riser ⊢
  have same : (s.riser r).SameAwake (w.riser r) := by rw [riser]; exact awake
  obtain ⟨link, idle, step, mark⟩ := same
  have left : ((w.goQuiet r).riser r).outstanding = (w.riser r).outstanding := by
    unfold State.goQuiet
    dsimp only
    split
    · rw [State.riser_modifyRiser, if_pos rfl]
    · rfl
  have queue : (w.riser r).queue = [] ↔ ((w.goQuiet r).riser r).frames = [] := by
    rw [last.frames]
    constructor
    · intro k
      rw [Riser.frames, k]
      rfl
    · intro k
      rw [riser]
      refine empty (drainMarkers_empty ?_)
      rw [frames] at k
      exact k
  unfold Riser.QuietIf at quiet ⊢
  dsimp only at quiet ⊢
  rw [mark, idle, step, allowed, queue, ← left, riserInUse_iff, use] at quiet
  exact quiet

theorem settleRisers_other {l : List RiserIx} {r : RiserIx} (out : r ∉ l) (s : State) :
    (l.foldl State.settleRiser s).riser r = s.riser r := by
  induction l generalizing s with
  | nil => rfl
  | cons i l ih =>
    have ne : r ≠ i := List.ne_of_not_mem_cons out
    exact (ih (List.not_mem_of_not_mem_cons out) _).trans (settleRiser_other s (Ne.symm ne))

/-- Each riser has one turn, in which it is as it was when the event had been taken. -/
theorem settleRisers_turn {l : List RiserIx} (u : l.Nodup) (s : State) {r : RiserIx} (m : r ∈ l) :
    ∃ w : State, w.riser r = s.riser r ∧ w.psw = s.psw ∧
      (l.foldl State.settleRiser s).riser r = (w.settleRiser r).riser r := by
  induction l generalizing s with
  | nil => cases m
  | cons i l ih =>
    obtain ⟨out, u⟩ := List.nodup_cons.1 u
    rw [List.foldl_cons]
    by_cases e : r = i
    · subst e
      exact ⟨s, rfl, rfl, settleRisers_other out _⟩
    · obtain ⟨w, riser, psw, turn⟩ := ih u (s.settleRiser i) ((List.mem_cons.1 m).resolve_left e)
      exact ⟨w, riser.trans (settleRiser_other s (Ne.symm e)),
        psw.trans (settleRiser_settled s i).psw, turn⟩

theorem settleLinks_risers (s : State) : s.settleLinks.risers = s.risers := by
  rw [State.settleLinks, (settleHost_moved _).same]
  rfl

theorem settle_risers (s : State) : s.settle.risers = s.settleRisers.risers := by
  rw [State.settle]
  exact settleLinks_risers _

theorem settle_turn (s : State) (r : RiserIx) :
    ∃ w : State, w.riser r = s.riser r ∧ w.psw = s.psw ∧ s.settle.riser r = (w.settleRiser r).riser r := by
  obtain ⟨w, riser, psw, turn⟩ := settleRisers_turn (List.nodup_finRange 6) s (List.mem_finRange r)
  exact ⟨w, riser, psw, (State.riser_congr (settle_risers s) r).trans turn⟩

/-- R74: whether an ACTIVE riser goes QUIET at the end of an event is told by what is left there then. -/
theorem settle_quietIf {s : State} {r : RiserIx} (h : (s.riser r).link = .active) :
    (s.riser r).QuietIf (s.settle.riser r) ((s.settle.riser r).frames = [] ∧
      (s.settle.riser r).outstanding = [] ∧
      s.settle.paths r = { holderA := none, holderB := none, queue := [] }) := by
  obtain ⟨w, riser, psw, turn⟩ := settle_turn s r
  have quiet := settleRiser_quietIf (s := w) (r := r) (by rw [riser]; exact h)
  rw [riser, ← turn, State.paths_congr psw, ← State.paths_congr (settle_settled s).psw] at quiet
  exact quiet

/-- R78, R82: a resend that is due goes out first on a free line. -/
theorem settle_resends {s : State} {r : RiserIx} (h : (s.riser r).link = .active)
    (free : (s.riser r).tx = none) (idle : (s.riser r).receiving = none) {tag : Nat} {rest : List Nat}
    {f : Solicited} (due : (s.riser r).resends = tag :: rest)
    (frame : (s.riser r).frameOf tag = some f) :
    (s.settle.riser r).tx = some (.resend (.solicited tag f)) ∧ (s.settle.riser r).resends = rest := by
  obtain ⟨w, riser, -, turn⟩ := settle_turn s r
  rw [turn]
  have drained : (w.completeMarkers r).riser r =
      { s.riser r with queue := (drainMarkers (s.riser r).queue).2 } := by
    rw [← riser]
    exact (State.riser_congr (completeMarkers_rest w r).1 r).trans
      ((State.riser_modifyRiser ..).trans (if_pos rfl))
  have sent : ((w.completeMarkers r).startTransmission r).riser r =
      { s.riser r with
        queue := (drainMarkers (s.riser r).queue).2
        resends := rest
        tx := some (.resend (.solicited tag f)) } := by
    have same : ((w.completeMarkers r).riser r).frameOf tag = some f := by
      rw [drained]
      exact frame
    unfold State.startTransmission
    dsimp only
    rw [if_pos (by rw [drained]; exact ⟨h, free, idle⟩)]
    rw [show ((w.completeMarkers r).riser r).resends = tag :: rest by rw [drained]; exact due]
    dsimp only
    rw [same]
    dsimp only
    rw [State.riser_modifyRiser, if_pos rfl, drained]
  unfold State.settleRiser State.goQuiet
  dsimp only
  split
  · rw [State.riser_modifyRiser, if_pos rfl, sent]
    exact ⟨rfl, rfl⟩
  · rw [sent]
    exact ⟨rfl, rfl⟩

/-! ## Lines on which no request starts -/

/-- R78 to R80: with no resend due and no OFFER or POLL first, no request starts and no tag is taken. -/
theorem RiserSettled.noRequest {x y : Riser} (h : RiserSettled x y) (resends : x.resends = [])
    (next : ∀ f, x.nextFrame ≠ some (.solicited f)) :
    y.outstanding = x.outstanding ∧ y.freeTags = x.freeTags := by
  rcases h.line with same | served
  · exact ⟨same.2.1, same.2.2.2⟩
  · rcases served.sent with ⟨_, _, due, _⟩ | ⟨_, _, _, _, _, out, tags⟩ | ⟨_, f, _, _, first, _⟩
    · rw [resends] at due
      cases due
    · exact ⟨out, tags⟩
    · exact absurd first (next f)

theorem Riser.nextFrame_none {x : Riser} (h : x.frames = []) : x.nextFrame = none := by
  unfold Riser.nextFrame
  rw [h]
  rfl

end Sys2Proof.Machine
end

