-- ==== Sys2Proof/Proofs/StationTurns.lean ====
section
/-!
SUPPORT. What comes before a completion is handed over: the presence of the station, its privacy flag, and
the request leaving the outstanding table (R81, R82, R92, R106, R108).
-/

namespace Sys2Proof.Machine

/-- A state in which these events have been raised, one riser has become another one, and its station has
this presence and, with the flats following, this flag. -/
structure Turned (s u : State) (x : RiserIx) (y : Riser) (a : Nat) (p : Presence) (v : Bool)
    (es : List Event) : Prop where
  same     : u = { es.foldl State.emit s with clock := u.clock, dir := u.dir, risers := u.risers }
  riser    : u.riser x = { y with stations := (u.riser x).stations }
  others   : ∀ z, z ≠ x → u.riser z = s.riser z
  presence : ((u.riser x).station a).presence = p
  flag     : FlagTaken s u x a v

/-! ## Events and the blocks they do not read -/

/-- Routing an event reads no clock, no directory and no riser. -/
theorem emit_withBlocks (s : State) (n : Nat) (d : Dir) (rs : Table 6 Riser) (e : Event) :
    ({ s with clock := n, dir := d, risers := rs } : State).emit e =
      { s.emit e with clock := n, dir := d, risers := rs } := by
  show (match s.routeOf e.kind with
    | .none => _
    | .host => _
    | .desk => _
    | .both => _) = _
  unfold State.emit
  cases s.routeOf e.kind <;> rfl

theorem emits_withBlocks (es : List Event) (s : State) (n : Nat) (d : Dir) (rs : Table 6 Riser) :
    es.foldl State.emit ({ s with clock := n, dir := d, risers := rs } : State) =
      { es.foldl State.emit s with clock := n, dir := d, risers := rs } := by
  induction es generalizing s with
  | nil => rfl
  | cons e es ih => simp only [List.foldl_cons, emit_withBlocks, ih]

section
variable {s u : State} {x : RiserIx} {y : Riser} {a : Nat} {p : Presence} {v : Bool} {es : List Event}

/-- Events raised after others. -/
theorem Turned.events (h : Turned s u x y a p v es) (ds : List Event) (d : Dir) (rs : Table 6 Riser) :
    { ds.foldl State.emit u with dir := d, risers := rs } =
      ({ (es ++ ds).foldl State.emit s with clock := u.clock, dir := d, risers := rs } : State) := by
  have e := h.same
  generalize u.clock = n at e ⊢
  generalize u.dir = d' at e
  generalize u.risers = rs' at e
  subst e
  rw [emits_withBlocks, List.foldl_append]

/-! ## Flags -/

theorem FlagTaken.refl (s : State) (x : RiserIx) (a : Nat) :
    FlagTaken s s x a ((s.riser x).station a).privacy where
  flag := rfl
  others _ _ := rfl
  flats i := by rw [if_neg fun h => h.1 rfl]
  windows := ⟨rfl, rfl⟩
  same _ := rfl

/-- A change of a station's presence is no change of its flag. -/
theorem FlagTaken.of_stations {t : State} (h : FlagTaken s u x a v) (dir : t.dir = u.dir)
    (here : ((t.riser x).station a).privacy = ((u.riser x).station a).privacy)
    (there : ∀ b, b ≠ a → (t.riser x).station b = (u.riser x).station b) : FlagTaken s t x a v where
  flag := here.trans h.flag
  others b ne := (there b ne).trans (h.others b ne)
  flats i := (State.flat_congr dir i).trans (h.flats i)
  windows := by rw [dir]; exact h.windows
  same e := dir.trans (h.same e)

theorem FlagTaken.congr {t : State} (h : FlagTaken s u x a v) (dir : t.dir = u.dir)
    (stations : ∀ b, (t.riser x).station b = (u.riser x).station b) : FlagTaken s t x a v :=
  h.of_stations dir (by rw [stations]) fun b _ => stations b

/-- R48: the flag's value is read for the one station only. -/
theorem Flat.privacyWith_congr (f : Flat) {x z : Riser} (h : ∀ b, b ≠ a → z.station b = x.station b) :
    f.privacyWith z a v = f.privacyWith x a v := by
  unfold Flat.privacyWith
  congr 2
  funext b
  split
  · rfl
  · next ne => rw [h b ne]

/-- A station that has what it is to be given. -/
theorem modifyStation_same {x : Riser} {a : Nat} {f : Station → Station}
    (h : f (x.station a) = x.station a) : x.modifyStation a f = x := by
  unfold Riser.modifyStation
  split
  · next i hi =>
    have read : x.station a = x.stations.read i := by
      unfold Riser.station
      rw [hi]
    rw [← read, h, read, Table.write_read_self]
  · rfl

/-- The operation on a station's flag touches the station table alone of the risers. -/
theorem setStationPrivacy_risers (s : State) (r : RiserIx) (a : Nat) (v : Bool) :
    (s.setStationPrivacy r a v).risers =
      s.risers.write r ((s.riser r).modifyStation a fun t => { t with privacy := v }) := by
  unfold State.setStationPrivacy
  split
  · next e =>
    rw [modifyStation_same (by rw [← e])]
    exact (Table.write_read_self ..).symm
  · exact (recompute_all _ ((List.nodup_finRange 256).filter _) _).risers

/-- R48, R105, R108: the flag takes its level. -/
theorem Turned.setPrivacy (h : Turned s u x y a p ((s.riser x).station a).privacy es)
    (range : 1 ≤ a ∧ a ≤ 62) (v : Bool) :
    Turned s (u.setStationPrivacy x a v) x y a p v (es ++ s.flagEvents x a v) := by
  obtain ⟨taken, d, rs, shape⟩ := setStationPrivacy_taken u x range v
  have risers := setStationPrivacy_risers u x a v
  have dir := h.flag.same rfl
  have stations := h.flag.others
  have old := h.flag.flag
  have with' : ∀ f : Flat, f.privacyWith (u.riser x) a v = f.privacyWith (s.riser x) a v :=
    fun f => Flat.privacyWith_congr f stations
  have flat := State.flat_congr dir
  have events : u.flagEvents x a v = s.flagEvents x a v := by
    unfold State.flagEvents
    simp only [old, flat, with']
  rw [events] at shape
  have shape := shape.trans (h.events _ d rs)
  generalize u.setStationPrivacy x a v = w at taken risers shape ⊢
  have riser : w.riser x = (u.riser x).modifyStation a fun t => { t with privacy := v } := by
    rw [State.riser, risers, Table.read_write_same]
  refine ⟨?_, ?_, fun z ne => ?_, ?_, ?_⟩
  · rw [shape]
  · rw [riser, Riser.modifyStation_eq, h.riser]
  · rw [State.riser, risers, Table.read_write_ne _ _ (Ne.symm ne)]
    exact h.others z ne
  · rw [riser, station_modifyStation _ range, if_pos rfl]
    exact h.presence
  · refine ⟨taken.flag, fun b ne => (taken.others b ne).trans (stations b ne), fun i => ?_, ?_,
      fun e => ?_⟩
    · rw [taken.flats i, old, flat i, with']
    · obtain ⟨w1, w2⟩ := taken.windows
      exact ⟨w1.trans (congrArg Dir.windows dir), w2.trans (congrArg Dir.flatServed dir)⟩
    · exact (taken.same (old.trans e)).trans dir

/-! ## Presence -/

/-- R92: the presence of the station, with the event it is raised with, if any. -/
theorem Turned.setPresence (h : Turned s u x y a p v es) (range : 1 ≤ a ∧ a ≤ 62) (q : Presence)
    (ds : List Event) :
    Turned s (ds.foldl State.emit (u.modifyRiser x fun z => z.modifyStation a fun t =>
      { t with presence := q })) x y a q v (es ++ ds) := by
  have shape : ds.foldl State.emit (u.modifyRiser x fun z => z.modifyStation a fun t =>
      { t with presence := q }) = _ :=
    (emits_withBlocks ds u u.clock u.dir (u.modifyRiser x fun z => z.modifyStation a fun t =>
      { t with presence := q }).risers).trans
      (congrArg (fun t : State => { t with clock := u.clock }) (h.events ds u.dir _))
  generalize ds.foldl State.emit (u.modifyRiser x fun z => z.modifyStation a fun t =>
      { t with presence := q }) = w at shape ⊢
  have dir : w.dir = u.dir := by rw [shape]
  have risers : w.risers = (u.modifyRiser x fun z => z.modifyStation a fun t =>
      { t with presence := q }).risers := by rw [shape]
  have riser : ∀ z, w.riser z = if x = z then (u.riser x).modifyStation a fun t =>
      { t with presence := q } else u.riser z := fun z =>
    (State.riser_congr risers z).trans (State.riser_modifyRiser ..)
  refine ⟨by rw [shape], ?_, fun z ne => ?_, ?_, h.flag.of_stations dir ?_ fun b ne => ?_⟩
  · rw [riser, if_pos rfl, Riser.modifyStation_eq, h.riser]
  · rw [riser, if_neg (Ne.symm ne)]
    exact h.others z ne
  · rw [riser, if_pos rfl, station_modifyStation _ range, if_pos rfl]
  · rw [riser, if_pos rfl, station_modifyStation _ range, if_pos rfl]
  · rw [riser, if_pos rfl, station_modifyStation _ range, if_neg ne]

/-! ## The request -/

/-- A change of the riser that its stations have no part in. -/
theorem Turned.modify (h : Turned s u x y a p v es) {f : Riser → Riser}
    (hf : ∀ z st, f { z with stations := st } = { f z with stations := st }) :
    Turned s (u.modifyRiser x f) x (f y) a p v es := by
  have riser : ∀ z, (u.modifyRiser x f).riser z = if x = z then f (u.riser x) else u.riser z :=
    fun z => State.riser_modifyRiser ..
  have here : (u.modifyRiser x f).riser x = { f y with stations := (u.riser x).stations } := by
    rw [riser, if_pos rfl]
    refine (congrArg f h.riser).trans ?_
    rw [hf]
  have station : ∀ b, ((u.modifyRiser x f).riser x).station b = (u.riser x).station b := fun b => by
    unfold Riser.station
    rw [here]
  refine ⟨?_, ?_, fun z ne => ?_, ?_, h.flag.congr rfl station⟩
  · have e := h.same
    generalize u.clock = n at e
    generalize u.dir = d' at e
    generalize u.risers = rs' at e
    subst e
    rfl
  · rw [here]
  · rw [riser, if_neg (Ne.symm ne)]
    exact h.others z ne
  · rw [station]
    exact h.presence

/-- A state with the clock brought up to an expiry, before anything is done. -/
theorem Turned.start (s : State) (n : Nat) (x : RiserIx) (a : Nat) :
    Turned s { s with clock := n } x (s.riser x) a ((s.riser x).station a).presence
      ((s.riser x).station a).privacy [] :=
  ⟨rfl, rfl, fun _ _ => rfl, rfl, (FlagTaken.refl s x a).congr rfl fun _ => rfl⟩

/-! ## What is as it was -/

theorem emits_moves (es : List Event) (s : State) : CallMoves s (es.foldl State.emit s) :=
  foldl_moves _ (fun s e => emit_moves s e) es s

theorem emits_ccu (es : List Event) (s : State) : (es.foldl State.emit s).ccu = s.ccu := by
  induction es generalizing s with
  | nil => rfl
  | cons e es ih => rw [List.foldl_cons, ih, State.emit_ccu]

theorem emits_psw (es : List Event) (s : State) : (es.foldl State.emit s).psw = s.psw := by
  induction es generalizing s with
  | nil => rfl
  | cons e es ih => rw [List.foldl_cons, ih, State.emit_psw]

theorem emits_dir (es : List Event) (s : State) : (es.foldl State.emit s).dir = s.dir := by
  induction es generalizing s with
  | nil => rfl
  | cons e es ih => rw [List.foldl_cons, ih, State.emit_dir]

/-- The blocks that no turn of a station touches. -/
theorem Turned.blocks (h : Turned s u x y a p v es) :
    u.ccu = s.ccu ∧ u.psw = s.psw ∧ u.locks = s.locks ∧ u.hlp = s.hlp ∧
      u.ntu = (es.foldl State.emit s).ntu ∧ u.ports = (es.foldl State.emit s).ports := by
  have e := h.same
  have kept := (emits_moves es s).kept
  refine ⟨?_, ?_, ?_, ?_, ?_, ?_⟩
  · rw [e]; exact emits_ccu es s
  · rw [e]; exact emits_psw es s
  · rw [e]; exact kept.locks
  · rw [e]; exact kept.hlp
  · rw [e]
  · rw [e]

/-- R99: a station's turn moves no flat to another riser. -/
theorem Turned.riserOfCall (h : Turned s u x y a p v es) (c : Call) :
    u.riserOfCall c = s.riserOfCall c := by
  unfold State.riserOfCall
  congr 1
  funext i
  rw [h.flag.flats i]
  split <;> rfl

/-- What call operations and the looking at free lines leave of the station's presence and flag. -/
theorem Turned.kept {w t : State} (h : Turned s u x y a p v es) (m : CallMoves u w) (k : Settled w t) :
    ((t.riser x).station a).presence = p ∧ FlagTaken s t x a v ∧ t.clock = u.clock ∧
      t.locks = s.locks := by
  have station : ∀ b, (t.riser x).station b = (u.riser x).station b := fun b => by
    rw [(k.risers x).station, (m.callEventKept.risers x).station]
  have kept := m.kept
  refine ⟨by rw [station]; exact h.presence, h.flag.congr (k.dir.trans kept.dir) station,
    k.clock.trans kept.clock, k.locks.trans (kept.locks.trans h.blocks.2.2.1)⟩

/-- The state that the claims compare with, in which the events have been raised and the request has left
its riser. -/
theorem Turned.endsAlike (h : Turned s u x y a p v es) {z : Riser} (q : z.SameQueue y) (n : Nat)
    (r : Ref) (c : Call) :
    EndsAlike (es.foldl State.emit { s with clock := n, risers := s.risers.write x z }) u r c := by
  have base := emits_withBlocks es s n s.dir (s.risers.write x z)
  obtain ⟨ccu, psw, -, hlp, ntu, ports⟩ := h.blocks
  obtain ⟨b, hb⟩ : ∃ b, b = es.foldl State.emit { s with clock := n, risers := s.risers.write x z } :=
    ⟨_, rfl⟩
  rw [← hb] at base ⊢
  have ccu' : b.ccu = s.ccu := by rw [hb]; exact emits_ccu ..
  have psw' : b.psw = s.psw := by rw [hb]; exact emits_psw ..
  have hlp' : b.hlp = s.hlp := by rw [hb]; exact emits_hlp ..
  have dir' : b.dir = s.dir := by rw [base]
  have risers' : b.risers = s.risers.write x z := by rw [base]
  have ntu' : b.ntu = (es.foldl State.emit s).ntu := by rw [base]
  have ports' : b.ports = (es.foldl State.emit s).ports := by rw [base]
  refine ⟨fun j _ => ?_, fun p => ?_, fun _ => ?_, ?_, ?_, fun p => ?_, fun w home => ⟨?_, ?_⟩, ?_, ?_⟩
  · rw [State.slot_congr (ccu.trans ccu'.symm)]; exact .refl _
  · exact State.hold_congr (psw.trans psw'.symm) p
  · rw [State.paths_congr (psw.trans psw'.symm)]; exact ⟨fun _ => rfl, fun _ => rfl, rfl⟩
  · rw [psw, psw']
  · rw [psw, psw']
  · rw [State.port_congr (ports.trans ports'.symm)]; exact .refl _
  · rw [h.riserOfCall, ← home]
    unfold State.riserOfCall
    simp only [State.flat_congr dir']
  · have there : b.riser w = if x = w then z else s.riser w := by
      rw [State.riser, risers', Table.read_write]
      rfl
    rw [there]
    split
    · next e =>
      subst e
      rw [h.riser]
      exact ⟨q.queue, q.outstanding, q.resends, q.tx, q.overrunDue, q.link⟩
    · next ne =>
      rw [h.others w (Ne.symm ne)]
      exact .refl _
  · rw [hlp, hlp']
  · rw [ntu, ntu']

/-! ## A frame of a station, up to its completion (R81, R106) -/

theorem modifyStation_stations {z w : Riser} (h : z.stations = w.stations) (a : Nat)
    (f : Station → Station) : (z.modifyStation a f).stations = (w.modifyStation a f).stations := by
  unfold Riser.modifyStation
  rw [h]
  split <;> simp [h]

/-- A riser that has received a frame. -/
def Riser.received (y : Riser) (now : Nat) (restarts : Bool) : Riser :=
  { y with
    receiving := none
    idleTimer := if restarts then some (now + y.quietIdleS * 1000) else y.idleTimer
    runOut := if restarts then false else y.runOut }

/-- R92: the event with which a station turns PRESENT. -/
def State.presentEvents (s : State) (x : RiserIx) (a : Nat) : List Event :=
  if ((s.riser x).station a).presence = .absent then [.stationChange x a .present] else []

theorem Turned.heard (active : (s.riser x).link = .active) (range : 1 ≤ a ∧ a ≤ 62) (b : Bool) :
    Turned s (s.heard x a b) x ((s.riser x).received s.clock b) a .present
      ((s.riser x).station a).privacy (s.presentEvents x a) := by
  have turned := ((Turned.start s s.clock x a).modify (f := fun z => z.received s.clock b)
    fun _ _ => rfl).setPresence range .present (s.presentEvents x a)
  have same : (s.presentEvents x a).foldl State.emit
      ((({ s with clock := s.clock } : State).modifyRiser x fun z =>
        z.received s.clock b).modifyRiser x fun z =>
          z.modifyStation a fun t => { t with presence := .present }) = s.heard x a b := by
    have put : ((({ s with clock := s.clock } : State).modifyRiser x fun z =>
        z.received s.clock b).modifyRiser x fun z =>
          z.modifyStation a fun t => { t with presence := .present }) =
        { s with risers := s.risers.write x ((s.riser x).heard s.clock a b) } := by
      rw [State.modifyRiser_modifyRiser, Riser.heard_active active]
      refine congrArg (fun z => { s with risers := s.risers.write x z }) ?_
      show ((s.riser x).received s.clock b).modifyStation a _ = _
      rw [Riser.modifyStation_eq, modifyStation_stations (z := (s.riser x).received s.clock b)
        (w := s.riser x) rfl]
      rfl
    rw [put, heard_eq, State.noted, State.presentEvents]
    split
    · exact emit_withRisers ..
    · rfl
  rw [same] at turned
  exact turned

end

end Sys2Proof.Machine
end

