-- ==== Sys2Proof/Proofs/Completions.lean ====
section
/-!
SUPPORT. A completion as the call controller takes it, case by case, and what it leaves of the risers
(R13 to R16).
-/

namespace Sys2Proof.Machine

/-! ## The offer a completion names -/

theorem isNamedBy_iff {o : Offer} {answerer : Option Nat} {a tag : Nat} :
    o.isNamedBy answerer a (some tag) = true ↔ o.Named a tag ∧ answerer ≠ some a := by
  simp [Offer.isNamedBy, Offer.Named, and_assoc]

theorem markOffers_eq {c : Call} {a : Nat} (ne : c.answerer ≠ some a) (tag : Nat)
    (result : OfferStatus) : c.markOffers a (some tag) result = c.marked a tag result := by
  unfold Call.markOffers Call.marked
  simp only [isNamedBy_iff, Offer.Named, ne, ne_eq, not_false_eq_true, and_true]

section
variable {s : State} {x : RiserIx} {r : Ref} {c : Call} {a tag : Nat} {result : OfferStatus}

/-- R13, R17: a completion that finds no offer does nothing. -/
theorem complete_unnamed (hc : s.call? r = some c)
    (h : c.answerer = some a ∨ ∀ f ∈ c.offers, ¬ f.Named a tag) :
    s.complete x r a (some tag) result = s := by
  unfold State.complete
  rw [hc]
  dsimp only
  rw [if_neg]
  rw [Bool.not_eq_true, List.any_eq_false]
  intro f hf k
  obtain ⟨named, ne⟩ := isNamedBy_iff.1 k
  rcases h with h | h
  · exact ne h
  · exact h f hf named

theorem complete_named (hc : s.call? r = some c) (ne : c.answerer ≠ some a)
    (h : ∃ f ∈ c.offers, f.Named a tag) : s.complete x r a (some tag) result =
      if c.state = .offering then
        if result = .ringing then
          s.enterState r (c.marked a tag result) .ringing none (some .ring)
        else if (c.marked a tag result).inProgress then s.setCall r (c.marked a tag result)
        else (s.setCall r (c.marked a tag result)).endCall r (c.marked a tag result).failure
      else s.setCall r (c.marked a tag result) := by
  obtain ⟨f, hf, named⟩ := h
  unfold State.complete
  rw [hc]
  dsimp only
  rw [if_pos (List.any_eq_true.2 ⟨f, hf, isNamedBy_iff.2 ⟨named, ne⟩⟩), markOffers_eq ne]

/-- R16: a completion for a call that is no longer live. -/
theorem complete_stale (hc : s.call? r = none) : s.complete x r a (some tag) result =
    if result = .ringing then s.advise x (.cancel a .noCall (some r)) else s := by
  unfold State.complete
  rw [hc]

theorem inProgress_iff (d : Call) : d.inProgress = true ↔ ∃ o ∈ d.offers, o.Open := by
  simp [Call.inProgress, Offer.Open, or_assoc]

theorem failure_eq (d : Call) : d.failure =
    if ∃ o ∈ d.offers, o.status = .engaged ∨ o.status = .refused then .declinedAllRefused
    else .unreachableNoReply := by
  unfold Call.failure
  simp only [List.any_eq_true, Bool.or_eq_true, decide_eq_true_eq]

/-! ## The record afterwards -/

/-- R13: the record of a live call once the free lines have been looked at. -/
theorem Settled.live {s t : State} (k : Settled s t) (h : s.call? r = some c) :
    ∃ d, t.call? r = some d ∧ c.SameButSending d := by
  obtain ⟨gen, rec⟩ := (s.call?_eq_some r c).1 h
  obtain ⟨g, -, m⟩ := k.slots r.slot
  rw [rec] at m
  cases hd : (t.slot r.slot).call with
  | none => rw [hd] at m; exact m.elim
  | some d =>
    rw [hd] at m
    exact ⟨d, (t.call?_eq_some r d).2 ⟨g.trans gen, hd⟩, m⟩

theorem setCall_live (hc : s.call? r = some c) (d : Call) : (s.setCall r d).call? r = some d := by
  rw [State.call?_setCall, if_pos rfl, if_pos ((s.call?_eq_some r c).1 hc).1]

theorem setCall_other (d : Call) {j : SlotIx} (ne : j ≠ r.slot) : (s.setCall r d).slot j = s.slot j := by
  rw [State.slot_setCall, if_neg (Ne.symm ne)]

/-- An end is the same with another record of the call. -/
theorem EndsAlike.setCall {u : State} {d : Call} (h : EndsAlike s u r c) (flat : d.flat = c.flat)
    (channel : d.channel = c.channel) : EndsAlike s (u.setCall r d) r d where
  others j ne := by rw [setCall_other d ne]; exact h.others j ne
  holds := h.holds
  paths := by rw [channel]; exact h.paths
  joins := h.joins
  desks := h.desks
  ports := h.ports
  home x k := by
    have e : s.riserOfCall c = s.riserOfCall d := by
      unfold State.riserOfCall
      rw [flat]
    obtain ⟨home, q⟩ := h.home x (e.trans k)
    refine ⟨?_, q⟩
    rw [← home]
    unfold State.riserOfCall
    rw [flat]
    rfl
  tx := h.tx
  ntu := h.ntu

/-- R15: a completion with a result other than RINGING. -/
theorem completionTaken {b u t : State} (alike : EndsAlike b u r c) (psw : u.psw = b.psw)
    (hc : u.call? r = some c) (ne : c.answerer ≠ some a) (named : ∃ f ∈ c.offers, f.Named a tag)
    (other : result ≠ .ringing) (k : Settled (u.complete x r a (some tag) result) t) :
    CompletionTaken b t r c a tag result := by
  rw [complete_named hc ne named, if_neg other] at k
  have marked := setCall_live hc (c.marked a tag result)
  have alike' := alike.setCall (d := c.marked a tag result) rfl rfl
  have goes : Settled (u.setCall r (c.marked a tag result)) t →
      (∃ e, t.call? r = some e ∧ (c.marked a tag result).SameButSending e) ∧
      (∀ j, j ≠ r.slot → (b.slot j).SameButSending (t.slot j)) ∧ t.psw = b.psw ∧ Raises b t [] :=
    fun k => ⟨k.live marked, fun j ne => (alike'.others j ne).trans (k.slots j), k.psw.trans psw,
      .of_settled alike'.tx alike'.ntu k⟩
  unfold CompletionTaken
  dsimp only
  refine ⟨fun offering closed nw => ?_, fun stays => ?_⟩
  · have finished : (c.marked a tag result).inProgress = false := by
      rw [Bool.eq_false_iff]
      intro h
      obtain ⟨o, ho, open'⟩ := (inProgress_iff _).1 h
      exact closed o ho open'
    rw [if_pos offering, if_neg (by simp [finished])] at k
    have nw' : (u.setCall r (c.marked a tag result)).NoWaiters r (c.marked a tag result) := by
      obtain ⟨desks, channels⟩ := nw
      have psw' : (u.setCall r (c.marked a tag result)).psw = b.psw := psw
      refine ⟨by rw [psw']; exact desks, fun ch hch => ?_⟩
      rw [State.paths_congr psw']
      exact channels ch hch
    have ended := endCall_ended alike' marked nw' (.refl _) k
    rw [failure_eq] at ended
    refine ⟨fun h => ?_, fun h => ?_⟩
    · rwa [if_pos h] at ended
    · rw [if_neg] at ended
      · exact ended
      · rintro ⟨o, ho, e | e⟩
        · exact (h o ho).1 e
        · exact (h o ho).2 e
  · refine goes ?_
    split at k
    · next offering =>
      rw [if_pos] at k
      · exact k
      · exact (inProgress_iff _).2 (stays.resolve_left fun h => h offering)
    · exact k

end

/-! ## The risers -/

theorem eachOffer_same {f : State → Offer → State × Offer} {os : List Offer}
    (h : ∀ u, ∀ o ∈ os, f u o = (u, o)) (s : State) : State.eachOffer f os s = (s, os) := by
  induction os with
  | nil => rfl
  | cons o os ih =>
    unfold State.eachOffer
    simp only [h s o (by simp), ih fun u p hp => h u p (by simp [hp])]

/-- R28: an end with no offer in progress and no answerer gives its riser nothing. -/
theorem endFrames_closed {s : State} {r : Ref} {c : Call} (why : EndReason)
    (closed : ∀ o ∈ c.offers, ¬ o.Open) (answerer : c.answerer = none) :
    s.endFrames r c why = s := by
  have idle : ∀ x, s.takeBackAtEnd x r why c.answerer c.offers = s := fun x => by
    have kept : ∀ u, ∀ o ∈ c.offers, State.withdrawOffer x r u o = (u, o) := fun u o ho =>
      withdrawOffer_other fun q => closed o ho (.inl q)
    unfold State.takeBackAtEnd
    rw [eachOffer_same kept, answerer]
    have none : ∀ o ∈ c.offers, State.cancelAtEnd x r why none s o = s := fun o ho => by
      rw [cancelAtEnd_eq, Offer.endFrame, if_neg (by simp), if_neg]
      exact fun k => closed o ho (.inr k)
    dsimp only
    generalize c.offers = os at none
    induction os with
    | nil => rfl
    | cons o os ih =>
      rw [List.foldl_cons, none o (by simp)]
      exact ih fun p hp => none p (by simp [hp])
  unfold State.endFrames
  split
  · rfl
  · split
    · rfl
    · exact idle _

theorem serveDesk_risers (s : State) (p : PortIx) : (s.serveDesk p).risers = s.risers := by
  have from' : ∀ (q : List Ref) (u : State), (State.serveDeskFrom p q u).risers = u.risers := fun q => by
    induction q with
    | nil => exact fun _ => rfl
    | cons r rest ih =>
      intro u
      unfold State.serveDeskFrom
      dsimp only
      split
      · rfl
      · exact ih _
  unfold State.serveDesk
  split
  · exact from' _ _
  · rfl

theorem releasePorts_risers (s : State) (r : Ref) (c : Call) :
    (s.releasePorts r c).risers = s.risers := by
  have origin : ∀ u : State, ((u.releasePort c.origin).leaveQueues r).risers = u.risers := fun u =>
    serveDesk_risers ..
  unfold State.releasePorts
  dsimp only
  rw [origin]
  split
  · exact serveDesk_risers ..
  · rfl

/-- R28, R29: an end with no offer in progress, when no call waits for a channel, leaves the risers. -/
theorem endCall_risers {s : State} {r : Ref} {c : Call} (hc : s.call? r = some c) (why : EndReason)
    (closed : ∀ o ∈ c.offers, ¬ o.Open) (answerer : c.answerer = none)
    (queues : ∀ y, (s.paths y).queue = []) : (s.endCall r why).risers = s.risers := by
  have record : (s.endRecord r c why).risers = s.risers := by
    rw [endRecord_raised]
    exact (endRaised_risers ..).trans (by rw [endFrames_closed why closed answerer])
  have psw := endRecord_psw_queues s r c why
  rw [endCall_live hc, releasePorts_risers, ← record]
  unfold State.freeChannel
  split
  · next ch _ =>
    have none : ((s.endRecord r c why).paths ch.riser).queue = [] := by
      rw [State.paths, psw]
      exact queues ch.riser
    rw [State.releaseChannel, none]
    rfl
  · rfl

/-- R13 to R16: the completion of a live call that no call waits for a channel at leaves the risers. -/
theorem complete_risers {s : State} {x : RiserIx} {r : Ref} {c : Call} {a tag : Nat}
    {result : OfferStatus} (hc : s.call? r = some c) (offering : c.state = .offering → c.answerer = none)
    (queues : ∀ y, (s.paths y).queue = []) :
    (s.complete x r a (some tag) result).risers = s.risers := by
  by_cases ne : c.answerer = some a
  · rw [complete_unnamed hc (.inl ne)]
  · by_cases named : ∃ f ∈ c.offers, f.Named a tag
    · rw [complete_named hc ne named]
      split
      · next o =>
        split
        · rfl
        · split
          · rfl
          · next finished =>
            refine endCall_risers (c := c.marked a tag result) (setCall_live hc _) _ (fun f hf op => ?_)
              (offering o) queues
            exact finished ((inProgress_iff _).2 ⟨f, hf, op⟩)
      · rfl
    · rw [complete_unnamed hc (.inr fun f hf k => named ⟨f, hf, k⟩)]

end Sys2Proof.Machine
end

