-- ==== Sys2Proof/Proofs/StationReplies.lean ====
section
/-!
SUPPORT. REPLY (O51): the station is heard, its flag takes the level, the request is complete, and the
completion is handed over (R81, R106).
-/

namespace Sys2Proof.Machine

/-- The state in which the completion that a REPLY makes is handed over. -/
def State.replied (s : State) (x : RiserIx) (a tag v : Nat) (restarts : Bool) : State :=
  ((s.heard x a restarts).setStationPrivacy x a (privacyLevel v)).modifyRiser x fun y =>
    y.dropRequest tag

/-- The riser then, but for its stations. -/
def Riser.replied (y : Riser) (now tag : Nat) (restarts : Bool) : Riser :=
  (y.received now restarts).dropRequest tag

/-- The events raised before. -/
def State.replyEvents (s : State) (x : RiserIx) (a v : Nat) : List Event :=
  s.presentEvents x a ++ s.flagEvents x a (decide (v ≠ 0))

section
variable {s : State} {x : RiserIx} {a tag v : Nat}

theorem replied_turned (active : (s.riser x).link = .active) (range : 1 ≤ a ∧ a ≤ 62) (b : Bool) :
    Turned s (s.replied x a tag v b) x ((s.riser x).replied s.clock tag b) a .present
      (decide (v ≠ 0)) (s.replyEvents x a v) :=
  ((Turned.heard active range b).setPrivacy range _).modify fun _ _ => rfl

theorem replied_clock (range : 1 ≤ a ∧ a ≤ 62) (b : Bool) :
    (s.replied x a tag v b).clock = s.clock := by
  obtain ⟨-, d, rs, e⟩ := setStationPrivacy_taken (s.heard x a b) x range (privacyLevel v)
  have kept := (emits_moves ((s.heard x a b).flagEvents x a (privacyLevel v)) (s.heard x a b)).kept
  have clock : ((s.heard x a b).setStationPrivacy x a (privacyLevel v)).clock = (s.heard x a b).clock := by
    rw [e]
    exact kept.clock
  refine clock.trans ?_
  rw [heard_eq]
  exact noted_clock ..

/-- R81: a REPLY that matches a request. -/
theorem stationReply_run (active : (s.riser x).link = .active)
    (due : (s.riser x).overrunDue = false) (free : (s.riser x).tx = none) (range : 1 ≤ a ∧ a ≤ 62)
    (res : Nat) {o : Outstanding}
    (match' : (s.riser x).outstanding.find? (fun q =>
      decide (q.tag = tag) && decide (q.frame.station = a)) = some o) :
    (∀ r k p, o.frame = .offer a r k p → exec (.stationReply x a tag res v) s = .next
      ((s.replied x a tag v true).complete x r a (some tag) (offerResult res)).settle) ∧
    (o.frame = .poll a →
      exec (.stationReply x a tag res v) s = .next (s.replied x a tag v false).settle) := by
  have found : (s.riser x).matching tag a = some o := match'
  obtain ⟨low, high⟩ := range
  refine ⟨fun r k p frame => ?_, fun frame => ?_⟩
  all_goals
    simp only [exec, execStationReply]
    rw [onStationFrame_taken active due free low high]
    unfold State.takeReply
    rw [found]
    dsimp only
    rw [frame, takeStationFrame_heard active]
    rfl

/-- What a completed REPLY to an OFFER leaves of the riser and its station. -/
def ReplyDone (s t : State) (x : RiserIx) (a tag v : Nat) (r : Ref) : Prop :=
  ((t.riser x).station a).presence = .present ∧ FlagTaken s t x a (decide (v ≠ 0)) ∧
    (t.riser x).link = .active ∧ (t.riser x).runOut = false ∧
    (t.riser x).idleTimer = some (s.clock + (s.riser x).quietIdleS * 1000) ∧
    t.locks = s.locks ∧
    ((s.riser x).queue = [] → (s.riser x).resends = [] → (∀ y, (s.paths y).queue = []) →
      (∀ q ∈ (s.riser x).outstanding, q.tag ≠ tag → q.frame.isOfferOf a r = false) →
      (t.riser x).outstanding =
        (s.riser x).outstanding.filter (fun q => decide (q.tag ≠ tag)) ∧
      (t.riser x).freeTags = (s.riser x).freeTags ++ [tag])

/-- R74, R81, R92, R106: whatever the completion does, it is done to the heard riser. -/
theorem replyDone_of {w : State} {r : Ref} (active : (s.riser x).link = .active)
    (range : 1 ≤ a ∧ a ≤ 62) (m : CallMoves (s.replied x a tag v true) w)
    (plain : (s.riser x).queue = [] → (s.riser x).resends = [] → (∀ y, (s.paths y).queue = []) →
      (∀ q ∈ (s.riser x).outstanding, q.tag ≠ tag → q.frame.isOfferOf a r = false) →
      (w.riser x).outstanding = ((s.riser x).replied s.clock tag true).outstanding ∧
        (w.riser x).freeTags = (s.riser x).freeTags ++ [tag] ∧ (w.riser x).resends = [] ∧
        ∀ f, (w.riser x).nextFrame ≠ some (.solicited f)) :
    ReplyDone s w.settle x a tag v r := by
  have turned := replied_turned (tag := tag) (v := v) active range true
  have k := settle_settled w
  obtain ⟨presence, flag, -, locks⟩ := turned.kept m k
  have awake : ((s.replied x a tag v true).riser x).SameAwake (w.riser x) :=
    m.awake (by rw [turned.riser]; exact active)
  rw [turned.riser] at awake
  obtain ⟨link, idle, -, mark⟩ := awake
  obtain ⟨link', idle', -, mark'⟩ := (k.risers x).awake (mark.trans rfl)
  refine ⟨presence, flag, link'.trans (link.trans active), mark'.trans (mark.trans rfl),
    idle'.trans (idle.trans rfl), locks, fun queue resends queues alone => ?_⟩
  obtain ⟨out, tags, due, next⟩ := plain queue resends queues alone
  obtain ⟨out', tags'⟩ := (k.risers x).noRequest due next
  exact ⟨out'.trans out, tags'.trans tags⟩

/-- A riser whose request has gone and whose queue is empty starts no request. -/
theorem replied_plain {w : State} (active : (s.riser x).link = .active) (range : 1 ≤ a ∧ a ≤ 62)
    (risers : w.risers = (s.replied x a tag v true).risers) (queue : (s.riser x).queue = [])
    (resends : (s.riser x).resends = []) :
    (w.riser x).outstanding = ((s.riser x).replied s.clock tag true).outstanding ∧
      (w.riser x).freeTags = (s.riser x).freeTags ++ [tag] ∧ (w.riser x).resends = [] ∧
      ∀ f, (w.riser x).nextFrame ≠ some (.solicited f) := by
  have riser := (State.riser_congr risers x).trans
    (replied_turned (tag := tag) (v := v) active range true).riser
  have none_left : (w.riser x).frames = [] := by
    rw [riser]
    show (((s.riser x).queue.map fun i => i.entry).filter QueueEntry.isFrame) = []
    rw [queue]
    rfl
  refine ⟨by rw [riser], by rw [riser]; rfl, ?_, fun f => ?_⟩
  · rw [riser]
    show (s.riser x).resends.filter _ = []
    rw [resends]
    rfl
  · rw [Riser.nextFrame_none none_left]
    simp

/-- A completion that does nothing more. -/
theorem reply_calm (active : (s.riser x).link = .active) (range : 1 ≤ a ∧ a ≤ 62) (r : Ref) :
    let t := (s.replied x a tag v true).settle
    ReplyDone s t x a tag v r ∧
      ((∀ j, (s.slot j).SameButSending (t.slot j)) ∧ t.psw = s.psw ∧
        Raises s t (s.replyEvents x a v)) ∧ (t.riser x).frames = (s.riser x).frames := by
  have turned := replied_turned (tag := tag) (v := v) active range true
  have k := settle_settled (s.replied x a tag v true)
  obtain ⟨ccu, psw, -, hlp, ntu, -⟩ := turned.blocks
  refine ⟨replyDone_of active range (.refl _) fun queue resends _ _ =>
    replied_plain active range rfl queue resends, ⟨fun j => ?_, k.psw.trans psw,
      .of_settled (by rw [hlp]) ntu k⟩, ?_⟩
  · rw [← State.slot_congr ccu j]
    exact k.slots j
  · rw [(k.risers x).frames, turned.riser]
    rfl

end

theorem offerResult_eq (res : Nat) : offerResult res = if res = 2 then .ringing
    else if res = 3 then .engaged else if res = 4 then .refused else .unsupported := by
  unfold offerResult
  split <;> simp_all

/-- R16: a CANCEL with a stale reference at an ACTIVE riser with room. -/
theorem advise_cancel {s : State} {x : RiserIx} (active : (s.riser x).link = .active)
    (due : (s.riser x).overrunDue = false) (room : (s.riser x).queue.length < 32) (a : Nat)
    (why : CancelReason) (r : Ref) :
    let w := s.advise x (.cancel a why (some r))
    w = { s with risers := w.risers } ∧
      (w.riser x).queue =
        (s.riser x).queue ++ [QueueEntry.waiting (.advisory (.cancel a why (some r)))] ∧
      (w.riser x).freeTags = (s.riser x).freeTags ∧
      ((s.riser x).resends = [] → (w.riser x).resends = []) ∧
      ((∀ q ∈ (s.riser x).outstanding, q.frame.isOfferOf a r = false) →
        (w.riser x).outstanding = (s.riser x).outstanding) := by
  have place : (s.riser x).noPlace = false := by
    simp [Riser.noPlace, due, Config.riserQueueRoom, Nat.not_le.2 room]
  rw [advise_room (by rw [active]; rfl) place]
  dsimp only
  rw [State.riser_modifyRiser, if_pos rfl]
  unfold Riser.give
  rw [Riser.markFor_eq, Riser.enqueue_eq]
  refine ⟨rfl, rfl, rfl, fun none => ?_, fun none => ?_⟩
  · show (s.riser x).resends.filter _ = []
    rw [none]
    rfl
  · refine (List.map_congr_left fun o ho => ?_).trans (List.map_id _)
    rw [if_neg]
    · rfl
    · rw [show QueueEntry.cancels (.advisory (.cancel a why (some r))) o.frame =
        o.frame.isOfferOf a r from rfl, none o ho]
      simp

/-! ## The cases of a completion -/

section
variable {s : State} {x : RiserIx} {a tag res v : Nat} {r : Ref} {c : Call}

theorem replied_call (active : (s.riser x).link = .active) (range : 1 ≤ a ∧ a ≤ 62) (r : Ref) :
    (s.replied x a tag v true).call? r = s.call? r :=
  State.call?_congr (replied_turned active range true).blocks.1 r

/-- R14: RINGING for a call that is OFFERING. -/
theorem reply_rings (active : (s.riser x).link = .active) (range : 1 ≤ a ∧ a ≤ 62)
    (hc : s.call? r = some c) (ne : c.answerer ≠ some a) (named : ∃ f ∈ c.offers, f.Named a tag)
    (offering : c.state = .offering) :
    let t := ((s.replied x a tag v true).complete x r a (some tag) .ringing).settle
    ReplyDone s t x a tag v r ∧
      (∃ d, t.call? r = some d ∧ Call.SameButSending { c.marked a tag .ringing with
        state := .ringing, waitingFor := none
        timer := some { kind := .ring, expiry := s.clock + s.ccu.times.flatRing * 1000 } } d) ∧
      (∀ j, j ≠ r.slot → (s.slot j).SameButSending (t.slot j)) ∧ t.psw = s.psw ∧
      ((s.port c.origin).function ≠ .off → (t.port c.origin).Shows .ringing) ∧
      Raises s t (s.replyEvents x a v) := by
  have turned := replied_turned (tag := tag) (v := v) active range true
  have clock := replied_clock (s := s) (x := x) (tag := tag) (v := v) range true
  have done := fun w => replyDone_of (v := v) (tag := tag) (w := w) (r := r) active range
  have plain := fun w => replied_plain (v := v) (tag := tag) (w := w) active range
  have live := (replied_call (tag := tag) (v := v) active range r).trans hc
  obtain ⟨ccu, psw, -, hlp, ntu, ports⟩ := turned.blocks
  generalize s.replied x a tag v true = u at *
  rw [complete_named live ne named, if_pos offering, if_pos rfl]
  have k := settle_settled (u.enterState r (c.marked a tag .ringing) .ringing none (some .ring))
  have times : u.ccu.times = s.ccu.times := by rw [ccu]
  refine ⟨done _ (enterState_moves ..) fun queue resends _ _ => plain _ rfl queue resends, ?_,
    fun j ne => ?_, k.psw.trans psw, fun on => ?_, ?_⟩
  · have record : (u.enterState r (c.marked a tag .ringing) .ringing none (some .ring)).call? r = some
        { c.marked a tag .ringing with
          state := .ringing, waitingFor := none
          timer := some { kind := .ring, expiry := s.clock + s.ccu.times.flatRing * 1000 } } := by
      rw [← clock, ← times]
      exact setCall_live live _
    exact k.live record
  · have same : (u.enterState r (c.marked a tag .ringing) .ringing none (some .ring)).slot j =
        s.slot j := (setCall_other _ ne).trans (State.slot_congr ccu j)
    rw [← same]
    exact k.slots j
  · refine (k.ports c.origin).shows _ ?_
    have function : (u.port c.origin).function = (s.port c.origin).function := by
      rw [State.port_congr ports]
      exact ((emits_moves _ s).callEventKept.ports c.origin).1
    have placed := Port.place_shows (d := .ringing) (p := u.port c.origin)
      (by rw [function]; exact on)
    refine Eq.mpr (congrArg (Port.Shows · _) ?_) placed
    exact (State.port_display ..).trans (if_pos rfl)
  · exact .of_settled (u := u.enterState r (c.marked a tag .ringing) .ringing none (some .ring))
      (congrArg Hlp.tx hlp) ntu k

/-- R16: RINGING for a call that is past OFFERING. -/
theorem reply_marks (active : (s.riser x).link = .active) (range : 1 ≤ a ∧ a ≤ 62)
    (hc : s.call? r = some c) (ne : c.answerer ≠ some a) (named : ∃ f ∈ c.offers, f.Named a tag)
    (past : c.state ≠ .offering) :
    let t := ((s.replied x a tag v true).complete x r a (some tag) .ringing).settle
    ReplyDone s t x a tag v r ∧
      (∃ d, t.call? r = some d ∧ (c.marked a tag .ringing).SameButSending d) ∧
      (∀ j, j ≠ r.slot → (s.slot j).SameButSending (t.slot j)) ∧ t.psw = s.psw ∧
      Raises s t (s.replyEvents x a v) := by
  have turned := replied_turned (tag := tag) (v := v) active range true
  have done := fun w => replyDone_of (v := v) (tag := tag) (w := w) (r := r) active range
  have plain := fun w => replied_plain (v := v) (tag := tag) (w := w) active range
  have live := (replied_call (tag := tag) (v := v) active range r).trans hc
  obtain ⟨ccu, psw, -, hlp, ntu, ports⟩ := turned.blocks
  generalize s.replied x a tag v true = u at *
  rw [complete_named live ne named, if_neg past]
  have k := settle_settled (u.setCall r (c.marked a tag .ringing))
  refine ⟨done _ (setCall_moves ..) fun queue resends _ _ => plain _ rfl queue resends,
    k.live (setCall_live live _), fun j ne => ?_, k.psw.trans psw, ?_⟩
  · rw [← State.slot_congr ccu j, ← setCall_other (s := u) (c.marked a tag .ringing) ne]
    exact k.slots j
  · exact .of_settled (u := u.setCall r (c.marked a tag .ringing)) (congrArg Hlp.tx hlp) ntu k

/-- R15: any other result that finds its offer. -/
theorem reply_completes {result : OfferStatus} (active : (s.riser x).link = .active)
    (range : 1 ≤ a ∧ a ≤ 62) (hc : s.call? r = some c)
    (fresh : c.state = .offering → c.answerer = none) (ne : c.answerer ≠ some a)
    (named : ∃ f ∈ c.offers, f.Named a tag) (other : result ≠ .ringing) :
    let released : State := { s with risers := s.risers.write x { s.riser x with
      outstanding := (s.riser x).outstanding.filter fun q => decide (q.tag ≠ tag)
      resends := (s.riser x).resends.filter fun n => decide (n ≠ tag)
      freeTags := (s.riser x).freeTags ++ [tag] } }
    let t := ((s.replied x a tag v true).complete x r a (some tag) result).settle
    ReplyDone s t x a tag v r ∧
      CompletionTaken ((s.replyEvents x a v).foldl State.emit released) t r c a tag result := by
  have turned := replied_turned (tag := tag) (v := v) active range true
  have done := fun w => replyDone_of (v := v) (tag := tag) (w := w) (r := r) active range
  have plain := fun w => replied_plain (v := v) (tag := tag) (w := w) active range
  have live := (replied_call (tag := tag) (v := v) active range r).trans hc
  obtain ⟨-, psw, -⟩ := turned.blocks
  generalize s.replied x a tag v true = u at *
  refine ⟨done _ (complete_moves ..) fun queue resends queues _ =>
    plain _ (complete_risers live fresh fun y => ?_) queue resends, ?_⟩
  · rw [State.paths_congr psw]
    exact queues y
  · have alike := turned.endsAlike (z := { s.riser x with
      outstanding := (s.riser x).outstanding.filter fun q => decide (q.tag ≠ tag)
      resends := (s.riser x).resends.filter fun n => decide (n ≠ tag)
      freeTags := (s.riser x).freeTags ++ [tag] }) ⟨rfl, rfl, rfl, rfl, rfl, rfl⟩ s.clock r c
    refine completionTaken alike ?_ live ne named other (settle_settled _)
    rw [emits_psw]
    exact psw

/-- R16: RINGING for a call that is no longer live. -/
theorem reply_stale (active : (s.riser x).link = .active) (due : (s.riser x).overrunDue = false)
    (range : 1 ≤ a ∧ a ≤ 62) (hc : s.call? r = none) (room : (s.riser x).queue.length < 32) :
    let t := ((s.replied x a tag v true).complete x r a (some tag) .ringing).settle
    ReplyDone s t x a tag v r ∧
      ((∀ j, (s.slot j).SameButSending (t.slot j)) ∧ t.psw = s.psw ∧
        Raises s t (s.replyEvents x a v)) ∧
      (t.riser x).frames = (s.riser x).frames ++ [.advisory (.cancel a .noCall (some r))] := by
  have turned := replied_turned (tag := tag) (v := v) active range true
  have done := fun w => replyDone_of (v := v) (tag := tag) (w := w) (r := r) active range
  have stale := (replied_call (tag := tag) (v := v) active range r).trans hc
  obtain ⟨ccu, psw, -, hlp, ntu, -⟩ := turned.blocks
  generalize s.replied x a tag v true = u at *
  have riser := turned.riser
  obtain ⟨same, queue, tags, resends, out⟩ := advise_cancel (s := u) (x := x)
    (by rw [riser]; exact active) (by rw [riser]; exact due) (by rw [riser]; exact room) a .noCall r
  rw [complete_stale stale, if_pos rfl]
  have moves := advise_moves u x (.cancel a .noCall (some r))
  generalize u.advise x (.cancel a .noCall (some r)) = w at *
  have k := settle_settled w
  have frames : (w.riser x).frames =
      (s.riser x).frames ++ [.advisory (.cancel a .noCall (some r))] := by
    unfold Riser.frames
    rw [queue, List.map_append, List.filter_append, riser]
    rfl
  refine ⟨done w moves fun q d _ alone => ⟨?_, ?_, ?_, fun f => ?_⟩, ⟨fun j => ?_, ?_, ?_⟩, ?_⟩
  · rw [out, riser]
    intro o ho
    rw [riser] at ho
    obtain ⟨ho, ne⟩ := List.mem_filter.1 (show o ∈ (s.riser x).outstanding.filter _ from ho)
    exact alone o ho (of_decide_eq_true ne)
  · rw [tags, riser]
    rfl
  · refine resends ?_
    rw [riser]
    show (s.riser x).resends.filter _ = []
    rw [d]
    rfl
  · have only : (w.riser x).frames = [.advisory (.cancel a .noCall (some r))] := by
      rw [frames, Riser.frames, q]
      rfl
    unfold Riser.nextFrame
    rw [only]
    simp
  · rw [← State.slot_congr (show w.ccu = s.ccu by rw [same]; exact ccu) j]
    exact k.slots j
  · exact k.psw.trans (by rw [same]; exact psw)
  · exact .of_settled (u := w) (by rw [same]; exact congrArg Hlp.tx hlp) (by rw [same]; exact ntu) k
  · rw [(k.risers x).frames, frames]

end

/-! ## POLL, and no request -/

/-- R74, R95, R106: a REPLY to a POLL. -/
theorem reply_polled {s : State} {x : RiserIx} {a tag v : Nat} (active : (s.riser x).link = .active)
    (range : 1 ≤ a ∧ a ≤ 62) :
    let y := s.riser x
    let rest := y.outstanding.filter fun q => decide (q.tag ≠ tag)
    let t := (s.replied x a tag v false).settle
    (y.queue = [] → y.resends = [] →
      (t.riser x).outstanding = rest ∧ (t.riser x).freeTags = y.freeTags ++ [tag]) ∧
    ((t.riser x).station a).presence = .present ∧ FlagTaken s t x a (decide (v ≠ 0)) ∧
    y.QuietIf (t.riser x) (y.frames = [] ∧ rest = [] ∧
      s.paths x = { holderA := none, holderB := none, queue := [] }) ∧
    (t.riser x).frames = y.frames ∧ (t.riser x).surveyPos = y.surveyPos ∧
    t.psw = s.psw ∧ t.locks = s.locks ∧ (∀ j, (s.slot j).SameButSending (t.slot j)) ∧
    Raises s t (s.replyEvents x a v) := by
  intro y rest
  have turned := replied_turned (tag := tag) (v := v) active range false
  obtain ⟨ccu, psw, -, hlp, ntu, -⟩ := turned.blocks
  generalize s.replied x a tag v false = u at *
  have riser := turned.riser
  have k := settle_settled u
  have kx := k.risers x
  obtain ⟨presence, flag, -, locks⟩ := turned.kept (.refl u) k
  have frames : (u.settle.riser x).frames = y.frames := by
    rw [kx.frames, riser]
    rfl
  have out : (u.riser x).outstanding = rest := by rw [riser]; rfl
  have plain : y.frames = [] → (u.riser x).resends = [] →
      (u.settle.riser x).outstanding = rest ∧ (u.settle.riser x).freeTags = y.freeTags ++ [tag] :=
    fun none due => by
      obtain ⟨o, g⟩ := kx.noRequest due fun f => by
        rw [Riser.nextFrame_none (by rw [← kx.frames, frames, none])]
        simp
      exact ⟨o.trans out, g.trans (by rw [riser]; rfl)⟩
  refine ⟨fun queue resends => plain ?_ ?_, presence, flag, ?_, frames, ?_, k.psw.trans psw, locks,
    fun j => ?_, .of_settled (congrArg Hlp.tx hlp) ntu k⟩
  · show ((s.riser x).queue.map _).filter _ = []
    rw [show (s.riser x).queue = [] from queue]
    rfl
  · rw [riser]
    show (s.riser x).resends.filter _ = []
    rw [show (s.riser x).resends = [] from resends]
    rfl
  · have quiet := settle_quietIf (s := u) (r := x) (by rw [riser]; exact active)
    have idle : (((u.settle.riser x).frames = [] ∧ (u.settle.riser x).outstanding = [] ∧
        u.settle.paths x = { holderA := none, holderB := none, queue := [] }) ↔ (y.frames = [] ∧
          rest = [] ∧ s.paths x = { holderA := none, holderB := none, queue := [] })) := by
      rw [frames, State.paths_congr (k.psw.trans psw) x]
      refine and_congr_right fun none => and_congr_left fun _ => ⟨fun h => ?_, fun h => ?_⟩
      · have pre := kx.outstanding
        rw [h, out] at pre
        exact List.prefix_nil.1 pre
      · rcases kx.line with same | served
        · exact same.2.1.trans (out.trans h)
        · rcases served.sent with ⟨_, _, _, _, _, o, _⟩ | ⟨_, _, _, _, _, o, _⟩ | ⟨_, f, _, _, n, _⟩
          · exact o.trans (out.trans h)
          · exact o.trans (out.trans h)
          · rw [Riser.nextFrame_none (by rw [← kx.frames, frames, none])] at n
            cases n
    rw [propext idle, riser] at quiet
    exact quiet
  · obtain ⟨-, -, -, -, -, -, pos⟩ := kx.settings
    rw [pos, riser]
    rfl
  · rw [← State.slot_congr ccu j]
    exact k.slots j

/-- R81: a REPLY that matches no request. -/
theorem reply_unmatched {s : State} {x : RiserIx} {a : Nat} (active : (s.riser x).link = .active)
    (range : 1 ≤ a ∧ a ≤ 62) :
    let t := (s.heard x a true).settle
    (t.riser x).station a = { presence := .present, privacy := ((s.riser x).station a).privacy } ∧
      (t.riser x).idleTimer = some (s.clock + (s.riser x).quietIdleS * 1000) ∧
      (t.riser x).frames = (s.riser x).frames ∧ t.psw = s.psw ∧ t.dir = s.dir ∧ t.locks = s.locks ∧
      (∀ j, (s.slot j).SameButSending (t.slot j)) ∧ Raises s t (s.presentEvents x a) := by
  have turned := Turned.heard active range true
  obtain ⟨ccu, psw, -, hlp, ntu, -⟩ := turned.blocks
  generalize s.heard x a true = u at *
  have riser := turned.riser
  have k := settle_settled u
  obtain ⟨presence, flag, -, locks⟩ := turned.kept (.refl u) k
  refine ⟨?_, ?_, ?_, k.psw.trans psw, k.dir.trans (turned.flag.same rfl), locks, fun j => ?_,
    .of_settled (congrArg Hlp.tx hlp) ntu k⟩
  · have f := flag.flag
    generalize (u.settle.riser x).station a = st at presence f
    obtain ⟨p, w⟩ := st
    subst presence f
    rfl
  · rw [((k.risers x).awake (by rw [riser]; rfl)).2.1, riser]
    rfl
  · rw [(k.risers x).frames, riser]
    rfl
  · rw [← State.slot_congr ccu j]
    exact k.slots j

/-- Settles O51: the outcomes of a completion, each from the heard riser. -/
theorem repliesCompleteTheirRequests : Obligations.RepliesCompleteTheirRequests := by
  refine ⟨fun x a tag res v r k o m e cp s active due free low high match' => ?_,
    fun x a tag res v m e cp s active due free low high match' => ?_,
    fun x a tag res v s active due free low high unmet => ?_⟩
  · have run := (stationReply_run (v := v) active due free ⟨low, high⟩ res match').1 r k o rfl
    have range : 1 ≤ a ∧ a ≤ 62 := ⟨low, high⟩
    refine ⟨fun c hc fresh ne named => ⟨fun two offering => ?_, fun two past => ?_, fun other => ?_⟩,
      fun c hc unnamed => ?_, fun stale other => ?_, fun stale two room => ?_⟩
    · subst two
      exact ⟨_, run, reply_rings active range hc ne named offering⟩
    · subst two
      exact ⟨_, run, reply_marks active range hc ne named past⟩
    · have result : offerResult res ≠ .ringing := by
        rw [offerResult_eq, if_neg other]
        split
        · simp
        · split <;> simp
      obtain ⟨done, taken⟩ := reply_completes (v := v) active range hc fresh ne named result
      rw [offerResult_eq] at run done taken
      exact ⟨_, run, done, taken⟩
    · rw [complete_unnamed ((replied_call active range r).trans hc) unnamed] at run
      exact ⟨_, run, reply_calm active range r⟩
    · rw [complete_stale ((replied_call active range r).trans stale), if_neg] at run
      · exact ⟨_, run, reply_calm active range r⟩
      · rw [offerResult_eq, if_neg other]
        split
        · simp
        · split <;> simp
    · subst two
      exact ⟨_, run, reply_stale active due range stale room⟩
  · exact ⟨_, (stationReply_run (v := v) active due free ⟨low, high⟩ res match').2 rfl,
      reply_polled active ⟨low, high⟩⟩
  · refine ⟨_, ?_, reply_unmatched active ⟨low, high⟩⟩
    have unmatched : (s.riser x).matching tag a = none :=
      List.find?_eq_none.2 fun q hq k => unmet q hq (by simpa using k)
    simp only [exec, execStationReply]
    rw [onStationFrame_taken active due free low high]
    unfold State.takeReply
    rw [unmatched]
    dsimp only
    rw [takeStationFrame_heard active]

end Sys2Proof.Machine
end

