-- ==== Sys2Proof/Proofs/ReplyTimeouts.lean ====
section
/-!
SUPPORT. A reply timer that runs out (O56): the second attempt, and the request that completes NO_REPLY
(R82, R83, R92, R107).
-/

namespace Sys2Proof.Machine

/-- R82: the expiry of the reply timer of an outstanding request. -/
theorem replyTimeout_run {s : State} {x : RiserIx} {o : Outstanding} {e : Nat}
    (due : (s.riser x).overrunDue = false)
    (found : (s.riser x).outstanding.find? (fun q => decide (q.tag = o.tag)) = some o)
    (timer : o.timer = some e) : exec (.replyTimeout x o.tag) s = .next
      (if o.attempt = 1 then (s.advanceTo e).secondAttempt x o
        else (s.advanceTo e).noReply x o).settle := by
  have idle : s.overrunFirst x = s := by
    unfold State.overrunFirst
    rw [if_neg (by simp [due])]
  simp only [exec, execReplyTimeout]
  rw [idle, found]
  dsimp only
  rw [timer]

/-! ## The first expiry -/

/-- The frame of a request stays when its record is changed otherwise. -/
theorem frameOf_each {y : Riser} {o : Outstanding} {f : Outstanding → Outstanding}
    (found : y.outstanding.find? (fun q => decide (q.tag = o.tag)) = some o)
    (tag : ∀ q, (f q).tag = q.tag) (frame : ∀ q, (f q).frame = q.frame) (rs : List Nat) :
    ({ y with
      outstanding := y.outstanding.map fun q => if q.tag = o.tag then f q else q
      resends := rs } : Riser).frameOf o.tag = some o.frame := by
  have same : ∀ q : Outstanding, (if q.tag = o.tag then f q else q).tag = q.tag := fun q => by
    split
    · exact tag q
    · rfl
  unfold Riser.frameOf
  dsimp only
  rw [List.find?_map]
  simp only [Function.comp_def, same, found, Option.map_some]
  split
  · rw [frame]
  · rfl

/-- R82: attempt 2 is resent as soon as the line is free. -/
theorem secondAttempt_resends {s : State} {x : RiserIx} {o : Outstanding}
    (clear : o.cancelPending = false)
    (found : (s.riser x).outstanding.find? (fun q => decide (q.tag = o.tag)) = some o) (e : Nat) :
    let y := s.riser x
    let now := max s.clock e
    let put := fun (z : Riser) => ({ s with clock := now, risers := s.risers.write x z } : State)
    let each := fun (f : Outstanding → Outstanding) =>
      y.outstanding.map fun q => if q.tag = o.tag then f q else q
    let t := ((s.advanceTo e).secondAttempt x o).settle
    Settled (put { y with
        outstanding := each fun q => { q with attempt := 2, timer := none }
        resends := y.resends ++ [o.tag] }) t ∧ t.clock = now ∧
      (each fun q => { q with attempt := 2, timer := none }) <+: (t.riser x).outstanding ∧
      (y.link = .active → y.tx = none → y.receiving = none → y.resends = [] →
        (t.riser x).tx = some (.resend (.solicited o.tag o.frame)) ∧ (t.riser x).resends = []) ∧
      (y.link ≠ .active ∨ y.tx ≠ none ∨ y.receiving ≠ none →
        (t.riser x).tx = y.tx ∧ (t.riser x).resends = y.resends ++ [o.tag]) := by
  intro y now put each t
  have act : (s.advanceTo e).secondAttempt x o = put { y with
      outstanding := each fun q => { q with attempt := 2, timer := none }
      resends := y.resends ++ [o.tag] } := by
    unfold State.secondAttempt
    rw [if_neg (by simp [clear])]
    rfl
  have here : (put { y with
      outstanding := each fun q => { q with attempt := 2, timer := none }
      resends := y.resends ++ [o.tag] }).riser x = { y with
        outstanding := each fun q => { q with attempt := 2, timer := none }
        resends := y.resends ++ [o.tag] } := Table.read_write_same ..
  have frame := frameOf_each (y := y) (f := fun q => { q with attempt := 2, timer := none }) found
    (fun _ => rfl) (fun _ => rfl) (y.resends ++ [o.tag])
  have time : (put { y with
      outstanding := each fun q => { q with attempt := 2, timer := none }
      resends := y.resends ++ [o.tag] }).clock = now := rfl
  dsimp only [t]
  rw [act]
  generalize put { y with
      outstanding := each fun q => { q with attempt := 2, timer := none }
      resends := y.resends ++ [o.tag] } = w at here time
  have k := settle_settled w
  have kx := k.risers x
  have goes := fun h free idle due => settle_resends (s := w) (r := x) (tag := o.tag) (rest := [])
    (f := o.frame) h free idle due
  rw [here] at kx goes
  refine ⟨k, k.clock.trans time, kx.outstanding, fun h free idle none => ?_, fun busy => ?_⟩
  · exact goes h free idle (by rw [none]; rfl) frame
  · obtain ⟨tx, -, resends, -⟩ := kx.sameLine busy
    exact ⟨tx, resends⟩

/-- R83: with its cancel-pending mark the request waits once more. -/
theorem secondAttempt_waits {s : State} {x : RiserIx} {o : Outstanding}
    (marked : o.cancelPending = true) (e : Nat) :
    let y := s.riser x
    let now := max s.clock e
    let put := fun (z : Riser) => ({ s with clock := now, risers := s.risers.write x z } : State)
    let each := fun (f : Outstanding → Outstanding) =>
      y.outstanding.map fun q => if q.tag = o.tag then f q else q
    let t := ((s.advanceTo e).secondAttempt x o).settle
    Settled (put { y with
        outstanding := each fun q => { q with attempt := 2, timer := some (now + 250) } }) t ∧
      t.clock = now ∧ (t.riser x).resends <:+ y.resends ∧
      (each fun q => { q with attempt := 2, timer := some (now + 250) }) <+:
        (t.riser x).outstanding := by
  intro y now put each t
  have act : (s.advanceTo e).secondAttempt x o = put { y with
      outstanding := each fun q => { q with attempt := 2, timer := some (now + 250) } } := by
    unfold State.secondAttempt
    rw [if_pos marked]
    rfl
  have here : (put { y with
      outstanding := each fun q => { q with attempt := 2, timer := some (now + 250) } }).riser x =
        { y with outstanding := each fun q => { q with attempt := 2, timer := some (now + 250) } } :=
    Table.read_write_same ..
  have time : (put { y with
      outstanding := each fun q => { q with attempt := 2, timer := some (now + 250) } }).clock = now :=
    rfl
  dsimp only [t]
  rw [act]
  generalize put { y with
      outstanding := each fun q => { q with attempt := 2, timer := some (now + 250) } } = w at here time
  have k := settle_settled w
  have kx := k.risers x
  rw [here] at kx
  exact ⟨k, k.clock.trans time, kx.resends_suffix, kx.outstanding⟩

/-! ## The second expiry -/

/-- R92: the event with which a station turns ABSENT. -/
def Riser.absentEvents (y : Riser) (x : RiserIx) (a : Nat) : List Event :=
  if (y.station a).presence = .present then [.stationChange x a .absent] else []

/-- The state in which the completion NO_REPLY is handed over. -/
def State.unanswered (s : State) (x : RiserIx) (o : Outstanding) (a e : Nat) : State :=
  if o.cancelPending then (s.advanceTo e).modifyRiser x fun y => y.dropRequest o.tag
  else ((s.advanceTo e).modifyRiser x fun y => y.dropRequest o.tag).stationLost x a

/-- The events raised before. -/
def State.lossEvents (s : State) (x : RiserIx) (o : Outstanding) (a : Nat) : List Event :=
  if o.cancelPending then [] else (s.riser x).absentEvents x a ++ s.flagEvents x a false

section
variable {s : State} {x : RiserIx} {o : Outstanding} {a e : Nat}

theorem unanswered_turned (range : 1 ≤ a ∧ a ≤ 62) :
    Turned s (s.unanswered x o a e) x ((s.riser x).dropRequest o.tag) a
      (if o.cancelPending then ((s.riser x).station a).presence else .absent)
      (if o.cancelPending then ((s.riser x).station a).privacy else false)
      (s.lossEvents x o a) := by
  have dropped := (Turned.start s (max s.clock e) x a).modify (f := fun y => y.dropRequest o.tag)
    fun _ _ => rfl
  unfold State.unanswered State.lossEvents
  split
  · exact dropped
  · have lost := (dropped.setPresence range .absent ((s.riser x).absentEvents x a)).setPrivacy range
      false
    have same : ((s.riser x).absentEvents x a).foldl State.emit
        ((({ s with clock := max s.clock e } : State).modifyRiser x fun y =>
          y.dropRequest o.tag).modifyRiser x fun z =>
            z.modifyStation a fun t => { t with presence := .absent }) =
        if ((((s.advanceTo e).modifyRiser x fun y => y.dropRequest o.tag).riser x).station
            a).presence = .present then
          (((s.advanceTo e).modifyRiser x fun y => y.dropRequest o.tag).modifyRiser x fun z =>
            z.modifyStation a fun t => { t with presence := .absent }).emit (.stationChange x a .absent)
        else ((s.advanceTo e).modifyRiser x fun y => y.dropRequest o.tag).modifyRiser x fun z =>
            z.modifyStation a fun t => { t with presence := .absent } := by
      have station : (((s.advanceTo e).modifyRiser x fun y => y.dropRequest o.tag).riser x).station a =
          (s.riser x).station a := by
        rw [State.riser_modifyRiser, if_pos rfl]
        rfl
      rw [station]
      unfold Riser.absentEvents
      split <;> rfl
    rw [same] at lost
    exact lost

theorem setStationPrivacy_clock (s : State) (x : RiserIx) (range : 1 ≤ a ∧ a ≤ 62) (v : Bool) :
    (s.setStationPrivacy x a v).clock = s.clock := by
  obtain ⟨-, d, rs, same⟩ := setStationPrivacy_taken s x range v
  have kept := (emits_moves (s.flagEvents x a v) s).kept
  rw [same]
  exact kept.clock

theorem unanswered_clock (range : 1 ≤ a ∧ a ≤ 62) : (s.unanswered x o a e).clock = max s.clock e := by
  unfold State.unanswered
  split
  · rfl
  · unfold State.stationLost
    dsimp only
    rw [setStationPrivacy_clock _ _ range]
    split
    · rw [State.emit_clock]
      rfl
    · rfl

theorem noReply_eq (station : o.frame.station = a) : (s.advanceTo e).noReply x o =
    match o.frame with
    | .offer b c _ _ => (s.unanswered x o a e).complete x c b (some o.tag) .noReply
    | .poll _ => s.unanswered x o a e := by
  subst station
  rfl

/-- What the completion of a request that was not answered leaves of the riser and its station. -/
def LossDone (s t : State) (x : RiserIx) (o : Outstanding) (a e : Nat) : Prop :=
  let y := s.riser x
  ((t.riser x).station a).presence =
      (if o.cancelPending then (y.station a).presence else .absent) ∧
    FlagTaken s t x a (if o.cancelPending then (y.station a).privacy else false) ∧
    (y.link = .active → y.QuietIf (t.riser x) ((t.riser x).frames = [] ∧
      (t.riser x).outstanding = [] ∧
      t.paths x = { holderA := none, holderB := none, queue := [] })) ∧
    t.clock = max s.clock e ∧ t.locks = s.locks ∧
    (y.queue = [] → y.resends = [] → (∀ z, (s.paths z).queue = []) →
      (t.riser x).outstanding = y.outstanding.filter (fun q => decide (q.tag ≠ o.tag)) ∧
      (t.riser x).freeTags = y.freeTags ++ [o.tag])

/-- R74, R82, R92: whatever the completion does, it is done when the station's turn is over. -/
theorem lossDone_of {w : State} (range : 1 ≤ a ∧ a ≤ 62) (m : CallMoves (s.unanswered x o a e) w)
    (plain : (∀ z, (s.paths z).queue = []) → w.risers = (s.unanswered x o a e).risers) :
    LossDone s w.settle x o a e := by
  have turned := unanswered_turned (s := s) (x := x) (o := o) (e := e) range
  have clock := unanswered_clock (s := s) (x := x) (o := o) (e := e) range
  generalize s.unanswered x o a e = u at *
  have k := settle_settled w
  obtain ⟨presence, flag, time, locks⟩ := turned.kept m k
  have riser := turned.riser
  refine ⟨presence, flag, fun active => ?_, time.trans clock, locks, fun queue resends queues => ?_⟩
  · have awake := m.awake (x := x) (by rw [riser]; exact active)
    obtain ⟨-, -, allowed, -⟩ := m.callEventKept.risers x
    rw [riser] at awake allowed
    obtain ⟨link, idle, step, mark⟩ := awake
    have quiet := settle_quietIf (s := w) (r := x) (link.trans active)
    unfold Riser.QuietIf at quiet ⊢
    dsimp only at quiet ⊢
    rw [mark, idle, step, allowed] at quiet
    exact quiet
  · have same := (State.riser_congr (plain queues) x).trans riser
    have frames : (w.riser x).frames = [] := by
      rw [same]
      show ((s.riser x).queue.map _).filter _ = []
      rw [queue]
      rfl
    obtain ⟨out, tags⟩ := (k.risers x).noRequest (by
      rw [same]
      show (s.riser x).resends.filter _ = []
      rw [resends]
      rfl) fun f => by
        rw [Riser.nextFrame_none frames]
        simp
    rw [same] at out tags
    exact ⟨out, tags⟩

/-- R107: a completion that finds no offer. -/
theorem unanswered_calm (range : 1 ≤ a ∧ a ≤ 62) :
    let t := (s.unanswered x o a e).settle
    LossDone s t x o a e ∧ t.psw = s.psw ∧ (∀ j, (s.slot j).SameButSending (t.slot j)) ∧
      (t.riser x).frames = (s.riser x).frames ∧ Raises s t (s.lossEvents x o a) := by
  have turned := unanswered_turned (s := s) (x := x) (o := o) (e := e) range
  have done := lossDone_of (s := s) (x := x) (o := o) (e := e) range (.refl _) fun _ => rfl
  generalize s.unanswered x o a e = u at *
  have k := settle_settled u
  obtain ⟨ccu, psw, -, hlp, ntu, -⟩ := turned.blocks
  refine ⟨done, k.psw.trans psw, fun j => ?_, ?_, .of_settled (congrArg Hlp.tx hlp) ntu k⟩
  · rw [← State.slot_congr ccu j]
    exact k.slots j
  · rw [(k.risers x).frames, turned.riser]
    rfl

/-- R13, R15, R16: a completion NO_REPLY that finds its offer. -/
theorem unanswered_completes {r : Ref} {c : Call} (range : 1 ≤ a ∧ a ≤ 62) (hc : s.call? r = some c)
    (fresh : c.state = .offering → c.answerer = none) (ne : c.answerer ≠ some a)
    (named : ∃ f ∈ c.offers, f.Named a o.tag) :
    let y := s.riser x
    let put : State := { s with clock := max s.clock e, risers := s.risers.write x { y with
      outstanding := y.outstanding.filter fun q => decide (q.tag ≠ o.tag)
      resends := y.resends.filter fun n => decide (n ≠ o.tag)
      freeTags := y.freeTags ++ [o.tag] } }
    let t := ((s.unanswered x o a e).complete x r a (some o.tag) .noReply).settle
    LossDone s t x o a e ∧
      CompletionTaken ((s.lossEvents x o a).foldl State.emit put) t r c a o.tag .noReply := by
  have turned := unanswered_turned (s := s) (x := x) (o := o) (e := e) range
  have done := fun w => lossDone_of (s := s) (x := x) (o := o) (e := e) (w := w) range
  generalize s.unanswered x o a e = u at *
  obtain ⟨ccu, psw, -⟩ := turned.blocks
  have live : u.call? r = some c := (State.call?_congr ccu r).trans hc
  have alike := turned.endsAlike (z := { s.riser x with
      outstanding := (s.riser x).outstanding.filter fun q => decide (q.tag ≠ o.tag)
      resends := (s.riser x).resends.filter fun n => decide (n ≠ o.tag)
      freeTags := (s.riser x).freeTags ++ [o.tag] }) ⟨rfl, rfl, rfl, rfl, rfl, rfl⟩ (max s.clock e) r c
  refine ⟨done _ (complete_moves ..) fun queues => complete_risers live fresh fun z => ?_,
    completionTaken alike ?_ live ne named (by simp) (settle_settled _)⟩
  · rw [State.paths_congr psw]
    exact queues z
  · rw [emits_psw]
    exact psw

end

/-- Settles O56: the two attempts, and the completion of the second. -/
theorem replyTimeoutResendsThenGivesUp : Obligations.ReplyTimeoutResendsThenGivesUp := by
  intro x o e s due found timer
  have run := replyTimeout_run due found timer
  refine ⟨fun first clear => ?_, fun first marked => ?_, fun a second station low high => ?_⟩
  · rw [if_pos first] at run
    exact ⟨_, run, secondAttempt_resends clear found e⟩
  · rw [if_pos first] at run
    exact ⟨_, run, secondAttempt_waits marked e⟩
  · have range : 1 ≤ a ∧ a ≤ 62 := ⟨low, high⟩
    rw [if_neg second, noReply_eq station] at run
    refine ⟨fun poll => ?_, fun r k p offer => ⟨fun stale => ?_, fun c hc unnamed => ?_,
      fun c hc fresh ne named => ?_⟩⟩
    · rw [poll] at run
      exact ⟨_, run, unanswered_calm range⟩
    · have ccu := (unanswered_turned (s := s) (x := x) (o := o) (e := e) range).blocks.1
      rw [offer] at run
      dsimp only at run
      rw [complete_stale ((State.call?_congr ccu r).trans stale), if_neg (by simp)] at run
      exact ⟨_, run, unanswered_calm range⟩
    · have ccu := (unanswered_turned (s := s) (x := x) (o := o) (e := e) range).blocks.1
      rw [offer] at run
      dsimp only at run
      rw [complete_unnamed ((State.call?_congr ccu r).trans hc) unnamed] at run
      exact ⟨_, run, unanswered_calm range⟩
    · rw [offer] at run
      exact ⟨_, run, unanswered_completes range hc fresh ne named⟩

end Sys2Proof.Machine
end

