-- ==== Sys2Proof/Proofs/StationLifts.lean ====
section
/-!
SUPPORT. LIFT (O49): the answer (R17), and the LIFT that is turned away or ignored (R18, R100, R101).
-/

namespace Sys2Proof.Machine

/-! ## Whose LIFT it is -/

/-- R1, R3: the live calls are those of the slots. -/
theorem mem_liveCalls_slot {s : State} {r : Ref} {c : Call} (h : (r, c) ∈ s.liveCalls) :
    (s.slot r.slot).call = some c :=
  ((s.call?_eq_some r c).1 (State.mem_liveCalls.1 h)).2

theorem liveCalls_slot {s : State} {j : SlotIx} {c : Call} (h : (s.slot j).call = some c) :
    (({ slot := j, gen := (s.slot j).generation } : Ref), c) ∈ s.liveCalls :=
  State.mem_liveCalls.2 ((s.call?_eq_some _ c).2 ⟨rfl, h⟩)

/-- A call that alone has a property is the one that is found by it. -/
theorem find_liveCall {s : State} {r : Ref} {c : Call} {p : Ref × Call → Bool}
    (hc : s.call? r = some c) (has : p (r, c) = true)
    (only : ∀ q d, s.call? q = some d → p (q, d) = true → q.slot = r.slot) :
    s.liveCalls.find? p = some (r, c) := by
  cases found : s.liveCalls.find? p with
  | none =>
    exact absurd has (List.find?_eq_none.1 found _ (State.mem_liveCalls.2 hc))
  | some rc =>
    obtain ⟨q, d⟩ := rc
    have live : s.call? q = some d := State.mem_liveCalls.1 (List.mem_of_find?_eq_some found)
    have slot := only q d live (List.find?_some found)
    obtain ⟨g, m⟩ := (s.call?_eq_some q d).1 live
    obtain ⟨g', m'⟩ := (s.call?_eq_some r c).1 hc
    have same : q = r := by
      obtain ⟨i, n⟩ := q
      obtain ⟨i', n'⟩ := r
      obtain rfl : i = i' := slot
      obtain rfl : n = n' := g.symm.trans g'
      rfl
    subst same
    rw [m] at m'
    rw [Option.some.inj m']

theorem mayAnswer_iff {s : State} {x : RiserIx} {a : Nat} {c : Call} : s.mayAnswer x a c = true ↔
    c.leg = .flat ∧ (c.state = .offering ∨ c.state = .ringing) ∧ c.answerer = none ∧
      s.riserOfCall c = some x ∧
      ∃ o ∈ c.offers, o.station = a ∧ (o.status = .sent ∨ o.status = .ringing) := by
  simp only [State.mayAnswer, Bool.and_eq_true, Bool.or_eq_true, decide_eq_true_eq,
    Option.isNone_iff_eq_none, List.any_eq_true, and_assoc]

/-- The call table and the flats decide who answers. -/
theorem riserOfCall_congr {s t : State} (dir : t.dir = s.dir) (c : Call) :
    t.riserOfCall c = s.riserOfCall c := by
  unfold State.riserOfCall
  simp only [State.flat_congr dir]

/-! ## Records with no offer left in the queue -/

/-- R13: a sending report reaches a QUEUED offer only. -/
theorem Call.SameButSending.eq {c d : Call} (h : c.SameButSending d)
    (none : ∀ o ∈ c.offers, o.status ≠ .queued) : d = c := by
  obtain ⟨same, offers⟩ := h
  have e : d.offers = c.offers := by
    generalize c.offers = l at offers none
    generalize d.offers = m at offers
    induction offers with
    | nil => rfl
    | cons first _ ih =>
      rcases first with e | ⟨q, -⟩
      · rw [e, ih fun o ho => none o (by simp [ho])]
      · exact absurd q (none _ (by simp))
  rw [same, e]

/-! ## The answer (R17) -/

/-- R17 step 5: an offer after the answer of a station. -/
def Offer.answeredBy (a : Nat) (o : Offer) : Offer :=
  if o.station ≠ a ∧ (o.status = .sent ∨ o.status = .ringing) then { o with status := .cancelled }
  else if o.status = .queued then { o with status := .withdrawn } else o

/-- R17 step 5: the offers that are taken back. -/
theorem Offer.isOther_eq (a : Nat) (o : Offer) : (!decide (o.station = a) && o.isOut) =
    decide (o.station ≠ a ∧ (o.status = .sent ∨ o.status = .ringing)) := by
  simp [Offer.isOut]

theorem Offer.answeredBy_eq (a : Nat) (o : Offer) :
    (o.recalled fun o => decide (o.station = a)).withdrawn = o.answeredBy a := by
  unfold Offer.recalled Offer.answeredBy Offer.withdrawn
  rw [Offer.isOther_eq]
  by_cases out : o.station ≠ a ∧ (o.status = .sent ∨ o.status = .ringing)
  · rw [decide_eq_true out, if_pos rfl, if_pos out, if_neg (by simp)]
  · simp only [out, decide_false, Bool.false_eq_true, if_false]

theorem Offer.answeredBy_notQueued (a : Nat) (o : Offer) : (o.answeredBy a).status ≠ .queued := by
  unfold Offer.answeredBy
  split
  · simp
  · split
    · simp
    · next h => exact h

/-- R17: the record of an answered call. -/
def Call.talking (c : Call) (a now talk : Nat) : Call :=
  { c with
    answerer := some a, state := .connected, offers := c.offers.map (Offer.answeredBy a)
    timer := some { kind := .talk, expiry := now + talk * 1000 } }

/-- R17 steps 2, 4 and 5: what an answer gives the riser. -/
def Call.answerFrames (c : Call) (a : Nat) (r : Ref) (ch : Channel) : List QueueEntry :=
  .advisory (.join a r ch.side) ::
    (c.offers.filter fun o => decide (o.station ≠ a ∧ (o.status = .sent ∨ o.status = .ringing))).map
      fun o => .advisory (.cancel o.station .answeredElsewhere (some r))

/-- What stands after the steps of R17. -/
structure Answered (s t : State) (x : RiserIx) (a : Nat) (r : Ref) (c : Call) (ch : Channel) : Prop where
  record : t.call? r = some (c.talking a s.clock s.ccu.times.talk)
  others : ∀ j, j ≠ r.slot → t.slot j = s.slot j
  psw    : t.psw = { s.psw with joins := s.psw.joins ++
    [{ call := r, origin := c.origin, other := .channel ch }] }
  given  : (s.riser x).Given (t.riser x) s.clock r c.queuedStations (c.answerFrames a r ch)
  shows  : (s.port c.origin).function ≠ .off → (t.port c.origin).Shows .speak
  hlp    : t.hlp = s.hlp
  ntu    : t.ntu = (s.emit (.callAnswered r (some a) none)).ntu

theorem takeAnswer_answered {s : State} {x : RiserIx} {a : Nat} {r : Ref} {c : Call} {ch : Channel}
    (ok : (s.riser x).Takes) (hc : s.call? r = some c) (channel : c.channel = some ch)
    (held : ∀ o ∈ c.offers, o.status = .queued → (s.riser x).HoldsOffer o.station r)
    (nodup : (c.offers.map fun o => o.station).Nodup)
    (spared : ∀ o ∈ c.offers, o.station = a → o.status ≠ .queued)
    (room : (s.riser x).queue.length + 1 + c.offers.length ≤ 32) :
    Answered s (s.takeAnswer x a r c) x a r c ch := by
  have short := List.length_filter_le
    (fun o : Offer => !decide (o.station = a) && o.isOut) c.offers
  have join : Gives (s.riser x) x r [] [.advisory (.join a r ch.side)]
      ((s.setCall r (c.answered a)).makeJoin { call := r, origin := c.origin, other := .channel ch })
      ((s.setCall r (c.answered a)).joinAnswer x a r c) := by
    have one := (Gives.refl x r ((s.setCall r (c.answered a)).makeJoin
      { call := r, origin := c.origin, other := .channel ch })).advise ok
      (by
        show (s.riser x).queue.length + 0 < 32
        omega) (.join a r ch.side)
    unfold State.joinAnswer
    rw [channel]
    exact one
  obtain ⟨back, offers⟩ := takeBackAll_gives (why := .answeredElsewhere)
    (skip := fun o => decide (o.station = a)) (os := c.offers) join ok
    (by simp only [List.length_singleton]; omega)
    (fun e he b => by rw [List.mem_singleton.1 he]; rfl) held nodup
    (fun o ho k => spared o ho (of_decide_eq_true k)) (fun o u e => by rw [e])
  rw [takeAnswer_eq]
  dsimp only
  generalize State.takeBackAll _ _ _ _ _ _ = b at back offers ⊢
  obtain ⟨w, os⟩ := b
  dsimp only at back offers ⊢
  have took : os = c.offers.map (Offer.answeredBy a) :=
    offers.trans (List.map_congr_left fun o _ => o.answeredBy_eq a)
  subst took
  have only := back.only
  have timer : w.callTimer .talk =
      { kind := .talk, expiry := s.clock + s.ccu.times.talk * 1000 } := by
    unfold State.callTimer State.inSeconds
    rw [only.ccu, only.clock]
    rfl
  have live : w.call? r = some (c.answered a) :=
    (State.call?_congr only.ccu r).trans (setCall_live hc _)
  have record : ({ c.answered a with
      offers := c.offers.map (Offer.answeredBy a), timer := some (w.callTimer .talk) } : Call) =
      c.talking a s.clock s.ccu.times.talk := by
    rw [timer]
    rfl
  rw [record]
  refine ⟨?_, fun j ne => ?_, ?_, ?_, fun on => ?_, ?_, ?_⟩
  · rw [State.call?_congr (State.emit_ccu ..) r]
    exact setCall_live live _
  · rw [State.slot_congr (State.emit_ccu ..) j]
    refine (setCall_other _ ne).trans ?_
    rw [State.slot_congr only.ccu j]
    exact setCall_other (s := s) _ ne
  · rw [State.emit_psw]
    exact only.psw
  · rw [State.riser_congr (State.emit_risers ..) x]
    have given := back.given
    simp only [Offer.isOther_eq] at given
    exact given
  · refine Port.Shows.emit ?_ _
    have port : w.port c.origin = s.port c.origin := State.port_congr only.ports _
    have shown := Port.place_shows (d := .speak) (p := w.port c.origin) (by rw [port]; exact on)
    refine Eq.mpr (congrArg (Port.Shows · _) ?_) shown
    exact (State.port_display ..).trans (if_pos rfl)
  · rw [State.emit_hlp]
    exact only.hlp
  · have ntu : ((w.setCall r (c.talking a s.clock s.ccu.times.talk)).display c.origin .speak).ntu =
        s.ntu := only.ntu
    exact emit_ntu_congr ntu _

/-! ## A LIFT that is taken -/

theorem stationLift_run {s : State} {x : RiserIx} {a : Nat} (active : (s.riser x).link = .active)
    (due : (s.riser x).overrunDue = false) (free : (s.riser x).tx = none) (low : 1 ≤ a) (high : a ≤ 62) :
    exec (.stationLift x a) s = .next ((s.heard x a true).lift x a).settle := by
  simp only [exec, execStationLift]
  rw [onStationFrame_taken active due free low high, takeStationFrame_heard active]

/-- R74, R92: what any LIFT leaves of its station and its riser. -/
theorem lift_heard {s w : State} {x : RiserIx} {a : Nat} (active : (s.riser x).link = .active)
    (low : 1 ≤ a) (high : a ≤ 62) (m : CallMoves (s.heard x a true) w) :
    ((w.settle.riser x).station a).presence = .present ∧
      (w.settle.riser x).idleTimer = some (s.clock + (s.riser x).quietIdleS * 1000) := by
  have present := heard_presence (s := s) (x := x) low high true
  obtain ⟨idle, mark⟩ := heard_idle (s := s) (x := x) (a := a) active
  have link : ((s.heard x a true).riser x).link = .active := by
    rw [heard_riser, if_pos rfl]
    rfl
  have k := (settle_settled w).risers x
  obtain ⟨-, timer, -, mark'⟩ := m.awake link
  refine ⟨?_, ?_⟩
  · rw [k.station, (m.callEventKept.risers x).station, present]
  · rw [(k.awake (mark'.trans mark)).2.1, timer, idle]

theorem heard_takes {s : State} {x : RiserIx} {a : Nat} (active : (s.riser x).link = .active)
    (due : (s.riser x).overrunDue = false) (b : Bool) : ((s.heard x a b).riser x).Takes := by
  have q := heard_sameQueue (a := a) active b x
  exact ⟨by rw [q.link, active]; rfl, q.overrunDue.trans due⟩

theorem Call.answerFrames_frames (c : Call) (a : Nat) (r : Ref) (ch : Channel) :
    ∀ e ∈ c.answerFrames a r ch, e.isFrame = true := by
  intro e he
  rcases List.mem_cons.1 he with rfl | he
  · rfl
  · obtain ⟨o, -, rfl⟩ := List.mem_map.1 he
    rfl

/-- R13, R17: the LIFT of a station that may answer. -/
theorem lift_answers {s : State} {x : RiserIx} {a : Nat} {r : Ref} {c : Call} {ch : Channel}
    (active : (s.riser x).link = .active) (due : (s.riser x).overrunDue = false)
    (low : 1 ≤ a) (high : a ≤ 62) (there : ((s.riser x).station a).presence ≠ .absent)
    (hc : s.call? r = some c) (may : s.mayAnswer x a c = true)
    (held : ∀ o ∈ c.offers, o.status = .queued → (s.riser x).HoldsOffer o.station r)
    (nodup : (c.offers.map fun o => o.station).Nodup)
    (alone : ∀ j d, j ≠ r.slot → (s.slot j).call = some d → s.riserOfCall d = some x →
      ∀ o ∈ d.offers, o.station ≠ a)
    (channel : c.channel = some ch) (room : (s.riser x).queue.length + 1 + c.offers.length ≤ 32) :
    let t := ((s.heard x a true).lift x a).settle
    t.call? r = some (c.talking a s.clock s.ccu.times.talk) ∧
      (∀ j, j ≠ r.slot → (s.slot j).SameButSending (t.slot j)) ∧
      t.psw = { s.psw with joins := s.psw.joins ++
        [{ call := r, origin := c.origin, other := .channel ch }] } ∧
      FramesGiven (s.riser x) (t.riser x) s.clock r c.queuedStations (c.answerFrames a r ch) ∧
      ((t.riser x).station a).presence = .present ∧
      (t.riser x).idleTimer = some (s.clock + (s.riser x).quietIdleS * 1000) ∧
      ((s.port c.origin).function ≠ .off → (t.port c.origin).Shows .speak) ∧
      Raises s t [.callAnswered r (some a) none] := by
  have after := fun w => lift_heard (w := w) active low high
  obtain ⟨ccu, dir, psw, ports, -, hlp, ntu⟩ := heard_blocks there true
  have clock : (s.heard x a true).clock = s.clock := by rw [heard_quiet there]
  have queue := heard_sameQueue (a := a) active true x
  have ok := heard_takes (a := a) active due true
  generalize s.heard x a true = u at *
  have live : u.call? r = some c := (State.call?_congr ccu r).trans hc
  have may' : ∀ d, u.mayAnswer x a d = s.mayAnswer x a d := fun d => by
    unfold State.mayAnswer
    rw [riserOfCall_congr dir]
  have found : u.liveCalls.find? (fun rc => u.mayAnswer x a rc.2) = some (r, c) := by
    refine find_liveCall live (by rw [may']; exact may) fun q d hd m => ?_
    by_contra ne
    rw [may'] at m
    obtain ⟨-, -, -, home, o, ho, station, -⟩ := mayAnswer_iff.1 m
    refine alone q.slot d ne ?_ home o ho station
    rw [← State.slot_congr ccu]
    exact ((u.call?_eq_some q d).1 hd).2
  have act : u.lift x a = u.takeAnswer x a r c := by
    unfold State.lift
    rw [found]
  have spared : ∀ o ∈ c.offers, o.station = a → o.status ≠ .queued := fun o ho station q => by
    obtain ⟨-, -, -, -, p, hp, station', out⟩ := mayAnswer_iff.1 may
    obtain rfl : o = p := List.inj_on_of_nodup_map nodup ho hp (station.trans station'.symm)
    rw [q] at out
    rcases out with e | e <;> cases e
  have done := takeAnswer_answered ok live channel (fun o ho q => by
    obtain ⟨k, g, m⟩ := held o ho q
    exact ⟨k, g, by rw [queue.queue]; exact m⟩) nodup spared (by rw [queue.queue]; exact room)
  obtain ⟨present, idle⟩ := after _ (lift_moves u x a)
  rw [act] at present idle ⊢
  have k := settle_settled (u.takeAnswer x a r c)
  have times : u.ccu.times = s.ccu.times := by rw [ccu]
  refine ⟨?_, fun j ne => ?_, ?_, ?_, present, idle, fun on => ?_, ?_⟩
  · obtain ⟨d, hd, same⟩ := k.live done.record
    rw [hd, same.eq fun o ho => ?_, clock, times]
    obtain ⟨p, -, rfl⟩ := List.mem_map.1 ho
    exact p.answeredBy_notQueued a
  · rw [← State.slot_congr ccu j, ← done.others j ne]
    exact k.slots j
  · rw [k.psw, done.psw, psw]
  · rw [← clock]
    exact (done.given.of_sameQueue queue).framesGiven (k.risers x) (c.answerFrames_frames a r ch)
  · exact (k.ports _).shows _ (done.shows (by rw [State.port_congr ports]; exact on))
  · refine .of_settled (u := u.takeAnswer x a r c) ?_ (done.ntu.trans (emit_ntu_congr ntu _)) k
    rw [done.hlp, hlp]

/-! ## A LIFT that is no answer (R18, R100, R101) -/

theorem stationsCall?_eq_none {s : State} {x : RiserIx} {a : Nat} : s.stationsCall? x a = none ↔
    ¬ ∃ j d, (s.slot j).call = some d ∧ d.leg = .flat ∧ d.state = .connected ∧
      d.answerer = some a ∧ s.riserOfCall d = some x := by
  unfold State.stationsCall? State.isStationsCall
  rw [List.find?_eq_none]
  simp only [Bool.and_eq_true, decide_eq_true_eq, and_assoc]
  constructor
  · rintro none ⟨j, d, hd, talks⟩
    exact none _ (liveCalls_slot hd) talks
  · rintro none ⟨r, d⟩ m talks
    exact none ⟨r.slot, d, mem_liveCalls_slot m, talks⟩

theorem stationFlat?_some {s : State} {x : RiserIx} {a : Nat} {i : FlatIx}
    (h : s.stationFlat? x a = some i) :
    (s.flat i).inService = true ∧ (s.flat i).riser = x ∧ a ∈ (s.flat i).stations := by
  have m := List.find?_some h
  simp only [Bool.and_eq_true, decide_eq_true_eq, mem_stations] at m
  exact ⟨m.1.1, m.1.2, m.2⟩

theorem stationFlat?_none {s : State} {x : RiserIx} {a : Nat} (h : s.stationFlat? x a = none)
    (i : FlatIx) :
    ¬ ((s.flat i).inService = true ∧ (s.flat i).riser = x ∧ a ∈ (s.flat i).stations) := by
  rintro ⟨v, e, m⟩
  refine List.find?_eq_none.1 h i (List.mem_finRange i) ?_
  simp only [Bool.and_eq_true, decide_eq_true_eq, mem_stations]
  exact ⟨⟨v, e⟩, m⟩

/-- R18, R101: a LIFT from a station whose flat has no call that talks. -/
theorem turnAway_noCall {s : State} {x : RiserIx} {a : Nat} (idle : s.stationsCall? x a = none)
    (quiet : ∀ i, (s.flat i).inService = true ∧ (s.flat i).riser = x ∧ a ∈ (s.flat i).stations →
      ∀ j d, (s.slot j).call = some d → ¬ (d.leg = .flat ∧ d.state = .connected ∧ d.flat = some i)) :
    s.turnAway x a = s.advise x (.cancel a .noCall none) := by
  unfold State.turnAway
  rw [idle]
  dsimp only
  cases home : s.stationFlat? x a with
  | none => rfl
  | some i =>
    have none_talks : s.connectedTo? i = none := List.find?_eq_none.2 fun rc m talks => by
      simp only [Bool.and_eq_true, decide_eq_true_eq, and_assoc] at talks
      exact quiet i (stationFlat?_some home) rc.1.slot rc.2 (mem_liveCalls_slot m) talks
    dsimp only
    rw [none_talks]

/-- R18, R100: a LIFT from a station whose flat another station answers for. -/
theorem turnAway_answered {s : State} {x : RiserIx} {a : Nat} {i : FlatIx} {r : Ref} {d : Call}
    (idle : s.stationsCall? x a = none)
    (home : (s.flat i).inService = true ∧ (s.flat i).riser = x ∧ a ∈ (s.flat i).stations)
    (only : ∀ k, (s.flat k).inService = true ∧ (s.flat k).riser = x ∧ a ∈ (s.flat k).stations → k = i)
    (hd : s.call? r = some d) (talks : d.leg = .flat ∧ d.state = .connected ∧ d.flat = some i)
    (alone : ∀ j e, (s.slot j).call = some e →
      e.leg = .flat ∧ e.state = .connected ∧ e.flat = some i → j = r.slot) :
    s.turnAway x a = s.advise x (.cancel a .answeredElsewhere (some r)) := by
  have flat : s.stationFlat? x a = some i := by
    cases h : s.stationFlat? x a with
    | none => exact absurd home (stationFlat?_none h i)
    | some k => rw [only k (stationFlat?_some h)]
  have talker : s.connectedTo? i = some (r, d) :=
    find_liveCall hd (by simpa [and_assoc] using talks) fun q e he m => by
      simp only [Bool.and_eq_true, decide_eq_true_eq, and_assoc] at m
      exact alone q.slot e ((s.call?_eq_some q e).1 he).2 m
  unfold State.turnAway
  rw [idle]
  dsimp only
  rw [flat]
  dsimp only
  rw [talker]

section
variable {s u : State} {x : RiserIx} {a : Nat}

/-- What a LIFT that is no answer changes. -/
def LiftKept (s t : State) (x : RiserIx) (a : Nat) : Prop :=
  ((t.riser x).station a).presence = .present ∧
    (t.riser x).idleTimer = some (s.clock + (s.riser x).quietIdleS * 1000) ∧
    (∀ j, (s.slot j).SameButSending (t.slot j)) ∧ t.psw = s.psw ∧ Raises s t []

/-- R18: a LIFT that is no answer touches at most its own riser. -/
theorem liftKept_of {w : State} (active : (s.riser x).link = .active) (low : 1 ≤ a) (high : a ≤ 62)
    (there : ((s.riser x).station a).presence ≠ .absent) (m : CallMoves (s.heard x a true) w)
    (only : OnlyRiser x (s.heard x a true) w) : LiftKept s w.settle x a := by
  obtain ⟨present, idle⟩ := lift_heard active low high m
  obtain ⟨ccu, -, psw, -, -, hlp, ntu⟩ := heard_blocks there true
  have k := settle_settled w
  refine ⟨present, idle, fun j => ?_, k.psw.trans (only.psw.trans psw),
    .of_settled (u := w) ?_ (only.ntu.trans ntu) k⟩
  · rw [← State.slot_congr (only.ccu.trans ccu) j]
    exact k.slots j
  · rw [only.hlp, hlp]

/-- R18, R101: a LIFT that is turned away with a CANCEL. -/
theorem lift_turnedAway {why : CancelReason} {call : Option Ref}
    (active : (s.riser x).link = .active) (due : (s.riser x).overrunDue = false) (low : 1 ≤ a)
    (high : a ≤ 62) (there : ((s.riser x).station a).presence ≠ .absent)
    (room : (s.riser x).queue.length < 32)
    (act : (s.heard x a true).lift x a = (s.heard x a true).advise x (.cancel a why call)) :
    LiftKept s ((s.heard x a true).lift x a).settle x a ∧
      FramesGiven (s.riser x) (((s.heard x a true).lift x a).settle.riser x) s.clock
        { slot := 0, gen := 0 } [] [.advisory (.cancel a why call)] := by
  rw [act]
  have queue := heard_sameQueue (a := a) active true x
  have clock : (s.heard x a true).clock = s.clock := by rw [heard_quiet there]
  have gives := (Gives.refl x { slot := 0, gen := 0 } (s.heard x a true)).advise
    (heard_takes active due true) (by
      show ((s.heard x a true).riser x).queue.length + 0 < 32
      rw [queue.queue]
      exact room) (.cancel a why call)
  refine ⟨liftKept_of active low high there (advise_moves ..) gives.only, ?_⟩
  rw [← clock]
  refine (gives.given.of_sameQueue queue).framesGiven ((settle_settled _).risers x) fun e he => ?_
  rw [List.mem_singleton.1 he]
  rfl

end

/-- Settles O49: the LIFT of a station that may answer, and the ways of any other (R17, R18). -/
theorem liftAnswersOrIsTurnedAway : Obligations.LiftAnswersOrIsTurnedAway := by
  refine ⟨fun x a r c ch s active due free low high there hc leg state answerer home out held nodup
    alone channel room => ?_, fun x a s active due free low high there nobody => ?_⟩
  · have may : s.mayAnswer x a c = true := mayAnswer_iff.2 ⟨leg, state, answerer, home, out⟩
    exact ⟨_, stationLift_run active due free low high,
      lift_answers active due low high there hc may held nodup alone channel room⟩
  · have run := stationLift_run active due free low high
    obtain ⟨ccu, dir, -⟩ := heard_blocks there true
    have slot := State.slot_congr ccu
    have flat := State.flat_congr dir
    have home := riserOfCall_congr dir
    have away : (s.heard x a true).lift x a = (s.heard x a true).turnAway x a := by
      have none_may : (s.heard x a true).liveCalls.find?
          (fun rc => (s.heard x a true).mayAnswer x a rc.2) = none :=
        List.find?_eq_none.2 fun rc m may => by
          obtain ⟨leg, state, answerer, on, o, ho, station, out⟩ := mayAnswer_iff.1 may
          rw [home] at on
          have live := mem_liveCalls_slot m
          rw [slot] at live
          obtain ⟨sent, ringing⟩ := nobody _ _ live leg state answerer on o ho station
          exact out.elim sent ringing
      unfold State.lift
      rw [none_may]
    have call : (s.heard x a true).stationsCall? x a = s.stationsCall? x a :=
      stationsCall?_congr ccu dir x a
    refine ⟨fun answers => ?_, fun silent room => ⟨fun quiet => ?_,
      fun i here only r d hd talks alone => ?_⟩⟩
    · have act : (s.heard x a true).lift x a = s.heard x a true := by
        rw [away]
        unfold State.turnAway
        cases h : (s.heard x a true).stationsCall? x a with
        | none => exact absurd answers (stationsCall?_eq_none.1 (call.symm.trans h))
        | some rc => rfl
      rw [act] at run
      refine ⟨_, run, liftKept_of active low high there (.refl _) (.refl ..), ?_⟩
      rw [((settle_settled _).risers x).frames, Riser.frames, (heard_sameQueue active true x).queue]
      rfl
    · refine ⟨_, run, lift_turnedAway active due low high there room (away.trans
        (turnAway_noCall (call.trans (stationsCall?_eq_none.2 silent)) fun i here j d hd => ?_))⟩
      rw [flat] at here
      rw [slot] at hd
      exact quiet i here j d hd
    · refine ⟨_, run, lift_turnedAway active due low high there room (away.trans
        (turnAway_answered (i := i) (d := d) (call.trans (stationsCall?_eq_none.2 silent)) ?_
          (fun k hk => ?_) ((State.call?_congr ccu r).trans hd) talks fun j e he m => ?_))⟩
      · rw [flat]
        exact here
      · rw [flat] at hk
        exact only k hk
      · rw [slot] at he
        exact alone j e he m

end Sys2Proof.Machine
end

