-- ==== Sys2Proof/Proofs/Offers.lean ====
section
/-!
SUPPORT. The flat-leg entry checks as statements about the records, and what a call that passes them leaves
when it is granted a channel (R9, R11, R54, R75).
-/

namespace Sys2Proof.Machine

/-! ## The lowest of its kind -/

theorem find?_finRange {n : Nat} {p : Fin n → Bool} {k : Fin n} (h : p k = true)
    (first : ∀ j, j < k → p j = false) : (List.finRange n).find? p = some k := by
  rw [List.find?_eq_some_iff_getElem]
  refine ⟨h, k.val, by simp, by simp, fun j hj => ?_⟩
  simpa using first ⟨j, hj.trans k.isLt⟩ hj

/-- R2: the lowest-numbered FREE slot. -/
theorem freeSlot?_eq {s : State} {k : SlotIx} (free : (s.slot k).call = none)
    (first : ∀ j, j < k → (s.slot j).call ≠ none) : s.freeSlot? = some k :=
  find?_finRange (by simp [free]) fun j hj => by
    simpa [Option.isSome_iff_ne_none] using first j hj

/-- R60: the lowest-numbered eligible desk, if any. -/
theorem lowestDesk_eq {s : State} {p : PortIx} (h : s.eligible p = true)
    (first : ∀ q, q < p → s.eligible q = false) : s.lowestDesk = some p := find?_finRange h first

theorem lowestDesk_none {s : State} (h : ∀ q, s.eligible q = false) : s.lowestDesk = none :=
  List.find?_eq_none.2 fun q _ => by simp [h q]

/-! ## The entry checks (R9) -/

/-- R9 check 1: another call past WAITING is on its FLAT leg for the flat. -/
def State.EngagedFor (s : State) (r : Ref) (i : FlatIx) : Prop :=
  ∃ j d, j ≠ r.slot ∧ (s.slot j).call = some d ∧ d.leg = .flat ∧ d.flat = some i ∧ d.state ≠ .waiting

theorem engaged_iff {s : State} {r : Ref} {i : FlatIx} : s.engaged r i = true ↔ s.EngagedFor r i := by
  simp only [State.engaged, List.any_eq_true, Bool.and_eq_true, decide_eq_true_eq, and_assoc]
  constructor
  · rintro ⟨⟨q, d⟩, m, ne, leg, flat, state⟩
    exact ⟨q.slot, d, ne, mem_liveCalls_slot m, leg, flat, state⟩
  · rintro ⟨j, d, ne, hd, leg, flat, state⟩
    exact ⟨_, liveCalls_slot hd, ne, leg, flat, state⟩

theorem offeredStations_eq (s : State) (i : FlatIx) :
    s.offeredStations (s.flat i) = s.stationsToOffer i := rfl

theorem allAbsent_iff {s : State} {i : FlatIx} :
    s.allAbsent (s.flat i) = true ↔ s.stationsToOffer i = [] := by
  rw [← offeredStations_eq, State.offeredStations, List.filter_eq_nil_iff, State.allAbsent,
    List.all_eq_true]
  simp

theorem entryCheck_none_iff {s : State} {r : Ref} {i : FlatIx} :
    s.entryCheck r i = none ↔ PassesChecks s r i := by
  have alone : (∀ j d, j ≠ r.slot → (s.slot j).call = some d → d.leg = .flat → d.flat = some i →
      d.state = .waiting) ↔ ¬ s.EngagedFor r i := by
    simp only [State.EngagedFor, not_exists, not_and, not_not]
  have all : PassesChecks s r i ↔ s.engaged r i = false ∧ (s.flat i).privacy = false ∧
      (s.riser (s.flat i).riser).link.isOff = false ∧ s.allAbsent (s.flat i) = false := by
    simp only [← Bool.not_eq_true, engaged_iff, allAbsent_iff]
    simp only [Bool.not_eq_true]
    exact ⟨fun h => ⟨alone.1 h.alone, h.privacy, h.link, h.heard⟩,
      fun ⟨a, p, l, h⟩ => ⟨alone.2 a, p, l, h⟩⟩
  rw [all]
  unfold State.entryCheck
  cases s.engaged r i <;> cases (s.flat i).privacy <;>
    cases (s.riser (s.flat i).riser).link.isOff <;> cases s.allAbsent (s.flat i) <;> simp

/-- R9: the end that the first failed check gives is the one these four cases say. -/
theorem flatLegFails_of {s : State} {r : Ref} {i : FlatIx} {ends : EndReason → Prop}
    (h : ∀ why, s.entryCheck r i = some why → ends why) : FlatLegFails s r i ends := by
  have engaged : s.engaged r i = true ↔ _ := engaged_iff (s := s) (r := r) (i := i)
  unfold State.EngagedFor at engaged
  unfold State.entryCheck at h
  refine ⟨fun e => h _ ?_, fun e p => h _ ?_, fun e p l => h _ ?_, fun e p l a => h _ ?_⟩
  · rw [if_pos (engaged.2 e)]
  · rw [if_neg (mt engaged.1 e), if_pos p]
  · rw [if_neg (mt engaged.1 e), if_neg (by simp [p]), if_pos l]
  · rw [if_neg (mt engaged.1 e), if_neg (by simp [p]), if_neg (by simp [l]),
      if_pos (allAbsent_iff.2 a)]

/-- The ends that the entry checks give are none of a riser that failed. -/
theorem entryCheck_notFailure {s : State} {r : Ref} {i : FlatIx} {why : EndReason}
    (h : s.entryCheck r i = some why) : why.isRiserFailure = false := by
  unfold State.entryCheck at h
  split at h
  · cases h; rfl
  · split at h
    · cases h; rfl
    · split at h
      · cases h; rfl
      · split at h
        · cases h; rfl
        · cases h

/-- A state in which the entry checks of a call for a flat come out as in another. -/
structure ChecksAlike (s t : State) (r : Ref) (i : FlatIx) : Prop where
  others   : ∀ j, j ≠ r.slot → ∀ d : Call, d.leg = .flat →
    ((t.slot j).call = some d ↔ (s.slot j).call = some d)
  flat     : t.flat i = s.flat i
  link     : (t.riser (s.flat i).riser).link.isOff = (s.riser (s.flat i).riser).link.isOff
  stations : (t.riser (s.flat i).riser).stations = (s.riser (s.flat i).riser).stations

theorem ChecksAlike.of_blocks {s t : State} {r : Ref} {i : FlatIx}
    (others : ∀ j, j ≠ r.slot → t.slot j = s.slot j) (dir : t.dir = s.dir)
    (risers : t.risers = s.risers) : ChecksAlike s t r i where
  others j ne d _ := by rw [others j ne]
  flat := State.flat_congr dir i
  link := by rw [State.riser_congr risers]
  stations := by rw [State.riser_congr risers]

theorem ChecksAlike.stationsToOffer {s t : State} {r : Ref} {i : FlatIx} (h : ChecksAlike s t r i) :
    t.stationsToOffer i = s.stationsToOffer i := by
  unfold State.stationsToOffer Riser.station
  rw [h.flat, h.stations]

theorem ChecksAlike.entryCheck {s t : State} {r : Ref} {i : FlatIx} (h : ChecksAlike s t r i) :
    t.entryCheck r i = s.entryCheck r i := by
  have engaged : t.engaged r i = s.engaged r i := by
    rw [Bool.eq_iff_iff, engaged_iff, engaged_iff]
    unfold State.EngagedFor
    refine exists_congr fun j => exists_congr fun d => and_congr_right fun ne => ?_
    constructor
    · rintro ⟨m, leg, rest⟩
      exact ⟨(h.others j ne d leg).1 m, leg, rest⟩
    · rintro ⟨m, leg, rest⟩
      exact ⟨(h.others j ne d leg).2 m, leg, rest⟩
  have absent : t.allAbsent (t.flat i) = s.allAbsent (s.flat i) := by
    rw [Bool.eq_iff_iff, allAbsent_iff, allAbsent_iff, h.stationsToOffer]
  unfold State.entryCheck
  rw [engaged, absent, h.flat, h.link]

/-! ## The grant that leads to offers (R11) -/

/-- R11: the record of a call that has built its offers. -/
def Call.offering (c : Call) (ch : Channel) (stations : List Nat) : Call :=
  { c with
    state := .offering, waitingFor := none, timer := none, channel := some ch
    offers := stations.map fun a => { station := a, status := .queued, tag := none } }

/-- R11: the OFFERs of a call. -/
def Call.offerFrames (c : Call) (r : Ref) (stations : List Nat) : List QueueEntry :=
  stations.map fun a => .solicited (.offer a r c.kind c.origin)

/-- R11, R75: what a call that has been granted a channel and has passed its checks leaves: its record, its
channel, its OFFERs on top of what its riser was given before, and its origin's display. -/
structure Offered (u w : State) (r : Ref) (c : Call) (i : FlatIx) (ch : Channel) : Prop where
  ccu   : w.ccu = (u.setCall r (c.offering ch (u.stationsToOffer i))).ccu
  psw   : w.psw = (u.setHolder ch (some r)).psw
  ports : w.ports = (u.display c.origin .calling).ports
  dir   : w.dir = u.dir
  hlp   : w.hlp = u.hlp
  ntu   : w.ntu = u.ntu
  clock : w.clock = u.clock
  other : ∀ x, x ≠ ch.riser → w.riser x = u.riser x
  given : ∀ {base : Riser} {q : Ref} {ws : List Nat} {es : List QueueEntry},
    base.Given (u.riser ch.riser) u.clock q ws es →
    base.Given (w.riser ch.riser) u.clock q ws (es ++ c.offerFrames r (u.stationsToOffer i))

theorem setCall_setCall (s : State) (r : Ref) (c d : Call) :
    (s.setCall r c).setCall r d = s.setCall r d := by
  simp [State.setCall, State.setSlot, State.slot]

theorem granted_checksAlike (s : State) (r : Ref) (c : Call) (ch : Channel) (i : FlatIx) :
    ChecksAlike s (s.granted r c ch) r i :=
  .of_blocks (fun _ ne => setCall_other (s := s.setHolder ch (some r)) _ ne) rfl rfl

/-- R11, R54: the grant of a channel to a call that passes its checks. -/
theorem grantChannel_offered {u : State} {r : Ref} {c b : Call} {i : FlatIx} {ch : Channel}
    (live : u.call? r = some b) (flat : c.flat = some i) (riser : (u.flat i).riser = ch.riser)
    (checks : PassesChecks u r i) (due : (u.riser ch.riser).overrunDue = false)
    (room : (u.riser ch.riser).queue.length + (u.stationsToOffer i).length ≤ 32) :
    ∃ w, u.grantChannel r c ch = (w, none) ∧ Offered u w r c i ch := by
  have alike := granted_checksAlike u r c ch i
  have pass : (u.granted r c ch).entryCheck r i = none :=
    alike.entryCheck.trans (entryCheck_none_iff.2 checks)
  have granted : u.grantChannel r c ch = ((u.granted r c ch).offerFlat r (c.granted ch) i, none) := by
    rcases grantChannel_cases u r c ch with ⟨j, hj, -, e⟩ | ⟨why, -, h | ⟨j, hj, e⟩⟩
    · rw [flat] at hj
      rw [e, ← Option.some.inj hj]
    · rw [h.1] at flat
      cases flat
    · rw [flat] at hj
      rw [← Option.some.inj hj, pass] at e
      cases e
  refine ⟨_, granted, ?_⟩
  have stations : (u.granted r c ch).offeredStations ((u.granted r c ch).flat i) =
      u.stationsToOffer i := alike.stationsToOffer
  have home : ((u.granted r c ch).flat i).riser = ch.riser := riser
  have same : c.origin = (c.granted ch).origin ∧ c.kind = (c.granted ch).kind := ⟨rfl, rfl⟩
  unfold State.offerFlat
  dsimp only
  rw [stations, home]
  obtain ⟨e, he⟩ : ∃ e : Call, e = { c.granted ch with
    offers := (u.stationsToOffer i).map fun a => ({ station := a, status := .queued, tag := none } : Offer)
    timer := none, waitingFor := none } := ⟨_, rfl⟩
  have first : (u.granted r c ch).setCall r e = (u.setHolder ch (some r)).setCall r e :=
    setCall_setCall ..
  rw [← he, first, ← same.1, ← same.2]
  have live' : ((u.setHolder ch (some r)).setCall r e).call? r = some e :=
    setCall_live (s := u.setHolder ch (some r)) live e
  have only := ((Gives.refl ch.riser r ((u.setHolder ch (some r)).setCall r e)).queueOffers
    ⟨riser ▸ checks.link, due⟩ r c.kind c.origin (u.stationsToOffer i) room).only
  have gives : ∀ {base : Riser} {q : Ref} {ws : List Nat} {es : List QueueEntry},
      base.Given (u.riser ch.riser) u.clock q ws es →
      base.Given ((((u.setHolder ch (some r)).setCall r e).queueOffers ch.riser r c.kind c.origin
        (u.stationsToOffer i)).riser ch.riser) u.clock q ws
        (es ++ c.offerFrames r (u.stationsToOffer i)) := fun {base q ws es} given => by
    have ok : base.Takes :=
      ⟨given.isOff.symm.trans (riser ▸ checks.link), given.overrunDue.symm.trans due⟩
    rw [given.length] at room
    exact (Gives.queueOffers (s := (u.setHolder ch (some r)).setCall r e) ⟨.refl .., given⟩ ok r c.kind
      c.origin _ room).given
  generalize ((u.setHolder ch (some r)).setCall r e).queueOffers ch.riser r c.kind c.origin
    (u.stationsToOffer i) = v at only gives ⊢
  have written : v.modifyCall r (fun d => { d with state := .offering }) =
      v.setCall r (c.offering ch (u.stationsToOffer i)) := by
    unfold State.modifyCall
    rw [(State.call?_congr only.ccu r).trans live', he]
    rfl
  rw [written]
  exact {
    ccu := by
      show (v.setCall r _).ccu = _
      have slots : (v.setCall r (c.offering ch (u.stationsToOffer i))).ccu =
          (((u.setHolder ch (some r)).setCall r e).setCall r
            (c.offering ch (u.stationsToOffer i))).ccu := by
        simp [State.setCall, State.setSlot, State.slot, only.ccu]
      rw [slots, setCall_setCall]
      rfl
    psw := only.psw
    ports := by
      have ports : v.ports = u.ports := only.ports
      simp [ports]
    dir := only.dir
    hlp := only.hlp
    ntu := only.ntu
    clock := only.clock
    other := fun x ne => only.riser_ne ne
    given := gives }

end Sys2Proof.Machine
end

