-- ==== Sys2Proof/Proofs/Grants.lean ====
section
/-!
SUPPORT. `Offering` and `DeskGranted` from the grants of a channel and of a desk, and a released channel
that is served to the calls that wait for it (R11, R56, R60, R62, R140): O31.
-/

namespace Sys2Proof.Machine

/-! ## A call that offers its flat -/

/-- R81: OFFERs cancel nothing and are frames. -/
theorem Call.offerFrames_frames (c : Call) (r : Ref) (l : List Nat) :
    ∀ e ∈ c.offerFrames r l, e.isFrame = true := by
  intro e he
  obtain ⟨a, -, rfl⟩ := List.mem_map.1 he
  rfl

theorem Offered.live {u w : State} {r : Ref} {c b : Call} {i : FlatIx} {ch : Channel}
    (o : Offered u w r c i ch) (live : u.call? r = some b) :
    w.call? r = some (c.offering ch (u.stationsToOffer i)) :=
  (State.call?_congr o.ccu r).trans (setCall_live live _)

theorem Offered.others {u w : State} {r : Ref} {c : Call} {i : FlatIx} {ch : Channel}
    (o : Offered u w r c i ch) {j : SlotIx} (ne : j ≠ r.slot) : w.slot j = u.slot j :=
  (State.slot_congr o.ccu j).trans (setCall_other _ ne)

/-- R13: the offers of a call that has just built them, when a sending report may have reached some. -/
theorem offering_sent {c d : Call} {ch : Channel} {l : List Nat}
    (h : (c.offering ch l).SameButSending d) :
    d = { c.offering ch l with offers := d.offers } ∧ d.offers.map (fun o => o.station) = l ∧
      ∀ o ∈ d.offers, o.status = .queued ∧ o.tag = none ∨ o.status = .sent ∧ o.tag ≠ none := by
  obtain ⟨same, offers⟩ := h
  refine ⟨same, ?_⟩
  clear same
  have each : List.Forall₂ Offer.MayBeSent
      (l.map fun a => ({ station := a, status := .queued, tag := none } : Offer)) d.offers := offers
  clear offers
  generalize d.offers = os at each ⊢
  induction l generalizing os with
  | nil => cases each; simp
  | cons a l ih =>
    cases each with
    | cons first rest =>
      obtain ⟨stations, kinds⟩ := ih _ rest
      rcases first with rfl | ⟨-, n, rfl⟩
      · simpa [stations] using kinds
      · simpa [stations] using kinds

/-- R11, R75: the call offers its flat, once the free lines have been looked at. -/
theorem Offering.of_offered {s u w t : State} {r : Ref} {c b : Call} {i : FlatIx} {ch : Channel}
    (o : Offered u w r c i ch) (k : Settled w t) (live : u.call? r = some b) (flat : c.flat = some i)
    (leg : c.leg = .flat) (paths : u.psw.risers = s.psw.risers)
    (riser : (s.riser ch.riser).SameQueue (u.riser ch.riser))
    (stations : u.stationsToOffer i = s.stationsToOffer i)
    (function : (u.port c.origin).function = (s.port c.origin).function) : Offering s t r c i ch := by
  have path : ∀ x, t.paths x = (u.setHolder ch (some r)).paths x := fun x =>
    State.paths_congr (k.psw.trans o.psw) x
  have before : ∀ x, u.paths x = s.paths x := fun x => by simp only [State.paths, paths]
  refine ⟨?_, ?_, fun x ne => ?_, ?_, fun on => ?_⟩
  · obtain ⟨d, hd, same⟩ := k.live (o.live live)
    obtain ⟨e, os, kinds⟩ := offering_sent same
    refine ⟨d.offers, ?_, os.trans stations, kinds⟩
    rw [hd, e]
    simp only [Call.offering, flat, leg]
  · rw [path, State.paths_setHolder, if_pos rfl, before]
  · rw [path, State.paths_setHolder, if_neg (Ne.symm ne), before]
  · rw [← stations, k.clock, o.clock]
    exact ((o.given (.refl _ u.clock r)).of_sameQueue riser).framesGiven (k.risers _)
      (c.offerFrames_frames r _)
  · refine (k.ports _).shows _ ?_
    rw [State.port_congr o.ports, State.port_display, if_pos rfl]
    exact Port.place_shows (by rw [function]; exact on)

/-! ## A desk that is granted -/

/-- R140: the record of a call at the desk it has been granted. -/
def Call.atDesk (c : Call) (p : PortIx) (now ring : Nat) : Call :=
  { c with
    state := .ringing, waitingFor := none, deskPort := some p
    timer := some { kind := .deskRing, expiry := now + ring * 1000 } }

/-- R140: the desk grant in its steps. -/
theorem grantDesk_eq (s : State) (r : Ref) (c : Call) (p : PortIx) : s.grantDesk r c p =
    ((((s.setHold p (some { call := r, role := .desk })).ring p
      (.on c.origin c.kind c.flat)).display p .ringing).setCall r
        (c.atDesk p s.clock s.ccu.times.deskRing)).display c.origin .ringing := rfl

theorem grantDesk_live {s : State} {r : Ref} {b : Call} (c : Call) (p : PortIx)
    (live : s.call? r = some b) :
    (s.grantDesk r c p).call? r = some (c.atDesk p s.clock s.ccu.times.deskRing) :=
  setCall_live (s := ((s.setHold p (some { call := r, role := .desk })).ring p
      (.on c.origin c.kind c.flat)).display p .ringing) live _

theorem grantDesk_other {s : State} {r : Ref} (c : Call) (p : PortIx) {j : SlotIx}
    (ne : j ≠ r.slot) : (s.grantDesk r c p).slot j = s.slot j :=
  setCall_other (s := ((s.setHold p (some { call := r, role := .desk })).ring p
      (.on c.origin c.kind c.flat)).display p .ringing) _ ne

/-- R140: the port records after a desk grant. -/
theorem grantDesk_port (s : State) (r : Ref) (c : Call) (p q : PortIx) :
    let rung := if p = q then
      Port.place .ringing (Port.placeRing (.on c.origin c.kind c.flat) (s.port q)) else s.port q
    (s.grantDesk r c p).port q = if c.origin = q then Port.place .ringing rung else rung := by
  have rung : ∀ q, (((s.setHold p (some { call := r, role := .desk })).ring p
      (.on c.origin c.kind c.flat)).display p .ringing).port q = if p = q then
        Port.place .ringing (Port.placeRing (.on c.origin c.kind c.flat) (s.port q)) else s.port q :=
    fun q => by
      have held : ∀ x, (s.setHold p (some { call := r, role := .desk })).port x = s.port x := fun _ => rfl
      rw [State.port_display, State.port_ring, if_pos rfl, State.port_ring, held, held]
      split
      · next e => rw [e]
      · rfl
  rw [grantDesk_eq, State.port_display]
  have set : ∀ (t : State) (d : Call) (x : PortIx), (t.setCall r d).port x = t.port x := fun _ _ _ => rfl
  rw [set, set, rung, rung]
  dsimp only
  by_cases e : c.origin = q
  · rw [if_pos e, if_pos e, e]
  · rw [if_neg e, if_neg e]

theorem grantDesk_psw (s : State) (r : Ref) (c : Call) (p : PortIx) :
    (s.grantDesk r c p).psw = (s.setHold p (some { call := r, role := .desk })).psw := rfl

theorem Port.place_lastDisplay {d : Display} {p : Port} (h : p.function ≠ .off) :
    (Port.place d p).displaySlot = some d ∧ (Port.place d p).lastDisplay = d := by
  unfold Port.place
  rw [if_neg h]
  exact ⟨rfl, rfl⟩

theorem eligible_iff {s : State} {p : PortIx} : s.eligible p = true ↔
    (s.port p).function = .concierge ∧ (s.port p).present = true ∧ (s.port p).check = false ∧
      s.hold p = none := by
  simp [State.eligible, and_assoc]

/-- R62: an eligible desk goes to the head of the desk wait queue. -/
theorem serveDesk_grants {s : State} {p : PortIx} {r : Ref} {rest : List Ref} {c : Call}
    (h : s.eligible p = true) (queue : s.psw.deskQueue = r :: rest) (live : s.call? r = some c) :
    s.serveDesk p = (s.setDeskQueue rest).grantDesk r c p := by
  have live' : (s.setDeskQueue rest).call? r = some c := live
  unfold State.serveDesk
  rw [if_pos h, queue]
  unfold State.serveDeskFrom
  simp only [live']

/-- What a desk port holds that has been granted. -/
theorem grantDesk_desk {s : State} {p : PortIx} (r : Ref) (c : Call)
    (function : (s.port p).function = .concierge) (present : (s.port p).present = true) :
    ((s.grantDesk r c p).port p).ringSlot = some (.on c.origin c.kind c.flat) ∧
      ((s.grantDesk r c p).port p).displaySlot = some .ringing ∧
      ((s.grantDesk r c p).port p).lastDisplay = .ringing := by
  have rung : (Port.placeRing (.on c.origin c.kind c.flat) (s.port p)).ringSlot =
      some (.on c.origin c.kind c.flat) := by
    unfold Port.placeRing
    rw [if_pos ⟨function, present⟩]
  obtain ⟨slot, last⟩ := Port.place_lastDisplay (d := .ringing)
    (p := Port.placeRing (.on c.origin c.kind c.flat) (s.port p)) (by simp [function])
  rw [grantDesk_port, if_pos rfl]
  split
  · obtain ⟨slot', last'⟩ := Port.place_lastDisplay (d := .ringing)
      (p := Port.place .ringing (Port.placeRing (.on c.origin c.kind c.flat) (s.port p)))
      (by simp [function])
    exact ⟨by rw [Port.place_ringSlot, Port.place_ringSlot, rung], slot', last'⟩
  · exact ⟨by rw [Port.place_ringSlot, rung], slot, last⟩

theorem grantDesk_function (s : State) (r : Ref) (c : Call) (p q : PortIx) :
    ((s.grantDesk r c p).port q).function = (s.port q).function := by
  rw [grantDesk_port]
  split <;> split <;> simp

/-- What the origin of a call holds that has been granted a desk. -/
theorem grantDesk_origin {s : State} (p : PortIx) (r : Ref) {c : Call}
    (on : (s.port c.origin).function ≠ .off) :
    ((s.grantDesk r c p).port c.origin).displaySlot = some .ringing ∧
      ((s.grantDesk r c p).port c.origin).lastDisplay = .ringing := by
  rw [grantDesk_port, if_pos rfl]
  refine Port.place_lastDisplay ?_
  split
  · simpa using on
  · exact on

/-- R60, R62, R140: the desk has been granted, once the free lines have been looked at. -/
theorem DeskGranted.of_granted {s u w t : State} {p : PortIx} {r : Ref} {c b : Call}
    (live : u.call? r = some b) (function : (u.port p).function = .concierge)
    (present : (u.port p).present = true)
    (origin : (u.port c.origin).function = (s.port c.origin).function) (clock : u.clock = s.clock)
    (times : u.ccu.times = s.ccu.times)
    (hold : w.hold p = (u.grantDesk r c p).hold p)
    (record : w.call? r = (u.grantDesk r c p).call? r)
    (rings : ∀ l, ((u.grantDesk r c p).port p).Rings l → (w.port p).Rings l)
    (shows : ∀ q d, q = p ∨ q = c.origin → ((u.grantDesk r c p).port q).Shows d → (w.port q).Shows d)
    (none : ∀ o ∈ c.offers, o.status ≠ .queued) (k : Settled w t) : DeskGranted s t p r c := by
  obtain ⟨ring, slot, last⟩ := grantDesk_desk r c function present
  refine ⟨?_, ?_, (k.ports p).rings _ (rings _ (.inl ring)),
    (k.ports p).shows _ (shows p _ (.inl rfl) ⟨last, .inl slot⟩), fun on => ?_⟩
  · rw [State.hold_congr k.psw, hold, State.hold_congr (grantDesk_psw u r c p), State.hold_setHold,
      if_pos rfl]
  · obtain ⟨d, hd, same⟩ := k.live (record.trans (grantDesk_live c p live))
    rw [hd, same.eq none, clock, times]
    rfl
  · obtain ⟨slot, last⟩ := grantDesk_origin p r (c := c) (by rw [origin]; exact on)
    exact (k.ports _).shows _ (shows _ _ (.inr rfl) ⟨last, .inl slot⟩)

/-! ## A channel that is served (R56) -/

theorem serveDesk_paths (s : State) (p : PortIx) : (s.serveDesk p).psw.risers = s.psw.risers := by
  have from' : ∀ (q : List Ref) (u : State),
      (State.serveDeskFrom p q u).psw.risers = u.psw.risers := fun q => by
    induction q with
    | nil => exact fun _ => rfl
    | cons r rest ih =>
      intro u
      unfold State.serveDeskFrom
      dsimp only
      split
      · rfl
      · exact ih _
  unfold State.serveDesk
  split
  · exact from' _ _
  · rfl

/-- R29: releasing ports removes entries of a channel wait queue at most. -/
theorem releasePorts_queue (s : State) (r : Ref) (c : Call) (x : RiserIx) :
    ((s.releasePorts r c).paths x).queue = (s.paths x).queue.filter fun q => q ≠ r := by
  have released : ((s.freeDesk c).releasePort c.origin).psw.risers = s.psw.risers := by
    have desk : (s.freeDesk c).psw.risers = s.psw.risers := by
      unfold State.freeDesk
      split
      · exact serveDesk_paths ..
      · rfl
    exact (serveDesk_paths ..).trans desk
  rw [releasePorts_eq, State.paths_leaveQueues]
  simp only [State.paths, released]

theorem endedTurn_queue (s : State) (r : Ref) (c : Call) (why : EndReason) (x : RiserIx) :
    (((s.endRecord r c why).releasePorts r c).paths x).queue =
      (s.paths x).queue.filter fun q => q ≠ r := by
  rw [releasePorts_queue, State.paths, endRecord_psw_queues]
  rfl

/-- R56: an entry that names no live call is passed over (log entry 20). -/
theorem serveChannel_stale {n : Nat} {ch : Channel} {s : State} {r : Ref} {rest : List Ref}
    (queue : (s.paths ch.riser).queue = r :: rest) (stale : s.call? r = none) :
    State.serveChannel (n + 1) ch s = State.serveChannel n ch (s.setChannelQueue ch.riser rest) := by
  have stale' : (s.setChannelQueue ch.riser rest).call? r = none := stale
  conv_lhs => unfold State.serveChannel
  rw [queue]
  dsimp only
  rw [stale']

/-- R56: the head of the queue offers its flat. -/
theorem serveChannel_offers {n : Nat} {ch : Channel} {s w : State} {r : Ref} {rest : List Ref} {c : Call}
    (queue : (s.paths ch.riser).queue = r :: rest) (live : s.call? r = some c)
    (e : (s.setChannelQueue ch.riser rest).grantChannel r c ch = (w, none)) :
    State.serveChannel (n + 1) ch s = w := by
  have live' : (s.setChannelQueue ch.riser rest).call? r = some c := live
  conv_lhs => unfold State.serveChannel
  rw [queue]
  dsimp only
  rw [live']
  dsimp only
  rw [e]

/-- R56: the head of the queue fails a check and ends. -/
theorem serveChannel_fails {n : Nat} {ch : Channel} {s : State} {r : Ref} {rest : List Ref} {c : Call}
    {why : EndReason} (queue : (s.paths ch.riser).queue = r :: rest) (live : s.call? r = some c)
    (e : (s.setChannelQueue ch.riser rest).grantChannel r c ch =
      ((s.setChannelQueue ch.riser rest).granted r c ch, some why)) :
    State.serveChannel (n + 1) ch s = State.serveChannel n ch
      ((((s.setChannelQueue ch.riser rest).granted r c ch).endRecord r (c.granted ch) why).releasePorts r
        (c.granted ch)) := by
  have live' : (s.setChannelQueue ch.riser rest).call? r = some c := live
  have held : ((s.setChannelQueue ch.riser rest).granted r c ch).call? r = some (c.granted ch) :=
    setCall_live (s := (s.setChannelQueue ch.riser rest).setHolder ch (some r)) live _
  conv_lhs => unfold State.serveChannel
  rw [queue]
  dsimp only
  rw [live']
  dsimp only
  rw [e]
  dsimp only
  rw [held]

theorem granted_queue (s : State) (r : Ref) (c : Call) (ch : Channel) (x : RiserIx) :
    ((s.granted r c ch).paths x).queue = (s.paths x).queue := by
  show ((s.setHolder ch (some r)).paths x).queue = _
  rw [State.paths_setHolder]
  split
  · next e => rw [RiserPaths.setHolder_queue, e]
  · rfl

/-- R56: the bound on the turns does not matter, as long as it reaches the end of the queue. -/
theorem serveChannel_fuel {n m : Nat} {ch : Channel} {s : State}
    (hn : (s.paths ch.riser).queue.length ≤ n) (hm : (s.paths ch.riser).queue.length ≤ m) :
    State.serveChannel n ch s = State.serveChannel m ch s := by
  induction n generalizing s m with
  | zero =>
    have empty : (s.paths ch.riser).queue = [] := List.length_eq_zero_iff.1 (Nat.le_zero.1 hn)
    cases m with
    | zero => rfl
    | succ m => conv_rhs => unfold State.serveChannel
                rw [empty]; rfl
  | succ n ih =>
    cases queue : (s.paths ch.riser).queue with
    | nil =>
      cases m with
      | zero => conv_lhs => unfold State.serveChannel
                rw [queue]; rfl
      | succ m => unfold State.serveChannel; rw [queue]
    | cons r rest =>
      obtain ⟨m, rfl⟩ : ∃ k, m = k + 1 := ⟨m - 1, by rw [queue] at hm; simp at hm; omega⟩
      rw [queue] at hn hm
      have short : ((s.setChannelQueue ch.riser rest).paths ch.riser).queue = rest := by simp
      have again : ∀ v : State, (v.paths ch.riser).queue.length ≤ rest.length →
          State.serveChannel n ch v = State.serveChannel m ch v := fun v h =>
        ih (h.trans (Nat.le_of_succ_le_succ hn)) (h.trans (Nat.le_of_succ_le_succ hm))
      cases live : s.call? r with
      | none =>
        rw [serveChannel_stale queue live, serveChannel_stale queue live]
        exact again _ (by rw [short])
      | some c =>
        rcases grantChannel_cases (s.setChannelQueue ch.riser rest) r c ch with
          ⟨i, -, -, e⟩ | ⟨why, e, -⟩
        · rw [serveChannel_offers queue live e, serveChannel_offers queue live e]
        · rw [serveChannel_fails queue live e, serveChannel_fails queue live e]
          refine again _ ?_
          rw [endedTurn_queue, granted_queue, short]
          exact List.length_filter_le ..

theorem setHolder_setHolder (s : State) (ch : Channel) (h k : Option Ref) :
    (s.setHolder ch h).setHolder ch k = s.setHolder ch k := by
  cases side : ch.side <;>
  simp [State.setHolder, State.setPaths, State.paths, RiserPaths.setHolder, side]

theorem setChannelQueue_setHolder (s : State) (ch : Channel) (h : Option Ref) (q : List Ref) :
    (s.setHolder ch h).setChannelQueue ch.riser q = (s.setChannelQueue ch.riser q).setHolder ch h := by
  cases side : ch.side <;>
  simp [State.setHolder, State.setChannelQueue, State.setPaths, State.paths, RiserPaths.setHolder, side]

/-- R56: who held the channel before does not matter. -/
theorem serveChannel_setHolder (n : Nat) (ch : Channel) (s : State) (h : Option Ref) :
    State.serveChannel n ch (s.setHolder ch h) = State.serveChannel n ch s := by
  induction n generalizing s with
  | zero => exact setHolder_setHolder ..
  | succ n ih =>
    have line : ((s.setHolder ch h).paths ch.riser).queue = (s.paths ch.riser).queue := by
      rw [State.paths_setHolder, if_pos rfl, RiserPaths.setHolder_queue]
    cases queue : (s.paths ch.riser).queue with
    | nil =>
      unfold State.serveChannel
      rw [line, queue]
      exact setHolder_setHolder ..
    | cons r rest =>
      have past := setChannelQueue_setHolder s ch h rest
      have same : ∀ c, ((s.setHolder ch h).setChannelQueue ch.riser rest).grantChannel r c ch =
          (s.setChannelQueue ch.riser rest).grantChannel r c ch := fun c => by
        rw [past]
        unfold State.grantChannel
        rw [setHolder_setHolder]
      have held : ∀ c, ((s.setHolder ch h).setChannelQueue ch.riser rest).granted r c ch =
          (s.setChannelQueue ch.riser rest).granted r c ch := fun c => by
        rw [past]
        unfold State.granted
        rw [setHolder_setHolder]
      cases live : s.call? r with
      | none =>
        rw [serveChannel_stale queue live, serveChannel_stale (line.trans queue) live, past]
        exact ih _
      | some c =>
        rcases grantChannel_cases (s.setChannelQueue ch.riser rest) r c ch with
          ⟨i, -, -, e⟩ | ⟨why, e, -⟩
        · rw [serveChannel_offers queue live e,
            serveChannel_offers (line.trans queue) live ((same c).trans e)]
        · rw [serveChannel_fails queue live e, serveChannel_fails (line.trans queue) live
            (((same c).trans e).trans (by rw [held])), held]

/-- R56: the end of a call that fails its checks is an end that grants nothing, but for its channel, which is
served once more. -/
theorem endedTurn_alone {u : State} {r : Ref} {c : Call} {ch : Channel} {why : EndReason}
    (channel : c.channel = some ch) (desks : ∀ q ∈ u.psw.deskQueue, q = r) (n : Nat) :
    State.serveChannel n ch ((u.endRecord r c why).releasePorts r c) =
      State.serveChannel n ch (u.endedAlone r c why) := by
  have psw := endRecord_psw_queues u r c why
  rw [releasePorts_alone c (endRecord_dead u r c why) (by rw [psw]; exact desks)]
  unfold State.endedAlone State.clearChannel
  rw [channel]
  dsimp only
  have past : ∀ v : State, (((v.setHolder ch none).clearDesk c).setHold c.origin none).leaveQueues r =
      (((v.clearDesk c).setHold c.origin none).leaveQueues r).setHolder ch none := fun v => by
    have desk : ((v.setHolder ch none).clearDesk c).setHold c.origin none =
        ((v.clearDesk c).setHold c.origin none).setHolder ch none := by
      unfold State.clearDesk
      split <;> rfl
    rw [desk]
    generalize (v.clearDesk c).setHold c.origin none = z
    have paths : ((z.setHolder ch none).leaveQueues r).psw.risers =
        ((z.leaveQueues r).setHolder ch none).psw.risers := Table.ext_read fun x => by
      show ((z.setHolder ch none).leaveQueues r).paths x =
        ((z.leaveQueues r).setHolder ch none).paths x
      rw [State.paths_leaveQueues, State.paths_setHolder, State.paths_setHolder,
        State.paths_leaveQueues, State.paths_leaveQueues]
      cases ch.side <;> split <;> rfl
    have same : ∀ v w : State, v = { w with psw := { w.psw with risers := v.psw.risers } } →
        v.psw.risers = w.psw.risers → v = w := fun v w e k => by rw [e, k]
    exact same _ _ rfl paths
  rw [past, serveChannel_setHolder]

end Sys2Proof.Machine
end

