-- ==== Sys2Proof/Proofs/GrantedDesks.lean ====
section
/-!
SUPPORT. O31: the desk grant rule and the channel release, at the level of the operations (R56, R62).
-/

namespace Sys2Proof.Machine

/-- R62: the desk that is served. -/
theorem serveDesk_granted {p : PortIx} {r : Ref} {rest : List Ref} {c : Call} {s : State}
    (h : s.eligible p = true) (queue : s.psw.deskQueue = r :: rest) (live : s.call? r = some c) :
    let t := s.serveDesk p
    t.hold p = some { call := r, role := .desk } ∧ (∀ q, q ≠ p → t.hold q = s.hold q) ∧
      t.psw.deskQueue = rest ∧ t.psw.joins = s.psw.joins ∧ (∀ x, t.paths x = s.paths x) ∧
      t.call? r = some
        { c with state := .ringing, waitingFor := none, deskPort := some p
                 timer := some { kind := .deskRing
                                 expiry := s.clock + s.ccu.times.deskRing * 1000 } } ∧
      (∀ i, i ≠ r.slot → t.slot i = s.slot i) ∧
      (t.port p).ringSlot = some (.on c.origin c.kind c.flat) ∧
      (t.port p).displaySlot = some .ringing ∧ (t.port p).lastDisplay = .ringing ∧
      ((s.port c.origin).function ≠ .off →
        (t.port c.origin).displaySlot = some .ringing ∧ (t.port c.origin).lastDisplay = .ringing) ∧
      (∀ q, q ≠ p → q ≠ c.origin → t.port q = s.port q) ∧
      t = { s with ccu := t.ccu, psw := t.psw, ports := t.ports } ∧
      t.ccu.times = s.ccu.times ∧ t.ccu.intercept = s.ccu.intercept := by
  obtain ⟨function, present, -, -⟩ := eligible_iff.1 h
  intro t
  have granted : t = (s.setDeskQueue rest).grantDesk r c p := serveDesk_grants h queue live
  obtain ⟨ring, slot, last⟩ := grantDesk_desk (s := s.setDeskQueue rest) (p := p) r c function present
  have psw := grantDesk_psw (s.setDeskQueue rest) r c p
  have hold : ∀ q, t.hold q = if p = q then some { call := r, role := .desk } else s.hold q :=
    fun q => by
      rw [granted, State.hold_congr psw, State.hold_setHold]
      rfl
  refine ⟨by rw [hold, if_pos rfl], fun q ne => by rw [hold, if_neg (Ne.symm ne)], by rw [granted, psw]; rfl,
    by rw [granted, psw]; rfl, fun x => by rw [granted]; rfl, ?_, fun i ne => ?_, by rw [granted]; exact ring,
    by rw [granted]; exact slot, by rw [granted]; exact last, fun on => ?_, fun q np no => ?_,
    by rw [granted]; rfl, by rw [granted]; rfl, by rw [granted]; rfl⟩
  · rw [granted]
    exact grantDesk_live (s := s.setDeskQueue rest) c p live
  · rw [granted]
    exact grantDesk_other c p ne
  · rw [granted]
    exact grantDesk_origin (s := s.setDeskQueue rest) p r on
  · rw [granted, grantDesk_port, if_neg (Ne.symm no), if_neg (Ne.symm np)]
    rfl

/-- R11, R56: the head of the queue of a released channel offers its flat. -/
theorem releaseChannel_offers {ch : Channel} {s : State} {r : Ref} {rest : List Ref} {c : Call}
    {i : FlatIx} (queue : (s.paths ch.riser).queue = r :: rest) (live : s.call? r = some c)
    (flat : c.flat = some i) (leg : c.leg = .flat) (riser : (s.flat i).riser = ch.riser)
    (checks : PassesChecks s r i) (due : (s.riser ch.riser).overrunDue = false)
    (room : (s.riser ch.riser).queue.length + (s.stationsToOffer i).length ≤ 32) :
    let u := s.setChannelQueue ch.riser rest
    let t := s.releaseChannel ch
    Offering u t r c i ch ∧ (∀ j, j ≠ r.slot → t.slot j = s.slot j) ∧
      (∀ p, t.hold p = s.hold p) ∧ t.psw.joins = s.psw.joins ∧ t.psw.deskQueue = s.psw.deskQueue ∧
      t.ntu = s.ntu := by
  intro u t
  have alike : ChecksAlike s u r i := .of_blocks (fun _ _ => rfl) rfl rfl
  obtain ⟨w, granted, offered⟩ := grantChannel_offered (u := u) (c := c) live flat riser
    (entryCheck_none_iff.1 (alike.entryCheck.trans (entryCheck_none_iff.2 checks))) due room
  have served : t = w := by
    have n : (s.paths ch.riser).queue.length = rest.length + 1 := by rw [queue]; rfl
    show State.serveChannel (s.paths ch.riser).queue.length ch s = w
    rw [n]
    exact serveChannel_offers queue live granted
  rw [served]
  refine ⟨.of_offered offered (.refl w) live flat leg rfl (.refl _) rfl rfl, fun j ne => ?_, fun p => ?_,
    ?_, ?_, ?_⟩
  · exact offered.others ne
  · rw [State.hold_congr offered.psw]
    rfl
  · rw [offered.psw]
    rfl
  · rw [offered.psw]
    rfl
  · exact offered.ntu

/-- A call that holds the channel it was granted ends as it would without it. -/
theorem granted_endsAlike (s : State) (r : Ref) (c : Call) (ch : Channel) :
    EndsAlike s (s.granted r c ch) r (c.granted ch) where
  others j ne := by
    rw [show (s.granted r c ch).slot j = s.slot j from
      setCall_other (s := s.setHolder ch (some r)) _ ne]
    exact .refl _
  holds _ := rfl
  paths x := by
    have held : (s.granted r c ch).paths x = (s.setHolder ch (some r)).paths x := rfl
    rw [held, State.paths_setHolder]
    obtain ⟨y, side⟩ := ch
    by_cases e : y = x
    · subst e
      cases side <;> simp [Call.granted, RiserPaths.setHolder]
    · simp [e]
  joins := rfl
  desks := rfl
  ports _ := .refl _
  home _ h := ⟨h, .refl _⟩
  tx := rfl
  ntu := rfl

/-- R56: the head of the queue of a released channel fails a check: it ends, and the channel is served once
more. -/
theorem releaseChannel_fails {ch : Channel} {s : State} {r : Ref} {rest : List Ref} {c : Call}
    {i : FlatIx} {why : EndReason} (queue : (s.paths ch.riser).queue = r :: rest)
    (live : s.call? r = some c) (flat : c.flat = some i) (fails : s.entryCheck r i = some why)
    (desks : ∀ q ∈ s.psw.deskQueue, q = r) :
    ∃ v, Ended (s.setChannelQueue ch.riser rest) v r { c with channel := some ch } why ∧
      s.releaseChannel ch = v.releaseChannel ch := by
  have granted : (s.setChannelQueue ch.riser rest).grantChannel r c ch =
      ((s.setChannelQueue ch.riser rest).granted r c ch, some why) := by
    have alike : ChecksAlike s ((s.setChannelQueue ch.riser rest).granted r c ch) r i :=
      .of_blocks (fun j ne =>
        setCall_other (s := (s.setChannelQueue ch.riser rest).setHolder ch (some r)) _ ne) rfl rfl
    have check := alike.entryCheck.trans fails
    rcases grantChannel_cases (s.setChannelQueue ch.riser rest) r c ch with
      ⟨j, hj, none, -⟩ | ⟨w, e, h | ⟨j, hj, k⟩⟩
    · rw [flat] at hj
      rw [← Option.some.inj hj, check] at none
      cases none
    · rw [h.1] at flat
      cases flat
    · rw [flat] at hj
      rw [← Option.some.inj hj, check] at k
      rw [e, Option.some.inj k]
  have n : (s.paths ch.riser).queue.length = rest.length + 1 := by rw [queue]; rfl
  obtain ⟨v, hv⟩ : ∃ v : State, v = ((s.setChannelQueue ch.riser rest).granted r c ch).endedAlone r
    (c.granted ch) why := ⟨_, rfl⟩
  have line : (v.paths ch.riser).queue.length ≤ rest.length := by
    rw [hv, endedAlone_paths]
    show List.length (List.filter _ ((((s.setChannelQueue ch.riser rest).granted r c ch).paths
      ch.riser).queue)) ≤ _
    rw [granted_queue]
    refine (List.length_filter_le ..).trans ?_
    simp
  refine ⟨v, ?_, ?_⟩
  · have alike : EndsAlike (s.setChannelQueue ch.riser rest)
        ((s.setChannelQueue ch.riser rest).granted r c ch) r (c.granted ch) :=
      (granted_endsAlike ..)
    have ended : Ended (s.setChannelQueue ch.riser rest) v r (c.granted ch) why :=
      .of_alone alike (hv ▸ .refl _) (.refl v)
    exact ended.of_record
  · show State.serveChannel _ ch s = State.serveChannel _ ch v
    rw [n, serveChannel_fails queue live granted,
      endedTurn_alone (u := (s.setChannelQueue ch.riser rest).granted r c ch) (c := c.granted ch)
        rfl desks, ← hv]
    exact serveChannel_fuel line (Nat.le_refl _)

/-- Settles O31: the desk grant, and the two ways of the call at the head of a channel's queue. -/
theorem eligibleDeskIsGranted : Obligations.EligibleDeskIsGranted := by
  refine ⟨fun p r rest c s h queue live => serveDesk_granted h queue live, fun ch s => ⟨fun empty => ?_,
    fun r rest c i queue live flat leg riser => ?_⟩⟩
  · show State.serveChannel _ ch s = _
    rw [empty]
    rfl
  · intro u engaged off ends
    have fails : FlatLegFails s r i ends := flatLegFails_of fun why check nw =>
      releaseChannel_fails queue live flat check nw.1
    unfold FlatLegFails at fails
    rw [riser] at fails
    exact ⟨fun checks due room => releaseChannel_offers queue live flat leg riser checks due room, fails⟩

end Sys2Proof.Machine
end

