-- ==== Sys2Proof/Proofs/NewCalls.lean ====
section
/-!
SUPPORT. A new call (R2, R7, R12), and the ways of a call that tries its flat (R9, R10, R54): O37.
-/

namespace Sys2Proof.Machine

/-! ## A state with a new call -/

/-- R2, R7: the reference of the call that a slot takes next. -/
def State.nextRef (s : State) (k : SlotIx) : Ref := { slot := k, gen := (s.slot k).generation + 1 }

/-- R2, R7: a state to which a start request has added a call with this record: the slot is taken, the origin
port held, CALL_STARTED raised; nothing else but a port's reception has changed. -/
structure Started (s u : State) (p : PortIx) (k : SlotIx) (c : Call) : Prop where
  record    : u.call? (s.nextRef k) = some c
  lastEnd   : (u.slot k).lastEnd = none
  others    : ∀ j, j ≠ k → u.slot j = s.slot j
  times     : u.ccu.times = s.ccu.times
  intercept : u.ccu.intercept = s.ccu.intercept
  psw       : u.psw = (s.setHold p (some { call := s.nextRef k, role := .origin })).psw
  dir       : u.dir = s.dir
  risers    : u.risers = s.risers
  clock     : u.clock = s.clock
  hlp       : u.hlp = s.hlp
  ntu       : u.ntu = (s.emit (.callStarted (s.nextRef k) c.kind c.origin c.code)).ntu
  ports     : ∀ q, (s.port q).SameSettings (u.port q)

theorem createCall_started (s : State) (p : PortIx) (k : SlotIx) {c : Call} (origin : c.origin = p) :
    ((s.panelFrameEnd p).createCall k c).2 = s.nextRef k ∧
      Started s ((s.panelFrameEnd p).createCall k c).1 p k c := by
  refine ⟨rfl, ?_⟩
  obtain ⟨v, hv⟩ : ∃ v : State, v = ((s.panelFrameEnd p).setSlot k
      { generation := (s.slot k).generation + 1, lastEnd := none, call := some c }).setHold c.origin
        (some { call := s.nextRef k, role := .origin }) := ⟨_, rfl⟩
  have made : ((s.panelFrameEnd p).createCall k c).1 =
      v.emit (.callStarted (s.nextRef k) c.kind c.origin c.code) := by rw [hv]; rfl
  have slot : ∀ j, v.slot j = if k = j then
      { generation := (s.slot k).generation + 1, lastEnd := none, call := some c } else s.slot j :=
    fun j => by rw [hv]; exact State.slot_setSlot ..
  have emitted := State.slot_congr (State.emit_ccu v (.callStarted (s.nextRef k) c.kind c.origin c.code))
  rw [made]
  refine ⟨?_, ?_, fun j ne => ?_, ?_, ?_, ?_, ?_, ?_, ?_, ?_, emit_ntu_congr (by rw [hv]; rfl) _,
    fun q => ?_⟩
  · refine (State.call?_eq_some ..).2 ?_
    have here : (v.slot (s.nextRef k).slot) =
        { generation := (s.slot k).generation + 1, lastEnd := none, call := some c } :=
      (slot k).trans (if_pos rfl)
    rw [emitted, here]
    exact ⟨rfl, rfl⟩
  · rw [emitted, slot, if_pos rfl]
  · rw [emitted, slot, if_neg (Ne.symm ne)]
  · rw [State.emit_ccu, hv]; rfl
  · rw [State.emit_ccu, hv]; rfl
  · rw [State.emit_psw, hv, origin]; rfl
  · rw [State.emit_dir, hv]; rfl
  · rw [State.emit_risers, hv]; rfl
  · rw [(emit_moves v _).kept.clock, hv]; rfl
  · rw [State.emit_hlp, hv]; rfl
  · refine (panelFrameEnd_settings s p q).trans ?_
    have same : (s.panelFrameEnd p).port q = v.port q := by rw [hv]; rfl
    rw [same]
    exact emit_settings v _ q

/-- The record of a new call written anew. -/
theorem Started.setCall {s u : State} {p : PortIx} {k : SlotIx} {c : Call} (h : Started s u p k c)
    {d : Call} (kind : d.kind = c.kind) (origin : d.origin = c.origin) (code : d.code = c.code) :
    Started s (u.setCall (s.nextRef k) d) p k d where
  record := setCall_live h.record d
  lastEnd := by
    show ((u.setCall (s.nextRef k) d).slot (s.nextRef k).slot).lastEnd = none
    rw [State.slot_setCall, if_pos rfl]
    exact h.lastEnd
  others j ne := (setCall_other (r := s.nextRef k) d ne).trans (h.others j ne)
  times := h.times
  intercept := h.intercept
  psw := h.psw
  dir := h.dir
  risers := h.risers
  clock := h.clock
  hlp := h.hlp
  ntu := by rw [kind, origin, code]; exact h.ntu
  ports := h.ports

section
variable {s u : State} {p : PortIx} {k : SlotIx} {c : Call}

theorem Started.hold (h : Started s u p k c) (q : PortIx) :
    u.hold q = if p = q then some { call := s.nextRef k, role := .origin } else s.hold q := by
  rw [State.hold_congr h.psw, State.hold_setHold]

theorem Started.paths (h : Started s u p k c) : u.psw.risers = s.psw.risers := by rw [h.psw]; rfl

theorem Started.checksAlike (h : Started s u p k c) (i : FlatIx) :
    ChecksAlike s u (s.nextRef k) i := .of_blocks h.others h.dir h.risers

end

/-- R6, R7: a start request that creates a call. -/
theorem startCall_new {s : State} {p : PortIx} {k : SlotIx} (check : (s.port p).check = false)
    (held : s.hold p = none) (free : (s.slot k).call = none)
    (first : ∀ j, j < k → (s.slot j).call ≠ none) (q : StartRequest) (code : Option Nat) :
    ∃ u, Started s u p k (Call.fresh q.callKind p code) ∧ (s.panelFrameEnd p).startCall p q code =
      u.continueCall (s.nextRef k) (Call.fresh q.callKind p code) := by
  obtain ⟨ref, started⟩ := createCall_started s p k (c := Call.fresh q.callKind p code) rfl
  refine ⟨_, started, ?_⟩
  obtain ⟨-, -, -, check'⟩ := panelFrameEnd_settings s p p
  have slot : (s.panelFrameEnd p).freeSlot? = some k := freeSlot?_eq (s := s.panelFrameEnd p) free first
  unfold State.startCall
  rw [if_neg (by rw [check', check]; simp), if_neg (by rw [panelFrameEnd_hold, held]; simp), slot]
  dsimp only
  rw [ref]

/-! ## A call that tries its flat (R9, R10, R54) -/

theorem MayOffer.congr {s u : State} {r : Ref} {i : FlatIx} {ch : Channel} (m : MayOffer s r i ch)
    (checks : ChecksAlike s u r i) (risers : u.risers = s.risers)
    (paths : u.psw.risers = s.psw.risers) : MayOffer u r i ch := by
  have path : u.paths ch.riser = s.paths ch.riser := by simp only [State.paths, paths]
  have riser := State.riser_congr risers ch.riser
  refine ⟨entryCheck_none_iff.1 (checks.entryCheck.trans (entryCheck_none_iff.2 m.checks)),
    by rw [checks.flat]; exact m.riser, by rw [path]; exact m.free, fun b => by rw [path]; exact m.first b,
    by rw [riser]; exact m.overrun, ?_⟩
  rw [riser, checks.stationsToOffer]
  exact m.room

theorem enterFlatLeg_fails {s : State} {r : Ref} {i : FlatIx} {why : EndReason}
    (h : s.entryCheck r i = some why) (c : Call) : s.enterFlatLeg r c i = s.endCall r why := by
  unfold State.enterFlatLeg
  rw [h]

theorem enterFlatLeg_requests {s : State} {r : Ref} {i : FlatIx} (h : PassesChecks s r i) (c : Call) :
    s.enterFlatLeg r c i =
      if (s.paths (s.flat i).riser).holderA = none then
        s.grantNow r c { riser := (s.flat i).riser, side := .a }
      else if (s.paths (s.flat i).riser).holderB = none then
        s.grantNow r c { riser := (s.flat i).riser, side := .b }
      else
        (s.setChannelQueue (s.flat i).riser ((s.paths (s.flat i).riser).queue ++ [r])).enterState r c
          .waiting (some .channel) (some .pathWait) := by
  unfold State.enterFlatLeg
  rw [entryCheck_none_iff.2 h]
  unfold State.requestChannel
  rw [if_neg (by simp [h.link])]

/-- R54: a FREE channel is granted at once. -/
theorem enterFlatLeg_offered {u : State} {r : Ref} {c b : Call} {i : FlatIx} {ch : Channel}
    (live : u.call? r = some b) (flat : c.flat = some i) (m : MayOffer u r i ch) :
    Offered u (u.enterFlatLeg r c i) r c i ch := by
  obtain ⟨w, granted, offered⟩ := grantChannel_offered live flat m.riser.symm m.checks m.overrun m.room
  have now : u.grantNow r c ch = w := by
    unfold State.grantNow
    rw [granted]
  have chosen : u.enterFlatLeg r c i = u.grantNow r c ch := by
    obtain ⟨y, side⟩ := ch
    obtain rfl : y = (u.flat i).riser := m.riser
    rw [enterFlatLeg_requests m.checks]
    cases side with
    | a => exact if_pos m.free
    | b =>
      rw [if_neg (m.first rfl)]
      exact if_pos m.free
  rw [chosen, now]
  exact offered

/-- R10, R25, R55: a call that waits for a channel, once the free lines have been looked at. -/
theorem WaitsForChannel.of_queued {s u t : State} {r : Ref} {c b : Call} {i : FlatIx}
    (h : PassesChecks u r i) (a : (u.paths (u.flat i).riser).holderA ≠ none)
    (b' : (u.paths (u.flat i).riser).holderB ≠ none) (k : Settled (u.enterFlatLeg r c i) t)
    (live : u.call? r = some b) (flat : c.flat = some i) (leg : c.leg = .flat)
    (none : ∀ o ∈ c.offers, o.status ≠ .queued) (paths : u.psw.risers = s.psw.risers)
    (dir : u.dir = s.dir) (risers : u.risers = s.risers) (clock : u.clock = s.clock)
    (times : u.ccu.times = s.ccu.times)
    (function : (u.port c.origin).function = (s.port c.origin).function) :
    WaitsForChannel s t r c i := by
  rw [enterFlatLeg_requests h, if_neg a, if_neg b'] at k
  have home : u.flat i = s.flat i := State.flat_congr dir i
  have before : ∀ x, u.paths x = s.paths x := fun x => by simp only [State.paths, paths]
  rw [home] at k
  have path : ∀ x, t.paths x = if (s.flat i).riser = x then
      { s.paths (s.flat i).riser with queue := (s.paths (s.flat i).riser).queue ++ [r] }
      else s.paths x := fun x => by
    rw [← before, ← before]
    exact (State.paths_congr k.psw x).trans (State.paths_setChannelQueue ..)
  refine ⟨?_, by rw [path, if_pos rfl], fun x ne => by rw [path, if_neg (Ne.symm ne)], fun x => ?_,
    fun on => ?_⟩
  · obtain ⟨d, hd, same⟩ := k.live (setCall_live (s := u.setChannelQueue (s.flat i).riser
      ((u.paths (s.flat i).riser).queue ++ [r])) live _)
    rw [hd, same.eq none, ← clock, ← times]
    simp only [flat, leg]
    rfl
  · rw [(k.risers x).frames, ← State.riser_congr risers x]
    rfl
  · refine (k.ports _).shows _ ?_
    have shown := Port.place_shows (d := .wait) (p := u.port c.origin) (by rw [function]; exact on)
    refine Eq.mpr (congrArg (Port.Shows · _) ?_) shown
    exact (State.port_display ..).trans (if_pos rfl)

/-! ## A new call for a flat -/

/-- R7, R12: the record of a new call whose code has been translated. -/
def Call.dialled (kind : CallKind) (p : PortIx) (code : Nat) (i : FlatIx) : Call :=
  { Call.fresh kind p (some code) with flat := some i }

/-- R12: the flat that the code of a new call names. -/
theorem continueCall_translated {s u : State} {p : PortIx} {k : SlotIx} {kind : CallKind} {code : Nat}
    {i : FlatIx} (h : Started s u p k (Call.fresh kind p (some code)))
    (names : s.dir.translate code = .ok i) :
    ∃ v, Started s v p k (Call.dialled kind p code i) ∧
      u.continueCall (s.nextRef k) (Call.fresh kind p (some code)) =
        if kind = .visitor ∧ s.ccu.intercept = true ∧ (s.port p).intercept = true then
          v.enterConciergeLeg (s.nextRef k) (Call.dialled kind p code i)
        else v.enterFlatLeg (s.nextRef k) (Call.dialled kind p code i) i := by
  have started := h.setCall (d := Call.dialled kind p code i) rfl rfl rfl
  refine ⟨_, started, ?_⟩
  have names' : u.dir.translate code = .ok i := by rw [h.dir, names]
  have intercepts : (u.setCall (s.nextRef k) (Call.dialled kind p code i)).intercepts
      (Call.dialled kind p code i) = true ↔
      kind = .visitor ∧ s.ccu.intercept = true ∧ (s.port p).intercept = true := by
    obtain ⟨-, port, -, -⟩ := started.ports p
    simp only [State.intercepts, Bool.and_eq_true, decide_eq_true_eq, started.intercept, and_assoc]
    rw [← port]
    rfl
  have code' : (Call.fresh kind p (some code)).code = some code := rfl
  unfold State.continueCall
  rw [code']
  dsimp only
  rw [names']
  exact if_congr intercepts rfl rfl

theorem Raises.cons {s u t : State} {e : Event} {es : List Event} (h : Raises u t es)
    (ntu : u.ntu = (s.emit e).ntu) (tx : u.hlp.tx = s.hlp.tx) : Raises s t (e :: es) := by
  have same := emits_ntu_congr ntu es
  refine ⟨h.notices.trans (noticeLine_congr ?_ ?_), h.lost.trans ?_, h.routes.trans ?_⟩
  · rw [List.foldl_cons, emits_hlp, emits_hlp, State.emit_hlp, tx]
  · rw [List.foldl_cons, same]
  · rw [List.foldl_cons, same]
  · rw [ntu, (emit_moves s e).kept.routes]

/-- What a frame that made a call leaves of everything else. -/
structure CallMade (s t : State) (p : PortIx) (k : SlotIx) (kind : CallKind) (code : Option Nat) :
    Prop where
  lastEnd : (t.slot k).lastEnd = none
  others  : ∀ j, j ≠ k → (s.slot j).SameButSending (t.slot j)
  hold    : t.hold p = some { call := s.nextRef k, role := .origin }
  holds   : ∀ q, q ≠ p → t.hold q = s.hold q
  joins   : t.psw.joins = s.psw.joins
  desks   : t.psw.deskQueue = s.psw.deskQueue
  raises  : Raises s t [.callStarted (s.nextRef k) kind p code]

/-- A new call that comes to rest at its first step. -/
theorem CallMade.of_started {s u w t : State} {p : PortIx} {k : SlotIx} {c : Call}
    (h : Started s u p k c) (origin : c.origin = p)
    (slots : ∀ j, j ≠ k → w.slot j = u.slot j) (lastEnd : (w.slot k).lastEnd = (u.slot k).lastEnd)
    (holds : w.psw.holds = u.psw.holds) (joins : w.psw.joins = u.psw.joins)
    (desks : w.psw.deskQueue = u.psw.deskQueue) (ntu : w.ntu = u.ntu) (hlp : w.hlp = u.hlp)
    (st : Settled w t) : CallMade s t p k c.kind c.code := by
  have hold : ∀ q, t.hold q =
      if p = q then some { call := s.nextRef k, role := .origin } else s.hold q := fun q => by
    rw [← h.hold q]
    simp only [State.hold, st.psw, holds]
  refine ⟨?_, fun j ne => ?_, by rw [hold, if_pos rfl], fun q ne => by rw [hold, if_neg (Ne.symm ne)],
    ?_, ?_, ?_⟩
  · rw [(st.slots k).2.1, lastEnd, h.lastEnd]
  · rw [← h.others j ne, ← slots j ne]
    exact st.slots j
  · rw [st.psw, joins, h.psw]; rfl
  · rw [st.psw, desks, h.psw]; rfl
  · have none : Raises u t [] := .of_settled (u := w) (by rw [hlp]) ntu st
    rw [← origin]
    exact none.cons h.ntu (by rw [h.hlp])

theorem setCall_lastEnd (s : State) (r : Ref) (c : Call) (j : SlotIx) :
    ((s.setCall r c).slot j).lastEnd = (s.slot j).lastEnd := by
  rw [State.slot_setCall]
  split
  · next e => rw [← e]
  · rfl

theorem CallMade.of_offered {s u w t : State} {p : PortIx} {k : SlotIx} {c : Call} {i : FlatIx}
    {ch : Channel} (h : Started s u p k c) (origin : c.origin = p)
    (o : Offered u w (s.nextRef k) c i ch) (st : Settled w t) : CallMade s t p k c.kind c.code :=
  .of_started h origin (fun _ ne => o.others ne)
    (by rw [State.slot_congr o.ccu, setCall_lastEnd]) (by rw [o.psw]; rfl) (by rw [o.psw]; rfl)
    (by rw [o.psw]; rfl) o.ntu o.hlp st

theorem CallMade.of_queued {s u t : State} {p : PortIx} {k : SlotIx} {c : Call} {i : FlatIx}
    (h : Started s u p k c) (origin : c.origin = p) (checks : PassesChecks u (s.nextRef k) i)
    (a : (u.paths (u.flat i).riser).holderA ≠ none) (b : (u.paths (u.flat i).riser).holderB ≠ none)
    (st : Settled (u.enterFlatLeg (s.nextRef k) c i) t) : CallMade s t p k c.kind c.code := by
  rw [enterFlatLeg_requests checks, if_neg a, if_neg b] at st
  refine .of_started h origin (w := (u.setChannelQueue (u.flat i).riser
    ((u.paths (u.flat i).riser).queue ++ [s.nextRef k])).enterState (s.nextRef k) c .waiting
      (some .channel) (some .pathWait)) (fun j ne => ?_) ?_ rfl rfl rfl rfl rfl st
  · exact setCall_other (s := u.setChannelQueue (u.flat i).riser
      ((u.paths (u.flat i).riser).queue ++ [s.nextRef k])) (r := s.nextRef k) _ ne
  · exact setCall_lastEnd (u.setChannelQueue (u.flat i).riser
      ((u.paths (u.flat i).riser).queue ++ [s.nextRef k])) (s.nextRef k) _ k

/-- Settles O37: a CALL and a DIAL are one start request, which is granted or queued. -/
theorem callIsOfferedToItsFlat : Obligations.CallIsOfferedToItsFlat := by
  intro p code i k s present check held low free first names r new made starts
  have one : ∀ (cmd : Instr) (q : StartRequest), q.callKind ≠ .desk →
      (q.callKind = .visitor → ¬ (s.ccu.intercept = true ∧ (s.port p).intercept = true)) →
      exec cmd s = .next ((s.panelFrameEnd p).startCall p q (some code)).settle →
      starts cmd q.callKind := fun cmd q kind intercept run => by
    obtain ⟨u, started, e⟩ := startCall_new check held free first q (some code)
    obtain ⟨v, started, e'⟩ := continueCall_translated started names
    rw [e, e', if_neg (by rintro ⟨a, b⟩; exact intercept a b)] at run
    have dialled : Call.dialled q.callKind p code i = new q.callKind := by
      simp [Call.dialled, Call.fresh, new, kind]
    rw [dialled] at started run
    have alike := started.checksAlike i
    have paths := started.paths
    have port : ∀ x, (v.port x).function = (s.port x).function := fun x => (started.ports x).1
    have riser := State.riser_congr started.risers
    have st := settle_settled (v.enterFlatLeg (s.nextRef k) (new q.callKind) i)
    generalize (v.enterFlatLeg (s.nextRef k) (new q.callKind) i).settle = t at run st
    refine ⟨fun ch m => ?_, fun checks a b => ?_⟩
    · have offered := enterFlatLeg_offered (c := new q.callKind) started.record rfl
        (m.congr alike started.risers paths)
      refine ⟨_, run, .of_offered offered st started.record rfl rfl paths
        (by rw [riser]; exact .refl _) alike.stationsToOffer (port _), ?_⟩
      have done := CallMade.of_offered started rfl offered st
      exact ⟨done.lastEnd, done.others, done.hold, done.holds, done.joins, done.desks, done.raises⟩
    · have checks' := entryCheck_none_iff.1 (alike.entryCheck.trans (entryCheck_none_iff.2 checks))
      have path : v.paths (v.flat i).riser = s.paths (s.flat i).riser := by
        rw [alike.flat]
        simp only [State.paths, paths]
      refine ⟨_, run, .of_queued checks' (by rw [path]; exact a) (by rw [path]; exact b) st started.record
        rfl rfl (by simp [new]) paths started.dir started.risers started.clock started.times (port _), ?_⟩
      have done := CallMade.of_queued started rfl checks' (by rw [path]; exact a)
        (by rw [path]; exact b) st
      exact ⟨done.lastEnd, done.others, done.hold, done.holds, done.joins, done.desks, done.raises⟩
  have code? : isCode code = true := decide_eq_true low
  refine ⟨fun function intercept => one _ .call (by decide) (fun _ => ?_) ?_,
    fun function => one _ .dial (by decide) (fun h => by cases h) ?_⟩
  · rcases intercept with h | h <;> simp [h]
  · simp only [exec, execPanelCall, code?, if_true]
    rw [onPanelFrame_taken present function]
  · simp only [exec, execDeskDial, code?, if_true]
    rw [onPanelFrame_taken present function]

end Sys2Proof.Machine
end

