-- ==== Sys2Proof/Proofs/ConciergeCalls.lean ====
section
/-!
SUPPORT. A call that goes to the concierge (R60, R61, R139): O40.
-/

namespace Sys2Proof.Machine

/-! ## Eligible desks -/

theorem eligible_congr {s t : State} {p : PortIx} (port : (s.port p).SameSettings (t.port p))
    (hold : t.hold p = s.hold p) : t.eligible p = s.eligible p := by
  obtain ⟨function, -, present, check⟩ := port
  simp only [State.eligible, function, present, check, hold]

/-- R60: a port that is no desk is not eligible. -/
theorem not_eligible {s : State} {p : PortIx} (h : (s.port p).function ≠ .concierge) :
    s.eligible p = false := by
  simp [State.eligible, h]

theorem Started.eligible {s u : State} {p : PortIx} {k : SlotIx} {c : Call} (h : Started s u p k c)
    (entrance : (s.port p).function = .entrance) (q : PortIx) : u.eligible q = s.eligible q := by
  by_cases e : p = q
  · subst e
    have function := (h.ports p).1
    rw [not_eligible (by rw [function, entrance]; simp), not_eligible (by simp [entrance])]
  · exact eligible_congr (h.ports q) (by rw [h.hold, if_neg e])

/-! ## Where the call comes to rest -/

/-- R61, R139: the state in which a call waits for a desk. -/
def State.queuedForDesk (s : State) (r : Ref) (c : Call) : State :=
  ((s.setCall r c.onConcierge).setDeskQueue (s.psw.deskQueue ++ [r])).enterState r c.onConcierge
    .waiting (some .desk) (some .pathWait)

/-- R139: the state in which a desk has been granted to a call. -/
def State.grantedDesk (s : State) (r : Ref) (c : Call) (p : PortIx) : State :=
  (s.setCall r c.onConcierge).grantDesk r c.onConcierge p

theorem enterConciergeLeg_granted {s : State} {d : PortIx} (el : s.eligible d = true)
    (first : ∀ q, q < d → s.eligible q = false) (r : Ref) (c : Call) :
    s.enterConciergeLeg r c = s.grantedDesk r c d := by
  have lowest := lowestDesk_eq el first
  rcases enterConciergeLeg_cases s r c with ⟨p, hp, e⟩ | ⟨none, -⟩
  · rw [lowest] at hp
    rw [e, ← Option.some.inj hp]
    rfl
  · rw [lowest] at none
    cases none

theorem enterConciergeLeg_queued {s : State} (no : ∀ q, s.eligible q = false) (r : Ref) (c : Call) :
    s.enterConciergeLeg r c = s.queuedForDesk r c := by
  have lowest := lowestDesk_none no
  rcases enterConciergeLeg_cases s r c with ⟨p, hp, -⟩ | ⟨-, e⟩
  · rw [lowest] at hp
    cases hp
  · exact e

section
variable {s : State} {r : Ref} {c b : Call} {d : PortIx}

theorem grantedDesk_live (live : s.call? r = some b) : (s.grantedDesk r c d).call? r =
    some (c.onConcierge.atDesk d s.clock s.ccu.times.deskRing) :=
  grantDesk_live (s := s.setCall r c.onConcierge) c.onConcierge d (setCall_live live _)

theorem grantedDesk_other {j : SlotIx} (ne : j ≠ r.slot) :
    (s.grantedDesk r c d).slot j = s.slot j :=
  (grantDesk_other (s := s.setCall r c.onConcierge) c.onConcierge d ne).trans (setCall_other _ ne)

theorem queuedForDesk_live (live : s.call? r = some b) : (s.queuedForDesk r c).call? r =
    some { c.onConcierge with
      state := .waiting, waitingFor := some .desk
      timer := some { kind := .pathWait, expiry := s.clock + s.ccu.times.pathWait * 1000 } } :=
  setCall_live (s := (s.setCall r c.onConcierge).setDeskQueue (s.psw.deskQueue ++ [r]))
    (setCall_live live c.onConcierge) _

theorem queuedForDesk_other {j : SlotIx} (ne : j ≠ r.slot) :
    (s.queuedForDesk r c).slot j = s.slot j :=
  (setCall_other (s := (s.setCall r c.onConcierge).setDeskQueue (s.psw.deskQueue ++ [r])) _ ne).trans
    (setCall_other c.onConcierge ne)

/-- The blocks that entering the concierge leg leaves. -/
theorem grantedDesk_same : s.grantedDesk r c d =
    { s with ccu := (s.grantedDesk r c d).ccu, ports := (s.grantedDesk r c d).ports
             psw := { s.psw with
               holds := s.psw.holds.write d (some { call := r, role := .desk }) } } := rfl

theorem queuedForDesk_same : s.queuedForDesk r c =
    { s with ccu := (s.queuedForDesk r c).ccu, ports := (s.queuedForDesk r c).ports
             psw := { s.psw with deskQueue := s.psw.deskQueue ++ [r] } } := rfl

theorem grantedDesk_port (q : PortIx) : (s.grantedDesk r c d).port q =
    (s.grantDesk r c d).port q := by
  have one := grantDesk_port (s.setCall r c.onConcierge) r c.onConcierge d q
  exact one.trans (grantDesk_port s r c d q).symm

theorem queuedForDesk_origin (on : (s.port c.origin).function ≠ .off) :
    ((s.queuedForDesk r c).port c.origin).Shows .wait := by
  have shown := Port.place_shows (d := .wait) on
  refine Eq.mpr (congrArg (Port.Shows · _) ?_) shown
  exact (State.port_display ..).trans (if_pos rfl)

end

/-! ## A new call that goes to the concierge -/

/-- What a frame leaves of a call that goes to the concierge, wherever it comes to rest. -/
structure SentToConcierge (s t : State) (p : PortIx) (k : SlotIx) (c : Call) : Prop where
  paths  : ∀ x, t.paths x = s.paths x
  joins  : t.psw.joins = s.psw.joins
  hold   : t.hold p = some { call := s.nextRef k, role := .origin }
  raises : Raises s t [.callStarted (s.nextRef k) c.kind c.origin c.code]

section
variable {s u t : State} {p d : PortIx} {k : SlotIx} {c : Call}

/-- R60, R139, R140: a new call that is granted the lowest eligible desk. -/
theorem started_granted (h : Started s u p k c) (origin : c.origin = p)
    (entrance : (s.port p).function = .entrance) (el : s.eligible d = true)
    (none : ∀ o ∈ c.offers, o.status ≠ .queued)
    (st : Settled (u.grantedDesk (s.nextRef k) c d) t) :
    SentToConcierge s t p k c ∧
      t.call? (s.nextRef k) = some { c.onConcierge with
        state := .ringing, deskPort := some d
        timer := some { kind := .deskRing, expiry := s.clock + s.ccu.times.deskRing * 1000 } } ∧
      t.hold d = some { call := s.nextRef k, role := .desk } ∧
      (∀ q, q ≠ p → q ≠ d → t.hold q = s.hold q) ∧ t.psw.deskQueue = s.psw.deskQueue ∧
      (t.port d).Rings (.on p c.kind c.flat) ∧ (t.port d).Shows .ringing ∧
      (t.port p).Shows .ringing := by
  obtain ⟨concierge, present, -, -⟩ := eligible_iff.1 el
  have ne : d ≠ p := fun e => by
    rw [e, entrance] at concierge
    cases concierge
  obtain ⟨function, -, present', -⟩ := h.ports d
  have same := grantedDesk_same (s := u) (r := s.nextRef k) (c := c) (d := d)
  have psw : t.psw = _ := st.psw.trans (congrArg State.psw same)
  have hold : ∀ q, t.hold q = if d = q then some { call := s.nextRef k, role := .desk }
      else if p = q then some { call := s.nextRef k, role := .origin } else s.hold q := fun q => by
    rw [← h.hold q]
    simp only [State.hold, psw, Table.read_write]
  obtain ⟨ring, slot, last⟩ := grantDesk_desk (s := u) (p := d) (s.nextRef k) c
    (function.trans concierge) (present'.trans present)
  rw [← grantedDesk_port] at ring slot last
  refine ⟨⟨fun x => ?_, ?_, ?_, ?_⟩, ?_, by rw [hold, if_pos rfl], fun q np nd => ?_, ?_,
    (st.ports d).rings _ (.inl (origin ▸ ring)), (st.ports d).shows _ ⟨last, .inl slot⟩, ?_⟩
  · simp only [State.paths, psw, h.paths]
  · rw [psw, h.psw]; rfl
  · rw [hold, if_neg ne, if_pos rfl]
  · refine Raises.cons (u := u) ?_ h.ntu (by rw [h.hlp])
    exact .of_settled (u := u.grantedDesk (s.nextRef k) c d) rfl rfl st
  · obtain ⟨e, he, like⟩ := st.live (grantedDesk_live (d := d) (c := c) h.record)
    rw [he, like.eq none, h.clock, h.times]
    rfl
  · rw [hold, if_neg (Ne.symm nd), if_neg (Ne.symm np)]
  · rw [psw, h.psw]; rfl
  · obtain ⟨slot, last⟩ := grantDesk_origin (s := u) d (s.nextRef k) (c := c) (by
      rw [origin, (h.ports p).1, entrance]; simp)
    rw [← grantedDesk_port, origin] at slot last
    exact (st.ports p).shows _ ⟨last, .inl slot⟩

/-- R61, R139: a new call that waits for a desk. -/
theorem started_queuedForDesk (h : Started s u p k c) (origin : c.origin = p)
    (entrance : (s.port p).function = .entrance) (none : ∀ o ∈ c.offers, o.status ≠ .queued)
    (st : Settled (u.queuedForDesk (s.nextRef k) c) t) :
    SentToConcierge s t p k c ∧
      t.call? (s.nextRef k) = some { c.onConcierge with
        state := .waiting, waitingFor := some .desk
        timer := some { kind := .pathWait, expiry := s.clock + s.ccu.times.pathWait * 1000 } } ∧
      (∀ q, q ≠ p → t.hold q = s.hold q) ∧ t.psw.deskQueue = s.psw.deskQueue ++ [s.nextRef k] ∧
      (t.port p).Shows .wait := by
  have same := queuedForDesk_same (s := u) (r := s.nextRef k) (c := c)
  have psw : t.psw = _ := st.psw.trans (congrArg State.psw same)
  have hold : ∀ q, t.hold q =
      if p = q then some { call := s.nextRef k, role := .origin } else s.hold q := fun q => by
    rw [← h.hold q]
    simp only [State.hold, psw]
  refine ⟨⟨fun x => ?_, ?_, ?_, ?_⟩, ?_, fun q np => by rw [hold, if_neg (Ne.symm np)], ?_, ?_⟩
  · simp only [State.paths, psw, h.paths]
  · rw [psw, h.psw]; rfl
  · rw [hold, if_pos rfl]
  · refine Raises.cons (u := u) ?_ h.ntu (by rw [h.hlp])
    exact .of_settled (u := u.queuedForDesk (s.nextRef k) c) rfl rfl st
  · obtain ⟨e, he, like⟩ := st.live (queuedForDesk_live (c := c) h.record)
    rw [he, like.eq none, h.clock, h.times]
  · rw [psw, h.psw]; rfl
  · have shown := queuedForDesk_origin (s := u) (r := s.nextRef k) (c := c) (by
      rw [origin, (h.ports p).1, entrance]; simp)
    rw [origin] at shown
    exact (st.ports p).shows _ shown

end

/-! ## O40 -/

theorem settleLinks_ccu (s : State) : s.settleLinks.ccu = s.ccu := by
  rw [State.settleLinks, (settleHost_moved s.settlePanels).same]
  rfl

/-- A call that enters its concierge leg leaves the other records and the risers. -/
theorem enterConciergeLeg_rest (s : State) (r : Ref) (c : Call) :
    (∀ j, j ≠ r.slot → (s.enterConciergeLeg r c).slot j = s.slot j) ∧
      (s.enterConciergeLeg r c).risers = s.risers := by
  rcases enterConciergeLeg_cases s r c with ⟨p, -, e⟩ | ⟨-, e⟩
  · rw [e]
    exact ⟨fun j ne => grantedDesk_other (c := c) (d := p) ne, rfl⟩
  · rw [e]
    exact ⟨fun j ne => queuedForDesk_other (c := c) ne, rfl⟩

/-- Settles O40: the one way to the concierge, by a CONCIERGE frame and by a CALL that is intercepted. -/
theorem conciergeCallRingsLowestDesk : Obligations.ConciergeCallRingsLowestDesk := by
  intro p k s present function check held free first r goes
  have one : ∀ (cmd : Instr) (u : State) (kind : CallKind) (code : Option Nat) (flat : Option FlatIx)
      (same : State → Prop) (settle : State → State), (∀ v, Settled v (settle v)) →
      let c := { Call.fresh kind p code with flat := flat }
      Started s u p k c →
      exec cmd s = .next (settle (u.enterConciergeLeg (s.nextRef k) c)) →
      same (settle (u.enterConciergeLeg (s.nextRef k) c)) → goes cmd kind code flat same := by
    intro cmd u kind code flat same settle hs c h run kept
    have none : ∀ o ∈ c.offers, o.status ≠ .queued := fun o ho => nomatch ho
    refine ⟨fun d el lowest => ?_, fun no => ?_⟩
    · rw [enterConciergeLeg_granted ((h.eligible function d).trans el)
        (fun q lt => (h.eligible function q).trans (lowest q lt))] at run kept
      obtain ⟨⟨paths, joins, hold, raises⟩, rest⟩ := started_granted h rfl function el none (hs _)
      exact ⟨_, run, ⟨kept, paths, joins, hold, raises⟩, rest⟩
    · rw [enterConciergeLeg_queued fun q => (h.eligible function q).trans (no q)] at run kept
      obtain ⟨⟨paths, joins, hold, raises⟩, rest⟩ := started_queuedForDesk h rfl function none (hs _)
      exact ⟨_, run, ⟨kept, paths, joins, hold, raises⟩, rest⟩
  refine ⟨?_, fun code i low names mode flag => ?_⟩
  · obtain ⟨u, started, e⟩ := startCall_new check held free first .concierge none
    have run : exec (.panelConcierge p) s = .next
        ((s.panelFrameEnd p).startCall p .concierge none).settleLinks := by
      simp only [exec, execPanelConcierge]
      rw [onPanelFrame_taken present function]
    rw [e] at run
    obtain ⟨others, risers⟩ := enterConciergeLeg_rest u (s.nextRef k) (Call.fresh .desk p none)
    refine one _ u .desk none none _ State.settleLinks settleLinks_settled started run ⟨fun j ne => ?_, fun x => ?_⟩
    · rw [State.slot_congr (settleLinks_ccu _), ← started.others j ne]
      exact others j ne
    · rw [State.riser_congr (settleLinks_risers _)]
      exact State.riser_congr (risers.trans started.risers) x
  · have code? : isCode code = true := decide_eq_true low
    obtain ⟨u, started, e⟩ := startCall_new check held free first .call (some code)
    obtain ⟨v, started, e'⟩ := continueCall_translated started names
    have run : exec (.panelCall p code) s = .next
        ((s.panelFrameEnd p).startCall p .call (some code)).settle := by
      simp only [exec, execPanelCall, code?, if_true]
      rw [onPanelFrame_taken present function]
    rw [e, e', if_pos ⟨rfl, mode, flag⟩] at run
    have st := settle_settled (v.enterConciergeLeg (s.nextRef k) (Call.dialled .visitor p code i))
    obtain ⟨others, risers⟩ :=
      enterConciergeLeg_rest v (s.nextRef k) (Call.dialled .visitor p code i)
    refine one _ v .visitor (some code) (some i) _ State.settle settle_settled started run ⟨fun j ne => ?_, fun x => ?_⟩
    · rw [← started.others j ne, ← others j ne]
      exact st.slots j
    · rw [← State.riser_congr (risers.trans started.risers) x]
      exact st.risers x

end Sys2Proof.Machine
end

