-- ==== Sys2Proof/Proofs/FailedCalls.lean ====
section
/-!
SUPPORT. A new call that fails a check and ends at once (R9, R12, R27 to R29): O39.
-/

namespace Sys2Proof.Machine

/-! ## Ends that free an entrance panel -/

/-- R62: the desk grant rule does nothing for a port that is no desk. -/
theorem serveDesk_noDesk {s : State} {p : PortIx} (h : (s.port p).function ≠ .concierge) :
    s.serveDesk p = s := by
  unfold State.serveDesk
  rw [not_eligible h]
  rfl

theorem endRecord_function (s : State) (r : Ref) (c : Call) (why : EndReason) (p : PortIx) :
    ((s.endRecord r c why).port p).function = (s.port p).function := by
  rw [endRecord_raised]
  rcases endRaised_port s r c why p with e | e
  · show ((s.endRaised r c why).port p).function = _
    rw [e]
    split <;> simp
  · show ((s.endRaised r c why).port p).function = _
    rw [e]
    split <;> simp

/-- R28, R29: the end of a call that holds nothing but its origin, which is no desk. -/
theorem endCall_noDesk {s : State} {r : Ref} {c : Call} (hc : s.call? r = some c)
    (channel : c.channel = none) (desk : c.deskPort = none)
    (origin : (s.port c.origin).function ≠ .concierge) (why : EndReason) :
    s.endCall r why = s.endedAlone r c why := by
  have function := endRecord_function s r c why c.origin
  rw [endCall_live hc]
  unfold State.endedAlone State.freeChannel State.clearChannel
  rw [channel, releasePorts_eq]
  unfold State.freeDesk State.clearDesk
  rw [desk]
  dsimp only
  unfold State.releasePort
  rw [serveDesk_noDesk]
  show ((s.endRecord r c why).port c.origin).function ≠ .concierge
  rw [function]
  exact origin

/-! ## O39 -/

/-- R9, R12: what a call leaves that was created and ended within one event. -/
def NewCallEnded (s t : State) (p : PortIx) (k : SlotIx) (kind : CallKind) (code : Option Nat)
    (flat : Option FlatIx) (why : EndReason) : Prop :=
  t.slot k = { generation := (s.nextRef k).gen, lastEnd := some why, call := none } ∧
    (∀ j, j ≠ k → (s.slot j).SameButSending (t.slot j)) ∧ (∀ q, t.hold q = s.hold q) ∧
    (t.port p).Shows why.display ∧ (∀ x, t.paths x = s.paths x) ∧
    (∀ x, (t.riser x).frames = (s.riser x).frames) ∧
    Raises s t [.callStarted (s.nextRef k) kind p code,
      .callEnded (s.nextRef k) kind p code flat none why]

/-- R9, R12: a new call that ends within its start event. -/
theorem started_ends {s u : State} {p : PortIx} {k : SlotIx} {c : Call} {why : EndReason}
    (h : Started s u p k c) (held : s.hold p = none) (origin : c.origin = p) (offers : c.offers = [])
    (desk : c.deskPort = none) (channel : c.channel = none) (answerer : c.answerer = none)
    (on : (s.port p).function ≠ .off) (queues : ∀ x, s.nextRef k ∉ (s.paths x).queue)
    (alone : u.endCall (s.nextRef k) why = u.endedAlone (s.nextRef k) c why) :
    NewCallEnded s (u.endCall (s.nextRef k) why).settle p k c.kind c.code c.flat why := by
  obtain ⟨t, ht⟩ : ∃ t : State, t = (u.endCall (s.nextRef k) why).settle := ⟨_, rfl⟩
  rw [← ht]
  have st : Settled (u.endedAlone (s.nextRef k) c why) t := by
    rw [ht, ← alone]
    exact settle_settled _
  have ended : Ended u t (s.nextRef k) c why := .of_alone (.refl ..) (.refl _) st
  have path : ∀ x, u.paths x = s.paths x := fun x => by simp only [State.paths, h.paths]
  refine ⟨ended.slot, fun j ne => ?_, fun q => ?_, ?_, fun x => ?_, fun x => ?_, ?_⟩
  · rw [← h.others j ne]
    exact ended.others j ne
  · by_cases e : q = p
    · rw [e, held, ← origin]
      exact ended.origin
    · rw [ended.holds q (by rw [origin]; exact e) (by simp [desk]), h.hold, if_neg (Ne.symm e)]
  · rw [← origin]
    exact ended.shows (by rw [origin, (h.ports p).1]; exact on) (by simp [desk])
  · have stays : (s.paths x).queue.filter (fun q => q ≠ s.nextRef k) = (s.paths x).queue :=
      List.filter_eq_self.2 fun q hq =>
        decide_eq_true fun e : q = s.nextRef k => queues x (e ▸ hq)
    rw [ended.channels, channel, path, stays]
    rfl
  · have risers : (u.endedAlone (s.nextRef k) c why).risers = s.risers := by
      rw [endedAlone_risers, endFrames_closed why (by simp [offers]) answerer, h.risers]
    rw [(st.risers x).frames, State.riser_congr risers]
  · have raised := ended.raises
    rw [answerer, origin] at raised
    have started := raised.cons h.ntu (by rw [h.hlp])
    rwa [origin] at started

/-- Settles O39: the end at the translation, and the ends at the entry checks. -/
theorem callThatFailsItsChecksEnds : Obligations.CallThatFailsItsChecksEnds := by
  refine ⟨?_, fun why => ?_⟩
  · intro p code k s present check held low free first r fails queues desks
    have code? : isCode code = true := decide_eq_true low
    have one : ∀ (cmd : Instr) (q : StartRequest) (intercepted : Prop), q ≠ .concierge →
        (q = .call → s.ccu.intercept = true ∧ (s.port p).intercept = true → intercepted) →
        (s.port p).function ≠ .off →
        ((s.port p).function ≠ .concierge ∨ s.psw.deskQueue = []) →
        exec cmd s = .next ((s.panelFrameEnd p).startCall p q (some code)).settle →
        fails cmd q.callKind intercepted := by
      intro cmd q intercepted start intercept on quiet run
      obtain ⟨u, started, e⟩ := startCall_new check held free first q (some code)
      have over' : ∀ (v : State) (flat : Option FlatIx) (why : EndReason),
          let c := { Call.fresh q.callKind p (some code) with flat := flat }
          Started s v p k c → exec cmd s = .next (v.endCall r why).settle →
          ∃ t, exec cmd s = .next t ∧ NewCallEnded s t p k q.callKind (some code) flat why := by
        intro v flat why c h run
        have alone : v.endCall r why = v.endedAlone r c why := by
          rcases quiet with e | e
          · exact endCall_noDesk h.record rfl rfl (by rw [(h.ports _).1]; exact e) why
          · refine endCall_alone h.record ⟨fun w hw => ?_, fun ch hch => nomatch hch⟩ why
            rw [h.psw] at hw
            rw [show (s.setHold p _).psw.deskQueue = [] from e] at hw
            cases hw
        exact ⟨_, run, started_ends h held rfl rfl rfl rfl rfl on queues alone⟩
      refine ⟨fun cause fault => ?_, fun i names notIntercepted => ?_⟩
      · have refused : u.continueCall r (Call.fresh q.callKind p (some code)) =
            u.endCall r (.invalidCode cause) := by
          have fault' : u.dir.translate code = .error cause := by rw [started.dir, fault]
          have code' : (Call.fresh q.callKind p (some code)).code = some code := rfl
          unfold State.continueCall
          rw [code']
          dsimp only
          rw [fault']
        rw [e] at run
        exact over' u none _ started (run.trans (by rw [← refused]; rfl))
      · obtain ⟨v, started, e'⟩ := continueCall_translated started names
        rw [e, e', if_neg] at run
        · exact flatLegFails_of (s := s) (r := r) fun why check => over' v (some i) why started
            (run.trans (by rw [enterFlatLeg_fails ((started.checksAlike i).entryCheck.trans check)]; rfl))
        · rintro ⟨kind, both⟩
          refine notIntercepted (intercept ?_ both)
          cases q
          · rfl
          · exact absurd rfl start
          · cases kind
    refine ⟨fun function => one _ .call _ (by decide) (fun _ h => h) (by simp [function])
      (.inl (by simp [function])) ?_, fun function empty => one _ .dial _ (by decide)
      (fun h => nomatch h) (by simp [function]) (.inr empty) ?_⟩
    · simp only [exec, execPanelCall, code?, if_true]
      rw [onPanelFrame_taken present function]
    · simp only [exec, execDeskDial, code?, if_true]
      rw [onPanelFrame_taken present function]
  · cases why <;> exact ⟨rfl, rfl⟩

end Sys2Proof.Machine
end

