-- ==== Sys2Proof/Proofs/Diverts.lean ====
section
/-!
SUPPORT. The divert of an unanswered visitor (R22, R23, R139): O46.
-/

namespace Sys2Proof.Machine

/-! ## The offers of a call that diverts -/

/-- R23: an offer after the divert of its call. -/
def Offer.diverted (o : Offer) : Offer :=
  if o.status = .sent ∨ o.status = .ringing then { o with status := .cancelled }
  else if o.status = .queued then { o with status := .withdrawn } else o

theorem Offer.diverted_eq (o : Offer) : (o.recalled fun _ => false).withdrawn = o.diverted := by
  unfold Offer.recalled Offer.diverted Offer.withdrawn Offer.isOut
  by_cases out : o.status = .sent ∨ o.status = .ringing
  · simp [out]
  · simp [out]

theorem Offer.diverted_notQueued (o : Offer) : o.diverted.status ≠ .queued := by
  unfold Offer.diverted
  split
  · simp
  · split
    · simp
    · next h => exact h

/-- R23: the CANCELs of a divert. -/
def Call.divertFrames (c : Call) (r : Ref) : List QueueEntry :=
  (c.offers.filter fun o => decide (o.status = .sent ∨ o.status = .ringing)).map
    fun o => .advisory (.cancel o.station .diverted (some r))

/-- R23: the record of a call that has lost its offers and its channel. -/
def Call.divertedFrom (c : Call) : Call :=
  { c with timer := none, channel := none, offers := c.offers.map Offer.diverted }

/-- R23: a call has taken back its offers and released its channel. -/
structure Diverting (s v : State) (r : Ref) (c : Call) (ch : Channel) (now : Nat) : Prop where
  record : ∃ b, v.call? r = some b
  others : ∀ j, j ≠ r.slot → v.slot j = s.slot j
  times  : v.ccu.times = s.ccu.times
  clock  : v.clock = now
  psw    : v.psw = (s.setHolder ch none).psw
  ports  : v.ports = s.ports
  hlp    : v.hlp = s.hlp
  ntu    : v.ntu = s.ntu
  given  : (s.riser ch.riser).Given (v.riser ch.riser) now r c.queuedStations (c.divertFrames r)

theorem divert_diverting {s : State} {r : Ref} {c : Call} {ch : Channel} {e : Nat}
    (hc : s.call? r = some c) (channel : c.channel = some ch) (home : s.riserOfCall c = some ch.riser)
    (queue : (s.paths ch.riser).queue = []) (ok : (s.riser ch.riser).Takes)
    (room : (s.riser ch.riser).queue.length + c.offers.length ≤ 32)
    (held : ∀ o ∈ c.offers, o.status = .queued → (s.riser ch.riser).HoldsOffer o.station r)
    (nodup : (c.offers.map fun o => o.station).Nodup) :
    ∃ v, Diverting s v r c ch (max s.clock e) ∧
      (s.expired r c e).divert r { c with timer := none } =
        v.enterConciergeLeg r c.divertedFrom := by
  have short := List.length_filter_le (fun o : Offer => !false && o.isOut) c.offers
  obtain ⟨back, offers⟩ := takeBackAll_gives (s := s.expired r c e) (why := .diverted)
    (skip := fun _ => false) (os := c.offers) (Gives.refl ch.riser r (s.expired r c e)) ok
    (by
      show (s.riser ch.riser).queue.length + 0 + _ ≤ 32
      omega)
    (by simp) held nodup (fun _ _ k => by cases k) (fun _ _ _ => rfl)
  have took : (c.offers.map fun o => (o.recalled fun _ => false).withdrawn) =
      c.offers.map Offer.diverted := List.map_congr_left fun o _ => o.diverted_eq
  rw [took] at offers
  have home' : (s.expired r c e).riserOfCall { c with timer := none } = some ch.riser := home
  have live := expired_call hc e
  unfold State.divert
  rw [home']
  dsimp only
  rw [channel]
  dsimp only
  generalize (s.expired r c e).takeBackAll _ _ _ _ _ = b at back offers ⊢
  obtain ⟨w, os⟩ := b
  dsimp only at back offers ⊢
  subst offers
  have only := back.only
  obtain ⟨d, hd⟩ : ∃ d : Call, d =
    { c with timer := none, channel := some ch, offers := c.offers.map Offer.diverted } := ⟨_, rfl⟩
  have empty : ((w.setCall r d).paths ch.riser).queue = [] := by
    have path : (w.setCall r d).paths ch.riser = s.paths ch.riser := State.paths_congr only.psw _
    rw [path, queue]
  have freed : (w.setCall r d).releaseChannel ch = (w.setCall r d).setHolder ch none := by
    unfold State.releaseChannel
    rw [empty]
    rfl
  rw [← hd, freed]
  refine ⟨(w.setCall r d).setHolder ch none, ⟨⟨d, ?_⟩, fun j ne => ?_, ?_, ?_, ?_, ?_, ?_, ?_, ?_⟩, by rw [hd]; rfl⟩
  · exact setCall_live ((State.call?_congr only.ccu r).trans live) d
  · refine (setCall_other d ne).trans ?_
    rw [State.slot_congr only.ccu]
    exact expired_slot s r c e ne
  · show w.ccu.times = _
    rw [only.ccu]
    rfl
  · exact only.clock
  · have psw : w.psw = s.psw := only.psw
    show (State.setHolder w ch none).psw = _
    simp only [State.setHolder, State.setPaths, State.paths, psw]
  · exact only.ports
  · exact only.hlp
  · exact only.ntu
  · have given := back.given
    rw [List.nil_append] at given
    exact given

/-! ## Where a diverted call comes to rest -/

section
variable {s v w t : State} {r : Ref} {c : Call} {ch : Channel} {now : Nat}

theorem Diverting.hold (h : Diverting s v r c ch now) (p : PortIx) : v.hold p = s.hold p :=
  State.hold_congr h.psw p

theorem Diverting.eligible (h : Diverting s v r c ch now) (p : PortIx) :
    v.eligible p = s.eligible p :=
  eligible_congr (by rw [State.port_congr h.ports]; exact .refl _) (h.hold p)

/-- What a divert leaves, wherever the call comes to rest. -/
structure DivertLeft (s t : State) (r : Ref) (c : Call) (ch : Channel) (now : Nat) : Prop where
  clock  : t.clock = now
  others : ∀ j, j ≠ r.slot → (s.slot j).SameButSending (t.slot j)
  path   : t.paths ch.riser = (s.paths ch.riser).setHolder ch.side none
  paths  : ∀ x, x ≠ ch.riser → t.paths x = s.paths x
  joins  : t.psw.joins = s.psw.joins
  given  : FramesGiven (s.riser ch.riser) (t.riser ch.riser) now r c.queuedStations (c.divertFrames r)
  raises : Raises s t []

theorem Diverting.left (h : Diverting s v r c ch now) (st : Settled w t)
    (slots : ∀ j, j ≠ r.slot → w.slot j = v.slot j) (clock : w.clock = v.clock)
    (paths : w.psw.risers = v.psw.risers) (joins : w.psw.joins = v.psw.joins)
    (risers : w.risers = v.risers) (hlp : w.hlp = v.hlp) (ntu : w.ntu = v.ntu) :
    DivertLeft s t r c ch now := by
  have path : ∀ x, t.paths x = (s.setHolder ch none).paths x := fun x => by
    simp only [State.paths, st.psw, paths, h.psw]
  refine ⟨st.clock.trans (clock.trans h.clock), fun j ne => ?_, ?_, fun x ne => ?_, ?_, ?_,
    .of_settled (by rw [hlp, h.hlp]) (ntu.trans h.ntu) st⟩
  · rw [← h.others j ne, ← slots j ne]
    exact st.slots j
  · rw [path, State.paths_setHolder, if_pos rfl]
  · rw [path, State.paths_setHolder, if_neg (Ne.symm ne)]
  · rw [st.psw, joins, h.psw]
    rfl
  · refine h.given.framesGiven ?_ fun x hx => ?_
    · rw [← State.riser_congr risers]
      exact st.risers _
    · obtain ⟨o, -, rfl⟩ := List.mem_map.1 hx
      rfl

end

/-- R22: a visitor that has not visited the concierge, whose flat diverts, with a desk in the building. -/
theorem expired_diverts {s : State} {r : Ref} {c : Call} {i : FlatIx} (e : Nat)
    (kind : c.kind = .visitor) (fresh : c.deskVisited = false) (flat : c.flat = some i)
    (divert : (s.flat i).divert = true) (desk : ∃ q, (s.port q).function = .concierge) :
    (s.expired r c e).diverts { c with timer := none } = true := by
  obtain ⟨q, hq⟩ := desk
  have has : (s.expired r c e).hasDesk = true := List.any_eq_true.2
    ⟨q, List.mem_finRange q, decide_eq_true (show ((s.expired r c e).port q).function = _ from hq)⟩
  have flat' : ((s.expired r c e).flat i).divert = true := divert
  unfold State.diverts
  simp [kind, fresh, flat, flat', has]

/-- Settles O46: the divert, and the two ways of a call that requests a desk. -/
theorem unansweredVisitorDiverts : Obligations.UnansweredVisitorDiverts := by
  intro r c i ch e s hc kind fresh flat divert timer channel riser queue on due room held nodup function
    now took diverted left
  have home : s.riserOfCall c = some ch.riser := by
    unfold State.riserOfCall
    rw [flat, riser]
    rfl
  obtain ⟨v, h, same⟩ := divert_diverting (e := e) hc channel home queue ⟨on, due⟩ room held nodup
  obtain ⟨b, live⟩ := h.record
  have none : ∀ o ∈ c.divertedFrom.onConcierge.offers, o.status ≠ .queued := fun o ho => by
    obtain ⟨p, -, rfl⟩ := List.mem_map.1 ho
    exact p.diverted_notQueued
  have run : (∃ q, (s.port q).function = .concierge) → exec (.ringExpiry r) s =
      .next (v.enterConciergeLeg r c.divertedFrom).settle := fun desk => by
    simp only [exec, execRingExpiry]
    rw [onExpiry_runs hc timer, if_pos (expired_diverts e kind fresh flat divert desk), same]
  have rests : ∀ {t : State}, DivertLeft s t r c ch now → left t := fun done =>
    ⟨done.clock, done.others, done.path, done.paths, done.joins, done.given, done.raises⟩
  have port : ∀ p, v.port p = s.port p := State.port_congr h.ports
  refine ⟨fun d el lowest => ?_, fun desk no => ?_⟩
  · obtain ⟨concierge, present, -, -⟩ := eligible_iff.1 el
    have run := run ⟨d, concierge⟩
    rw [enterConciergeLeg_granted ((h.eligible d).trans el)
      (fun q lt => (h.eligible q).trans (lowest q lt))] at run
    have st := settle_settled (v.grantedDesk r c.divertedFrom d)
    have psw := st.psw.trans (congrArg State.psw (grantedDesk_same (s := v)))
    have desk : DeskGranted v (v.grantedDesk r c.divertedFrom d).settle d r
        c.divertedFrom.onConcierge :=
      .of_granted (u := v.setCall r c.divertedFrom.onConcierge) (setCall_live live _)
        (by rw [← concierge, ← port]; rfl) (by rw [← present, ← port]; rfl) rfl rfl rfl rfl rfl
        (fun _ k => k) (fun _ _ _ k => k) none st
    refine ⟨_, run, rests (h.left st (fun _ ne => grantedDesk_other ne) rfl rfl rfl rfl rfl rfl),
      ?_, desk.hold, fun q ne => ?_, ?_, desk.rings, desk.shows,
      desk.origin (by rw [port]; exact function)⟩
    · rw [desk.record, h.clock, h.times]
      rfl
    · rw [← h.hold q]
      simp only [State.hold, psw, Table.read_write_ne _ _ (Ne.symm ne)]
    · rw [psw, h.psw]
      rfl
  · have run := run desk
    rw [enterConciergeLeg_queued fun q => (h.eligible q).trans (no q)] at run
    have st := settle_settled (v.queuedForDesk r c.divertedFrom)
    have psw := st.psw.trans (congrArg State.psw (queuedForDesk_same (s := v)))
    refine ⟨_, run, rests (h.left st (fun _ ne => queuedForDesk_other ne) rfl rfl rfl rfl rfl rfl),
      ?_, fun q => ?_, ?_, ?_⟩
    · obtain ⟨d, hd, like⟩ := st.live (queuedForDesk_live (c := c.divertedFrom) live)
      rw [hd, like.eq none, h.clock, h.times]
      rfl
    · rw [← h.hold q]
      simp only [State.hold, psw]
    · rw [psw, h.psw]
      rfl
    · exact (st.ports _).shows _ (queuedForDesk_origin (s := v) (r := r) (c := c.divertedFrom)
        (by rw [port]; exact function))

end Sys2Proof.Machine
end

