-- ==== Sys2Proof/Proofs/Cancels.lean ====
section
/-!
SUPPORT. CANCEL and CLEAR (O43): the end with no call waiting for what is freed, the channel and the desk that
go to the call that waits for them first, and the frames that are discarded (R20, R56, R62, R143).
-/

namespace Sys2Proof.Machine

/-! ## Whose frame it is -/

theorem callAt_eq_some {s : State} {p : PortIx} {role : Role} {r : Ref} {c : Call} :
    s.callAt p = some (role, r, c) ↔
      s.hold p = some { call := r, role := role } ∧ s.call? r = some c := by
  refine ⟨KeptByCalls.callAt_some, fun ⟨held, live⟩ => ?_⟩
  unfold State.callAt
  rw [held]
  dsimp only
  rw [live]

theorem panelFrameEnd_callAt (s : State) (p : PortIx) : (s.panelFrameEnd p).callAt p = s.callAt p := rfl

/-- An end is the same when a frame of a panel has just been received. -/
theorem panelFrameEnd_endsAlike (s : State) (p : PortIx) (r : Ref) (c : Call) :
    EndsAlike s (s.panelFrameEnd p) r c where
  others _ _ := .refl _
  holds _ := rfl
  paths _ := ⟨fun _ => rfl, fun _ => rfl, rfl⟩
  joins := rfl
  desks := rfl
  ports := panelFrameEnd_settings s p
  home _ h := ⟨h, .refl _⟩
  tx := rfl
  ntu := rfl

/-- R20: the cause of the caller's cancel. -/
def Call.cancelReason (c : Call) : EndReason :=
  if c.state = .connected then .clearedCaller else .cancelled

theorem Call.cancelReason_notFailure (c : Call) : c.cancelReason.isRiserFailure = false := by
  unfold Call.cancelReason
  split <;> rfl

section
variable {s : State} {p : PortIx} {r : Ref} {c : Call}

/-- R20: a CANCEL from the port that is the origin of a call. -/
theorem panelCancel_run (present : (s.port p).present = true) (function : (s.port p).function = .entrance)
    (held : s.hold p = some { call := r, role := .origin }) (live : s.call? r = some c) :
    exec (.panelCancel p) s = .next ((s.panelFrameEnd p).endCall r c.cancelReason).settle := by
  simp only [exec, execPanelCancel]
  rw [onPanelFrame_taken present function, panelFrameEnd_callAt, callAt_eq_some.2 ⟨held, live⟩]
  rfl

/-- R20: a CLEAR from the desk set that is the origin of a call. -/
theorem deskClear_origin (present : (s.port p).present = true)
    (function : (s.port p).function = .concierge)
    (held : s.hold p = some { call := r, role := .origin }) (live : s.call? r = some c) :
    exec (.deskClear p) s = .next ((s.panelFrameEnd p).endCall r c.cancelReason).settle := by
  simp only [exec, execDeskClear]
  rw [onPanelFrame_taken present function, panelFrameEnd_callAt, callAt_eq_some.2 ⟨held, live⟩]
  rfl

/-- R143: a CLEAR from the desk a call is CONNECTED to. -/
theorem deskClear_desk (present : (s.port p).present = true)
    (function : (s.port p).function = .concierge)
    (held : s.hold p = some { call := r, role := .desk }) (live : s.call? r = some c)
    (leg : c.leg = .concierge) (state : c.state = .connected) :
    exec (.deskClear p) s = .next ((s.panelFrameEnd p).endCall r .clearedDesk).settle := by
  simp only [exec, execDeskClear]
  rw [onPanelFrame_taken present function, panelFrameEnd_callAt, callAt_eq_some.2 ⟨held, live⟩]
  dsimp only
  rw [if_pos ⟨leg, state⟩]

/-- R20, R28, R143: an end that a panel asks for, with no call waiting for what is freed. -/
theorem panel_ends {cmd : Instr} {why : EndReason} (live : s.call? r = some c) (nw : s.NoWaiters r c)
    (run : exec cmd s = .next ((s.panelFrameEnd p).endCall r why).settle) :
    ∃ t, exec cmd s = .next t ∧ Ended s t r c why :=
  ⟨_, run, endCall_ended (panelFrameEnd_endsAlike s p r c) live nw (.refl _) (settle_settled _)⟩

end

/-! ## What is discarded -/

/-- R20, R126, R127, R143: the CANCEL and CLEAR of a port that has no call to end. -/
theorem cancelAndClear_discarded (p : PortIx) (s : State) :
    let clear : State := { s with ports := s.ports.write p { s.port p with receiving := none } }
    let noCaller := ∀ r, s.hold p = some { call := r, role := .origin } → s.call? r = none
    let noDesk := ∀ r c, s.hold p = some { call := r, role := .desk } → s.call? r = some c →
      ¬ (c.leg = .concierge ∧ c.state = .connected)
    ((s.port p).present = true → (s.port p).function = .entrance → noCaller →
      ∃ t, exec (.panelCancel p) s = .next t ∧ Settled clear t) ∧
    ((s.port p).present = true → (s.port p).function = .concierge → noCaller → noDesk →
      ∃ t, exec (.deskClear p) s = .next t ∧ Settled clear t) ∧
    ((s.port p).present = false ∨ (s.port p).function ≠ .entrance →
      exec (.panelCancel p) s = .next clear) ∧
    ((s.port p).present = false ∨ (s.port p).function ≠ .concierge →
      exec (.deskClear p) s = .next clear) := by
  intro clear noCaller noDesk
  have silent : noCaller → ∀ r c, s.callAt p ≠ some (.origin, r, c) := fun no r c h => by
    obtain ⟨held, live⟩ := callAt_eq_some.1 h
    rw [no r held] at live
    cases live
  refine ⟨fun present function no => ⟨_, ?_, settle_settled _⟩,
    fun present function no nd => ⟨_, ?_, settle_settled _⟩, fun h => ?_, fun h => ?_⟩
  · simp only [exec, execPanelCancel]
    rw [onPanelFrame_taken present function, panelFrameEnd_callAt]
    split
    · next r c h => exact absurd h (silent no r c)
    · rfl
  · simp only [exec, execDeskClear]
    rw [onPanelFrame_taken present function, panelFrameEnd_callAt]
    split
    · next r c h =>
      obtain ⟨held, live⟩ := callAt_eq_some.1 h
      rw [if_neg (nd r c held live)]
      rfl
    · next r c h => exact absurd h (silent no r c)
    · rfl
  · simp only [exec, execPanelCancel]
    rw [onPanelFrame_discarded h]
    rfl
  · simp only [exec, execDeskClear]
    rw [onPanelFrame_discarded h]
    rfl

end Sys2Proof.Machine
end

