-- ==== Sys2Proof/Proofs/ChannelsHandedOn.lean ====
section
/-!
SUPPORT. O43: the calls that are granted the channel that a CANCEL frees and the desk that a CLEAR frees.
-/

namespace Sys2Proof.Machine

/-- A slot that is FREE stays as it is when the free lines are looked at. -/
theorem Settled.freeSlot {s t : State} (k : Settled s t) {j : SlotIx} {x : Slot} (h : s.slot j = x)
    (free : x.call = none) : t.slot j = x := by
  have e := k.slots j
  rw [h] at e
  obtain ⟨g, l, d⟩ := x
  obtain rfl : d = none := free
  obtain ⟨gen, last, call⟩ := e
  generalize t.slot j = z at gen last call ⊢
  obtain ⟨g', l', d'⟩ := z
  cases d' with
  | none => subst gen; subst last; rfl
  | some d => exact call.elim

/-! ## The frames at an end with no offer QUEUED -/

/-- R28: what the end of a call with no offer QUEUED gives its riser. -/
theorem takeBackAtEnd_gives_out {s : State} {x : RiserIx} {r : Ref} {c : Call} {why : EndReason}
    (ok : (s.riser x).Takes) (none : ∀ o ∈ c.offers, o.status ≠ .queued)
    (room : (s.riser x).queue.length + c.offers.length ≤ 32) :
    Gives (s.riser x) x r [] (c.cancelsAtEnd r why) s
      (s.takeBackAtEnd x r why c.answerer c.offers) := by
  have short := List.length_filterMap_le (Offer.endFrame r why c.answerer) c.offers
  have all := (Gives.refl x r s).adviseEach ok (l := c.offers)
    (fun u o _ => cancelAtEnd_eq x r why c.answerer u o) (by
      show (s.riser x).queue.length + 0 + _ ≤ 32
      omega)
  rw [List.nil_append, ← Call.cancelsAtEnd_eq] at all
  unfold State.takeBackAtEnd
  rw [eachOffer_same fun u o ho => withdrawOffer_other (none o ho)]
  exact all

/-! ## Ends that grant something -/

theorem endRecord_slot_self (s : State) (r : Ref) (c : Call) (why : EndReason) :
    (s.endRecord r c why).slot r.slot =
      { generation := r.gen, lastEnd := some why, call := none } := by
  rw [endRecord_raised, State.slot_setSlot, if_pos rfl]

theorem endRecord_slot_other (s : State) (r : Ref) (c : Call) (why : EndReason) {j : SlotIx}
    (ne : j ≠ r.slot) : (s.endRecord r c why).slot j = s.slot j := by
  rw [endRecord_raised, State.slot_setSlot, if_neg (Ne.symm ne)]
  exact State.slot_congr (endRaised_ccu ..) j

/-- Another live call is live after an end. -/
theorem endRecord_live {s : State} {r w : Ref} {c d : Call} (why : EndReason)
    (ne : w.slot ≠ r.slot) (live : s.call? w = some d) : (s.endRecord r c why).call? w = some d := by
  refine (State.call?_eq_some ..).2 ?_
  rw [endRecord_slot_other s r c why ne]
  exact (State.call?_eq_some ..).1 live

/-- R9: a call that passes its checks passes them when another call has ended. -/
theorem endRecord_passes {s : State} {r w : Ref} {c : Call} {why : EndReason} {i : FlatIx}
    (checks : PassesChecks s w i) (off : ((s.endRecord r c why).riser (s.flat i).riser).link.isOff =
      (s.riser (s.flat i).riser).link.isOff) :
    PassesChecks (s.endRecord r c why) w i ∧
      (s.endRecord r c why).stationsToOffer i = s.stationsToOffer i := by
  have flat : (s.endRecord r c why).flat i = s.flat i :=
    State.flat_congr (endRaised_dir s r c why) i
  have stations : (s.endRecord r c why).stationsToOffer i = s.stationsToOffer i := by
    have kept := ((endRecord_moves s r c why).callEventKept.risers (s.flat i).riser).station
    unfold State.stationsToOffer
    simp only [flat, kept]
  refine ⟨⟨fun j e ne he => ?_, by rw [flat]; exact checks.privacy, by rw [flat, off]; exact checks.link,
    by rw [stations]; exact checks.heard⟩, stations⟩
  by_cases at' : j = r.slot
  · rw [at', endRecord_slot_self] at he
    cases he
  · rw [endRecord_slot_other s r c why at'] at he
    exact checks.alone j e ne he

section
variable (s : State) (r : Ref) (c : Call) (why : EndReason)

theorem endRecord_dir : (s.endRecord r c why).dir = s.dir := endRaised_dir s r c why
theorem endRecord_clock : (s.endRecord r c why).clock = s.clock := endRaised_clock s r c why
theorem endRecord_hlp : (s.endRecord r c why).hlp = s.hlp := endRaised_hlp s r c why
theorem endRecord_ntu : (s.endRecord r c why).ntu = (s.emit (c.endEvent r why)).ntu :=
  endRaised_ntu s r c why
theorem endRecord_risers : (s.endRecord r c why).risers = (s.endFrames r c why).risers :=
  endRaised_risers s r c why

end

/-- R28: what the end of a call with no offer QUEUED leaves of its riser. -/
theorem endRecord_given {s : State} {x : RiserIx} {r : Ref} {c : Call} {why : EndReason}
    (home : s.riserOfCall c = some x) (fault : why.isRiserFailure = false) (ok : (s.riser x).Takes)
    (out : ∀ o ∈ c.offers, o.status ≠ .queued)
    (room : (s.riser x).queue.length + c.offers.length ≤ 32) :
    (s.riser x).Given ((s.endRecord r c why).riser x) s.clock r [] (c.cancelsAtEnd r why) := by
  rw [State.riser_congr (endRecord_risers s r c why), endFrames_riser s r c why home fault]
  exact (takeBackAtEnd_gives_out ok out room).given

/-- R11, R56: an end whose channel goes to the call that waits for it first, which passes its checks. -/
theorem endRecord_serves {s : State} {r w : Ref} {c d : Call} {why : EndReason} {i : FlatIx}
    {ch : Channel} {rest : List Ref} (fault : why.isRiserFailure = false) (channel : c.channel = some ch)
    (home : s.riserOfCall c = some ch.riser) (out : ∀ o ∈ c.offers, o.status ≠ .queued)
    (queue : (s.paths ch.riser).queue = w :: rest) (ne : w.slot ≠ r.slot) (waiting : s.call? w = some d)
    (flat : d.flat = some i) (riser : (s.flat i).riser = ch.riser) (checks : PassesChecks s w i)
    (due : (s.riser ch.riser).overrunDue = false)
    (room : (s.riser ch.riser).queue.length + c.offers.length + (s.stationsToOffer i).length ≤ 32) :
    ∃ z, (s.endRecord r c why).freeChannel c = z ∧
      Offered ((s.endRecord r c why).setChannelQueue ch.riser rest) z w d i ch ∧
      (s.endRecord r c why).stationsToOffer i = s.stationsToOffer i := by
  have ok : (s.riser ch.riser).Takes := ⟨riser ▸ checks.link, due⟩
  have given := endRecord_given (r := r) home fault ok out (by omega)
  obtain ⟨passes, stations⟩ := endRecord_passes (r := r) (c := c) (why := why) checks
    (by rw [riser]; exact given.isOff)
  have live := endRecord_live (c := c) why ne waiting
  have psw := endRecord_psw_queues s r c why
  have home' : ((s.endRecord r c why).flat i).riser = ch.riser := by
    rw [State.flat_congr (endRecord_dir s r c why)]
    exact riser
  have short := List.length_filterMap_le (Offer.endFrame r why c.answerer) c.offers
  have places : ((s.endRecord r c why).riser ch.riser).queue.length +
      ((s.endRecord r c why).stationsToOffer i).length ≤ 32 := by
    rw [given.length, stations, Call.cancelsAtEnd_eq, List.length_map]
    show (s.riser ch.riser).queue.length + _ + _ ≤ 32
    omega
  have due' := given.overrunDue.trans due
  generalize s.endRecord r c why = v at *
  have line : (v.paths ch.riser).queue = w :: rest := by
    simp only [State.paths, psw]
    exact queue
  have alike : ChecksAlike v (v.setChannelQueue ch.riser rest) w i :=
    .of_blocks (fun _ _ => rfl) rfl rfl
  obtain ⟨z, granted, offered⟩ := grantChannel_offered (u := v.setChannelQueue ch.riser rest) (c := d)
    live flat home' (entryCheck_none_iff.1 (alike.entryCheck.trans (entryCheck_none_iff.2 passes)))
    due' places
  refine ⟨z, ?_, offered, stations⟩
  have n : (v.paths ch.riser).queue.length = rest.length + 1 := by rw [line]; rfl
  unfold State.freeChannel
  rw [channel]
  dsimp only
  rw [State.releaseChannel, n]
  exact serveChannel_offers line live granted

/-- R11, R56: the CANCEL of a call whose channel goes to the call that waits for it first. -/
theorem cancel_grants {s : State} {p : PortIx} {r w : Ref} {c d : Call} {i : FlatIx} {ch : Channel}
    {rest : List Ref} (present : (s.port p).present = true) (function : (s.port p).function = .entrance)
    (held : s.hold p = some { call := r, role := .origin }) (live : s.call? r = some c)
    (origin : c.origin = p) (desk : c.deskPort = none) (channel : c.channel = some ch)
    (home : s.riserOfCall c = some ch.riser) (out : ∀ o ∈ c.offers, o.status ≠ .queued)
    (desks : s.psw.deskQueue = []) (queue : (s.paths ch.riser).queue = w :: rest)
    (ne : w.slot ≠ r.slot) (waiting : s.call? w = some d) (flat : d.flat = some i)
    (riser : (s.flat i).riser = ch.riser) (checks : PassesChecks s w i)
    (due : (s.riser ch.riser).overrunDue = false)
    (room : (s.riser ch.riser).queue.length + c.offers.length + (s.stationsToOffer i).length ≤ 32) :
    ∃ t, exec (.panelCancel p) s = .next t ∧
      t.slot r.slot = { generation := r.gen, lastEnd := some c.cancelReason, call := none } ∧
      t.hold p = none ∧
      t.paths ch.riser =
        ({ s.paths ch.riser with queue := rest.filter (fun q => q ≠ r) } : RiserPaths).setHolder
          ch.side (some w) ∧
      (∃ os, t.call? w = some { d with state := .offering, waitingFor := none, timer := none
                                       channel := some ch, offers := os } ∧
        os.map (fun o => o.station) = s.stationsToOffer i) ∧
      FramesGiven (s.riser ch.riser) (t.riser ch.riser) t.clock r [] (c.cancelsAtEnd r c.cancelReason ++
        (s.stationsToOffer i).map (fun a => .solicited (.offer a w d.kind d.origin))) ∧
      Raises s t [.callEnded r c.kind c.origin c.code c.flat c.answerer c.cancelReason] := by
  have fault := c.cancelReason_notFailure
  have run := panelCancel_run present function held live
  have checks' : PassesChecks (s.panelFrameEnd p) w i :=
    entryCheck_none_iff.1 ((ChecksAlike.of_blocks (s := s) (t := s.panelFrameEnd p)
      (fun _ _ => rfl) rfl rfl).entryCheck.trans (entryCheck_none_iff.2 checks))
  obtain ⟨z, freed, offered, stations⟩ := endRecord_serves (s := s.panelFrameEnd p) (r := r) fault channel
    home out queue ne waiting flat riser checks' due room
  have given := endRecord_given (s := s.panelFrameEnd p) (r := r) home fault
    ⟨riser ▸ checks.link, due⟩ out (by
      show (s.riser ch.riser).queue.length + _ ≤ 32
      omega)
  have psw := endRecord_psw_queues (s.panelFrameEnd p) r c c.cancelReason
  have clock := endRecord_clock (s.panelFrameEnd p) r c c.cancelReason
  have hlp := endRecord_hlp (s.panelFrameEnd p) r c c.cancelReason
  have ntu := (endRecord_ntu (s.panelFrameEnd p) r c c.cancelReason).trans
    (emit_ntu_congr (s := s) (t := s.panelFrameEnd p) rfl _)
  have slot := endRecord_slot_self (s.panelFrameEnd p) r c c.cancelReason
  have live' := endRecord_live (s := s.panelFrameEnd p) (c := c) c.cancelReason ne waiting
  rw [endCall_live (s := s.panelFrameEnd p) live, freed] at run
  generalize (s.panelFrameEnd p).endRecord r c c.cancelReason = v at *
  have gone : z.slot r.slot = { generation := r.gen, lastEnd := some c.cancelReason, call := none } :=
    (offered.others (Ne.symm ne)).trans slot
  have ended : z.releasePorts r c = (z.setHold p none).leaveQueues r := by
    rw [releasePorts_alone c (by simp [State.call?, gone]) (by
      rw [offered.psw]
      show ∀ q ∈ v.psw.deskQueue, q = r
      rw [psw]
      show ∀ q ∈ s.psw.deskQueue, q = r
      simp [desks])]
    unfold State.clearDesk
    rw [desk, origin]
  rw [ended] at run
  have st := settle_settled ((z.setHold p none).leaveQueues r)
  refine ⟨_, run, st.freeSlot gone rfl, ?_, ?_, ?_, ?_, ?_⟩
  · rw [State.hold_congr st.psw]
    show (z.setHold p none).hold p = none
    rw [State.hold_setHold, if_pos rfl]
  · have path : z.paths ch.riser =
        ({ s.paths ch.riser with queue := rest } : RiserPaths).setHolder ch.side (some w) := by
      rw [State.paths_congr offered.psw, State.paths_setHolder, if_pos rfl,
        State.paths_setChannelQueue, if_pos rfl]
      simp only [State.paths, psw]
      rfl
    rw [State.paths_congr st.psw, State.paths_leaveQueues]
    show ({ z.paths ch.riser with queue := _ } : RiserPaths) = _
    rw [show (z.setHold p none).paths ch.riser = z.paths ch.riser from rfl, path]
    cases ch.side <;> rfl
  · obtain ⟨e, he, same⟩ := st.live (s := (z.setHold p none).leaveQueues r) (offered.live live')
    obtain ⟨rec, os, -⟩ := offering_sent same
    refine ⟨e.offers, ?_, os.trans stations⟩
    rw [he, rec]
    rfl
  · have now : ((z.setHold p none).leaveQueues r).settle.clock = v.clock := st.clock.trans offered.clock
    rw [now]
    have all := offered.given (clock ▸ given)
    rw [show (v.setChannelQueue ch.riser rest).stationsToOffer i = s.stationsToOffer i from stations] at all
    refine all.framesGiven (st.risers _) fun x hx => ?_
    rcases List.mem_append.1 hx with hx | hx
    · exact endsCancels_frames c r _ x hx
    · exact d.offerFrames_frames w _ x hx
  · refine .of_settled (u := (z.setHold p none).leaveQueues r) ?_ ?_ st
    · show z.hlp.tx = _
      rw [offered.hlp]
      exact congrArg Hlp.tx hlp
    · show z.ntu = _
      rw [offered.ntu]
      exact ntu

end Sys2Proof.Machine
end

