-- ==== Sys2Proof/Proofs/DesksHandedOn.lean ====
section
/-!
SUPPORT. O43: a desk that is released (R149), and the CLEAR whose desk goes to the call that waits for one
first (R62).
-/

namespace Sys2Proof.Machine

/-! ## A desk that is released -/

/-- R149: a desk port that has fallen silent, shows READY and is FREE. -/
def State.unplug (s : State) (p : PortIx) : State := ((s.ring p .off).display p .ready).setHold p none

theorem unplug_port (s : State) (p q : PortIx) : (s.unplug p).port q =
    if p = q then Port.place .ready (Port.placeRing .off (s.port q)) else s.port q := by
  have held : ∀ t : State, (t.setHold p none).port q = t.port q := fun _ => rfl
  rw [State.unplug, held, State.port_display, State.port_ring, if_pos rfl, State.port_ring]
  split
  · next e => rw [e]
  · rfl

theorem unplug_settings (s : State) (p q : PortIx) : (s.port q).SameSettings ((s.unplug p).port q) := by
  rw [unplug_port]
  split
  · exact (Port.placeRing_settings ..).trans (Port.place_settings ..)
  · exact .refl _

theorem unplug_eligible {s : State} {p : PortIx} (function : (s.port p).function = .concierge)
    (present : (s.port p).present = true) (check : (s.port p).check = false) :
    (s.unplug p).eligible p = true := by
  obtain ⟨f, -, pr, ch⟩ := unplug_settings s p p
  refine eligible_iff.2 ⟨f.trans function, pr.trans present, ch.trans check, ?_⟩
  exact (State.hold_setHold ..).trans (if_pos rfl)

/-- R149: a desk is released with no call waiting for one. -/
theorem releaseDesk_alone {s : State} (p : PortIx) (empty : s.psw.deskQueue = []) :
    s.releaseDesk p = s.unplug p := by
  have served : s.releaseDesk p = (s.unplug p).serveDesk p := rfl
  have none : (s.unplug p).psw.deskQueue = [] := empty
  rw [served, State.serveDesk, none]
  split <;> rfl

/-- R62, R149: a desk is released and goes to the call that waits for one first. -/
theorem releaseDesk_grants {s : State} {p : PortIx} {w : Ref} {d : Call} {rest : List Ref}
    (function : (s.port p).function = .concierge) (present : (s.port p).present = true)
    (check : (s.port p).check = false) (queue : s.psw.deskQueue = w :: rest)
    (live : s.call? w = some d) :
    s.releaseDesk p = ((s.unplug p).setDeskQueue rest).grantDesk w d p :=
  serveDesk_grants (s := s.unplug p) (unplug_eligible function present check) queue live

/-! ## O43 -/

theorem endRecord_settings (s : State) (r : Ref) (c : Call) (why : EndReason) (q : PortIx) :
    (s.port q).SameSettings ((s.endRecord r c why).port q) :=
  (endRecord_moves s r c why).callEventKept.ports q

/-- R28: the origin of a call shows what its end gives. -/
theorem endRecord_shows {s : State} {r : Ref} {c : Call} (why : EndReason)
    (on : (s.port c.origin).function ≠ .off) :
    ((s.endRecord r c why).port c.origin).Shows why.display := by
  rw [endRecord_raised]
  show ((s.endRaised r c why).port c.origin).Shows why.display
  have placed := Port.place_shows (d := why.display) on
  rcases endRaised_port s r c why c.origin with e | e <;> rw [e, if_pos rfl]
  · exact placed
  · exact placed.takeAlert _

/-- R62, R143, R149: the CLEAR of a call whose desk goes to the call that waits for one first. -/
theorem clear_grants {s : State} {p : PortIx} {r w : Ref} {c d : Call} {rest : List Ref}
    (present : (s.port p).present = true) (function : (s.port p).function = .concierge)
    (check : (s.port p).check = false) (held : s.hold p = some { call := r, role := .desk })
    (live : s.call? r = some c) (leg : c.leg = .concierge) (state : c.state = .connected)
    (desk : c.deskPort = some p) (channel : c.channel = none)
    (entrance : (s.port c.origin).function = .entrance) (queue : s.psw.deskQueue = w :: rest)
    (ne : w.slot ≠ r.slot) (waiting : s.call? w = some d) (apart : d.origin ≠ c.origin)
    (none : ∀ o ∈ d.offers, o.status ≠ .queued) :
    ∃ t, exec (.deskClear p) s = .next t ∧
      t.slot r.slot = { generation := r.gen, lastEnd := some .clearedDesk, call := Option.none } ∧
      t.hold c.origin = Option.none ∧ (t.port c.origin).Shows .ready ∧ DeskGranted s t p w d ∧
      t.psw.deskQueue = rest.filter (fun q => q ≠ r) ∧
      Raises s t [.callEnded r c.kind c.origin c.code c.flat c.answerer .clearedDesk] := by
  have run := deskClear_desk present function held live leg state
  have other : p ≠ c.origin := fun e => by
    rw [← e, function] at entrance
    cases entrance
  rw [endCall_live (s := s.panelFrameEnd p) live] at run
  have settings : ∀ q, (s.port q).SameSettings
      (((s.panelFrameEnd p).endRecord r c .clearedDesk).port q) := fun q =>
    (panelFrameEnd_settings s p q).trans (endRecord_settings ..)
  have psw := endRecord_psw_queues (s.panelFrameEnd p) r c .clearedDesk
  have hlp := endRecord_hlp (s.panelFrameEnd p) r c .clearedDesk
  have clock := endRecord_clock (s.panelFrameEnd p) r c .clearedDesk
  have times : ((s.panelFrameEnd p).endRecord r c .clearedDesk).ccu.times = s.ccu.times :=
    (endRecord_moves (s.panelFrameEnd p) r c .clearedDesk).kept.times
  have ntu := (endRecord_ntu (s.panelFrameEnd p) r c .clearedDesk).trans
    (emit_ntu_congr (s := s) (t := s.panelFrameEnd p) rfl _)
  have slot := endRecord_slot_self (s.panelFrameEnd p) r c .clearedDesk
  have live' := endRecord_live (s := s.panelFrameEnd p) (c := c) .clearedDesk ne waiting
  have shown := endRecord_shows (s := s.panelFrameEnd p) (r := r) (c := c) .clearedDesk (by
    rw [(panelFrameEnd_settings s p c.origin).1, entrance]
    simp)
  generalize (s.panelFrameEnd p).endRecord r c .clearedDesk = v at *
  obtain ⟨f, -, pr, ch⟩ := settings p
  have released : v.freeDesk c = ((v.unplug p).setDeskQueue rest).grantDesk w d p := by
    unfold State.freeDesk
    rw [desk]
    exact releaseDesk_grants (f.trans function) (pr.trans present) (ch.trans check)
      (by rw [psw]; exact queue) live'
  obtain ⟨x, hx⟩ : ∃ x : State, x = (v.unplug p).setDeskQueue rest := ⟨_, rfl⟩
  have entrance' : ((x.grantDesk w d p).port c.origin).function ≠ .concierge := by
    rw [grantDesk_function, hx]
    show ((v.unplug p).port c.origin).function ≠ .concierge
    rw [(unplug_settings v p c.origin).1, (settings c.origin).1, entrance]
    simp
  have ended : (v.freeChannel c).releasePorts r c =
      ((x.grantDesk w d p).setHold c.origin Option.none).leaveQueues r := by
    have same : v.freeChannel c = v := by
      unfold State.freeChannel
      rw [channel]
    rw [same, releasePorts_eq, released, ← hx, State.releasePort]
    exact congrArg (State.leaveQueues · r) (serveDesk_noDesk entrance')
  rw [ended] at run
  have st := settle_settled (((x.grantDesk w d p).setHold c.origin Option.none).leaveQueues r)
  have liveX : x.call? w = some d := by rw [hx]; exact live'
  have port : ∀ q, (x.port q).function = (s.port q).function ∧ (x.port q).present = (s.port q).present :=
    fun q => by
      obtain ⟨f, -, pr, -⟩ := (settings q).trans (unplug_settings v p q)
      rw [hx]
      exact ⟨f, pr⟩
  refine ⟨_, run, st.freeSlot ?_ rfl, ?_, ?_, ?_, ?_, ?_⟩
  · show (x.grantDesk w d p).slot r.slot = _
    rw [grantDesk_other d p (Ne.symm ne), hx]
    exact slot
  · rw [State.hold_congr st.psw]
    exact (State.hold_setHold ..).trans (if_pos rfl)
  · refine (st.ports _).shows _ ?_
    have untouched : (x.grantDesk w d p).port c.origin = v.port c.origin := by
      rw [grantDesk_port, if_neg apart, if_neg other, hx]
      exact (unplug_port v p c.origin).trans (if_neg other)
    exact Eq.mpr (congrArg (Port.Shows · _) untouched) shown
  · refine .of_granted (u := x)
      (w := ((x.grantDesk w d p).setHold c.origin Option.none).leaveQueues r) liveX ((port p).1.trans function) ((port p).2.trans present)
      (port d.origin).1 (by rw [hx]; exact clock) (by rw [hx]; exact times) ?_ rfl (fun _ k => k)
      (fun _ _ _ k => k) none st
    exact (State.hold_setHold (x.grantDesk w d p) ..).trans (if_neg (Ne.symm other))
  · rw [st.psw, hx]
    rfl
  · refine .of_settled (u := ((x.grantDesk w d p).setHold c.origin Option.none).leaveQueues r) ?_ ?_ st
    · have same : x.hlp = v.hlp := by rw [hx]; rfl
      exact congrArg Hlp.tx (same.trans hlp)
    · have same : x.ntu = v.ntu := by rw [hx]; rfl
      have desk' : (x.grantDesk w d p).ntu = x.ntu := rfl
      have all : ((((x.grantDesk w d p).setHold c.origin Option.none).leaveQueues r)).ntu =
          (x.grantDesk w d p).ntu := rfl
      refine all.trans (desk'.trans (same.trans ?_))
      exact ntu

/-- Settles O43: the ends that panels and desk sets ask for, the two grants, and what is discarded. -/
theorem cancelAndClearEndTheCall : Obligations.CancelAndClearEndTheCall := by
  refine ⟨fun p r c s present live nw => ⟨fun function held => ?_, fun function held => ?_,
    fun function held leg state => ?_⟩, ?_, ?_, cancelAndClear_discarded⟩
  · exact panel_ends live nw (panelCancel_run present function held live)
  · exact panel_ends live nw (deskClear_origin present function held live)
  · exact panel_ends live nw (deskClear_desk present function held live leg state)
  · intro p r w c d i ch rest s present function held live origin desk channel home out desks queue ne
      waiting _ flat riser checks due room
    exact cancel_grants present function held live origin desk channel home out desks queue ne waiting flat
      riser checks due room
  · intro p r w c d rest s present function check held live leg state desk channel entrance queue ne
      waiting apart none
    exact clear_grants present function check held live leg state desk channel entrance queue ne waiting
      apart none

end Sys2Proof.Machine
end

