-- ==== Sys2Proof/Proofs/Forwards.lean ====
section
/-!
SUPPORT. FORWARD (R63, R64, R145, R146): O42.
-/

namespace Sys2Proof.Machine

/-! ## The state in which a forwarded call tries its flat -/

/-- R145: a call that has left its desk, its record on its FLAT leg, in a state whose directory, risers,
channels and clock are as they were. -/
structure Forwarding (s v : State) (r : Ref) (c : Call) (i : FlatIx) : Prop where
  record : v.call? r = some c.forwarded
  checks : ChecksAlike s v r i
  times  : v.ccu.times = s.ccu.times
  paths  : v.psw.risers = s.psw.risers
  joins  : v.psw.joins = s.psw.joins.filter fun j => j.call ≠ r
  dir    : v.dir = s.dir
  risers : v.risers = s.risers
  clock  : v.clock = s.clock
  hlp    : v.hlp = s.hlp
  ntu    : v.ntu = s.ntu
  ports  : ∀ q, (s.port q).SameSettings (v.port q)

/-- R145: the desk set once the forwarded call has left it. -/
def State.leftDesk (s : State) (p : PortIx) (r : Ref) (c : Call) : State :=
  (((s.panelFrameEnd p).setCall r c.unplugged).removeJoin r).unplug p

/-- The state in which the desk of a forwarded call has been granted to a call that waits for one. -/
def State.handedOn (s : State) (p : PortIx) (r w : Ref) (c d : Call) (rest : List Ref) : State :=
  ((s.leftDesk p r c).setDeskQueue rest).grantDesk w d p

section
variable {s : State} {p : PortIx} {r w : Ref} {c d : Call} {i : FlatIx} {rest : List Ref}

theorem leftDesk_settings (q : PortIx) : (s.port q).SameSettings ((s.leftDesk p r c).port q) :=
  (panelFrameEnd_settings s p q).trans
    (unplug_settings (((s.panelFrameEnd p).setCall r c.unplugged).removeJoin r) p q)

theorem leftDesk_dir : (s.leftDesk p r c).dir = s.dir := by
  simp [State.leftDesk, State.unplug, State.panelFrameEnd]
theorem leftDesk_risers : (s.leftDesk p r c).risers = s.risers := by
  simp [State.leftDesk, State.unplug, State.panelFrameEnd]
theorem leftDesk_clock : (s.leftDesk p r c).clock = s.clock := by
  simp [State.leftDesk, State.unplug, State.panelFrameEnd]
theorem leftDesk_hlp : (s.leftDesk p r c).hlp = s.hlp := by
  simp [State.leftDesk, State.unplug, State.panelFrameEnd]
theorem leftDesk_ntu : (s.leftDesk p r c).ntu = s.ntu := by
  simp [State.leftDesk, State.unplug, State.panelFrameEnd]

theorem setCall_times (s : State) (r : Ref) (c : Call) : (s.setCall r c).ccu.times = s.ccu.times := rfl

theorem leftDesk_psw : (s.leftDesk p r c).psw =
    { s.psw with holds := s.psw.holds.write p none
                 joins := s.psw.joins.filter fun j => j.call ≠ r } := by
  simp [State.leftDesk, State.unplug, State.panelFrameEnd]

theorem leftDesk_times : (s.leftDesk p r c).ccu.times = s.ccu.times := by
  simp [State.leftDesk, State.unplug, State.setCall, State.panelFrameEnd]

theorem leftDesk_other {j : SlotIx} (ne : j ≠ r.slot) : (s.leftDesk p r c).slot j = s.slot j :=
  setCall_other (s := s.panelFrameEnd p) _ ne

theorem leftDesk_live {b : Call} (live : s.call? r = some b) :
    (s.leftDesk p r c).call? r = some c.unplugged :=
  setCall_live (s := s.panelFrameEnd p) live _

theorem call?_of_slot {s t : State} {q : Ref} (h : t.slot q.slot = s.slot q.slot) :
    t.call? q = s.call? q := by
  unfold State.call?
  rw [h]

/-- R145: the forward when no call waits for a desk. -/
theorem forward_alone (empty : s.psw.deskQueue = []) : (s.panelFrameEnd p).forward p r c i =
    ((s.leftDesk p r c).setCall r c.forwarded).enterFlatLeg r c.forwarded i := by
  rw [forward_eq, releaseDesk_alone p (s := ((s.panelFrameEnd p).setCall r c.unplugged).removeJoin r)
    empty]
  rfl

/-- R62, R145: the forward when the desk goes to a call that waits for one. -/
theorem forward_grants (function : (s.port p).function = .concierge)
    (present : (s.port p).present = true) (check : (s.port p).check = false)
    (queue : s.psw.deskQueue = w :: rest) (ne : w.slot ≠ r.slot) (live : s.call? w = some d) :
    (s.panelFrameEnd p).forward p r c i =
      ((s.handedOn p r w c d rest).setCall r c.forwarded).enterFlatLeg r c.forwarded i := by
  obtain ⟨f, -, pr, ch⟩ := panelFrameEnd_settings s p p
  have other : ((s.panelFrameEnd p).setCall r c.unplugged).call? w = some d :=
    (call?_of_slot (s := s) (setCall_other (s := s.panelFrameEnd p) _ ne)).trans live
  rw [forward_eq, releaseDesk_grants (s := ((s.panelFrameEnd p).setCall r c.unplugged).removeJoin r)
    (f.trans function) (pr.trans present) (ch.trans check) queue other]
  rfl

theorem forwarding_alone (live : s.call? r = some c) :
    Forwarding s ((s.leftDesk p r c).setCall r c.forwarded) r c i where
  record := setCall_live (s := s.leftDesk p r c) (leftDesk_live live) c.forwarded
  checks := .of_blocks (fun _ ne => (setCall_other (s := s.leftDesk p r c) c.forwarded ne).trans
    (leftDesk_other (s := s) ne)) ((State.setCall_dir ..).trans leftDesk_dir)
    ((State.setCall_risers ..).trans leftDesk_risers)
  times := rfl
  paths := rfl
  joins := rfl
  dir := (State.setCall_dir ..).trans leftDesk_dir
  risers := (State.setCall_risers ..).trans leftDesk_risers
  clock := (State.setCall_clock ..).trans leftDesk_clock
  hlp := (State.setCall_hlp ..).trans leftDesk_hlp
  ntu := (State.setCall_ntu ..).trans leftDesk_ntu
  ports q := leftDesk_settings (s := s) (p := p) (r := r) (c := c) q

theorem handedOn_dir : (s.handedOn p r w c d rest).dir = s.dir := by
  simp [State.handedOn, State.grantDesk, State.enterState, leftDesk_dir]
theorem handedOn_risers : (s.handedOn p r w c d rest).risers = s.risers := by
  simp [State.handedOn, State.grantDesk, State.enterState, leftDesk_risers]
theorem handedOn_clock : (s.handedOn p r w c d rest).clock = s.clock := by
  simp [State.handedOn, State.grantDesk, State.enterState, leftDesk_clock]
theorem handedOn_hlp : (s.handedOn p r w c d rest).hlp = s.hlp := by
  simp [State.handedOn, State.grantDesk, State.enterState, leftDesk_hlp]
theorem handedOn_ntu : (s.handedOn p r w c d rest).ntu = s.ntu := by
  simp [State.handedOn, State.grantDesk, State.enterState, leftDesk_ntu]

theorem handedOn_psw : (s.handedOn p r w c d rest).psw =
    { s.psw with holds := s.psw.holds.write p (some { call := w, role := .desk })
                 joins := s.psw.joins.filter fun j => j.call ≠ r
                 deskQueue := rest } := by
  simp [State.handedOn, State.grantDesk, State.enterState, leftDesk_psw]

theorem handedOn_times : (s.handedOn p r w c d rest).ccu.times = s.ccu.times := by
  simp [State.handedOn, State.grantDesk, State.enterState, State.setCall, State.leftDesk, State.unplug,
    State.panelFrameEnd]

theorem handedOn_settings (q : PortIx) :
    (s.port q).SameSettings ((s.handedOn p r w c d rest).port q) := by
  have here : (s.port q).SameSettings (((s.leftDesk p r c).setDeskQueue rest).port q) :=
    leftDesk_settings q
  rw [State.handedOn, grantDesk_port]
  split <;> split
  · exact here.trans ((Port.placeRing_settings ..).trans
      ((Port.place_settings ..).trans (Port.place_settings ..)))
  · exact here.trans (Port.place_settings ..)
  · exact here.trans ((Port.placeRing_settings ..).trans (Port.place_settings ..))
  · exact here

theorem handedOn_other {j : SlotIx} (nr : j ≠ r.slot) (nw : j ≠ w.slot) :
    (s.handedOn p r w c d rest).slot j = s.slot j :=
  (grantDesk_other (s := (s.leftDesk p r c).setDeskQueue rest) d p nw).trans
    (leftDesk_other (s := s) nr)

theorem forwarding_grants (live : s.call? r = some c) (ne : w.slot ≠ r.slot)
    (waiting : s.call? w = some d) (leg : d.leg = .concierge) :
    Forwarding s ((s.handedOn p r w c d rest).setCall r c.forwarded) r c i where
  record := by
    refine setCall_live (s := s.handedOn p r w c d rest) (c := c.unplugged) ?_ c.forwarded
    refine (call?_of_slot (s := s.leftDesk p r c) ?_).trans (leftDesk_live live)
    exact grantDesk_other (s := (s.leftDesk p r c).setDeskQueue rest) d p (Ne.symm ne)
  checks := by
    have riser := State.riser_congr ((State.setCall_risers (s.handedOn p r w c d rest) r c.forwarded).trans
      handedOn_risers) (s.flat i).riser
    refine ⟨fun j nr e flat => ?_, State.flat_congr ((State.setCall_dir ..).trans handedOn_dir) i, congrArg (fun x => x.link.isOff) riser,
      congrArg Riser.stations riser⟩
    rw [setCall_other (s := s.handedOn p r w c d rest) c.forwarded nr]
    by_cases nw : j = w.slot
    · subst nw
      have live' : ((s.leftDesk p r c).setDeskQueue rest).call? w = some d :=
        (call?_of_slot (s := s) (leftDesk_other (s := s) ne)).trans waiting
      have at' := ((State.call?_eq_some ..).1 (grantDesk_live d p live')).2
      rw [State.handedOn, at', ((s.call?_eq_some ..).1 waiting).2]
      constructor <;> intro h <;> rw [← Option.some.inj h] at flat
      · exact absurd (leg.symm.trans flat) (by simp)
      · exact absurd (leg.symm.trans flat) (by simp)
    · rw [handedOn_other nr nw]
  times := (setCall_times ..).trans handedOn_times
  paths := by rw [State.setCall_psw, handedOn_psw]
  joins := by rw [State.setCall_psw, handedOn_psw]
  dir := (State.setCall_dir ..).trans handedOn_dir
  risers := (State.setCall_risers ..).trans handedOn_risers
  clock := (State.setCall_clock ..).trans handedOn_clock
  hlp := (State.setCall_hlp ..).trans handedOn_hlp
  ntu := (State.setCall_ntu ..).trans handedOn_ntu
  ports q := by
    rw [State.port_congr (State.setCall_ports ..)]
    exact handedOn_settings q

/-! ## Where it comes to rest -/

variable {v t : State} {ch : Channel}

theorem Forwarding.offering (h : Forwarding s v r c i) (flat : c.flat = some i)
    (m : MayOffer s r i ch) (st : Settled (v.enterFlatLeg r c.forwarded i) t) :
    Offering s t r { c with deskPort := none } i ch := by
  have offered := enterFlatLeg_offered (c := c.forwarded) h.record flat
    (m.congr h.checks h.risers h.paths)
  obtain ⟨record, channel, others, given, shows⟩ := Offering.of_offered offered st h.record flat rfl
    h.paths (by rw [State.riser_congr h.risers]; exact .refl _) h.checks.stationsToOffer (h.ports _).1
  exact ⟨record, channel, others, given, shows⟩

theorem Forwarding.passes (h : Forwarding s v r c i) (checks : PassesChecks s r i) :
    PassesChecks v r i :=
  entryCheck_none_iff.1 (h.checks.entryCheck.trans (entryCheck_none_iff.2 checks))

theorem Forwarding.path (h : Forwarding s v r c i) :
    v.paths (v.flat i).riser = s.paths (s.flat i).riser := by
  rw [h.checks.flat]
  simp only [State.paths, h.paths]

theorem Forwarding.waits (h : Forwarding s v r c i) (flat : c.flat = some i)
    (checks : PassesChecks s r i) (a : (s.paths (s.flat i).riser).holderA ≠ none)
    (b : (s.paths (s.flat i).riser).holderB ≠ none) (out : ∀ o ∈ c.offers, o.status ≠ .queued)
    (st : Settled (v.enterFlatLeg r c.forwarded i) t) :
    WaitsForChannel s t r { c with deskPort := none } i := by
  obtain ⟨record, queued, others, frames, shows⟩ := WaitsForChannel.of_queued (h.passes checks)
    (by rw [h.path]; exact a) (by rw [h.path]; exact b) st h.record flat rfl out h.paths h.dir h.risers
    h.clock h.times (h.ports _).1
  exact ⟨record, queued, others, frames, shows⟩

/-- What a call that tries its flat leaves alone as long as it does not end. -/
structure FlatLegLeft (v w : State) (r : Ref) (c : Call) : Prop where
  slots : ∀ j, j ≠ r.slot → w.slot j = v.slot j
  holds : w.psw.holds = v.psw.holds
  joins : w.psw.joins = v.psw.joins
  desks : w.psw.deskQueue = v.psw.deskQueue
  ports : ∀ q, q ≠ c.origin → w.port q = v.port q
  hlp   : w.hlp = v.hlp
  ntu   : w.ntu = v.ntu

theorem Offered.left {u w : State} (o : Offered u w r c i ch) : FlatLegLeft u w r c where
  slots _ ne := o.others ne
  holds := by rw [o.psw]; rfl
  joins := by rw [o.psw]; rfl
  desks := by rw [o.psw]; rfl
  ports q ne := by rw [State.port_congr o.ports, State.port_display, if_neg (Ne.symm ne)]
  hlp := o.hlp
  ntu := o.ntu

theorem flatLegLeft_queued {u : State} (checks : PassesChecks u r i)
    (a : (u.paths (u.flat i).riser).holderA ≠ none) (b : (u.paths (u.flat i).riser).holderB ≠ none) :
    FlatLegLeft u (u.enterFlatLeg r c i) r c := by
  rw [enterFlatLeg_requests checks, if_neg a, if_neg b]
  refine ⟨fun j ne => ?_, rfl, rfl, rfl, fun q ne => ?_, rfl, rfl⟩
  · exact setCall_other (s := u.setChannelQueue (u.flat i).riser
      ((u.paths (u.flat i).riser).queue ++ [r])) _ ne
  · exact (State.port_display ..).trans (if_neg (Ne.symm ne))

/-- A forwarded call that is granted a channel or waits for one leaves the same. -/
theorem Forwarding.left_of (h : Forwarding s v r c i) (flat : c.flat = some i)
    (goes : (∃ ch, MayOffer s r i ch) ∨ PassesChecks s r i ∧
      (s.paths (s.flat i).riser).holderA ≠ none ∧ (s.paths (s.flat i).riser).holderB ≠ none) :
    FlatLegLeft v (v.enterFlatLeg r c.forwarded i) r c.forwarded := by
  rcases goes with ⟨ch, m⟩ | ⟨checks, a, b⟩
  · exact (enterFlatLeg_offered (c := c.forwarded) h.record flat
      (m.congr h.checks h.risers h.paths)).left
  · exact flatLegLeft_queued (h.passes checks) (by rw [h.path]; exact a) (by rw [h.path]; exact b)

end

end Sys2Proof.Machine
end

