-- ==== Sys2Proof/Proofs/ForwardsAlone.lean ====
section
/-!
SUPPORT. O42: where a forwarded call comes to rest or ends, with and without a call waiting for its desk.
-/

namespace Sys2Proof.Machine

section
variable {s v w t : State} {p : PortIx} {r q : Ref} {c d : Call} {i : FlatIx} {ch : Channel}
  {rest : List Ref} {why : EndReason}

/-! ## What is left with no call waiting for the desk -/

theorem leftDesk_port (x : PortIx) : (s.leftDesk p r c).port x =
    if p = x then Port.place .ready (Port.placeRing .off ((s.panelFrameEnd p).port x))
    else (s.panelFrameEnd p).port x :=
  unplug_port (((s.panelFrameEnd p).setCall r c.unplugged).removeJoin r) p x

/-- R149: the desk set that a forwarded call has left. -/
theorem leftDesk_quiet (function : (s.port p).function = .concierge)
    (present : (s.port p).present = true) :
    ((s.leftDesk p r c).port p).Shows .ready ∧ ((s.leftDesk p r c).port p).Rings .off := by
  obtain ⟨f, -, pr, -⟩ := panelFrameEnd_settings s p p
  rw [leftDesk_port, if_pos rfl]
  refine ⟨Port.place_shows ?_, (Port.placeRing_rings (f.trans function) (pr.trans present)).place _⟩
  rw [Port.placeRing_function, f, function]
  simp

/-- What an end leaves shown and ringing at the ports the call does not hold. -/
theorem endedAlone_keeps {x : PortIx} (other : x ≠ c.origin) (desk : c.deskPort = none) :
    (∀ a, (v.port x).Shows a → ((v.endedAlone r c why).port x).Shows a) ∧
      ∀ a, (v.port x).Rings a → ((v.endedAlone r c why).port x).Rings a := by
  rw [endedAlone_port, if_neg (by simp [desk])]
  rcases endRaised_port v r c why x with e | e <;> rw [e, if_neg (Ne.symm other)]
  · exact ⟨fun _ h => h, fun _ h => h⟩
  · exact ⟨fun _ h => h.takeAlert _, fun _ h => h.takeAlert _⟩

theorem leftAlone (left : FlatLegLeft ((s.leftDesk p r c).setCall r c.forwarded) w r c.forwarded)
    (st : Settled w t) (function : (s.port p).function = .concierge)
    (present : (s.port p).present = true) (apart : c.origin ≠ p) (empty : s.psw.deskQueue = []) :
    (∀ j, j ≠ r.slot → (s.slot j).SameButSending (t.slot j)) ∧ t.hold p = none ∧
      (∀ x, x ≠ p → t.hold x = s.hold x) ∧
      t.psw.joins = s.psw.joins.filter (fun j => j.call ≠ r) ∧ t.psw.deskQueue = [] ∧
      (t.port p).Shows .ready ∧ (t.port p).Rings .off ∧ Raises s t [] := by
  have hold : ∀ x, t.hold x = if p = x then none else s.hold x := fun x => by
    simp only [State.hold, st.psw, left.holds, State.setCall_psw, leftDesk_psw, Table.read_write]
  have port : w.port p = (s.leftDesk p r c).port p :=
    (left.ports p (Ne.symm apart)).trans (State.port_congr (State.setCall_ports ..) p)
  obtain ⟨shows, rings⟩ := leftDesk_quiet (r := r) (c := c) function present
  rw [← port] at shows rings
  refine ⟨fun j ne => ?_, by rw [hold, if_pos rfl], fun x ne => by rw [hold, if_neg (Ne.symm ne)], ?_, ?_,
    (st.ports p).shows _ shows, (st.ports p).rings _ rings, .of_settled ?_ ?_ st⟩
  · rw [← leftDesk_other (s := s) (p := p) (c := c) ne,
      ← setCall_other (s := s.leftDesk p r c) c.forwarded ne, ← left.slots j ne]
    exact st.slots j
  · rw [st.psw, left.joins, State.setCall_psw, leftDesk_psw]
  · rw [st.psw, left.desks, State.setCall_psw, leftDesk_psw]
    exact empty
  · rw [left.hlp, State.setCall_hlp, leftDesk_hlp]
  · rw [left.ntu, State.setCall_ntu, leftDesk_ntu]
    rfl

/-- A forwarded call ends as it would in the state before, with its desk FREE. -/
theorem forwarded_endsAlike : EndsAlike (s.setHold p none)
    ((s.leftDesk p r c).setCall r c.forwarded) r c.forwarded where
  others j ne := by
    rw [setCall_other (s := s.leftDesk p r c) c.forwarded ne, leftDesk_other (s := s) ne]
    exact .refl _
  holds x := by simp only [State.hold, State.setCall_psw, leftDesk_psw, State.setHold_psw]
  paths x := by
    simp [State.paths, State.setCall_psw, leftDesk_psw]
  joins := by
    simp only [State.setCall_psw, leftDesk_psw, State.setHold_psw, List.filter_filter, Bool.and_self]
  desks := by simp only [State.setCall_psw, leftDesk_psw, State.setHold_psw]
  ports x := by
    rw [State.port_congr (State.setCall_ports ..)]
    exact leftDesk_settings (s := s) x
  home x h := by
    have dir := (State.setCall_dir (s.leftDesk p r c) r c.forwarded).trans leftDesk_dir
    have risers := (State.setCall_risers (s.leftDesk p r c) r c.forwarded).trans leftDesk_risers
    rw [riserOfCall_congr dir, State.riser_congr risers]
    exact ⟨h, .refl _⟩
  tx := by rw [State.setCall_hlp, leftDesk_hlp]; rfl
  ntu := by rw [State.setCall_ntu, leftDesk_ntu]; rfl

theorem forwarded_ends (live : s.call? r = some c) (function : (s.port p).function = .concierge)
    (present : (s.port p).present = true) (apart : c.origin ≠ p) (empty : s.psw.deskQueue = [])
    (channel : c.channel = none) (why : EndReason) :
    let t := (((s.leftDesk p r c).setCall r c.forwarded).endCall r why).settle
    Ended (s.setHold p none) t r { c with deskPort := none } why ∧
      (t.port p).Shows .ready ∧ (t.port p).Rings .off := by
  have live' := setCall_live (s := s.leftDesk p r c) (leftDesk_live live) c.forwarded
  have nw : ((s.leftDesk p r c).setCall r c.forwarded).NoWaiters r c.forwarded := by
    refine ⟨?_, fun ch hch => ?_⟩
    · rw [State.setCall_psw, leftDesk_psw]
      show ∀ x ∈ s.psw.deskQueue, x = r
      simp [empty]
    · rw [show c.forwarded.channel = c.channel from rfl, channel] at hch
      cases hch
  have port := State.port_congr (State.setCall_ports (s.leftDesk p r c) r c.forwarded) p
  obtain ⟨shows, rings⟩ := leftDesk_quiet (r := r) (c := c) function present
  rw [← port] at shows rings
  have alike := forwarded_endsAlike (s := s) (p := p) (r := r) (c := c)
  generalize (s.leftDesk p r c).setCall r c.forwarded = v at *
  rw [endCall_alone live' nw]
  have st := settle_settled (v.endedAlone r c.forwarded why)
  obtain ⟨keepShows, keepRings⟩ := endedAlone_keeps (v := v) (r := r) (c := c.forwarded) (why := why)
    (Ne.symm apart) rfl
  have ended : Ended (s.setHold p none) _ r c.forwarded why := .of_alone alike (.refl _) st
  exact ⟨Ended.of_record (c := { c with deskPort := none }) ended,
    (st.ports p).shows _ (keepShows _ shows), (st.ports p).rings _ (keepRings _ rings)⟩

/-! ## What is left when the desk has gone to another call -/

/-- What the state in which the desk has been handed on is worth to the call at the desk, as long as the
forwarded call leaves it alone. -/
theorem handedOn_granted (function : (s.port p).function = .concierge)
    (present : (s.port p).present = true) (ne : q.slot ≠ r.slot) (waiting : s.call? q = some d)
    (out : ∀ o ∈ d.offers, o.status ≠ .queued)
    (slots : w.slot q.slot = (s.handedOn p r q c d rest).slot q.slot)
    (hold : w.hold p = (s.handedOn p r q c d rest).hold p)
    (rings : ∀ l, ((s.handedOn p r q c d rest).port p).Rings l → (w.port p).Rings l)
    (shows : ∀ x a, x = p ∨ x = d.origin →
      ((s.handedOn p r q c d rest).port x).Shows a → (w.port x).Shows a)
    (st : Settled w t) : DeskGranted s t p q d := by
  have settings : ∀ x, (s.port x).SameSettings (((s.leftDesk p r c).setDeskQueue rest).port x) :=
    fun x => by
      rw [State.port_congr (State.setDeskQueue_ports ..)]
      exact leftDesk_settings x
  have live : ((s.leftDesk p r c).setDeskQueue rest).call? q = some d :=
    (State.call?_congr (State.setDeskQueue_ccu ..) q).trans
      ((call?_of_slot (s := s) (leftDesk_other (s := s) ne)).trans waiting)
  have clock : ((s.leftDesk p r c).setDeskQueue rest).clock = s.clock :=
    (State.setDeskQueue_clock ..).trans leftDesk_clock
  have times : ((s.leftDesk p r c).setDeskQueue rest).ccu.times = s.ccu.times :=
    (congrArg Ccu.times (State.setDeskQueue_ccu ..)).trans leftDesk_times
  unfold State.handedOn at slots hold rings shows
  generalize (s.leftDesk p r c).setDeskQueue rest = u at *
  obtain ⟨f, -, pr, -⟩ := settings p
  exact .of_granted (w := w) live (f.trans function) (pr.trans present) (settings d.origin).1 clock times
    hold (call?_of_slot slots) rings shows out st

end

end Sys2Proof.Machine
end

