-- ==== Sys2Proof/Proofs/ForwardsHandedOn.lean ====
section
/-!
SUPPORT. O42: the desk of a forwarded call that goes to the call that waits for one first, and the proof.
-/

namespace Sys2Proof.Machine

section
variable {s w t : State} {p : PortIx} {r q : Ref} {c d : Call} {i : FlatIx} {rest : List Ref}
  {why : EndReason}

/-- R62, R145: what a forward leaves whose desk has gone to another call. -/
theorem leftHandedOn
    (left : FlatLegLeft ((s.handedOn p r q c d rest).setCall r c.forwarded) w r c.forwarded)
    (st : Settled w t) (function : (s.port p).function = .concierge)
    (present : (s.port p).present = true) (origin : c.origin ≠ p) (ne : q.slot ≠ r.slot)
    (waiting : s.call? q = some d) (apart : d.origin ≠ c.origin)
    (out : ∀ o ∈ d.offers, o.status ≠ .queued) :
    DeskGranted s t p q d ∧ (∀ x, x ≠ p → t.hold x = s.hold x) ∧
      (∀ j, j ≠ r.slot → j ≠ q.slot → (s.slot j).SameButSending (t.slot j)) ∧
      t.psw.joins = s.psw.joins.filter (fun j => j.call ≠ r) ∧ t.psw.deskQueue = rest ∧
      Raises s t [] := by
  have slot : ∀ j, j ≠ r.slot → w.slot j = (s.handedOn p r q c d rest).slot j := fun j nr =>
    (left.slots j nr).trans (setCall_other (s := s.handedOn p r q c d rest) c.forwarded nr)
  have port : ∀ x, x ≠ c.origin → w.port x = (s.handedOn p r q c d rest).port x := fun x no =>
    (left.ports x no).trans (State.port_congr (State.setCall_ports ..) x)
  have hold : ∀ x, w.hold x = (s.handedOn p r q c d rest).hold x := fun x => by
    simp only [State.hold, left.holds, State.setCall_psw]
  refine ⟨handedOn_granted function present ne waiting out (slot _ ne) (hold p)
    (fun l h => by rw [port p (Ne.symm origin)]; exact h) (fun x a hx h => ?_) st, fun x np => ?_,
    fun j nr nq => ?_, ?_, ?_, .of_settled ?_ ?_ st⟩
  · rw [port x]
    · exact h
    · rcases hx with rfl | rfl
      · exact Ne.symm origin
      · exact apart
  · rw [State.hold_congr st.psw, hold]
    simp only [State.hold, handedOn_psw, Table.read_write_ne _ _ (Ne.symm np)]
  · rw [← handedOn_other (s := s) (p := p) (c := c) (d := d) (rest := rest) nr nq, ← slot j nr]
    exact st.slots j
  · rw [st.psw, left.joins, State.setCall_psw, handedOn_psw]
  · rw [st.psw, left.desks, State.setCall_psw, handedOn_psw]
  · rw [left.hlp, State.setCall_hlp, handedOn_hlp]
  · rw [left.ntu, State.setCall_ntu, handedOn_ntu]
    rfl

/-- R62, R145: the end of a forwarded call whose desk has gone to another call. -/
theorem handedOn_ends (live : s.call? r = some c) (function : (s.port p).function = .concierge)
    (present : (s.port p).present = true) (origin : c.origin ≠ p) (ne : q.slot ≠ r.slot)
    (waiting : s.call? q = some d) (apart : d.origin ≠ c.origin) (channel : c.channel = none)
    (out : ∀ o ∈ d.offers, o.status ≠ .queued) (entrance : (s.port c.origin).function = .entrance)
    (why : EndReason) :
    let t := (((s.handedOn p r q c d rest).setCall r c.forwarded).endCall r why).settle
    DeskGranted s t p q d ∧
      t.slot r.slot = { generation := r.gen, lastEnd := some why, call := none } ∧
      (∀ j, j ≠ r.slot → j ≠ q.slot → (s.slot j).SameButSending (t.slot j)) ∧
      t.hold c.origin = none ∧ (∀ x, x ≠ p → x ≠ c.origin → t.hold x = s.hold x) ∧
      t.psw.joins = s.psw.joins.filter (fun j => j.call ≠ r) ∧
      t.psw.deskQueue = rest.filter (fun q => q ≠ r) ∧
      (∀ x, t.paths x = { s.paths x with queue := (s.paths x).queue.filter fun q => q ≠ r }) ∧
      (t.port c.origin).Shows why.display ∧
      Raises s t [.callEnded r c.kind c.origin c.code c.flat c.answerer why] := by
  have live' : (s.handedOn p r q c d rest).call? r = some c.unplugged :=
    (call?_of_slot (s := s.leftDesk p r c)
      (grantDesk_other (s := (s.leftDesk p r c).setDeskQueue rest) d p (Ne.symm ne))).trans
      (leftDesk_live live)
  have record := setCall_live live' c.forwarded
  have slot : ∀ j, j ≠ r.slot → ((s.handedOn p r q c d rest).setCall r c.forwarded).slot j =
      (s.handedOn p r q c d rest).slot j := fun j nr => setCall_other _ nr
  have others := fun j nr nq => (slot j nr).trans
    (handedOn_other (s := s) (p := p) (c := c) (d := d) (rest := rest) nr nq)
  have port := State.port_congr (State.setCall_ports (s.handedOn p r q c d rest) r c.forwarded)
  have psw := (State.setCall_psw (s.handedOn p r q c d rest) r c.forwarded).trans handedOn_psw
  have hlp := (State.setCall_hlp (s.handedOn p r q c d rest) r c.forwarded).trans handedOn_hlp
  have ntu := (State.setCall_ntu (s.handedOn p r q c d rest) r c.forwarded).trans handedOn_ntu
  have hold : ∀ x, ((s.handedOn p r q c d rest).setCall r c.forwarded).hold x =
      (s.handedOn p r q c d rest).hold x := fun x => by simp only [State.hold, State.setCall_psw]
  have settings := handedOn_settings (s := s) (p := p) (r := r) (w := q) (c := c) (d := d) (rest := rest)
  have granted := fun w t => handedOn_granted (s := s) (w := w) (t := t) (c := c) (rest := rest) function
    present ne waiting out
  generalize (s.handedOn p r q c d rest).setCall r c.forwarded = v at *
  generalize s.handedOn p r q c d rest = u at *
  have function' : (v.port c.origin).function = .entrance := by
    rw [port, (settings c.origin).1, entrance]
  rw [endCall_noDesk record channel rfl (by
    show (v.port c.origin).function ≠ .concierge
    rw [function']
    simp)]
  have st := settle_settled (v.endedAlone r c.forwarded why)
  have ended : Ended v (v.endedAlone r c.forwarded why).settle r c.forwarded why :=
    .of_alone (.refl ..) (.refl _) st
  have keeps := fun x (no : x ≠ c.origin) =>
    endedAlone_keeps (v := v) (r := r) (c := c.forwarded) (why := why) no rfl
  refine ⟨granted _ _ ?_ ?_ (fun l h => ?_) (fun x a hx h => ?_) st, ended.slot,
    fun j nr nq => ?_, ended.origin, fun x np no => ?_, ?_, ?_, fun x => ?_, ?_, ?_⟩
  · rw [endedAlone_slot, if_neg (Ne.symm ne), slot _ ne]
  · rw [endedAlone_hold, if_neg, hold]
    rintro (h | h)
    · exact origin h
    · cases h
  · exact (keeps p (Ne.symm origin)).2 l (by rw [port]; exact h)
  · refine (keeps x ?_).1 a (by rw [port]; exact h)
    rcases hx with rfl | rfl
    · exact Ne.symm origin
    · exact apart
  · rw [← others j nr nq]
    exact ended.others j nr
  · rw [ended.holds x no (by simp [Call.forwarded, Call.unplugged])]
    simp only [State.hold, psw, Table.read_write_ne _ _ (Ne.symm np)]
  · rw [ended.joins, psw, List.filter_filter]
    simp only [Bool.and_self]
  · rw [ended.deskQueue, psw]
  · have path : v.paths x = s.paths x := by simp only [State.paths, psw]
    rw [ended.channels, path, show c.forwarded.channel = none from channel]
    rfl
  · refine ended.shows ?_ (by simp [Call.forwarded, Call.unplugged])
    show (v.port c.origin).function ≠ .off
    rw [function']
    simp
  · exact .of_settled (u := v.endedAlone r c.forwarded why) (by rw [endedAlone_hlp, hlp])
      ((endedAlone_ntu ..).trans (emit_ntu_congr ntu _)) st

end

/-! ## O42 -/

theorem deskForward_run {s : State} {p : PortIx} {r : Ref} {c : Call} {i : FlatIx}
    (present : (s.port p).present = true) (function : (s.port p).function = .concierge)
    (held : s.hold p = some { call := r, role := .desk }) (live : s.call? r = some c)
    (leg : c.leg = .concierge) (state : c.state = .connected) (kind : c.kind = .visitor)
    (flat : c.flat = some i) :
    exec (.deskForward p) s = .next ((s.panelFrameEnd p).forward p r c i).settle := by
  simp only [exec, execDeskForward]
  rw [onPanelFrame_taken present function, panelFrameEnd_callAt, callAt_eq_some.2 ⟨held, live⟩]
  dsimp only
  rw [flat]
  dsimp only
  rw [if_pos ⟨kind, leg, state⟩]

/-- R146: any other FORWARD. -/
theorem deskForward_refused {s : State} {p : PortIx} (present : (s.port p).present = true)
    (function : (s.port p).function = .concierge)
    (none : ∀ r c, s.hold p = some { call := r, role := .desk } → s.call? r = some c →
      ¬ (c.kind = .visitor ∧ c.leg = .concierge ∧ c.state = .connected ∧ c.flat ≠ none)) :
    exec (.deskForward p) s = .next ((s.panelFrameEnd p).display p .notAvailable).settle := by
  simp only [exec, execDeskForward]
  rw [onPanelFrame_taken present function, panelFrameEnd_callAt]
  split
  · next r c h =>
    obtain ⟨held, live⟩ := callAt_eq_some.1 h
    split
    · next i flat =>
      rw [if_neg]
      rintro ⟨kind, leg, state⟩
      exact none r c held live ⟨kind, leg, state, by simp [flat]⟩
    · rfl
  · rfl

/-- Settles O42: the forward with its desk FREE, with its desk handed on, and the frames that are none. -/
theorem forwardOffersTheFlat : Obligations.ForwardOffersTheFlat := by
  refine ⟨fun p r c i s present function held live leg state kind flat origin empty => ?_,
    fun p r q c d i rest s present function check held live leg state kind flat origin channel queue ne
      waiting leg' apart out => ?_, fun p s present function none => ?_, fun p s h => ?_⟩
  · have run := deskForward_run present function held live leg state kind flat
    rw [forward_alone empty] at run
    have h := forwarding_alone (p := p) (i := i) live
    have left := fun goes => leftAlone (h.left_of flat goes) (settle_settled _) function present origin empty
    refine ⟨fun ch m => ?_, fun checks a b out => ?_, fun channel => flatLegFails_of fun why check => ?_⟩
    · exact ⟨_, run, h.offering flat m (settle_settled _), left (.inl ⟨ch, m⟩)⟩
    · exact ⟨_, run, h.waits flat checks a b out (settle_settled _), left (.inr ⟨checks, a, b⟩)⟩
    · rw [enterFlatLeg_fails (h.checks.entryCheck.trans check)] at run
      exact ⟨_, run, forwarded_ends live function present origin empty channel why⟩
  · have run := deskForward_run present function held live leg state kind flat
    rw [forward_grants function present check queue ne waiting] at run
    have h := forwarding_grants (p := p) (i := i) (rest := rest) live ne waiting leg'
    have out' : ∀ o ∈ d.offers, o.status ≠ .queued := fun o ho => out o (List.mem_append_right _ ho)
    have left := fun goes => leftHandedOn (h.left_of flat goes) (settle_settled _) function present origin ne
      waiting apart out'
    refine ⟨fun ch m => ?_, fun checks a b => ?_, fun entrance => flatLegFails_of fun why check => ?_⟩
    · exact ⟨_, run, h.offering flat m (settle_settled _), left (.inl ⟨ch, m⟩)⟩
    · exact ⟨_, run, h.waits flat checks a b (fun o ho => out o (List.mem_append_left _ ho))
        (settle_settled _), left (.inr ⟨checks, a, b⟩)⟩
    · rw [enterFlatLeg_fails (h.checks.entryCheck.trans check)] at run
      exact ⟨_, run, handedOn_ends live function present origin ne waiting apart channel out' entrance why⟩
  · exact ⟨_, deskForward_refused present function none, settle_settled _⟩
  · simp only [exec, execDeskForward]
    rw [onPanelFrame_discarded h]
    rfl

end Sys2Proof.Machine
end

