-- ==== Sys2Proof/Proofs/BesideBuffer.lean ====
section
/-!
SUPPORT. Requests of the host do not look at the request buffer (R169), for O21: first what reads the
state and what changes one record of it.
-/

namespace Sys2Proof.Machine

/-- The state with other frames in the request buffer. -/
def State.withBuffer (s : State) (b : List HostFrame) : State :=
  { s with hlp := { s.hlp with buffer := b } }

section
variable (s : State) (b : List HostFrame)

/-! ## What reads the state -/

@[simp] theorem State.withBuffer_ccu : (s.withBuffer b).ccu = s.ccu := rfl
@[simp] theorem State.withBuffer_dir : (s.withBuffer b).dir = s.dir := rfl
@[simp] theorem State.withBuffer_psw : (s.withBuffer b).psw = s.psw := rfl
@[simp] theorem State.withBuffer_risers : (s.withBuffer b).risers = s.risers := rfl
@[simp] theorem State.withBuffer_ports : (s.withBuffer b).ports = s.ports := rfl
@[simp] theorem State.withBuffer_locks : (s.withBuffer b).locks = s.locks := rfl
@[simp] theorem State.withBuffer_ntu : (s.withBuffer b).ntu = s.ntu := rfl
@[simp] theorem State.withBuffer_clock : (s.withBuffer b).clock = s.clock := rfl
@[simp] theorem State.withBuffer_resetHeld : (s.withBuffer b).resetHeld = s.resetHeld := rfl
@[simp] theorem State.withBuffer_riser (r : RiserIx) : (s.withBuffer b).riser r = s.riser r := rfl
@[simp] theorem State.withBuffer_port (p : PortIx) : (s.withBuffer b).port p = s.port p := rfl
@[simp] theorem State.withBuffer_lock (p : PortIx) : (s.withBuffer b).lock p = s.lock p := rfl
@[simp] theorem State.withBuffer_flat (i : FlatIx) : (s.withBuffer b).flat i = s.flat i := rfl
@[simp] theorem State.withBuffer_paths (r : RiserIx) : (s.withBuffer b).paths r = s.paths r := rfl
@[simp] theorem State.withBuffer_hold (p : PortIx) : (s.withBuffer b).hold p = s.hold p := rfl
@[simp] theorem State.withBuffer_slot (i : SlotIx) : (s.withBuffer b).slot i = s.slot i := rfl
@[simp] theorem State.withBuffer_call? (r : Ref) : (s.withBuffer b).call? r = s.call? r := rfl
@[simp] theorem State.withBuffer_liveCalls : (s.withBuffer b).liveCalls = s.liveCalls := rfl
@[simp] theorem State.withBuffer_inSeconds (n : Nat) :
    (s.withBuffer b).inSeconds n = s.inSeconds n := rfl
@[simp] theorem State.withBuffer_inMs (n : Nat) : (s.withBuffer b).inMs n = s.inMs n := rfl
@[simp] theorem State.withBuffer_secondsLeft : (s.withBuffer b).secondsLeft = s.secondsLeft := rfl
@[simp] theorem State.withBuffer_callTimer : (s.withBuffer b).callTimer = s.callTimer := rfl
@[simp] theorem State.withBuffer_routeOf (k : EventKind) :
    (s.withBuffer b).routeOf k = s.routeOf k := rfl
@[simp] theorem State.withBuffer_usable (p : PortIx) : (s.withBuffer b).usable p = s.usable p := rfl
@[simp] theorem State.withBuffer_eligible (p : PortIx) :
    (s.withBuffer b).eligible p = s.eligible p := rfl
@[simp] theorem State.withBuffer_riserInUse (r : RiserIx) :
    (s.withBuffer b).riserInUse r = s.riserInUse r := rfl
@[simp] theorem State.withBuffer_aggregate (f : Flat) :
    (s.withBuffer b).aggregate f = s.aggregate f := rfl
@[simp] theorem State.withBuffer_flatBusy (i : FlatIx) :
    (s.withBuffer b).flatBusy i = s.flatBusy i := rfl
@[simp] theorem State.withBuffer_flatConflict (i : FlatIx) (r : RiserIx) (first count : Nat) :
    (s.withBuffer b).flatConflict i r first count = s.flatConflict i r first count := rfl
@[simp] theorem State.withBuffer_riserOfCall (c : Call) :
    (s.withBuffer b).riserOfCall c = s.riserOfCall c := rfl
@[simp] theorem State.withBuffer_entryCheck (r : Ref) (i : FlatIx) :
    (s.withBuffer b).entryCheck r i = s.entryCheck r i := rfl
@[simp] theorem State.withBuffer_offeredStations (f : Flat) :
    (s.withBuffer b).offeredStations f = s.offeredStations f := rfl
@[simp] theorem State.withBuffer_flaggedIn (set : BitVec 8) :
    (s.withBuffer b).flaggedIn set = s.flaggedIn set := rfl
@[simp] theorem State.withBuffer_callReport (i : SlotIx) :
    (s.withBuffer b).callReport i = s.callReport i := rfl
@[simp] theorem State.withBuffer_portReport (p : PortIx) :
    (s.withBuffer b).portReport p = s.portReport p := rfl
@[simp] theorem State.withBuffer_lockReport (p : PortIx) :
    (s.withBuffer b).lockReport p = s.lockReport p := rfl
@[simp] theorem State.withBuffer_riserReport (r : RiserIx) :
    (s.withBuffer b).riserReport r = s.riserReport r := rfl

/-! ## What changes one record -/

@[simp] theorem State.withBuffer_modifyRiser (r : RiserIx) (f : Riser → Riser) :
    (s.withBuffer b).modifyRiser r f = (s.modifyRiser r f).withBuffer b := rfl
@[simp] theorem State.withBuffer_modifyPort (p : PortIx) (f : Port → Port) :
    (s.withBuffer b).modifyPort p f = (s.modifyPort p f).withBuffer b := rfl
@[simp] theorem State.withBuffer_setLock (p : PortIx) (l : Lock) :
    (s.withBuffer b).setLock p l = (s.setLock p l).withBuffer b := rfl
@[simp] theorem State.withBuffer_setFlat (i : FlatIx) (f : Flat) :
    (s.withBuffer b).setFlat i f = (s.setFlat i f).withBuffer b := rfl
@[simp] theorem State.withBuffer_noteServed (v : Bool) :
    (s.withBuffer b).noteServed v = (s.noteServed v).withBuffer b := rfl
@[simp] theorem State.withBuffer_setWindow (i : WindowIx) (w : Window) :
    (s.withBuffer b).setWindow i w = (s.setWindow i w).withBuffer b := rfl
@[simp] theorem State.withBuffer_setHolder (ch : Channel) (h : Option Ref) :
    (s.withBuffer b).setHolder ch h = (s.setHolder ch h).withBuffer b := rfl
@[simp] theorem State.withBuffer_setChannelQueue (r : RiserIx) (q : List Ref) :
    (s.withBuffer b).setChannelQueue r q = (s.setChannelQueue r q).withBuffer b := rfl
@[simp] theorem State.withBuffer_setHold (p : PortIx) (h : Option Hold) :
    (s.withBuffer b).setHold p h = (s.setHold p h).withBuffer b := rfl
@[simp] theorem State.withBuffer_setDeskQueue (q : List Ref) :
    (s.withBuffer b).setDeskQueue q = (s.setDeskQueue q).withBuffer b := rfl
@[simp] theorem State.withBuffer_removeJoin (r : Ref) :
    (s.withBuffer b).removeJoin r = (s.removeJoin r).withBuffer b := rfl
@[simp] theorem State.withBuffer_leaveQueues (r : Ref) :
    (s.withBuffer b).leaveQueues r = (s.leaveQueues r).withBuffer b := rfl
@[simp] theorem State.withBuffer_setSlot (i : SlotIx) (x : Slot) :
    (s.withBuffer b).setSlot i x = (s.setSlot i x).withBuffer b := rfl
@[simp] theorem State.withBuffer_setCall (r : Ref) (c : Call) :
    (s.withBuffer b).setCall r c = (s.setCall r c).withBuffer b := rfl
@[simp] theorem State.withBuffer_display (p : PortIx) (d : Display) :
    (s.withBuffer b).display p d = (s.display p d).withBuffer b := rfl
@[simp] theorem State.withBuffer_ring (p : PortIx) (l : RingLevel) :
    (s.withBuffer b).ring p l = (s.ring p l).withBuffer b := rfl
@[simp] theorem State.withBuffer_makeReady (r : Reply) (immediate : Bool) :
    (s.withBuffer b).makeReady r immediate = (s.makeReady r immediate).withBuffer b := rfl
@[simp] theorem State.withBuffer_reply (kind num : Nat) (st : Status) (body : ReplyBody) :
    (s.withBuffer b).reply kind num st body = (s.reply kind num st body).withBuffer b := rfl
@[simp] theorem State.withBuffer_startStep (r : RiserIx) :
    (s.withBuffer b).startStep r = (s.startStep r).withBuffer b := rfl
@[simp] theorem State.withBuffer_enterActive (r : RiserIx) :
    (s.withBuffer b).enterActive r = (s.enterActive r).withBuffer b := rfl
@[simp] theorem State.withBuffer_enterState (r : Ref) (c : Call) (st : CallState)
    (w : Option WaitingFor) (t : Option TimerKind) :
    (s.withBuffer b).enterState r c st w t = (s.enterState r c st w t).withBuffer b := rfl
@[simp] theorem State.withBuffer_grantDesk (r : Ref) (c : Call) (p : PortIx) :
    (s.withBuffer b).grantDesk r c p = (s.grantDesk r c p).withBuffer b := rfl

end

/-- A choice does not look at the buffer when its condition and both its answers do not. -/
theorem ite_commutes {α β : Type} (f : α → β) {c : Prop} {i j : Decidable c} {x y : β} {x' y' : α}
    (yes : c → x = f x') (no : ¬ c → y = f y') : @ite _ c i x y = f (@ite _ c j x' y') := by
  by_cases h : c
  · rw [if_pos h, if_pos h, yes h]
  · rw [if_neg h, if_neg h, no h]

/-- An operation folded over a list does not look at the buffer when it does not for one entry. -/
theorem foldl_withBuffer {α : Type} {f : State → α → State} {b : List HostFrame}
    (blind : ∀ s x, f (s.withBuffer b) x = (f s x).withBuffer b) (l : List α) (s : State) :
    l.foldl f (s.withBuffer b) = (l.foldl f s).withBuffer b := by
  induction l generalizing s with
  | nil => rfl
  | cons x l ih => rw [List.foldl_cons, blind, ih, List.foldl_cons]

end Sys2Proof.Machine
end

