-- ==== Sys2Proof/Proofs/BufferUnread.lean ====
section
/-!
SUPPORT. Requests of the host do not look at the request buffer (R169), for O21: the shared operations
of the notice unit, the directory, the riser controllers and the transmitters.
-/

namespace Sys2Proof.Machine

section
variable (s : State) (b : List HostFrame)

/-! ## Notices and the directory -/

@[simp] theorem State.withBuffer_emit (e : Event) :
    (s.withBuffer b).emit e = (s.emit e).withBuffer b := by
  simp only [State.emit, State.withBuffer_routeOf]
  cases s.routeOf e.kind <;> rfl

@[simp] theorem State.withBuffer_recomputeFlat (i : FlatIx) :
    (s.withBuffer b).recomputeFlat i = (s.recomputeFlat i).withBuffer b := by
  simp [State.recomputeFlat, apply_ite (State.withBuffer · b)]

@[simp] theorem State.withBuffer_recomputeFlats (which : Flat → Bool) :
    (s.withBuffer b).recomputeFlats which = (s.recomputeFlats which).withBuffer b := by
  simp only [State.recomputeFlats, State.withBuffer_flat]
  exact foldl_withBuffer (fun t i => t.withBuffer_recomputeFlat b i) _ s

@[simp] theorem State.withBuffer_storeFlat (i : FlatIx) (v : Bool) (r : RiserIx) (first count : Nat)
    (divert : Bool) (doors : BitVec 8) :
    (s.withBuffer b).storeFlat i v r first count divert doors =
      (s.storeFlat i v r first count divert doors).withBuffer b := by
  simp [State.storeFlat, apply_ite (State.withBuffer · b)]

/-! ## Timers and link states of a riser -/

@[simp] theorem State.withBuffer_startWake (r : RiserIx) :
    (s.withBuffer b).startWake r = (s.startWake r).withBuffer b := by
  exact ite_commutes (State.withBuffer · b) (fun _ => rfl) fun _ => rfl

@[simp] theorem State.withBuffer_goQuiet (r : RiserIx) :
    (s.withBuffer b).goQuiet r = (s.goQuiet r).withBuffer b := by
  exact ite_commutes (State.withBuffer · b) (fun _ => rfl) fun _ => rfl

/-! ## Frames given to a riser -/

@[simp] theorem State.withBuffer_offerFrame (r : RiserIx) (e : QueueEntry) :
    (s.withBuffer b).offerFrame r e =
      Prod.map (State.withBuffer · b) id (s.offerFrame r e) := by
  refine ite_commutes (Prod.map (State.withBuffer · b) id) (fun _ => rfl) fun _ => ?_
  exact ite_commutes (Prod.map (State.withBuffer · b) id) (fun _ => rfl) fun _ => by simp

@[simp] theorem State.withBuffer_advise (r : RiserIx) (f : Advisory) :
    (s.withBuffer b).advise r f = (s.advise r f).withBuffer b := by
  simp only [State.advise, State.withBuffer_offerFrame]
  obtain ⟨t, queued⟩ := s.offerFrame r (.advisory f)
  cases queued with
  | false => rfl
  | true =>
    dsimp only [Prod.map_apply, id]
    split <;> rfl

@[simp] theorem State.withBuffer_modifyCall (r : Ref) (f : Call → Call) :
    (s.withBuffer b).modifyCall r f = (s.modifyCall r f).withBuffer b := by
  simp only [State.modifyCall, State.withBuffer_call?]
  cases s.call? r <;> rfl

@[simp] theorem State.withBuffer_completeFaulted (call : Ref) (a : Nat) (tag : Option Nat)
    (result : OfferStatus) :
    (s.withBuffer b).completeFaulted call a tag result =
      (s.completeFaulted call a tag result).withBuffer b := s.withBuffer_modifyCall b _ _

@[simp] theorem State.withBuffer_solicit (r : RiserIx) (f : Solicited) :
    (s.withBuffer b).solicit r f = Prod.map (State.withBuffer · b) id (s.solicit r f) := by
  simp only [State.solicit, State.withBuffer_offerFrame]
  obtain ⟨t, queued⟩ := s.offerFrame r (.solicited f)
  cases queued with
  | true => rfl
  | false => cases f <;> simp

@[simp] theorem State.withBuffer_withdraw (r : RiserIx) (a : Nat) (c : Ref) :
    (s.withBuffer b).withdraw r a c = Prod.map (State.withBuffer · b) id (s.withdraw r a c) := by
  refine ite_commutes (Prod.map (State.withBuffer · b) id) (fun _ => rfl) fun _ => ?_
  simp only [State.withBuffer_riser]
  split <;> rfl

/-! ## Transmissions and markers of a riser -/

@[simp] theorem State.withBuffer_startSolicited (r : RiserIx) (f : Solicited) (tag : Nat)
    (rest : List Nat) (q : List QueueItem) :
    (s.withBuffer b).startSolicited r f tag rest q =
      (s.startSolicited r f tag rest q).withBuffer b := by
  cases f <;> simp [State.startSolicited, State.sendingReport]

@[simp] theorem State.withBuffer_startTransmission (r : RiserIx) :
    (s.withBuffer b).startTransmission r = (s.startTransmission r).withBuffer b := by
  unfold State.startTransmission
  rw [State.withBuffer_riser]
  refine ite_commutes (State.withBuffer · b) (fun _ => ?_) fun _ => rfl
  cases (s.riser r).resends with
  | cons tag rest => dsimp only; split <;> rfl
  | nil =>
    dsimp only
    obtain - | ⟨f | f | n, q⟩ := sendingRule
      (decide ((s.riser r).outstanding.length < Config.outstandingRoom)) (s.riser r).queue
    · rfl
    · rfl
    · cases (s.riser r).freeTags with
      | nil => rfl
      | cons tag rest => exact s.withBuffer_startSolicited b r f tag rest q
    · rfl

@[simp] theorem State.withBuffer_syncDone (r : RiserIx) (num : Nat) (o : MarkerOutcome) :
    (s.withBuffer b).syncDone r num o = (s.syncDone r num o).withBuffer b := by
  have pending : (s.withBuffer b).hlp.syncs = s.hlp.syncs := rfl
  simp only [State.syncDone, pending]
  split <;> rfl

@[simp] theorem State.withBuffer_completeMarkers (r : RiserIx) :
    (s.withBuffer b).completeMarkers r = (s.completeMarkers r).withBuffer b := by
  simp only [State.completeMarkers, State.withBuffer_riser, State.withBuffer_modifyRiser]
  exact foldl_withBuffer (fun t n => t.withBuffer_syncDone b r n _) _ _

@[simp] theorem State.withBuffer_flushRiser (r : RiserIx) :
    (s.withBuffer b).flushRiser r = (s.flushRiser r).withBuffer b := by
  have outstanding : ∀ (t : State) (o : Outstanding), (t.withBuffer b).completeOutstandingFaulted o =
      (t.completeOutstandingFaulted o).withBuffer b := fun t o => by
    unfold State.completeOutstandingFaulted
    cases o.frame <;> simp
  have queued : ∀ (t : State) (i : QueueItem), State.flushEntry r (t.withBuffer b) i =
      (State.flushEntry r t i).withBuffer b := fun t i => by
    unfold State.flushEntry
    split
    · rfl
    · simp
    · split <;> simp
    · rfl
  simp only [State.flushRiser, State.withBuffer_riser, foldl_withBuffer outstanding,
    foldl_withBuffer queued, State.withBuffer_modifyRiser]

@[simp] theorem State.withBuffer_forgetStations (r : RiserIx) :
    (s.withBuffer b).forgetStations r = (s.forgetStations r).withBuffer b := by
  simp [State.forgetStations, State.riserFlagsCleared]

/-! ## The transmitters -/

@[simp] theorem State.withBuffer_settleHost :
    (s.withBuffer b).settleHost = s.settleHost.withBuffer b := by
  have ready : (s.withBuffer b).hlp.ready = s.hlp.ready := rfl
  have tx : (s.withBuffer b).hlp.tx = s.hlp.tx := rfl
  simp only [State.settleHost, ready, tx, State.withBuffer_resetHeld, State.withBuffer_ntu]
  split
  · split <;> rfl
  · rfl

@[simp] theorem State.withBuffer_settlePanels :
    (s.withBuffer b).settlePanels = s.settlePanels.withBuffer b := rfl

@[simp] theorem State.withBuffer_settleLinks :
    (s.withBuffer b).settleLinks = s.settleLinks.withBuffer b := by
  simp only [State.settleLinks, State.withBuffer_settlePanels, State.withBuffer_settleHost]

@[simp] theorem State.withBuffer_settle :
    (s.withBuffer b).settle = s.settle.withBuffer b := by
  have riser : ∀ (t : State) (r : RiserIx), (t.withBuffer b).settleRiser r =
      (t.settleRiser r).withBuffer b := fun t r => by simp [State.settleRiser]
  simp only [State.settle, State.settleRisers, foldl_withBuffer riser, State.withBuffer_settleLinks]

end

end Sys2Proof.Machine
end

