-- ==== Sys2Proof/Proofs/EndsBesideBuffer.lean ====
section
/-!
SUPPORT. Requests of the host do not look at the request buffer (R169), for O21: the end of a call, with
what it hands on, and what the failure of a riser ends.
-/

namespace Sys2Proof.Machine

section
variable (s : State) (b : List HostFrame)

/-! ## Offers taken back -/

@[simp] theorem State.withBuffer_withdrawOffer (r : RiserIx) (call : Ref) (o : Offer) :
    State.withdrawOffer r call (s.withBuffer b) o =
      Prod.map (State.withBuffer · b) id (State.withdrawOffer r call s o) := by
  unfold State.withdrawOffer
  cases o.status with
  | queued =>
    dsimp only
    rw [State.withBuffer_withdraw]
    obtain ⟨t, _ | _ | _⟩ := s.withdraw r o.station call <;> rfl
  | _ => rfl

@[simp] theorem State.withBuffer_cancelOffer (r : RiserIx) (call : Ref) (why : CancelReason) (o : Offer) :
    State.cancelOffer r call why (s.withBuffer b) o =
      Prod.map (State.withBuffer · b) id (State.cancelOffer r call why s o) := by
  unfold State.cancelOffer
  cases o.status <;> simp

theorem State.withBuffer_eachOffer {f : State → Offer → State × Offer} {b : List HostFrame}
    (blind : ∀ s o, f (s.withBuffer b) o = Prod.map (State.withBuffer · b) id (f s o))
    (os : List Offer) (s : State) :
    State.eachOffer f os (s.withBuffer b) =
      Prod.map (State.withBuffer · b) id (State.eachOffer f os s) := by
  induction os generalizing s with
  | nil => rfl
  | cons o os ih => simp [State.eachOffer, blind, ih]

@[simp] theorem State.withBuffer_takeBackAtEnd (r : RiserIx) (call : Ref) (why : EndReason)
    (answerer : Option Nat) (os : List Offer) :
    (s.withBuffer b).takeBackAtEnd r call why answerer os =
      (s.takeBackAtEnd r call why answerer os).withBuffer b := by
  have cancel : ∀ (t : State) (o : Offer), State.cancelAtEnd r call why answerer (t.withBuffer b) o =
      (State.cancelAtEnd r call why answerer t o).withBuffer b := fun t o => by
    unfold State.cancelAtEnd
    refine ite_commutes (State.withBuffer · b) (fun _ => ?_) fun _ => by simp
    exact ite_commutes (State.withBuffer · b) (fun _ => rfl) fun _ => by simp
  have withdraw := State.withBuffer_eachOffer (b := b) (f := State.withdrawOffer r call)
    (fun t o => t.withBuffer_withdrawOffer b r call o) os s
  simp only [State.takeBackAtEnd, withdraw, Prod.map_fst, Prod.map_snd, id, foldl_withBuffer cancel]

/-! ## Desks -/

theorem State.withBuffer_serveDeskFrom (p : PortIx) (l : List Ref) :
    State.serveDeskFrom p l (s.withBuffer b) = (State.serveDeskFrom p l s).withBuffer b := by
  induction l generalizing s with
  | nil => rfl
  | cons r rest ih =>
    simp only [State.serveDeskFrom, State.withBuffer_setDeskQueue, State.withBuffer_call?]
    cases (s.setDeskQueue rest).call? r with
    | none => exact ih _
    | some c => rfl

@[simp] theorem State.withBuffer_serveDesk (p : PortIx) :
    (s.withBuffer b).serveDesk p = (s.serveDesk p).withBuffer b :=
  ite_commutes (State.withBuffer · b) (fun _ => s.withBuffer_serveDeskFrom b p _) fun _ => rfl

@[simp] theorem State.withBuffer_releasePort (p : PortIx) :
    (s.withBuffer b).releasePort p = (s.releasePort p).withBuffer b := by
  simp [State.releasePort]

@[simp] theorem State.withBuffer_releasePorts (r : Ref) (c : Call) :
    (s.withBuffer b).releasePorts r c = (s.releasePorts r c).withBuffer b := by
  unfold State.releasePorts
  cases c.deskPort <;> simp [State.releaseDesk]

/-! ## The end of a call -/

@[simp] theorem State.withBuffer_endRecord (r : Ref) (c : Call) (why : EndReason) :
    (s.withBuffer b).endRecord r c why = (s.endRecord r c why).withBuffer b := by
  unfold State.endRecord
  rw [State.withBuffer_riserOfCall]
  cases why.isRiserFailure with
  | true => simp
  | false => cases s.riserOfCall c <;> simp

@[simp] theorem State.withBuffer_queueOffers (r : RiserIx) (call : Ref) (kind : CallKind)
    (origin : PortIx) (stations : List Nat) :
    (s.withBuffer b).queueOffers r call kind origin stations =
      (s.queueOffers r call kind origin stations).withBuffer b :=
  foldl_withBuffer (fun t a => by simp) stations s

@[simp] theorem State.withBuffer_offerFlat (r : Ref) (c : Call) (i : FlatIx) :
    (s.withBuffer b).offerFlat r c i = (s.offerFlat r c i).withBuffer b := by
  simp only [State.offerFlat, State.withBuffer_flat, State.withBuffer_offeredStations,
    State.withBuffer_setCall, State.withBuffer_queueOffers, State.withBuffer_modifyCall,
    State.withBuffer_display]

@[simp] theorem State.withBuffer_grantChannel (r : Ref) (c : Call) (ch : Channel) :
    (s.withBuffer b).grantChannel r c ch =
      Prod.map (State.withBuffer · b) id (s.grantChannel r c ch) := by
  simp only [State.grantChannel, State.withBuffer_setHolder, State.withBuffer_setCall,
    State.withBuffer_entryCheck]
  cases c.flat with
  | none => rfl
  | some i =>
    dsimp only
    split
    · rfl
    · simp

theorem State.withBuffer_serveChannel (n : Nat) (ch : Channel) :
    State.serveChannel n ch (s.withBuffer b) = (State.serveChannel n ch s).withBuffer b := by
  induction n generalizing s with
  | zero => rfl
  | succ n ih =>
    simp only [State.serveChannel, State.withBuffer_paths]
    cases (s.paths ch.riser).queue with
    | nil => rfl
    | cons r rest =>
      simp only [State.withBuffer_setChannelQueue, State.withBuffer_call?,
        State.withBuffer_grantChannel]
      cases (s.setChannelQueue ch.riser rest).call? r with
      | none => exact ih _
      | some c =>
        dsimp only
        obtain ⟨t, - | why⟩ := (s.setChannelQueue ch.riser rest).grantChannel r c ch
        · rfl
        · simp only [Prod.map_apply, id, State.withBuffer_call?]
          cases t.call? r with
          | none => exact ih _
          | some d => simp only [State.withBuffer_endRecord, State.withBuffer_releasePorts, ih]

@[simp] theorem State.withBuffer_endCall (r : Ref) (why : EndReason) :
    (s.withBuffer b).endCall r why = (s.endCall r why).withBuffer b := by
  simp only [State.endCall, State.withBuffer_call?]
  cases s.call? r with
  | none => rfl
  | some c =>
    simp only [State.withBuffer_endRecord]
    cases c.channel with
    | none => exact State.withBuffer_releasePorts _ b r c
    | some ch =>
      simp only [State.releaseChannel, State.withBuffer_paths, State.withBuffer_serveChannel,
        State.withBuffer_releasePorts]

/-! ## The failure of a riser -/

@[simp] theorem State.withBuffer_failCalls (r : RiserIx) (why : EndReason) :
    (s.withBuffer b).failCalls r why = (s.failCalls r why).withBuffer b :=
  foldl_withBuffer (fun t call => t.withBuffer_endCall b call why) _ s

@[simp] theorem State.withBuffer_overrunFirst? (n : Nat) :
    (s.withBuffer b).overrunFirst? n = (s.overrunFirst? n).withBuffer b := by
  unfold State.overrunFirst?
  cases riser? n with
  | none => rfl
  | some r =>
    refine ite_commutes (State.withBuffer · b) (fun _ => ?_) fun _ => rfl
    simp only [State.overrunNow, State.failRiser, State.withBuffer_modifyRiser,
      State.withBuffer_flushRiser, State.withBuffer_emit, State.withBuffer_failCalls,
      State.withBuffer_forgetStations, State.withBuffer_enterActive,
      State.withBuffer_settle]

end

end Sys2Proof.Machine
end

