-- ==== Sys2Proof/Proofs/RequestsBesideBuffer.lean ====
section
/-!
SUPPORT. Requests of the host do not look at the request buffer (R169), for O21: each request, taken by
its owning block and answered.
-/

namespace Sys2Proof.Machine

section
variable (s : State) (b : List HostFrame)

/-! ## What the owning block does -/

/-- An answer of an owning block as it is with other frames in the buffer. -/
abbrev besideBuffer (b : List HostFrame) : State × Status × ReplyBody → State × Status × ReplyBody :=
  Prod.map (State.withBuffer · b) id

theorem State.withBuffer_setPortAct (port function intercept releaseTime : Nat) :
    (s.withBuffer b).setPortAct port function intercept releaseTime =
      besideBuffer b (s.setPortAct port function intercept releaseTime) := by
  unfold State.setPortAct
  split
  · rw [State.withBuffer_hold, State.withBuffer_lock]
    refine ite_commutes (besideBuffer b) (fun _ => rfl) fun _ => ?_
    refine ite_commutes (besideBuffer b) (fun _ => rfl) fun _ => ?_
    refine Prod.ext ?_ rfl
    refine ite_commutes (State.withBuffer · b) (fun _ => ?_) fun _ => rfl
    exact ite_commutes (State.withBuffer · b) (fun _ => by simp) fun _ => rfl
  · rfl

theorem State.withBuffer_setWindowAct (window enabled base span stride rowSize firstFlat : Nat) :
    (s.withBuffer b).setWindowAct window enabled base span stride rowSize firstFlat =
      besideBuffer b (s.setWindowAct window enabled base span stride rowSize firstFlat) := by
  unfold State.setWindowAct
  split
  · exact ite_commutes (besideBuffer b) (fun _ => rfl) fun _ => rfl
  · rfl

theorem State.withBuffer_setFlatAct (flat inService riser first count divert doors : Nat) :
    (s.withBuffer b).setFlatAct flat inService riser first count divert doors =
      besideBuffer b (s.setFlatAct flat inService riser first count divert doors) := by
  unfold State.setFlatAct
  split
  · refine ite_commutes (besideBuffer b) (fun _ => rfl) fun _ => ?_
    refine ite_commutes (besideBuffer b) (fun _ => rfl) fun _ => ?_
    exact ite_commutes (besideBuffer b) (fun _ => rfl) fun _ => by simp
  · rfl

theorem State.withBuffer_setTimesAct (flatRing deskRing pathWait talk : Nat) :
    (s.withBuffer b).setTimesAct flatRing deskRing pathWait talk =
      besideBuffer b (s.setTimesAct flatRing deskRing pathWait talk) :=
  ite_commutes (besideBuffer b) (fun _ => rfl) fun _ => rfl

theorem State.withBuffer_setRouteAct (event route : Nat) :
    (s.withBuffer b).setRouteAct event route = besideBuffer b (s.setRouteAct event route) := by
  unfold State.setRouteAct
  split <;> rfl

theorem State.withBuffer_setModeAct (mode : Nat) :
    (s.withBuffer b).setModeAct mode = besideBuffer b (s.setModeAct mode) := by
  unfold State.setModeAct
  split <;> rfl

theorem State.withBuffer_storeRiser (r : RiserIx) (survey quiet : Bool) (stepMs idleS : Nat) :
    (s.withBuffer b).storeRiser r survey quiet stepMs idleS =
      (s.storeRiser r survey quiet stepMs idleS).withBuffer b := by
  unfold State.storeRiser
  rw [State.withBuffer_riser, State.withBuffer_modifyRiser]
  dsimp only
  generalize s.modifyRiser r _ = t
  have timer : ∀ (u v w : State) (p q : Prop) [Decidable p] [Decidable q],
      (if p then u.withBuffer b else if q then v.withBuffer b else w.withBuffer b) =
        (if p then u else if q then v else w).withBuffer b := fun u v w p q _ _ =>
    ite_commutes (State.withBuffer · b) (fun _ => rfl) fun _ =>
      ite_commutes (State.withBuffer · b) (fun _ => rfl) fun _ => rfl
  rw [State.withBuffer_startStep, State.withBuffer_modifyRiser, timer]
  exact ite_commutes (State.withBuffer · b) (fun _ => by simp) fun _ => rfl

theorem State.withBuffer_applyEnable (r : RiserIx) (enable : Bool) :
    (s.withBuffer b).applyEnable r enable = (s.applyEnable r enable).withBuffer b := by
  have enables : (s.withBuffer b).enableRiser r = (s.enableRiser r).withBuffer b :=
    ite_commutes (State.withBuffer · b) (fun _ => by simp) fun _ => by simp
  have disables : (s.withBuffer b).disableRiser r = (s.disableRiser r).withBuffer b := by
    simp [State.disableRiser]
  refine ite_commutes (State.withBuffer · b) (fun _ => ?_) fun _ => ?_
  · exact ite_commutes (State.withBuffer · b) (fun _ => enables) fun _ => rfl
  · exact ite_commutes (State.withBuffer · b) (fun _ => rfl) fun _ => disables

theorem State.withBuffer_setRiserAct (riser enable survey quiet stepMs idleS : Nat) :
    (s.withBuffer b).setRiserAct riser enable survey quiet stepMs idleS =
      besideBuffer b (s.setRiserAct riser enable survey quiet stepMs idleS) := by
  unfold State.setRiserAct
  split
  · refine ite_commutes (besideBuffer b) (fun _ => rfl) fun _ => ?_
    simp [State.withBuffer_storeRiser, State.withBuffer_applyEnable]
  · rfl

theorem State.withBuffer_clearCheckAct (ports : Nat) :
    (s.withBuffer b).clearCheckAct ports = besideBuffer b (s.clearCheckAct ports) := by
  have clears : (s.withBuffer b).clearChecks (byteOf ports) =
      (s.clearChecks (byteOf ports)).withBuffer b := by
    simp only [State.clearChecks, State.withBuffer_flaggedIn]
    rw [foldl_withBuffer (f := fun t p => t.modifyPort p Port.clearCheck) fun _ _ => rfl,
      foldl_withBuffer fun t p => t.withBuffer_serveDesk b p]
  simp [State.clearCheckAct, clears]

theorem State.withBuffer_setPrivacyAct (flat privacy : Nat) :
    (s.withBuffer b).setPrivacyAct flat privacy = besideBuffer b (s.setPrivacyAct flat privacy) := by
  unfold State.setPrivacyAct
  split
  · simp
  · rfl

theorem State.withBuffer_doorHoldAct (lock tag : Nat) :
    (s.withBuffer b).doorHoldAct lock tag = besideBuffer b (s.doorHoldAct lock tag) := by
  unfold State.doorHoldAct
  split
  · rfl
  · refine ite_commutes (besideBuffer b) (fun _ => rfl) fun _ => ?_
    refine ite_commutes (besideBuffer b) (fun _ => rfl) fun _ => ?_
    refine ite_commutes (besideBuffer b) (fun _ => by simp) fun _ => ?_
    exact ite_commutes (besideBuffer b) (fun _ => rfl) fun _ => rfl

theorem State.withBuffer_doorFreeAct (lock tag : Nat) :
    (s.withBuffer b).doorFreeAct lock tag = besideBuffer b (s.doorFreeAct lock tag) := by
  unfold State.doorFreeAct
  split
  · rfl
  · refine ite_commutes (besideBuffer b) (fun _ => rfl) fun _ => ?_
    exact ite_commutes (besideBuffer b) (fun _ => by simp) fun _ => rfl

theorem State.withBuffer_endCallAct (slot generation : Nat) :
    (s.withBuffer b).endCallAct slot generation = besideBuffer b (s.endCallAct slot generation) := by
  unfold State.endCallAct
  split
  · rfl
  · refine ite_commutes (besideBuffer b) (fun _ => rfl) fun _ => ?_
    dsimp only
    rw [State.withBuffer_call?]
    split
    · rfl
    · simp

theorem State.withBuffer_riserSync (riser num : Nat) :
    (s.withBuffer b).riserSync riser num = (s.riserSync riser num).withBuffer b := by
  unfold State.riserSync
  split
  · rfl
  · refine ite_commutes (State.withBuffer · b) (fun _ => rfl) fun _ => ?_
    refine ite_commutes (State.withBuffer · b) (fun _ => rfl) fun _ => ?_
    exact ite_commutes (State.withBuffer · b) (fun _ => rfl) fun _ => rfl

/-! ## A request taken and answered -/

/-- An answer does not look at the buffer when its owning block and what settles do not. -/
theorem State.withBuffer_answer (kind num : Nat) {settle : State → State}
    {act : State → State × Status × ReplyBody}
    (settles : ∀ t : State, settle (t.withBuffer b) = (settle t).withBuffer b)
    (acts : act (s.withBuffer b) = besideBuffer b (act s)) :
    (s.withBuffer b).answer kind num settle act = (s.answer kind num settle act).withBuffer b := by
  rw [State.answer, acts, State.answer, ← settles]
  rfl

/-- R169: taking a request commutes with what else is in the request buffer. -/
theorem State.withBuffer_takeRequest (c : Instr) :
    State.takeRequest c (s.withBuffer b) = (State.takeRequest c s).withBuffer b := by
  have host := fun t : State => t.withBuffer_settleHost b
  have links := fun t : State => t.withBuffer_settleLinks b
  have all := fun t : State => t.withBuffer_settle b
  unfold State.takeRequest
  cases c with
  | illegalRequest => exact s.withBuffer_answer b _ _ host rfl
  | setPort => exact s.withBuffer_answer b _ _ links (s.withBuffer_setPortAct b ..)
  | setWindow => exact s.withBuffer_answer b _ _ host (s.withBuffer_setWindowAct b ..)
  | setFlat => exact s.withBuffer_answer b _ _ links (s.withBuffer_setFlatAct b ..)
  | setTimes => exact s.withBuffer_answer b _ _ host (s.withBuffer_setTimesAct b ..)
  | setRoute => exact s.withBuffer_answer b _ _ host (s.withBuffer_setRouteAct b ..)
  | setMode => exact s.withBuffer_answer b _ _ host (s.withBuffer_setModeAct b ..)
  | setRiser num riser =>
    dsimp only
    rw [State.takeSetRiser, State.withBuffer_overrunFirst?]
    exact (s.overrunFirst? riser).withBuffer_answer b _ _ all (State.withBuffer_setRiserAct _ b ..)
  | clearCheck => exact s.withBuffer_answer b _ _ links (s.withBuffer_clearCheckAct b _)
  | setPrivacy => exact s.withBuffer_answer b _ _ links (s.withBuffer_setPrivacyAct b ..)
  | doorHold => exact s.withBuffer_answer b _ _ links (s.withBuffer_doorHoldAct b ..)
  | doorFree => exact s.withBuffer_answer b _ _ links (s.withBuffer_doorFreeAct b ..)
  | endCall => exact s.withBuffer_answer b _ _ all (s.withBuffer_endCallAct b ..)
  | queryCall num n => exact s.withBuffer_answer b _ _ host (by cases slot? n <;> rfl)
  | queryWindow num n => exact s.withBuffer_answer b _ _ host (by cases window? n <;> rfl)
  | queryFlat num n => exact s.withBuffer_answer b _ _ host (by cases flat? n <;> rfl)
  | queryPort num n => exact s.withBuffer_answer b _ _ host (by cases port? n <;> rfl)
  | queryLock num n => exact s.withBuffer_answer b _ _ host (by cases port? n <;> rfl)
  | queryRiser num riser =>
    dsimp only
    rw [State.takeQueryRiser, State.withBuffer_overrunFirst?]
    exact (s.overrunFirst? riser).withBuffer_answer b _ _ host (by cases riser? riser <;> rfl)
  | queryStation num riser station =>
    dsimp only
    rw [State.takeQueryStation, State.withBuffer_overrunFirst?]
    refine (s.overrunFirst? riser).withBuffer_answer b _ _ host ?_
    cases riser? riser <;> cases station? station <;> rfl
  | riserSync num riser =>
    dsimp only
    rw [State.takeRiserSync, State.withBuffer_overrunFirst?,
      State.withBuffer_riserSync, State.withBuffer_settleHost]
    rfl
  | restart num kind => exact s.withBuffer_answer b _ _ host (by cases startKind? kind <;> rfl)
  | _ => rfl

end

end Sys2Proof.Machine
end

