-- ==== Sys2Proof/Proofs/BufferServed.lean ====
section
/-!
SUPPORT. The end of a host frame with no start, and the requests then taken from the buffer (R169,
R173), for O21.
-/

namespace Sys2Proof.Machine

/-! ## The requests that frames carry -/

/-- R170: a frame with the body its kind requires carries no ILLEGAL request. -/
theorem requestOf_illegal {f : HostFrame} {kind num : Nat} {body : List Byte}
    (h : requestOf f = .illegalRequest kind num body) : requestBodySize kind ≠ some body.length := by
  unfold requestOf at h
  dsimp only at h
  split at h
  case h_22 =>
    cases h
    unfold requestBodySize
    split <;> simp_all
  all_goals
    split at h
    · cases h
    · next kindIs _ other =>
      cases h
      rw [kindIs]
      refine fun e => absurd (Option.some.inj e).symm ?_
      simpa [List.length_eq_succ_iff, eq_comm (b := f.body)] using other

/-- R196: what a frame carries is a request. -/
theorem requestOf_carried (f : HostFrame) : (frameOf (requestOf f)).isSome := by
  unfold requestOf
  dsimp only
  split
  case h_22 => rfl
  all_goals split <;> rfl

/-- R169: a request that arrives where none waits is handed to its owning block. -/
theorem exec_request {c : Instr} {s : State} (carried : (frameOf c).isSome)
    (legal : ∀ kind num body, c = .illegalRequest kind num body →
      requestBodySize kind ≠ some body.length) (h : s.Takes) :
    exec c s = .next (State.takeRequest c s) := by
  cases c with
  | illegalRequest kind num body =>
    have e : exec (.illegalRequest kind num body) s = .next
        (s.onRequest (.illegalRequest kind num body) fun t => t.takeIllegalRequest kind num) :=
      congrArg Host.Outcome.next (if_neg (legal kind num body rfl))
    exact exec_taken h e
  | setPort => exact exec_taken h rfl
  | setWindow => exact exec_taken h rfl
  | setFlat => exact exec_taken h rfl
  | setTimes => exact exec_taken h rfl
  | setRoute => exact exec_taken h rfl
  | setMode => exact exec_taken h rfl
  | setRiser => exact exec_taken h rfl
  | clearCheck => exact exec_taken h rfl
  | setPrivacy => exact exec_taken h rfl
  | doorHold => exact exec_taken h rfl
  | doorFree => exact exec_taken h rfl
  | endCall => exact exec_taken h rfl
  | queryCall => exact exec_taken h rfl
  | queryWindow => exact exec_taken h rfl
  | queryFlat => exact exec_taken h rfl
  | queryPort => exact exec_taken h rfl
  | queryLock => exact exec_taken h rfl
  | queryRiser => exact exec_taken h rfl
  | queryStation => exact exec_taken h rfl
  | riserSync => exact exec_taken h rfl
  | restart => exact exec_taken h rfl
  | _ => cases carried

/-! ## The buffer at work -/

theorem serveBuffer_stays {s : State} (h : s.hlp.buffer = [] ∨ s.canTake = false) :
    s.serveBuffer = s := by
  unfold State.serveBuffer
  cases e : s.hlp.buffer with
  | nil => rfl
  | cons f rest =>
    have may : s.canTake = false := h.resolve_left (by rw [e]; exact List.cons_ne_nil f rest)
    rw [List.length_cons, State.takeRequests, may]
    rfl

/-- R169: the request at the head is taken as its own command takes it, and the next ones after it. -/
theorem serveBuffer_takes {s t : State} {f : HostFrame} {rest : List HostFrame}
    (may : s.canTake = true) (buffer : s.hlp.buffer = f :: rest)
    (h : exec (requestOf f) (s.withBuffer []) = .next t) :
    s.serveBuffer = State.serveBuffer (t.withBuffer rest) := by
  have takes : (s.withBuffer []).Takes := ⟨may, rfl⟩
  have same : State.takeRequest (requestOf f) (s.withBuffer []) = t := by
    rw [exec_request (requestOf_carried f) (fun _ _ _ => requestOf_illegal) takes] at h
    exact Host.Outcome.next.inj h
  have head : State.takeRequest (requestOf f) (s.withBuffer rest) = t.withBuffer rest := by
    rw [← same, State.withBuffer_takeRequest, State.withBuffer_takeRequest]
    rfl
  unfold State.serveBuffer
  rw [buffer, List.length_cons, State.takeRequests, if_pos may, buffer]
  exact congrArg (State.takeRequests rest.length) head

/-! ## The next frame on the host line -/

/-- R173: with no start, the transmitter becomes IDLE and chooses afresh. -/
theorem exec_hostTxEnd {s : State} (busy : s.hlp.tx ≠ .idle)
    (starts : ∀ r, s.hlp.tx = .reply r → r.kind = 0x15 → r.status = .ok → s.hlp.startDue = none) :
    exec .hostTxEnd s = .next s.hostLineFree := by
  show execHostTxEnd s = _
  unfold execHostTxEnd
  cases e : s.hlp.tx with
  | idle => exact absurd e busy
  | notice n => rfl
  | reply r =>
    dsimp only
    split
    · next due restart =>
      obtain ⟨kind, status⟩ : r.kind = 0x15 ∧ r.status = .ok := by
        simpa [Reply.isRestartOk] using restart
      rw [starts r e kind status] at due
      cases due
    · rfl

end Sys2Proof.Machine
end

