-- ==== Sys2Proof/Proofs/StartsAtLineEnd.lean ====
section
/-!
SUPPORT. The starts at the end of a host frame (R97, R98, R137, R178, R180), for O21.
-/

namespace Sys2Proof.Machine

/-! ## Risers with nothing to do -/

/-- A riser that has nothing to send and no run-out mark. -/
structure Riser.Still (x : Riser) : Prop where
  queue   : x.queue = []
  resends : x.resends = []
  runOut  : x.runOut = false

theorem settleRiser_still {s : State} {r : RiserIx} (h : (s.riser r).Still) : s.settleRiser r = s := by
  have markers : s.completeMarkers r = s := by
    unfold State.completeMarkers
    rw [h.queue]
    exact State.modifyRiser_same (f := fun x => { x with queue := [] }) (by rw [← h.queue])
  have line : s.startTransmission r = s := by
    unfold State.startTransmission
    dsimp only
    rw [h.resends, h.queue]
    split
    · rfl
    · rfl
  have stays : s.goQuiet r = s := by
    unfold State.goQuiet
    dsimp only
    rw [if_neg (by simp [h.runOut])]
  rw [State.settleRiser, markers, line, stays]

theorem settleRisers_still {s : State} (h : ∀ r, (s.riser r).Still) : s.settleRisers = s := by
  have fold : ∀ l : List RiserIx, l.foldl State.settleRiser s = s := fun l => by
    induction l with
    | nil => rfl
    | cons r l ih => rw [List.foldl_cons, settleRiser_still (h r), ih]
  exact fold _

/-! ## The host line after a start -/

/-- The links after a start: the host link port at its first values and the START notice alone on its
way out (R180, R181). -/
structure StartSent (routes : Table 13 Route) (kind : StartKind) (t : State) : Prop where
  link    : LinkStarted t
  notices : t.noticeLine = [{ lostMark := false, content := .start kind .host }]
  routes  : t.ntu.routes = routes
  lost    : t.ntu.lost = false

/-- What is placed for the panels goes on their lines, and the START notice on the host line, unless the
reset pin holds it. -/
theorem settle_started {u : State} {routes : Table 13 Route} {kind : StartKind}
    (hlp : u.hlp = Hlp.started) (ntu : u.ntu = Ntu.started routes kind .host)
    (still : ∀ r, (u.riser r).Still) :
    u.settle = { u with ports := Table.mapEach Port.startTransmission u.ports
                        hlp := u.settle.hlp, ntu := u.settle.ntu } ∧
      StartSent routes kind u.settle := by
  have panels : u.settle = u.settlePanels.settleHost := by
    rw [State.settle, settleRisers_still still]
    rfl
  have hlp' : u.settlePanels.hlp = Hlp.started := hlp
  have ntu' : u.settlePanels.ntu = Ntu.started routes kind .host := ntu
  rw [panels]
  unfold State.settleHost
  rw [hlp', ntu']
  split
  · exact ⟨rfl, ⟨rfl, rfl, rfl, rfl, rfl, rfl⟩, rfl, rfl, rfl⟩
  · refine ⟨rfl, ?_, ?_, by rw [ntu']; rfl, by rw [ntu']; rfl⟩
    · constructor <;> rw [hlp'] <;> rfl
    · rw [State.noticeLine, hlp', ntu']
      rfl

/-! ## A cold start -/

/-- R97: every block is at its first values, and no panel has anything to be sent. -/
theorem coldValues_of_coldStart {s t : State} {cause : StartCause}
    (routes : t.ntu.routes = coldRoutes) (lost : t.ntu.lost = false)
    (h : t = { s.coldStart cause with
      ports := Table.mapEach Port.startTransmission (s.coldStart cause).ports
      hlp := t.hlp, ntu := t.ntu }) :
    ColdValues t ∧ (∀ r, (t.riser r).line = (s.riser r).line) ∧
      ∀ p, (t.port p).present = (s.port p).present := by
  have risers : ∀ r, t.riser r = Riser.cold (s.riser r).line := fun r => by
    rw [h]
    exact Table.read_mapEach ..
  have ports : ∀ p, t.port p = Port.cold (s.port p).present := fun p => by
    have cold : (s.coldStart cause).port p = Port.cold (s.port p).present := Table.read_mapEach ..
    have line : t.port p = ((s.coldStart cause).port p).startTransmission := by
      rw [h]
      exact Table.read_mapEach ..
    rw [line, cold, Port.startTransmission, if_neg (by simp [Port.cold])]
  have same : t.ccu = Ccu.cold ∧ t.dir = Dir.cold ∧ t.psw = Psw.cold ∧
      t.locks = Table.fill 8 Lock.cold := by
    rw [h]
    exact ⟨rfl, rfl, rfl, rfl⟩
  obtain ⟨ccu, dir, psw, locks⟩ := same
  refine ⟨?_, fun r => by rw [risers]; rfl, fun p => by rw [ports]; rfl⟩
  exact {
    slots := fun i => by rw [State.slot, ccu]; exact Table.read_fill ..
    times := by rw [ccu]; rfl
    intercept := by rw [ccu]; rfl
    served := by rw [dir]; rfl
    windows := fun i => by rw [dir]; exact Table.read_fill ..
    flats := fun i => by rw [State.flat, dir]; exact Table.read_fill ..
    paths := fun r => by rw [State.paths, psw]; exact Table.read_fill ..
    holds := fun p => by rw [State.hold, psw]; exact Table.read_fill ..
    joins := by rw [psw]; rfl
    deskQueue := by rw [psw]; rfl
    risers := fun r => by rw [risers]; rfl
    stations := fun r a => by rw [risers]; exact Table.read_fill ..
    ports := fun p => by rw [ports]; rfl
    locks := fun p => by rw [State.lock, locks]; exact Table.read_fill ..
    routes := fun k => by rw [routes]; exact Table.read_fill ..
    lost := lost }

/-! ## A warm start -/

theorem warmStart_riser (s : State) (cause : StartCause) (r : RiserIx) :
    (s.warmStart cause).riser r = Riser.warm s.clock (s.riser r) := Table.read_mapEach ..

/-- R132, R137: a desk set is sent RING(off) first and READY waits behind it; an entrance panel is sent
READY. -/
theorem Port.startTransmission_warm (x : Port) :
    x.warm.startTransmission =
      { function := x.function, intercept := x.intercept, present := x.present, check := x.check,
        lastDisplay := .ready,
        displaySlot :=
          if (x.present = true ∧ x.function ≠ .off) ∧ x.function = .concierge then some .ready
          else none,
        ringSlot := none, alertSlot := none,
        tx :=
          if x.present = true ∧ x.function ≠ .off then
            if x.function = .concierge then some (.ring .off) else some (.display .ready)
          else none,
        receiving := none } := by
  cases present : x.present <;> cases function : x.function <;>
    simp [Port.warm, Port.startTransmission, present, function]

/-- R33, R98, R137, R166: calls and frames in flight are discarded and the configuration is kept. -/
theorem warmValues_of_warmStart {s t : State} {cause : StartCause}
    (routes : t.ntu.routes = s.ntu.routes) (lost : t.ntu.lost = false)
    (h : t = { s.warmStart cause with
      ports := Table.mapEach Port.startTransmission (s.warmStart cause).ports
      hlp := t.hlp, ntu := t.ntu }) : WarmValues s t := by
  have risers : ∀ r, t.riser r = Riser.warm s.clock (s.riser r) := fun r => by
    rw [h]
    exact Table.read_mapEach ..
  have ports : ∀ p, t.port p = (s.port p).warm.startTransmission := fun p => by
    have warm : (s.warmStart cause).port p = (s.port p).warm := Table.read_mapEach ..
    rw [← warm, h]
    exact Table.read_mapEach ..
  have same : t.ccu = { s.ccu with slots := Table.mapEach Slot.warm s.ccu.slots } ∧ t.dir = s.dir ∧
      t.psw = Psw.cold ∧ t.locks = Table.mapEach Lock.warm s.locks := by
    rw [h]
    exact ⟨rfl, rfl, rfl, rfl⟩
  obtain ⟨ccu, dir, psw, locks⟩ := same
  exact {
    slots := fun i => by rw [State.slot, ccu]; exact Table.read_mapEach ..
    times := by rw [ccu]
    intercept := by rw [ccu]
    dir := dir
    paths := fun r => by rw [State.paths, psw]; exact Table.read_fill ..
    holds := fun p => by rw [State.hold, psw]; exact Table.read_fill ..
    joins := by rw [psw]; rfl
    deskQueue := by rw [psw]; rfl
    risers := fun r => by rw [risers]; rfl
    stations := fun r a => by rw [risers]; exact Table.read_mapEach ..
    ports := fun p => by rw [ports]; exact (s.port p).startTransmission_warm
    locks := fun p => by rw [State.lock, locks, Table.read_mapEach]; rfl
    routes := routes
    lost := lost }

/-! ## The start at the end of the RESTART reply -/

/-- R178: the start that is due happens when the reply of its RESTART has been sent. -/
theorem exec_hostTxEnd_starts {s : State} {r : Reply} {k : StartKind} (tx : s.hlp.tx = .reply r)
    (kind : r.kind = 0x15) (status : r.status = .ok) (due : s.hlp.startDue = some k) :
    exec .hostTxEnd s = .next (s.start k .host).settle := by
  have restart : r.isRestartOk = true := by simp [Reply.isRestartOk, kind, status]
  show execHostTxEnd s = _
  unfold execHostTxEnd
  rw [tx]
  dsimp only
  rw [due, restart]

theorem coldStart_settles (s : State) :
    let t := (s.coldStart .host).settle
    ColdValues t ∧ StartSent coldRoutes .cold t ∧ (∀ r, (t.riser r).line = (s.riser r).line) ∧
      (∀ p, (t.port p).present = (s.port p).present) ∧ t.pending = s.pending ∧ t.clock = s.clock ∧
      t.resetHeld = s.resetHeld := by
  intro t
  have still : ∀ r, ((s.coldStart .host).riser r).Still := fun r => by
    rw [show (s.coldStart .host).riser r = Riser.cold (s.riser r).line from Table.read_mapEach ..]
    exact ⟨rfl, rfl, rfl⟩
  obtain ⟨blocks, sent⟩ := settle_started (u := s.coldStart .host) rfl rfl still
  obtain ⟨values, lines, present⟩ := coldValues_of_coldStart sent.routes sent.lost blocks
  have outside : t.pending = s.pending ∧ t.clock = s.clock ∧ t.resetHeld = s.resetHeld := by
    rw [show t = _ from blocks]
    exact ⟨rfl, rfl, rfl⟩
  exact ⟨values, sent, lines, present, outside⟩

theorem warmStart_settles (s : State) :
    let t := (s.warmStart .host).settle
    WarmValues s t ∧ StartSent s.ntu.routes .warm t ∧ t.pending = s.pending ∧ t.clock = s.clock ∧
      t.resetHeld = s.resetHeld := by
  intro t
  have still : ∀ r, ((s.warmStart .host).riser r).Still := fun r => by
    rw [warmStart_riser]
    exact ⟨rfl, rfl, rfl⟩
  obtain ⟨blocks, sent⟩ := settle_started (u := s.warmStart .host) rfl rfl still
  have outside : t.pending = s.pending ∧ t.clock = s.clock ∧ t.resetHeld = s.resetHeld := by
    rw [show t = _ from blocks]
    exact ⟨rfl, rfl, rfl⟩
  have values := warmValues_of_warmStart (s := s) (t := (s.warmStart .host).settle) sent.routes sent.lost
    blocks
  exact ⟨values, sent, outside⟩

/-- Settles O21: with no start the freed line sends the next frame and then the buffer is served, each
request without regard to those behind it; with one, every block is at its values and the START notice
alone goes out. -/
theorem hostLineEndStartsNextFrameOrStart : Obligations.HostLineEndStartsNextFrameOrStart := by
  unfold Obligations.HostLineEndStartsNextFrameOrStart
  refine ⟨fun s busy held starts => ?_, fun s => ⟨serveBuffer_stays, fun f rest t may buffer =>
    serveBuffer_takes may buffer⟩, fun s r tx kind status => ⟨fun due => ?_, fun due => ?_⟩⟩
  · have free : ∀ u : State, ({ s with hlp := { s.hlp with tx := .idle } } : State).settleHost = u →
        exec .hostTxEnd s = .next u.serveBuffer := fun u e => by
      rw [exec_hostTxEnd busy starts, State.hostLineFree, e]
    have idle : s.resetHeld = false ∧ HostTx.idle = HostTx.idle := ⟨held, rfl⟩
    refine ⟨fun x rest ready => free _ ?_, fun n rest ready notices => free _ ?_,
      fun ready notices => free _ ?_⟩
    · rw [State.settleHost, if_pos idle]
      dsimp only
      rw [ready]
    · rw [State.settleHost, if_pos idle]
      dsimp only
      rw [ready, notices]
    · rw [State.settleHost, if_pos idle]
      dsimp only
      rw [ready, notices]
  · obtain ⟨values, sent, lines, present, outside⟩ := coldStart_settles s
    exact ⟨_, exec_hostTxEnd_starts tx kind status due, values, sent.link, sent.notices, lines, present,
      outside⟩
  · obtain ⟨values, sent, outside⟩ := warmStart_settles s
    exact ⟨_, exec_hostTxEnd_starts tx kind status due, values, sent.link, sent.notices, outside⟩

end Sys2Proof.Machine
end

