-- ==== Sys2Proof/Proofs/FlagsKept.lean ====
section
/-!
SUPPORT. The induction over everything a step can do, packaged once for the laws of the directory: a
predicate that reads the flats and the stations' privacy flags alone, and that the few operations on those
keep, is kept by every step.
-/

namespace Sys2Proof.Machine

/-- The same flat records, and the same privacy flag of every station. -/
structure SameFlags (s t : State) : Prop where
  flats : ∀ i, t.flat i = s.flat i
  flags : ∀ r a, ((t.riser r).station a).privacy = ((s.riser r).station a).privacy

namespace SameFlags
variable {s t u : State}

theorem refl (s : State) : SameFlags s s := ⟨fun _ => rfl, fun _ _ => rfl⟩

theorem trans (h : SameFlags s t) (k : SameFlags t u) : SameFlags s u :=
  ⟨fun i => (k.flats i).trans (h.flats i), fun r a => (k.flags r a).trans (h.flags r a)⟩

theorem of_blocks (dir : t.dir = s.dir) (risers : t.risers = s.risers) : SameFlags s t :=
  ⟨State.flat_congr dir, fun r _ => by rw [State.riser_congr risers r]⟩

theorem of_event (h : CallEventKept s t) : SameFlags s t :=
  ⟨State.flat_congr h.dir, fun r a => by rw [(h.risers r).station]⟩

theorem of_settled (h : Settled s t) : SameFlags s t := .of_event h.callEventKept

theorem of_moves (m : CallMoves s t) : SameFlags s t := .of_event m.callEventKept

theorem emit (s : State) (e : Event) : SameFlags s (s.emit e) :=
  .of_blocks (State.emit_dir s e) (State.emit_risers s e)

theorem advanced (s : State) (e : Nat) : SameFlags s (s.advanceTo e) := .of_blocks rfl rfl

theorem modifyPort (s : State) (p : PortIx) (f : Port → Port) : SameFlags s (s.modifyPort p f) :=
  .of_blocks rfl rfl

theorem setLock (s : State) (p : PortIx) (l : Lock) : SameFlags s (s.setLock p l) :=
  .of_blocks rfl rfl

theorem emitted (h : SameFlags s t) (e : Event) : SameFlags s (t.emit e) := h.trans (.emit t e)

theorem foldl {α : Type} {f : State → α → State} (hf : ∀ s a, SameFlags s (f s a)) (l : List α)
    (s : State) : SameFlags s (l.foldl f s) := by
  induction l generalizing s with
  | nil => exact refl s
  | cons a l ih => exact (hf s a).trans (ih _)

/-- A change of one riser record that leaves the flags of its stations. -/
theorem modifyRiser (s : State) (x : RiserIx) {f : Riser → Riser}
    (h : ∀ (y : Riser) a, ((f y).station a).privacy = (y.station a).privacy := by
      exact fun _ _ => rfl) :
    SameFlags s (s.modifyRiser x f) where
  flats _ := rfl
  flags r a := by
    rw [State.riser_modifyRiser]
    split
    · next e => subst e; exact h _ a
    · rfl

/-- R92: presence and flag of a station are kept apart. -/
theorem setPresence (s : State) (x : RiserIx) (a : Nat) (p : Presence) :
    SameFlags s (s.modifyRiser x fun y => y.modifyStation a fun t => { t with presence := p }) := by
  refine .modifyRiser s x fun y b => ?_
  by_cases range : 1 ≤ a ∧ a ≤ 62
  · rw [station_modifyStation y range]
    split
    · next e => subst e; rfl
    · rfl
  · have none : station? a = none := dif_neg range
    unfold Riser.modifyStation
    rw [none]

/-! ## Operations of a riser controller -/

theorem startIdle (s : State) (x : RiserIx) : SameFlags s (s.startIdle x) := by
  unfold State.startIdle
  split
  · exact .modifyRiser s x
  · exact .refl s

theorem enterActive (s : State) (x : RiserIx) : SameFlags s (s.enterActive x) := .modifyRiser s x

theorem stationHeard (s : State) (x : RiserIx) (a : Nat) : SameFlags s (s.stationHeard x a) := by
  have heard := setPresence s x a .present
  unfold State.stationHeard
  dsimp only
  split
  · exact heard.trans (.emit ..)
  · exact heard

theorem flushRiser (s : State) (x : RiserIx) : SameFlags s (s.flushRiser x) := by
  have request : ∀ (t : State) (o : Outstanding), SameFlags t (t.completeOutstandingFaulted o) :=
    fun t o => by
      unfold State.completeOutstandingFaulted
      split
      · exact .of_moves (completeFaulted_moves ..)
      · exact .refl t
  have entry : ∀ (t : State) (i : QueueItem), SameFlags t (State.flushEntry x t i) := fun t i => by
    unfold State.flushEntry
    split
    · exact .refl t
    · exact .of_settled (syncDone_settled ..)
    · split
      · exact .refl t
      · exact .of_moves (completeFaulted_moves ..)
    · exact .refl t
  unfold State.flushRiser
  exact ((foldl request _ s).trans (foldl entry _ _)).trans (.modifyRiser _ x)

theorem takeStationFrame (s : State) (x : RiserIx) (a : Nat) (v : Bool) :
    SameFlags s (s.takeStationFrame x a v) := by
  have received := SameFlags.modifyRiser s x (f := fun y => { y with receiving := none })
  have heard : ∀ t : State, SameFlags s t → SameFlags s
      (if v then (t.stationHeard x a).startIdle x else t.stationHeard x a) := fun t h => by
    split
    · exact (h.trans (.stationHeard ..)).trans (.startIdle ..)
    · exact h.trans (.stationHeard ..)
  unfold State.takeStationFrame
  refine heard _ ?_
  split
  · exact received.trans (.enterActive ..)
  · exact received

theorem settleLine (s : State) (x : RiserIx) : SameFlags s (s.settleLine x) :=
  .of_settled ((settleRiser_settled s x).trans (settleHost_settled _))

theorem badStationFrame (s : State) (x : RiserIx) : SameFlags s (s.badStationFrame x) :=
  (SameFlags.modifyRiser s x).trans (.settleLine ..)

theorem endTransmission (s : State) (x : RiserIx) (tx : RiserTx) :
    SameFlags s (s.endTransmission x tx) := by
  unfold State.endTransmission
  split
  · exact (SameFlags.modifyRiser s x).trans (.startIdle ..)
  · dsimp only
    split
    · exact .modifyRiser s x
    · exact (SameFlags.modifyRiser s x).trans (.startIdle ..)
  · dsimp only
    split
    · exact .modifyRiser s x
    · exact (SameFlags.modifyRiser s x).trans (.startIdle ..)
  · exact .modifyRiser s x

theorem surveyPoll (s : State) (x : RiserIx) : SameFlags s (s.surveyPoll x) := by
  have h := SameFlags.of_moves (solicit_moves s x (.poll (s.riser x).surveyPos))
  unfold State.surveyPoll
  split
  · split
    · next e =>
      rw [e] at h
      exact h.trans (.modifyRiser _ x)
    · next e => rw [e] at h; exact h
  · exact .refl s

theorem secondAttempt (s : State) (x : RiserIx) (o : Outstanding) :
    SameFlags s (s.secondAttempt x o) := by
  unfold State.secondAttempt
  split <;> exact .modifyRiser s x

/-! ## Doors -/

theorem releaseRequest (s : State) (r : Ref) (p : PortIx) (h : Option (FlatIx × Nat)) :
    SameFlags s (s.releaseRequest r p h).1 := by
  have opened : SameFlags s (s.openFor p r) := .setLock ..
  unfold State.releaseRequest
  split
  · exact .refl s
  · dsimp only
    split
    · exact .emit ..
    · split
      · exact (opened.emitted _).trans (.of_blocks rfl rfl)
      · split
        · exact opened.trans (.of_blocks rfl rfl)
        · exact .refl s

theorem handsetDoor (s : State) (x : RiserIx) (a : Nat) : SameFlags s (s.handsetDoor x a) := by
  unfold State.handsetDoor
  split
  · split
    · exact (releaseRequest ..).trans (.of_moves (advise_moves ..))
    · exact .of_moves (advise_moves ..)
  · exact .of_moves (advise_moves ..)

theorem deskDoor (s : State) (p : PortIx) : SameFlags s (s.after (execDeskDoor p s)) := by
  have ended : SameFlags s (s.panelFrameEnd p) := .modifyPort ..
  have shown : ∀ (t : State) d, SameFlags t (t.display p d) := fun _ _ => .modifyPort ..
  simp only [execDeskDoor, State.after]
  unfold State.onPanelFrame
  dsimp only
  split
  · refine ended.trans (SameFlags.trans ?_ (.of_settled (settleLinks_settled _)))
    split
    · split
      · exact (releaseRequest ..).trans (shown _ _)
      · exact shown _ _
    · exact shown _ _
  · exact ended

/-! ## Settings that no flag hangs on -/

theorem setPortAct (s : State) (port function intercept releaseTime : Nat) :
    SameFlags s (s.setPortAct port function intercept releaseTime).1 := by
  unfold State.setPortAct
  split
  · split
    · exact .refl s
    · split
      · exact .refl s
      · unfold State.storePort
        dsimp only
        split
        · split
          · refine SameFlags.trans ?_ (.of_moves (serveDesk_moves ..))
            exact .of_blocks rfl rfl
          · exact .of_blocks rfl rfl
        · exact .of_blocks rfl rfl
  · exact .refl s

theorem clearChecks (s : State) (set : BitVec 8) : SameFlags s (s.clearChecks set) := by
  unfold State.clearChecks
  exact (foldl (fun t p => .modifyPort t p Port.clearCheck) _ s).trans
    (foldl (fun t p => of_moves (serveDesk_moves t p)) _ _)

theorem endCallAct (s : State) (slot generation : Nat) :
    SameFlags s (s.endCallAct slot generation).1 := by
  unfold State.endCallAct
  split
  · exact .refl s
  · split
    · exact .refl s
    · dsimp only
      split
      · exact .refl s
      · exact .of_moves (endCall_moves ..)

theorem doorHoldAct (s : State) (lock tag : Nat) : SameFlags s (s.doorHoldAct lock tag).1 := by
  unfold State.doorHoldAct
  split
  · exact .refl s
  · split
    · exact .refl s
    · split
      · exact .refl s
      · split
        · exact (SameFlags.setLock ..).emitted _
        · split <;> exact .refl s

theorem doorFreeAct (s : State) (lock tag : Nat) : SameFlags s (s.doorFreeAct lock tag).1 := by
  unfold State.doorFreeAct
  split
  · exact .refl s
  · split
    · exact .refl s
    · split
      · exact (SameFlags.setLock ..).emitted _
      · exact .refl s

theorem placeMarker (s : State) (x : RiserIx) (num : Nat) : SameFlags s (s.placeMarker x num) where
  flats _ := rfl
  flags := (SameFlags.modifyRiser s x (f := fun y =>
    { y with queue := y.queue ++ [{ entry := .marker num, sending := false }] })).flags

theorem riserSync (s : State) (riser num : Nat) : SameFlags s (s.riserSync riser num) := by
  have answered : ∀ st b, SameFlags s (s.reply 0x14 num st b) := fun _ _ => .of_blocks rfl rfl
  unfold State.riserSync
  split
  · exact answered ..
  · split
    · exact answered ..
    · split
      · exact answered ..
      · split
        · exact .placeMarker ..
        · exact answered ..

theorem storeRiser (s : State) (x : RiserIx) (v q : Bool) (a b : Nat) :
    SameFlags s (s.storeRiser x v q a b) := by
  have stored := SameFlags.modifyRiser s x (f := fun y =>
    { y with survey := v, quietAllowed := q, surveyStepMs := a, quietIdleS := b })
  have timed : ∀ {c d : Prop} [Decidable c] [Decidable d] {t u w : State}, SameFlags s t →
      SameFlags s u → SameFlags s w → SameFlags s (if c then t else if d then u else w) := by
    intro c d _ _ t u w ht hu hw
    split
    · exact ht
    · split
      · exact hu
      · exact hw
  have done := timed (c := (s.riser x).link = .active ∧ (s.riser x).survey = false ∧ v = true)
    (d := (s.riser x).survey = true ∧ v = false)
    (stored.trans (SameFlags.modifyRiser _ x (f := fun y =>
      { y with stepTimer := some (s.inMs y.surveyStepMs) })))
    (stored.trans (SameFlags.modifyRiser _ x (f := fun y => { y with stepTimer := none }))) stored
  unfold State.storeRiser
  dsimp only
  split
  · exact done.trans (.of_moves (.one (.wake ..)))
  · exact done

end SameFlags

/-- R33, R52, R98: a warm start keeps the directory and the stations' flags. -/
theorem warmStart_sameFlags (s : State) (cause : StartCause) : SameFlags s (s.warmStart cause) where
  flats _ := rfl
  flags r a := by
    have warm : (s.warmStart cause).riser r = (s.riser r).warm s.clock := Table.read_mapEach ..
    rw [warm]
    unfold Riser.station
    split
    · next i _ =>
      have same : ((s.riser r).warm s.clock).stations.read i =
          { (s.riser r).stations.read i with presence := .unknown } := Table.read_mapEach ..
      rw [same]
    · rfl

/-! ## The package -/

/-- What a predicate on the flats and the flags has to be kept by, for every step to keep it. -/
structure KeptByFlags (L : State → Prop) : Prop where
  same      : ∀ {s t : State}, L s → SameFlags s t → L t
  cold      : ∀ (s : State) (cause : StartCause), L (s.coldStart cause)
  flagged   : ∀ {s : State} (x : RiserIx) (a : Nat) (v : Bool), L s → L (s.setStationPrivacy x a v)
  forgotten : ∀ {s : State} (x : RiserIx), L s → L (s.forgetStations x)
  stored    : ∀ {s : State} {i : FlatIx} {v : Bool} {r : RiserIx} {first count : Nat} (d : Bool)
    (doors : BitVec 8), L s → (v = true → s.flatConflict i r first count = false) →
    L (s.storeFlat i v r first count d doors)
  levelled  : ∀ {s : State} (i : FlatIx) (v : Bool), L s →
    L ((s.setFlat i { s.flat i with hostPrivacy := v }).recomputeFlat i)

namespace KeptByFlags
variable {L : State → Prop}

theorem moved (K : KeptByFlags L) {s t : State} (h : L s) (m : CallMoves s t) : L t :=
  K.same h (.of_moves m)

theorem settled (K : KeptByFlags L) {s t : State} (h : L s) (k : Settled s t) : L t :=
  K.same h (.of_settled k)

theorem folded {α : Type} {f : State → α → State} (hf : ∀ s a, L s → L (f s a)) (l : List α)
    {s : State} (h : L s) : L (l.foldl f s) := by
  induction l generalizing s with
  | nil => exact h
  | cons a l ih => exact ih (hf s a h)

/-! ## Risers -/

theorem failRiser (K : KeptByFlags L) {s : State} (x : RiserIx) (l : LinkState) (c : RiserCause)
    (why : EndReason) (h : L s) : L (s.failRiser x l c why) :=
  K.forgotten x (K.moved (K.same h
    (((SameFlags.modifyRiser s x).trans (.flushRiser ..)).trans (.emit ..))) (failCalls_moves ..))

theorem overrunFirst (K : KeptByFlags L) {s : State} (x : RiserIx) (h : L s) :
    L (s.overrunFirst x) := by
  unfold State.overrunFirst
  split
  · exact K.settled (K.same (K.failRiser x .active .overrun .faultRiserOverrun h) (.enterActive ..))
      (settle_settled _)
  · exact h

theorem overrunFirst? (K : KeptByFlags L) {s : State} (n : Nat) (h : L s) :
    L (s.overrunFirst? n) := by
  unfold State.overrunFirst?
  split
  · exact K.overrunFirst _ h
  · exact h

theorem stationLost (K : KeptByFlags L) {s : State} (x : RiserIx) (a : Nat) (h : L s) :
    L (s.stationLost x a) := by
  have lost := SameFlags.setPresence s x a .absent
  unfold State.stationLost
  refine K.flagged x a false (K.same h ?_)
  split
  · exact lost.trans (.emit ..)
  · exact lost

theorem onStationFrame (K : KeptByFlags L) {s : State} {x : RiserIx} {a : Nat} {act : State → State}
    (hact : ∀ t, L t → L (act t)) (h : L s) : L (s.onStationFrame x a act) := by
  have first := K.overrunFirst x h
  unfold State.onStationFrame
  dsimp only
  split
  · exact first
  · split
    · exact K.settled (hact _ first) (settle_settled _)
    · exact K.same first (.badStationFrame ..)

theorem takeReply (K : KeptByFlags L) {s : State} (x : RiserIx) (a tag res v : Nat) (h : L s) :
    L (s.takeReply x a tag res v) := by
  unfold State.takeReply
  split
  · exact K.same h (.takeStationFrame ..)
  · have taken : ∀ b, L (((s.takeStationFrame x a b).setStationPrivacy x a
        (privacyLevel v)).modifyRiser x fun y => y.dropRequest tag) := fun b =>
      K.same (K.flagged x a _ (K.same h (.takeStationFrame ..))) (.modifyRiser _ x)
    dsimp only
    split
    · exact K.moved (taken _) (complete_moves ..)
    · exact taken _

theorem takeStationCommand (K : KeptByFlags L) {s : State} (c : Instr) (h : L s) :
    L (s.takeStationCommand c) := by
  have heard : ∀ {t : State} (x : RiserIx) (a : Nat), L t → L (t.takeStationFrame x a true) :=
    fun x a ht => K.same ht (.takeStationFrame ..)
  unfold State.takeStationCommand
  split
  · simp only [execStationReply, State.after]
    exact K.onStationFrame (fun t ht => K.takeReply _ _ _ _ _ ht) h
  · simp only [execStationLift, State.after]
    exact K.onStationFrame (fun t ht => K.moved (heard _ _ ht) (lift_moves ..)) h
  · simp only [execStationHangup, State.after]
    exact K.onStationFrame (fun t ht => K.moved (heard _ _ ht) (hangup_moves ..)) h
  · simp only [execStationDoor, State.after]
    exact K.onStationFrame (fun t ht => K.same (heard _ _ ht) (.handsetDoor ..)) h
  · simp only [execStationPrivacyOn, State.after]
    exact K.onStationFrame (fun t ht => K.flagged _ _ _ (heard _ _ ht)) h
  · simp only [execStationPrivacyOff, State.after]
    exact K.onStationFrame (fun t ht => K.flagged _ _ _ (heard _ _ ht)) h
  · simp only [execUnknownStationFrame, State.after]
    refine K.onStationFrame (fun t ht => ?_) h
    split
    · exact K.same ht (.badStationFrame ..)
    · split
      · exact K.moved (heard _ _ ht) (advise_moves ..)
      · exact heard _ _ ht
  · simp only [execRiserBadFrame, State.after]
    exact K.same (K.overrunFirst _ h) (.badStationFrame ..)
  · exact h

theorem riserByte (K : KeptByFlags L) (x : RiserIx) (s : State) (b : Byte) (h : L s) :
    L (State.riserByte x s b) := by
  have first := K.overrunFirst x h
  unfold State.riserByte
  dsimp only
  split
  · split
    · exact K.same first (.modifyRiser _ x)
    · split
      · exact first
      · exact K.same first (.badStationFrame ..)
    · exact K.takeStationCommand _ (K.same first (.modifyRiser _ x))
  · exact first

theorem lineSense (K : KeptByFlags L) {s : State} (x : RiserIx) (c : LineCondition) (h : L s) :
    L (s.lineSense x c) := by
  have recorded : L (s.modifyRiser x fun y => { y with line := c }) := K.same h (.modifyRiser s x)
  unfold State.lineSense
  dsimp only
  split
  · exact recorded
  · split
    · exact K.same recorded ((SameFlags.enterActive ..).trans (.emit ..))
    · exact recorded
  · split
    · exact recorded
    · exact K.failRiser _ _ _ _ (K.same h (.modifyRiser s x))

theorem noReply (K : KeptByFlags L) {s : State} (x : RiserIx) (o : Outstanding) (h : L s) :
    L (s.noReply x o) := by
  have dropped : L (s.modifyRiser x fun y => y.dropRequest o.tag) := K.same h (.modifyRiser s x)
  have lost : ∀ a, L (if o.cancelPending then s.modifyRiser x (fun y => y.dropRequest o.tag)
      else (s.modifyRiser x fun y => y.dropRequest o.tag).stationLost x a) := fun a => by
    split
    · exact dropped
    · exact K.stationLost x a dropped
  unfold State.noReply
  dsimp only
  split
  · exact K.moved (lost _) (complete_moves ..)
  · exact lost _

theorem replyTimeout (K : KeptByFlags L) {s : State} (x : RiserIx) (tag : Nat) (h : L s) :
    L (s.after (execReplyTimeout x tag s)) := by
  have first := K.overrunFirst x h
  simp only [execReplyTimeout, State.after]
  split
  · exact first
  · split
    · exact first
    · next e _ =>
      have due : L ((s.overrunFirst x).advanceTo e) := K.same first (.advanced ..)
      refine K.settled ?_ (settle_settled _)
      split
      · exact K.same due (.secondAttempt ..)
      · exact K.noReply x _ due

/-! ## Requests of the host -/

theorem answer (K : KeptByFlags L) {s : State} {k n : Nat} {st : State → State}
    {act : State → State × Status × ReplyBody} (hst : ∀ t, Settled t (st t)) (hact : L (act s).1) :
    L (s.answer k n st act) := by
  unfold State.answer
  refine K.settled ?_ (hst _)
  exact K.same hact (.of_blocks rfl rfl)

/-- A request that no flat record and no flag hangs on. -/
theorem answer_same (K : KeptByFlags L) {s : State} {k n : Nat} {st : State → State}
    {act : State → State × Status × ReplyBody} (hst : ∀ t, Settled t (st t)) (h : L s)
    (hact : SameFlags s (act s).1) : L (s.answer k n st act) :=
  K.answer hst (K.same h hact)

theorem takeSetFlat (K : KeptByFlags L) {s : State} (num f v r a n d o : Nat) (h : L s) :
    L (s.takeSetFlat num f v r a n d o) := by
  refine K.answer settleLinks_settled ?_
  unfold State.setFlatAct
  split
  · split
    · exact h
    · split
      · exact h
      · split
        · exact h
        · next apart => exact K.stored _ _ h fun e => by simpa [e] using apart
  · exact h

theorem disableRiser (K : KeptByFlags L) {s : State} (x : RiserIx) (h : L s) :
    L (s.disableRiser x) := by
  unfold State.disableRiser
  exact K.same (K.forgotten x (K.same h ((SameFlags.modifyRiser s x).trans (.flushRiser ..))))
    ((SameFlags.modifyRiser _ x).trans (.emit ..))

theorem enableRiser (K : KeptByFlags L) {s : State} (x : RiserIx) (h : L s) :
    L (s.enableRiser x) := by
  unfold State.enableRiser
  split
  · exact K.same h ((SameFlags.enterActive ..).trans (.emit ..))
  · exact K.same h ((SameFlags.modifyRiser s x).trans (.emit ..))

theorem takeSetRiser (K : KeptByFlags L) {s : State} (num r e v q a b : Nat) (h : L s) :
    L (s.takeSetRiser num r e v q a b) := by
  have first := K.overrunFirst? r h
  refine K.answer settle_settled ?_
  unfold State.setRiserAct
  split
  · split
    · exact first
    · refine K.settled ?_ (goQuiet_settled ..)
      have stored : ∀ x v q a b, L ((s.overrunFirst? r).storeRiser x v q a b) :=
        fun x v q a b => K.same first (.storeRiser ..)
      unfold State.applyEnable
      split
      · split
        · exact K.enableRiser _ (stored ..)
        · exact stored ..
      · split
        · exact stored ..
        · exact K.disableRiser _ (stored ..)
  · exact first

theorem takeSetPrivacy (K : KeptByFlags L) {s : State} (num f v : Nat) (h : L s) :
    L (s.takeSetPrivacy num f v) := by
  refine K.answer settleLinks_settled ?_
  unfold State.setPrivacyAct
  split
  · exact K.levelled _ _ h
  · exact h

/-- R169: a request that is taken. -/
theorem takeRequest (K : KeptByFlags L) {s : State} (c : Instr) (h : L s) : L (s.takeRequest c) := by
  unfold State.takeRequest
  split
  case h_2 => exact K.answer_same settleLinks_settled h (.setPortAct ..)
  case h_3 =>
    refine K.answer_same settleHost_settled h ?_
    unfold State.setWindowAct
    split
    · split
      · exact ⟨fun _ => rfl, fun _ _ => rfl⟩
      · exact .refl s
    · exact .refl s
  case h_4 => exact K.takeSetFlat _ _ _ _ _ _ _ _ h
  case h_5 =>
    refine K.answer_same settleHost_settled h ?_
    unfold State.setTimesAct
    dsimp only
    split <;> exact .of_blocks rfl rfl
  case h_8 => exact K.takeSetRiser _ _ _ _ _ _ _ h
  case h_9 => exact K.answer_same settleLinks_settled h (.clearChecks ..)
  case h_10 => exact K.takeSetPrivacy _ _ _ h
  case h_11 => exact K.answer_same settleLinks_settled h (.doorHoldAct ..)
  case h_12 => exact K.answer_same settleLinks_settled h (.doorFreeAct ..)
  case h_13 => exact K.answer_same settle_settled h (.endCallAct ..)
  case h_19 =>
    refine K.answer_same settleHost_settled (K.overrunFirst? _ h) ?_
    split <;> exact .refl _
  case h_20 =>
    refine K.answer_same settleHost_settled (K.overrunFirst? _ h) ?_
    split <;> exact .refl _
  case h_21 =>
    exact K.settled (K.same (K.overrunFirst? _ h) (.riserSync ..)) (settleHost_settled _)
  case h_1 => exact K.answer_same settleHost_settled h (.refl s)
  case h_23 => exact h
  case h_6 =>
    refine K.answer_same settleHost_settled h ?_
    unfold State.setRouteAct
    split <;> exact .of_blocks rfl rfl
  case h_7 =>
    refine K.answer_same settleHost_settled h ?_
    unfold State.setModeAct
    split <;> exact .of_blocks rfl rfl
  all_goals
    refine K.answer_same settleHost_settled h ?_
    split <;> exact .of_blocks rfl rfl

theorem takeRequests (K : KeptByFlags L) (n : Nat) {s : State} (h : L s) :
    L (State.takeRequests n s) := by
  induction n generalizing s with
  | zero => exact h
  | succ n ih =>
    unfold State.takeRequests
    split
    · split
      · exact h
      · exact ih (K.takeRequest _ (K.same h (.of_blocks rfl rfl)))
    · exact h

theorem serveBuffer (K : KeptByFlags L) {s : State} (h : L s) : L s.serveBuffer :=
  K.takeRequests _ h

/-- R168, R169: the command of a request, which `exec` runs as its taking. -/
theorem onRequest (K : KeptByFlags L) {s : State} (c : Instr) (h : L s) :
    L (s.onRequest c (State.takeRequest c)) := by
  unfold State.onRequest
  split
  · exact K.takeRequest c h
  · split
    · exact h
    · split
      · exact K.same h (.of_blocks rfl rfl)
      · exact h

theorem hostBytes (K : KeptByFlags L) {s : State} (bytes : List Byte) (h : L s) :
    L (s.hostBytes bytes) := by
  have framed : ∀ (t : State) (f : HostFrame), L t → L (t.frameReceived f) := fun t f ht =>
    K.serveBuffer (K.same ht (.of_blocks rfl rfl))
  unfold State.hostBytes
  exact folded framed _ (K.same h (.of_blocks rfl rfl))

theorem start (K : KeptByFlags L) {s : State} (k : StartKind) (cause : StartCause) (h : L s) :
    L (s.start k cause) := by
  cases k with
  | cold => exact K.cold s cause
  | warm => exact K.same h (warmStart_sameFlags s cause)

theorem hostTxEnd (K : KeptByFlags L) {s : State} (h : L s) : L (s.after (execHostTxEnd s)) := by
  have free : L s.hostLineFree := by
    refine K.serveBuffer (K.settled ?_ (settleHost_settled _))
    exact K.same h (.of_blocks rfl rfl)
  simp only [execHostTxEnd, State.after]
  split
  · exact h
  · exact free
  · split
    · exact K.settled (K.start _ _ h) (settle_settled _)
    · exact free

/-! ## Panels -/

theorem takePanelCommand (K : KeptByFlags L) {s : State} (c : Instr) (h : L s) :
    L (s.takePanelCommand c) := by
  unfold State.takePanelCommand
  split
  · exact K.same h (.of_event (panelCall_kept ..))
  · exact K.same h (.of_event (panelConcierge_kept ..))
  · exact K.same h (.of_event (panelCancel_kept ..))
  · exact K.same h (.of_event (deskDial_kept ..))
  · exact K.same h (.of_event (deskAnswer_kept ..))
  · exact K.same h (.of_event (deskClear_kept ..))
  · exact K.same h (.of_event (deskForward_kept ..))
  · exact K.same h (.deskDoor ..)
  · exact K.same h (.of_blocks rfl rfl)
  · exact h

theorem panelByte (K : KeptByFlags L) (p : PortIx) (s : State) (b : Byte) (h : L s) :
    L (State.panelByte p s b) := by
  unfold State.panelByte
  split
  · split
    · exact K.same h (.of_blocks rfl rfl)
    · exact K.same h (.of_blocks rfl rfl)
    · exact K.takePanelCommand _ (K.same h (.of_blocks rfl rfl))
  · exact h

theorem panelPresent (K : KeptByFlags L) {s : State} (p : PortIx) (h : L s) :
    L (s.after (execPanelPresent p s)) := by
  simp only [execPanelPresent, State.after]
  split
  · exact h
  · exact K.settled (K.moved (K.same h ((SameFlags.modifyPort ..).emitted _))
      ((CallMoves.one (.display ..)).after (.ring ..))) (settleLinks_settled _)

theorem panelAbsent (K : KeptByFlags L) {s : State} (p : PortIx) (h : L s) :
    L (s.after (execPanelAbsent p s)) := by
  simp only [execPanelAbsent, State.after]
  split
  · have gone : SameFlags s ((s.modifyPort p Port.goAbsent).emit
        (.panelChange p (s.port p).function false true)) :=
      (SameFlags.modifyPort ..).emitted _
    refine K.settled (K.same h ?_) (settle_settled _)
    split
    · exact gone.trans (.of_moves (endCall_moves ..))
    · exact gone
  · exact h

/-! ## Every command -/

/-- Every command keeps what the operations on flats and flags keep. -/
theorem exec (K : KeptByFlags L) {s : State} (c : Instr) (h : L s) : L (s.after (exec c s)) := by
  have line : ∀ (x : RiserIx) {t : State}, L t → L (t.settleLine x) := fun x _ ht =>
    K.same ht (.settleLine ..)
  cases c
  case powerUp => exact K.settled (K.cold s .powerUp) (settleHost_settled _)
  case resetPin => exact K.settled (K.cold _ .resetPin) (settleHost_settled _)
  case hostFrameReceived b =>
    simp only [Machine.exec, execHostFrameReceived, State.after]
    split
    · exact h
    · exact K.hostBytes _ h
  case hostRxTimeout =>
    simp only [Machine.exec, execHostRxTimeout, State.after]
    split <;> exact K.same h (.of_blocks rfl rfl)
  case hostTxEnd => exact K.hostTxEnd h
  case illegalRequest k n b =>
    simp only [Machine.exec, execIllegalRequest, State.after]
    split
    · exact h
    · exact K.onRequest (.illegalRequest k n b) h
  case setPort a b c d e => exact K.onRequest (.setPort a b c d e) h
  case setWindow a b c d e f g i => exact K.onRequest (.setWindow a b c d e f g i) h
  case setFlat a b c d e f g i => exact K.onRequest (.setFlat a b c d e f g i) h
  case setTimes a b c d e => exact K.onRequest (.setTimes a b c d e) h
  case setRoute a b c => exact K.onRequest (.setRoute a b c) h
  case setMode a b => exact K.onRequest (.setMode a b) h
  case setRiser a b c d e f g => exact K.onRequest (.setRiser a b c d e f g) h
  case clearCheck a b => exact K.onRequest (.clearCheck a b) h
  case setPrivacy a b c => exact K.onRequest (.setPrivacy a b c) h
  case doorHold a b c => exact K.onRequest (.doorHold a b c) h
  case doorFree a b c => exact K.onRequest (.doorFree a b c) h
  case endCall a b c => exact K.onRequest (.endCall a b c) h
  case queryCall a b => exact K.onRequest (.queryCall a b) h
  case queryWindow a b => exact K.onRequest (.queryWindow a b) h
  case queryFlat a b => exact K.onRequest (.queryFlat a b) h
  case queryPort a b => exact K.onRequest (.queryPort a b) h
  case queryLock a b => exact K.onRequest (.queryLock a b) h
  case queryRiser a b => exact K.onRequest (.queryRiser a b) h
  case queryStation a b c => exact K.onRequest (.queryStation a b c) h
  case riserSync a b => exact K.onRequest (.riserSync a b) h
  case restart a b => exact K.onRequest (.restart a b) h
  case panelCall p n => exact K.takePanelCommand (.panelCall p n) h
  case panelConcierge p => exact K.takePanelCommand (.panelConcierge p) h
  case panelCancel p => exact K.takePanelCommand (.panelCancel p) h
  case deskDial p n => exact K.takePanelCommand (.deskDial p n) h
  case deskAnswer p => exact K.takePanelCommand (.deskAnswer p) h
  case deskClear p => exact K.takePanelCommand (.deskClear p) h
  case deskForward p => exact K.takePanelCommand (.deskForward p) h
  case deskDoor p => exact K.takePanelCommand (.deskDoor p) h
  case panelFrameDiscard p => exact K.takePanelCommand (.panelFrameDiscard p) h
  case panelRxTimeout p =>
    simp only [Machine.exec, execPanelRxTimeout, State.after]
    split
    · exact K.same h (.of_blocks rfl rfl)
    · exact h
  case panelPresent p => exact K.panelPresent p h
  case panelAbsent p => exact K.panelAbsent p h
  case panelTxEnd p =>
    simp only [Machine.exec, execPanelTxEnd, State.after]
    split
    · exact h
    · exact K.same h (.of_blocks rfl rfl)
  case riserTxEnd x =>
    simp only [Machine.exec, execRiserTxEnd, State.after]
    split
    · exact line x (K.same (K.overrunFirst x h) (.endTransmission ..))
    · exact K.overrunFirst x h
  case stationReply x a b c d => exact K.takeStationCommand (.stationReply x a b c d) h
  case stationLift x a => exact K.takeStationCommand (.stationLift x a) h
  case stationHangup x a => exact K.takeStationCommand (.stationHangup x a) h
  case stationDoor x a => exact K.takeStationCommand (.stationDoor x a) h
  case stationPrivacyOn x a => exact K.takeStationCommand (.stationPrivacyOn x a) h
  case stationPrivacyOff x a => exact K.takeStationCommand (.stationPrivacyOff x a) h
  case unknownStationFrame x a k => exact K.takeStationCommand (.unknownStationFrame x a k) h
  case riserBadFrame x => exact K.takeStationCommand (.riserBadFrame x) h
  case riserRxTimeout x =>
    simp only [Machine.exec, execRiserRxTimeout, State.after]
    split
    · exact K.same (K.overrunFirst x h) ((SameFlags.advanced ..).trans (.badStationFrame ..))
    · exact K.overrunFirst x h
  case replyTimeout x t => exact K.replyTimeout x t h
  case idleTimeout x =>
    simp only [Machine.exec, execIdleTimeout, State.after]
    split
    · exact line x (K.same (K.overrunFirst x h)
        ((SameFlags.advanced ..).trans (.modifyRiser _ x)))
    · exact K.overrunFirst x h
  case wakeTimeout x =>
    simp only [Machine.exec, execWakeTimeout, State.after]
    split
    · exact line x (K.same (K.overrunFirst x h)
        ((SameFlags.advanced ..).trans (.enterActive ..)))
    · exact K.overrunFirst x h
  case surveyStep x =>
    simp only [Machine.exec, execSurveyStep, State.after]
    split
    · exact line x (K.same (K.overrunFirst x h)
        (((SameFlags.advanced ..).trans (.modifyRiser _ x)).trans (.surveyPoll ..)))
    · exact K.overrunFirst x h
  case lineFault x c =>
    simp only [Machine.exec, execLineFault, State.after]
    exact K.settled (K.lineSense x c (K.overrunFirst x h)) (settle_settled _)
  case lineRestored x =>
    simp only [Machine.exec, execLineRestored, State.after]
    exact K.settled (K.lineSense x .good (K.overrunFirst x h)) (settle_settled _)
  case overrun x => exact K.overrunFirst x h
  case pathWaitExpiry r => exact K.same h (.of_event (pathWaitExpiry_kept ..))
  case ringExpiry r => exact K.same h (.of_event (ringExpiry_kept ..))
  case deskRingExpiry r => exact K.same h (.of_event (deskRingExpiry_kept ..))
  case talkExpiry r => exact K.same h (.of_event (talkExpiry_kept ..))
  case releaseTimerExpiry p =>
    simp only [Machine.exec, execReleaseTimerExpiry, State.after]
    split
    · exact K.settled (K.same h (((SameFlags.advanced ..).trans (.setLock ..)).emitted _))
        (settleLinks_settled _)
    · exact h
  case lineConditionChange x c =>
    simp only [Machine.exec, execLineConditionChange, State.after]
    exact K.settled (K.lineSense x c (K.overrunFirst x h)) (settle_settled _)
  case resetPinRelease =>
    refine K.settled ?_ (settleHost_settled _)
    exact K.same h (.of_blocks rfl rfl)
  case syncByteReceived b =>
    simp only [Machine.exec, execSyncByteReceived, State.after]
    split
    · split
      · exact h
      · exact K.hostBytes _ h
    · exact folded (K.panelByte _) _ h
    · exact folded (K.riserByte _) _ h

/-- Every step keeps what the operations on flats and flags keep. -/
theorem step (K : KeptByFlags L) : KeptByStep L := by
  intro s t h e
  have ran : ∀ (c : Instr) (u : State), L u → Machine.exec c u = .next t → L t := fun c u hu e => by
    have := K.exec c hu
    rwa [e] at this
  have waiting : ∀ rest : List Instr, L { s with pending := rest } := fun rest =>
    K.same h (.of_blocks rfl rfl)
  have later : L { s with clock := s.clock + Config.idleStepMs } := K.same h (.of_blocks rfl rfl)
  unfold Machine.step at e
  split at e
  · next c rest _ => exact ran c _ (waiting rest) e
  · split at e
    · next c _ => exact ran c s h e
    · rw [← Host.Outcome.next.inj e]
      exact K.settled later (settle_settled _)

end KeptByFlags

end Sys2Proof.Machine
end

