-- ==== Sys2Proof/Proofs/DirectoryLaws.lean ====
section
/-!
SUPPORT. The two laws of the directory by way of `KeptByFlags`: each flat's privacy is its aggregate
(R48), and no station belongs to two flats in service (R45).
-/

namespace Sys2Proof.Machine

/-! ## Privacy (R48) -/

/-- R48: the law says that each flat's privacy is its aggregate. -/
theorem privacyLaw_iff (s : State) : s.PrivacyLaw ↔ ∀ i, (s.flat i).privacy = s.aggregate (s.flat i) :=
  Iff.rfl

theorem aggregate_congr {s t : State} {f : Flat}
    (h : ∀ a ∈ f.stations, ((t.riser f.riser).station a).privacy = ((s.riser f.riser).station a).privacy) :
    t.aggregate f = s.aggregate f := by
  unfold State.aggregate
  congr 1
  rw [Bool.eq_iff_iff, List.any_eq_true, List.any_eq_true]
  exact exists_congr fun a => and_congr_right fun mem => by rw [h a mem]

/-- R48: the law holds when the flats whose aggregate may have changed have been worked out again. -/
theorem Recomputed.privacyLaw {u t : State} {l : List FlatIx} (h : Recomputed u t l)
    (others : ∀ i, i ∉ l → (u.flat i).privacy = u.aggregate (u.flat i)) : t.PrivacyLaw := by
  rw [privacyLaw_iff]
  intro i
  have same : ∀ f, t.aggregate f = u.aggregate f := fun f => by
    unfold State.aggregate
    rw [State.riser_congr h.risers]
  rw [same, h.flats i]
  split
  · rfl
  · next out => exact others i out

theorem recomputeFlats_privacyLaw {u : State} {which : Flat → Bool}
    (others : ∀ i, which (u.flat i) = false → (u.flat i).privacy = u.aggregate (u.flat i)) :
    (u.recomputeFlats which).PrivacyLaw :=
  (recompute_all _ ((List.nodup_finRange 256).filter _) u).privacyLaw fun i out =>
    others i (by simpa using out)

theorem recomputeFlat_privacyLaw {u : State} {i : FlatIx}
    (others : ∀ j, j ≠ i → (u.flat j).privacy = u.aggregate (u.flat j)) :
    (u.recomputeFlat i).PrivacyLaw :=
  (recomputeFlat_one u i).privacyLaw fun j out => others j (by simpa using out)

/-- A station of which the flag is written lies within 1 to 62; elsewhere nothing is written. -/
theorem modifyStation_ne (x : Riser) {a b : Nat} (ne : b ≠ a) (f : Station → Station) :
    (x.modifyStation a f).station b = x.station b := by
  by_cases range : 1 ≤ a ∧ a ≤ 62
  · rw [station_modifyStation x range, if_neg ne]
  · have none : station? a = none := dif_neg range
    unfold Riser.modifyStation
    rw [none]

/-- R48, R105, R108: the flats of a station whose flag changes are worked out again. -/
theorem setStationPrivacy_privacyLaw {s : State} (x : RiserIx) (a : Nat) (v : Bool)
    (law : s.PrivacyLaw) : (s.setStationPrivacy x a v).PrivacyLaw := by
  unfold State.setStationPrivacy
  split
  · exact law
  · refine recomputeFlats_privacyLaw fun i other => (law i).trans (aggregate_congr fun b mem => ?_).symm
    rw [State.riser_modifyRiser]
    split
    · next home =>
      have ne : b ≠ a := fun e => by
        subst e
        have here : (s.flat i).riser = x := home.symm
        have there : (s.flat i).hasStation b = true := (mem_stations ..).2 mem
        have : (decide ((s.flat i).riser = x) && (s.flat i).hasStation b) = false := other
        simp [here, there] at this
      rw [modifyStation_ne _ ne, ← home]
    · rfl

/-- R48, R73, R88: the flats of a riser whose flags are cleared are worked out again. -/
theorem forgetStations_privacyLaw {s : State} (x : RiserIx) (law : s.PrivacyLaw) :
    (s.forgetStations x).PrivacyLaw := by
  refine recomputeFlats_privacyLaw fun i other => (law i).trans (aggregate_congr fun b _ => ?_).symm
  have ne : (s.flat i).riser ≠ x := of_decide_eq_false other
  rw [State.riser_modifyRiser, if_neg (Ne.symm ne)]

/-- R46: a record stored with its old riser and range keeps its aggregate; another one is worked out
again. -/
theorem storeFlat_privacyLaw {s : State} (i : FlatIx) (v : Bool) (r : RiserIx) (first count : Nat)
    (d : Bool) (doors : BitVec 8) (law : s.PrivacyLaw) :
    (s.storeFlat i v r first count d doors).PrivacyLaw := by
  unfold State.storeFlat
  dsimp only
  split
  · next same =>
    obtain ⟨rfl, rfl, rfl⟩ := same
    intro j
    rw [State.flat_noteServed, State.flat_setFlat]
    split
    · next e => exact law i
    · exact law j
  · refine recomputeFlat_privacyLaw fun j ne => ?_
    rw [State.flat_noteServed, State.flat_setFlat, if_neg (Ne.symm ne)]
    exact law j

theorem privacyLaw_keptByFlags : KeptByFlags State.PrivacyLaw where
  same {s t} law h := by
    rw [privacyLaw_iff]
    intro i
    rw [h.flats i, aggregate_congr fun a _ => h.flags _ a]
    exact law i
  cold s cause := by
    have flat : ∀ i, (s.coldStart cause).flat i = Flat.cold := fun i => Table.read_fill ..
    intro i
    rw [flat i]
    rfl
  flagged := setStationPrivacy_privacyLaw
  forgotten := forgetStations_privacyLaw
  stored d doors law _ := storeFlat_privacyLaw _ _ _ _ _ d doors law
  levelled {s} i v law := by
    refine recomputeFlat_privacyLaw fun j ne => ?_
    rw [State.flat_setFlat, if_neg (Ne.symm ne)]
    exact law j

/-- Settles O9: the operations on flats and flags keep the law, and so every step does. -/
theorem everyStepKeepsFlatPrivacy : Obligations.EveryStepKeepsFlatPrivacy :=
  privacyLaw_keptByFlags.step

/-! ## Stations (R45) -/

/-- R45: the law reads nothing of a flat's privacy. -/
theorem ConfigKept.sharingLaw {s t : State} (k : ConfigKept s t) (law : s.SharingLaw) :
    t.SharingLaw := by
  intro i j a ne
  rw [k.flats i, k.flats j]
  exact law i j a ne

/-- A flat put in service that shares no station keeps the stations apart. -/
theorem setFlat_sharingLaw {s : State} {i : FlatIx} {f : Flat} (law : s.SharingLaw)
    (apart : f.inService = true → ∀ j, j ≠ i → (s.flat j).inService = true →
      (s.flat j).riser = f.riser → ∀ a ∈ f.stations, a ∉ (s.flat j).stations) :
    (s.setFlat i f).SharingLaw := by
  intro j k a ne hj hk home
  rw [State.flat_setFlat] at hj hk home ⊢
  rw [State.flat_setFlat] at home ⊢
  by_cases ej : i = j
  · have ek : i ≠ k := fun e => ne (ej.symm.trans e)
    rw [if_pos ej] at hj home ⊢
    rw [if_neg ek] at hk home ⊢
    exact apart hj k (Ne.symm ek) hk home.symm a
  · rw [if_neg ej] at hj home ⊢
    by_cases ek : i = k
    · rw [if_pos ek] at hk home ⊢
      exact fun mj mf => apart hk j (Ne.symm ej) hj home a mf mj
    · rw [if_neg ek] at hk home ⊢
      exact law j k a ne hj hk home

/-- R45: what the check of SET FLAT finds. -/
theorem flatConflict_iff {s : State} {i : FlatIx} {r : RiserIx} {first count : Nat} :
    s.flatConflict i r first count = true ↔ ∃ j, j ≠ i ∧ (s.flat j).inService = true ∧
      (s.flat j).riser = r ∧ ∃ a ∈ List.range' first count, a ∈ (s.flat j).stations := by
  unfold State.flatConflict
  simp only [List.any_eq_true, List.mem_finRange, true_and, Bool.and_eq_true, decide_eq_true_eq,
    mem_stations, and_assoc]

theorem storeFlat_sharingLaw {s : State} {i : FlatIx} {v : Bool} {r : RiserIx} {first count : Nat}
    (d : Bool) (doors : BitVec 8) (law : s.SharingLaw)
    (apart : v = true → s.flatConflict i r first count = false) :
    (s.storeFlat i v r first count d doors).SharingLaw := by
  have stored := setFlat_sharingLaw (i := i)
    (f := { s.flat i with inService := v, riser := r, firstStation := first, handsetCount := count
                          divert := d, doors := doors }) law fun served j ne on home a mem shared => by
    have none := apart served
    rw [flatConflict_iff.2 ⟨j, ne, on, home, a, mem, shared⟩] at none
    cases none
  unfold State.storeFlat
  dsimp only
  split
  · exact stored
  · exact (ConfigKept.recomputeFlat ..).sharingLaw stored

theorem sharingLaw_keptByFlags : KeptByFlags State.SharingLaw where
  same {s t} law h := by
    intro i j a ne
    rw [h.flats i, h.flats j]
    exact law i j a ne
  cold s cause := by
    have flat : ∀ i, (s.coldStart cause).flat i = Flat.cold := fun i => Table.read_fill ..
    intro i j a _ served
    rw [flat i] at served
    cases served
  flagged x a v law := (ConfigKept.setStationPrivacy _ x a v).sharingLaw law
  forgotten x law := (ConfigKept.forgetStations _ x).sharingLaw law
  stored := storeFlat_sharingLaw
  levelled {s} i v law := by
    refine (ConfigKept.recomputeFlat _ i).sharingLaw (setFlat_sharingLaw law ?_)
    exact fun served j ne on home a mem => law i j a (Ne.symm ne) served on home.symm mem

/-- Settles O10: SET FLAT alone puts a flat in service or gives it other stations, and it looks first. -/
theorem everyStepKeepsStationsApart : Obligations.EveryStepKeepsStationsApart :=
  sharingLaw_keptByFlags.step

/-! ## After reset -/

/-- Settles O4: the tables are cold, so every law holds of each record by itself, and no call lives. -/
theorem resetKeepsEveryLaw : Obligations.ResetKeepsEveryLaw := by
  have cold := reset_coldValues
  have empty : ∀ i, (State.reset.slot i).call = none := fun i => by rw [cold.slots i]
  refine ⟨fun r => ?_, fun r => ?_, fun r => ?_, fun p => ?_, fun i => ?_, fun i j a _ served => ?_,
    channelQueueLaw_keptByCalls.blank rfl empty, fun waiting => absurd rfl waiting, ?_, ?_, fun p => ?_,
    pathLaw_keptByCalls.blank rfl empty⟩
  · rw [reset_riser]
    exact .refl _
  · rw [reset_riser]
    exact ⟨Nat.zero_le _, Nat.zero_le _⟩
  · rw [reset_riser]
    simp [Riser.LinkLaw, Riser.cold]
  · rw [cold.locks p]
    simp [Lock.ClaimLaw]
  · rw [cold.flats i]
    rfl
  · rw [cold.flats i] at served
    cases served
  · exact ⟨Nat.zero_le _, Nat.zero_le _, by decide⟩
  · exact ⟨fun _ _ => rfl, fun _ => rfl, fun held => absurd held (by decide)⟩
  · rw [reset_port]
    simp [Port.SlotLaw, Port.cold]

end Sys2Proof.Machine
end

