-- ==== Sys2Proof/Proofs/NumberingPlan.lean ====
section
/-!
SUPPORT. The settings of the directory: SET WINDOW (O25), the translation of a code (O26), SET FLAT (O27)
and SET PRIVACY (O32).
-/

namespace Sys2Proof.Machine

/-! ## Operands -/

theorem window?_eq_some {n : Nat} {i : WindowIx} : window? n = some i ↔ i.val = n := by
  unfold window?
  split
  · rw [Option.some.injEq, Fin.ext_iff, eq_comm]
  · have := i.isLt
    simp only [reduceCtorEq, false_iff]
    omega

theorem flat?_eq_some {n : Nat} {i : FlatIx} : flat? n = some i ↔ i.val = n := by
  unfold flat?
  split
  · rw [Option.some.injEq, Fin.ext_iff, eq_comm]
  · have := i.isLt
    simp only [reduceCtorEq, false_iff]
    omega

theorem riser?_eq_some {n : Nat} {r : RiserIx} : riser? n = some r ↔ r.val = n := by
  unfold riser?
  split
  · rw [Option.some.injEq, Fin.ext_iff, eq_comm]
  · have := r.isLt
    simp only [reduceCtorEq, false_iff]
    omega

theorem yesNo?_lt {m : Nat} {b : Bool} (h : yesNo? m = some b) : m < 2 := by
  by_contra out
  rw [yesNo?_none (Nat.le_of_not_lt out)] at h
  cases h

/-! ## SET WINDOW (R35) -/

theorem windowInRange_iff {base span stride row first : Nat} :
    windowInRange base span stride row first = true ↔ base ≤ 9999 ∧ 1 ≤ span ∧ span ≤ 10000 ∧
      1 ≤ stride ∧ stride ≤ 1000 ∧ 1 ≤ row ∧ row ≤ 64 ∧ first ≤ 255 := by
  simp only [windowInRange, Bool.and_eq_true, decide_eq_true_eq, and_assoc]

/-- R35: the two adjustments, as the lesser of two values each. -/
theorem adjustWindow_eq (e : Bool) (base span stride row first : Nat) :
    adjustWindow e base span stride row first =
      { enabled := e, base := base, span := min span (10000 - base), stride := stride
        rowSize := min row stride, firstFlat := first } := by
  unfold adjustWindow
  congr 1
  · split <;> omega
  · split <;> omega

/-- Settles O25: in range the window is stored as adjusted, and otherwise nothing is. -/
theorem setWindowAdjustsAndStores : Obligations.SetWindowAdjustsAndStores := by
  intro num w e base span stride row first s takes
  refine ⟨fun i hi he h1 h2 h3 h4 h5 h6 h7 h8 => ?_, fun bad => ?_⟩
  · intro x
    have act : s.setWindowAct w e base span stride row first = (s.setWindow i x,
        if span ≤ 10000 - base ∧ row ≤ stride then .ok else .adjusted, .window x) := by
      unfold State.setWindowAct
      rw [window?_eq_some.2 hi, yesNo?_of_lt he]
      dsimp only
      rw [if_pos (windowInRange_iff.2 ⟨h1, h2, h3, h4, h5, h6, h7, h8⟩), adjustWindow_eq]
      refine congrArg (fun st => (s.setWindow i x, st, ReplyBody.window x)) (if_congr ?_ rfl rfl)
      rw [min_eq_left_iff, min_eq_left_iff]
    refine ⟨_, exec_taken takes rfl, answer_quietly takes (a := s.setWindow i x) act ?_ rfl rfl⟩
    split <;> rfl
  · refine request_reads (act := fun t => t.setWindowAct w e base span stride row first) rfl rfl ?_ rfl
      takes
    unfold State.setWindowAct
    split
    · next i b hi hb =>
      have out : ¬ windowInRange base span stride row first = true := by
        have := i.isLt
        have := window?_eq_some.1 hi
        have := yesNo?_lt hb
        rw [windowInRange_iff]
        omega
      rw [if_neg out]
    · rfl

/-! ## Translation (R37 to R41) -/

theorem covers_iff {w : Window} {c : Nat} :
    w.covers c = true ↔ w.enabled = true ∧ w.base ≤ c ∧ c < w.base + w.span := by
  simp only [Window.covers, Bool.and_eq_true, decide_eq_true_eq, Nat.succ_le_iff, and_assoc]

/-- R38: no window, or the first one, that covers the code. -/
theorem matchingWindow_none {d : Dir} {c : Nat} (h : ∀ i, ¬ (d.windows.read i).covers c = true) :
    d.matchingWindow c = none := by
  refine List.find?_eq_none.2 fun w hw => ?_
  obtain ⟨i, -, rfl⟩ := List.mem_map.1 hw
  exact h i

theorem matchingWindow_first {d : Dir} {c : Nat} {i : WindowIx}
    (h : (d.windows.read i).covers c = true)
    (before : ∀ j, j < i → ¬ (d.windows.read j).covers c = true) :
    d.matchingWindow c = some (d.windows.read i) := by
  unfold Dir.matchingWindow
  rw [List.find?_map, find?_finRange (p := (fun w => Window.covers w c) ∘ fun j => d.windows.read j)
    (k := i) h fun j hj => Bool.eq_false_iff.2 (before j hj)]
  rfl

/-- R39: the unit is what is left of the offset past whole rows. -/
theorem unit_eq (w : Window) (c : Nat) : w.unit c = (c - w.base) % w.stride := by
  unfold Window.unit Window.row
  have := Nat.div_add_mod' (c - w.base) w.stride
  omega

/-- Settles O26: the first window that covers the code decides, stage by stage. -/
theorem translationFollowsFirstWindow : Obligations.TranslationFollowsFirstWindow := by
  intro d code
  refine ⟨fun none => ?_, fun i enabled low high before => ?_⟩
  · unfold Dir.translate
    rw [matchingWindow_none fun i => mt covers_iff.1 (none i)]
  · intro w unit flat
    have window := matchingWindow_first (covers_iff.2 ⟨enabled, low, high⟩) fun j hj =>
      mt covers_iff.1 (before j hj)
    have formed : w.flatFormed code = flat := by
      unfold Window.flatFormed
      rw [unit_eq]
      rfl
    unfold Dir.translate
    rw [window]
    dsimp only
    rw [unit_eq, formed]
    refine if_congr Iff.rfl rfl (if_congr Iff.rfl rfl ?_)
    unfold flat?
    by_cases inside : flat < 256
    · simp only [dif_pos inside]
    · simp only [dif_neg inside]

/-! ## Requests that raise events -/

/-- R184: routing events touches the notices and the ports alone. -/
theorem emits_same (es : List Event) (s : State) : es.foldl State.emit s =
    { s with ntu := (es.foldl State.emit s).ntu, ports := (es.foldl State.emit s).ports } := by
  induction es generalizing s with
  | nil => rfl
  | cons e es ih =>
    have first := emit_same s e
    rw [List.foldl_cons]
    generalize s.emit e = u at first ⊢
    rw [first]
    exact ih _

/-- R169 to R173: a request whose act raises these events and stores the directory `d` is answered, and
nothing else moves but the panel and host transmitters. -/
theorem answer_raises {s : State} (h : s.Takes) {kind num : Nat} {st : Status} {b : ReplyBody}
    {act : State → State × Status × ReplyBody} {es : List Event} {d : Dir}
    (e : act s = ({ es.foldl State.emit s with dir := d }, st, b)) (hb : replyBody st b = b) :
    let t := s.answer kind num State.settleLinks act
    t = { s with dir := d, ports := Table.mapEach Port.startTransmission (es.foldl State.emit s).ports
                 hlp := t.hlp, ntu := t.ntu } ∧
      Raises s t es ∧ Answers s t ⟨kind, num, st, b⟩ := by
  obtain ⟨a, ha⟩ : ∃ a : State, a = { es.foldl State.emit s with dir := d } := ⟨_, rfl⟩
  rw [← ha] at e
  have hlp : a.hlp = s.hlp := by
    rw [ha]
    exact emits_hlp es s
  have ran : s.answer kind num State.settleLinks act = (a.reply kind num st b).settleLinks := by
    rw [State.answer, e]
  have ans := answers_settleLinks (k := kind) (n := num) (st := st) (b := b) h hlp
  have raised : Raises s (a.reply kind num st b).settleLinks es := by
    have tx : (a.reply kind num st b).hlp.tx = s.hlp.tx := by
      show a.hlp.tx = _
      rw [hlp]
    refine .of_settled tx ?_ (settleLinks_settled (a.reply kind num st b))
    show a.ntu = _
    rw [ha]
  have moved : ∀ t, t = (a.reply kind num st b).settleLinks →
      t = { a with ports := Table.mapEach Port.startTransmission a.ports, hlp := t.hlp, ntu := t.ntu } :=
    fun t e => e ▸ (settleHost_moved (a.reply kind num st b).settlePanels).same
  rw [hb] at ans
  simp only [ran]
  refine ⟨?_, raised, ans⟩
  generalize (a.reply kind num st b).settleLinks = t at moved ⊢
  have same := moved t rfl
  rw [ha, emits_same es s] at same
  exact same

/-- The events of a flat whose privacy goes from one value to another (R48). -/
def Flat.changeEvents (i : FlatIx) (was now : Bool) : List Event :=
  if now = was then [] else [.privacyChange i now]

/-- R48: a flat that is worked out again has its aggregate, and the change raises its event. -/
theorem recomputeFlat_eq (s : State) (i : FlatIx) : s.recomputeFlat i =
    { (Flat.changeEvents i (s.flat i).privacy (s.aggregate (s.flat i))).foldl State.emit s with
      dir := { s.dir with
        flats := s.dir.flats.write i { s.flat i with privacy := s.aggregate (s.flat i) } } } := by
  unfold State.recomputeFlat Flat.changeEvents
  dsimp only
  split
  · next e =>
    rw [e]
    show s = { s with dir := { s.dir with flats := s.dir.flats.write i (s.dir.flats.read i) } }
    rw [Table.write_read_self]
  · exact emit_withDir ..

/-- The same of a state whose directory alone has been written at that flat. -/
theorem recomputeFlat_written (s : State) (i : FlatIx) (f : Flat) (served : Bool) :
    ({ s with dir := { s.dir with flats := s.dir.flats.write i f, flatServed := served } } :
      State).recomputeFlat i =
    { (Flat.changeEvents i f.privacy (s.aggregate f)).foldl State.emit s with
      dir := { s.dir with
        flats := s.dir.flats.write i { f with privacy := s.aggregate f }, flatServed := served } } := by
  rw [recomputeFlat_eq]
  have here : ({ s with dir := { s.dir with
      flats := s.dir.flats.write i f, flatServed := served } } : State).flat i = f :=
    Table.read_write_same ..
  rw [here, emits_withDir]
  dsimp only
  rw [Table.write_write]
  rfl

/-! ## SET PRIVACY (R49) -/

/-- Settles O32. -/
theorem setPrivacyRecomputesFlat : Obligations.SetPrivacyRecomputesFlat := by
  intro num fl v s takes
  refine ⟨fun i hi hv => ?_, fun bad => ?_⟩
  · intro old agg x events
    have act : s.setPrivacyAct fl v =
        ({ events.foldl State.emit s with dir := { s.dir with flats := s.dir.flats.write i x } },
          .ok, .privacy (decide (v = 1)) agg) := by
      unfold State.setPrivacyAct
      rw [flat?_eq_some.2 hi, yesNo?_of_lt hv]
      dsimp only
      have done := recomputeFlat_written s i { s.flat i with hostPrivacy := decide (v = 1) }
        s.dir.flatServed
      have read : (State.recomputeFlat { s with dir := { s.dir with
          flats := s.dir.flats.write i { s.flat i with hostPrivacy := decide (v = 1) } } } i).flat i = x := by
        rw [State.flat, done]
        exact Table.read_write_same ..
      unfold State.setFlat
      rw [read, done]
      rfl
    exact ⟨_, exec_taken takes rfl, answer_raises takes act rfl⟩
  · have act : s.setPrivacyAct fl v =
        ({ ([] : List Event).foldl State.emit s with dir := s.dir }, .badValue, .none) := by
      unfold State.setPrivacyAct
      split
      · next i b hi hb =>
        have := i.isLt
        have := flat?_eq_some.1 hi
        have := yesNo?_lt hb
        omega
      · rfl
    exact ⟨_, exec_taken takes rfl, answer_raises (es := []) (d := s.dir) takes act rfl⟩

/-! ## SET FLAT (R43 to R46) -/

/-- R43: the values that SET FLAT takes. -/
theorem stationRangeInRange_iff {first count : Nat} : stationRangeInRange first count = true ↔
    1 ≤ first ∧ first ≤ 62 ∧ 1 ≤ count ∧ count ≤ 4 ∧ first + count ≤ 63 := by
  simp only [stationRangeInRange, Bool.and_eq_true, decide_eq_true_eq]
  have last : Config.lastStation = 62 := rfl
  omega

/-- R44: a live call names the flat. -/
theorem flatBusy_iff {s : State} {i : FlatIx} : s.flatBusy i = true ↔
    ∃ k d, (s.slot k).call = some d ∧ d.flat.map (fun j => j.val) = some i.val := by
  have named : ∀ d : Call, d.flat.map (fun j => j.val) = some i.val ↔ d.flat = some i := fun d => by
    cases d.flat with
    | none => simp
    | some j => simp [Fin.ext_iff]
  simp only [State.flatBusy, List.any_eq_true, decide_eq_true_eq, named]
  constructor
  · rintro ⟨⟨q, d⟩, mem, flat⟩
    exact ⟨q.slot, d, mem_liveCalls_slot mem, flat⟩
  · rintro ⟨k, d, call, flat⟩
    exact ⟨_, liveCalls_slot call, flat⟩

/-- R46: what an accepted SET FLAT makes of the state. -/
theorem storeFlat_eq (s : State) (i : FlatIx) (v : Bool) (r : RiserIx) (first count : Nat) (d : Bool)
    (doors : BitVec 8) :
    let old := s.flat i
    let f : Flat := { old with inService := v, riser := r, firstStation := first
                               handsetCount := count, divert := d, doors := doors }
    let now := if old.riser = r ∧ old.firstStation = first ∧ old.handsetCount = count then old.privacy
      else s.aggregate f
    s.storeFlat i v r first count d doors =
      { (Flat.changeEvents i old.privacy now).foldl State.emit s with
        dir := { s.dir with flats := s.dir.flats.write i { f with privacy := now }
                            flatServed := s.dir.flatServed || v } } := by
  intro old f now
  unfold State.storeFlat
  dsimp only
  split
  · next same =>
    have kept : now = old.privacy := if_pos same
    rw [kept, Flat.changeEvents, if_pos rfl]
    rfl
  · next other =>
    have worked : now = s.aggregate f := if_neg other
    rw [worked]
    exact recomputeFlat_written s i f (s.dir.flatServed || v)

/-- Settles O27: the three refusals in their order, and the record that is stored. -/
theorem setFlatStoresRecord : Obligations.SetFlatStoresRecord := by
  intro num fl v rs first count dv doors s takes c refused good busy shared
  have run := exec_taken (c := c) takes rfl
  have refuse : ∀ st, replyBody st .none = .none →
      s.setFlatAct fl v rs first count dv doors = (s, st, .none) →
      ∃ t, exec c s = .next t ∧ refused t st := fun st hb act =>
    ⟨_, run, answer_raises (es := []) (d := s.dir) takes act hb⟩
  have named : good → ∃ (i : FlatIx) (r : RiserIx), i.val = fl ∧ r.val = rs := fun g =>
    ⟨⟨fl, g.1⟩, ⟨rs, g.2.2.1⟩, rfl, rfl⟩
  have act : good → ∀ (i : FlatIx) (r : RiserIx), i.val = fl → r.val = rs →
      s.setFlatAct fl v rs first count dv doors =
        if s.flatBusy i then (s, .busy, .none)
        else if decide (v = 1) && s.flatConflict i r first count then (s, .conflict, .none)
        else
          let t := s.storeFlat i (decide (v = 1)) r first count (decide (dv = 1)) (byteOf doors)
          (t, .ok, .flat (t.flat i)) := by
    rintro ⟨-, hv, -, hd, range⟩ i r hi hr
    unfold State.setFlatAct
    rw [flat?_eq_some.2 hi, yesNo?_of_lt hv, riser?_eq_some.2 hr, yesNo?_of_lt hd]
    dsimp only
    rw [if_neg (by rw [stationRangeInRange_iff.2 range]; simp)]
  have engaged : ∀ i : FlatIx, i.val = fl → (s.flatBusy i = true ↔ busy) := fun i hi => by
    rw [flatBusy_iff, hi]
  have conflict : ∀ (i : FlatIx) (r : RiserIx), i.val = fl → r.val = rs →
      ((decide (v = 1) && s.flatConflict i r first count) = true ↔ shared) := fun i r hi hr => by
    rw [Bool.and_eq_true, decide_eq_true_eq, flatConflict_iff]
    simp only [List.mem_range'_1, Fin.ext_iff, ne_eq, hi, hr, and_assoc, shared]
  refine ⟨fun bad => refuse _ rfl ?_, fun g b => ?_, fun g free taken => ?_,
    fun g free apart i r hi hr => ?_⟩
  · unfold State.setFlatAct
    split
    · next i a r d hi ha hr hd =>
      have low := i.isLt
      have low' := r.isLt
      rw [flat?_eq_some.1 hi] at low
      rw [riser?_eq_some.1 hr] at low'
      have out : ¬ stationRangeInRange first count = true := fun range =>
        bad ⟨low, yesNo?_lt ha, low', yesNo?_lt hd, stationRangeInRange_iff.1 range⟩
      rw [if_pos (Bool.eq_false_iff.2 out)]
    · rfl
  · obtain ⟨i, r, hi, hr⟩ := named g
    exact refuse _ rfl ((act g i r hi hr).trans (if_pos ((engaged i hi).2 b)))
  · obtain ⟨i, r, hi, hr⟩ := named g
    refine refuse _ rfl ((act g i r hi hr).trans ?_)
    rw [if_neg (mt (engaged i hi).1 free), if_pos ((conflict i r hi hr).2 taken)]
  · intro old same aggregate x events
    have stored := storeFlat_eq s i (decide (v = 1)) r first count (decide (dv = 1)) (byteOf doors)
    have done : s.setFlatAct fl v rs first count dv doors =
        ({ events.foldl State.emit s with dir := { s.dir with
            flats := s.dir.flats.write i x, flatServed := s.dir.flatServed || decide (v = 1) } },
          .ok, .flat x) := by
      rw [act g i r hi hr, if_neg (mt (engaged i hi).1 free), if_neg (mt (conflict i r hi hr).1 apart)]
      dsimp only
      have read : (s.storeFlat i (decide (v = 1)) r first count (decide (dv = 1))
          (byteOf doors)).flat i = x := by
        rw [State.flat, stored]
        exact Table.read_write_same ..
      rw [read, stored]
      rfl
    exact ⟨_, run, answer_raises takes done rfl⟩

end Sys2Proof.Machine
end

