-- ==== Sys2Proof/Proofs/PrivacyFrames.lean ====
section
/-!
SUPPORT. PRIVACY(on) and PRIVACY(off) from a station (O52): the flag takes the level, and the flats of the
station follow it.
-/

namespace Sys2Proof.Machine

section
variable {s t : State} {x : RiserIx} {a : Nat} {v : Bool}

/-! ## What a flat's privacy is with the new level -/

/-- R48: with the flag on, each flat of the station has its privacy on. -/
theorem Flat.privacyWith_on {f : Flat} (y : Riser) (h : a ∈ f.stations) :
    f.privacyWith y a true = true := by
  have on : (f.stations.any fun b => if b = a then true else (y.station b).privacy) = true :=
    List.any_eq_true.2 ⟨a, h, if_pos rfl⟩
  rw [Flat.privacyWith, on, Bool.or_true]

/-- R48: with the flag off, the host privacy and the other stations are left. -/
theorem Flat.privacyWith_off (f : Flat) (y : Riser) (a : Nat) : f.privacyWith y a false =
    (f.hostPrivacy || f.stations.any fun b => decide (b ≠ a) && (y.station b).privacy) := by
  unfold Flat.privacyWith
  congr 2
  funext b
  by_cases e : b = a <;> simp [e]

/-- R48: the flags of a riser whose station has taken the level. -/
theorem FlagTaken.privacyWith (h : FlagTaken s t x a v) (f : Flat) : f.privacyWith (s.riser x) a v =
    (f.hostPrivacy || f.stations.any fun b => ((t.riser x).station b).privacy) := by
  unfold Flat.privacyWith
  congr 2
  funext b
  split
  · next e => rw [e, h.flag]
  · next ne => rw [h.others b ne]

/-- R108: turning the flag on raises the event of each flat of the station whose privacy was off. -/
theorem flagEvents_on (h : ((s.riser x).station a).privacy = false) : s.flagEvents x a true =
    (List.finRange 256).filterMap fun i =>
      if (s.flat i).riser = x ∧ a ∈ (s.flat i).stations ∧ (s.flat i).privacy = false then
        some (Event.privacyChange i true) else none := by
  unfold State.flagEvents
  rw [if_neg (by rw [h]; decide)]
  refine List.filterMap_congr fun i _ => ?_
  by_cases member : a ∈ (s.flat i).stations
  · simp [Flat.privacyWith_on _ member]
  · simp [member]

/-- R108: turning the flag off raises the event of each flat of the station that is left another privacy. -/
theorem flagEvents_off (h : ((s.riser x).station a).privacy = true) :
    let rest := fun (i : FlatIx) => (s.flat i).hostPrivacy ||
      (s.flat i).stations.any fun b => decide (b ≠ a) && ((s.riser x).station b).privacy
    s.flagEvents x a false = (List.finRange 256).filterMap fun i =>
      if (s.flat i).riser = x ∧ a ∈ (s.flat i).stations ∧ (s.flat i).privacy ≠ rest i then
        some (Event.privacyChange i (rest i)) else none := by
  unfold State.flagEvents
  rw [if_neg (by rw [h]; decide)]
  simp only [Flat.privacyWith_off]

/-! ## The frame -/

/-- R48, R105: what a PRIVACY frame of a present station makes of the state. -/
structure PrivacyTaken (s t : State) (x : RiserIx) (a : Nat) (v : Bool) : Prop where
  flag     : FlagTaken s t x a v
  presence : ((t.riser x).station a).presence = .present
  psw      : t.psw = s.psw
  locks    : t.locks = s.locks
  slots    : ∀ j, (s.slot j).SameButSending (t.slot j)
  raises   : Raises s t (s.flagEvents x a v)

theorem privacyFrame_taken (active : (s.riser x).link = .active) (range : 1 ≤ a ∧ a ≤ 62)
    (there : ((s.riser x).station a).presence ≠ .absent) (v : Bool) :
    PrivacyTaken s ((s.heard x a true).setStationPrivacy x a v).settle x a v := by
  have heard := Turned.heard active range true
  have quiet : s.presentEvents x a = [] := if_neg there
  rw [quiet] at heard
  have turned := heard.setPrivacy range v
  rw [List.nil_append] at turned
  generalize (s.heard x a true).setStationPrivacy x a v = u at turned ⊢
  obtain ⟨ccu, psw, -, hlp, ntu, -⟩ := turned.blocks
  have k := settle_settled u
  obtain ⟨presence, flag, -, locks⟩ := turned.kept (.refl u) k
  refine ⟨flag, presence, k.psw.trans psw, locks, fun j => ?_,
    .of_settled (congrArg Hlp.tx hlp) ntu k⟩
  rw [← State.slot_congr ccu j]
  exact k.slots j

end

/-- Settles O52: the two levels of the flag are one operation, and the events of each are read off it. -/
theorem privacyFrameSetsFlagAndFlats : Obligations.PrivacyFrameSetsFlagAndFlats := by
  intro x a s active due free low high there belongs takes
  have done : ∀ t v, PrivacyTaken s t x a v → takes t v := fun t v => by
    rintro ⟨flag, presence, psw, locks, slots, raises⟩
    refine ⟨?_, flag.others, fun i of ne => ?_, fun i other => ?_, flag.windows.1, flag.windows.2, psw,
      locks, slots, fun same => ⟨flag.same same, ?_⟩⟩
    · have level := flag.flag
      generalize (t.riser x).station a = st at presence level
      obtain ⟨p, w⟩ := st
      subst presence level
      rfl
    · rw [flag.flats i, if_pos ⟨ne, of⟩, flag.privacyWith]
    · rw [flag.flats i, if_neg fun h => other h.2]
    · rw [State.flagEvents, if_pos same] at raises
      exact raises
  have taken := privacyFrame_taken active ⟨low, high⟩ there
  have runOn : exec (.stationPrivacyOn x a) s =
      .next ((s.heard x a true).setStationPrivacy x a true).settle := by
    simp only [exec, execStationPrivacyOn]
    rw [onStationFrame_taken active due free low high, takeStationFrame_heard active]
  have runOff : exec (.stationPrivacyOff x a) s =
      .next ((s.heard x a true).setStationPrivacy x a false).settle := by
    simp only [exec, execStationPrivacyOff]
    rw [onStationFrame_taken active due free low high, takeStationFrame_heard active]
  refine ⟨⟨_, runOn, done _ _ (taken true), fun off => ?_⟩, _, runOff, done _ _ (taken false),
    fun on => ?_⟩
  · rw [← flagEvents_on off]
    exact (taken true).raises
  · rw [← flagEvents_off on]
    exact (taken false).raises

end Sys2Proof.Machine
end

