-- ==== Sys2Proof/Proofs/RiserRequests.lean ====
section
/-!
SUPPORT. What a request for a riser leaves of everything else, what flushing a riser and forgetting its
stations make of the state, and the end of an event at a riser that may not transmit (R71 to R75, R87).
-/

namespace Sys2Proof.Machine

/-! ## What a request for a riser leaves as it was -/

/-- A sending report changes nothing of a record but its offers. -/
theorem Slot.SameButSending.bare {x y : Slot} (h : x.SameButSending y) :
    y.generation = x.generation ∧ y.lastEnd = x.lastEnd ∧
      (y.call.map fun c => { c with offers := [] }) = x.call.map fun c => { c with offers := [] } := by
  obtain ⟨gen, last, call⟩ := h
  refine ⟨gen, last, ?_⟩
  generalize x.call = a at call
  generalize y.call = b at call
  cases a <;> cases b
  · rfl
  · cases call
  · cases call
  · next c d =>
    obtain ⟨same, -⟩ := call
    rw [Option.map_some, Option.map_some, same]

namespace RiserRequestKept
variable {s u t : State} {r : RiserIx}

theorem of_settled (r : RiserIx) (h : Settled s t) : RiserRequestKept s t r where
  pending := h.pending
  clock := h.clock
  resetHeld := h.resetHeld
  psw := h.psw
  locks := h.locks
  windows := by rw [h.dir]; exact ⟨rfl, rfl⟩
  flats i := by rw [State.flat_congr h.dir]
  times := h.times
  intercept := h.intercept
  slots j := (h.slots j).bare
  routes := h.routes
  ports p := ⟨(h.ports p).settings, (h.ports p).lastDisplay⟩
  risers x _ := h.risers x

theorem refl (s : State) (r : RiserIx) : RiserRequestKept s s r := of_settled r (.refl s)

theorem trans (h : RiserRequestKept s u r) (g : RiserRequestKept u t r) : RiserRequestKept s t r where
  pending := g.pending.trans h.pending
  clock := g.clock.trans h.clock
  resetHeld := g.resetHeld.trans h.resetHeld
  psw := g.psw.trans h.psw
  locks := g.locks.trans h.locks
  windows := ⟨g.windows.1.trans h.windows.1, g.windows.2.trans h.windows.2⟩
  flats i := by
    rw [g.flats i, h.flats i]
  times := g.times.trans h.times
  intercept := g.intercept.trans h.intercept
  slots j := by
    obtain ⟨gen, last, call⟩ := h.slots j
    obtain ⟨gen', last', call'⟩ := g.slots j
    exact ⟨gen'.trans gen, last'.trans last, call'.trans call⟩
  routes := g.routes.trans h.routes
  ports p := ⟨(h.ports p).1.trans (g.ports p).1, (g.ports p).2.trans (h.ports p).2⟩
  risers x ne := (h.risers x ne).trans (g.risers x ne)

theorem modifyRiser (s : State) (r : RiserIx) (f : Riser → Riser) :
    RiserRequestKept s (s.modifyRiser r f) r :=
  { refl s r with
    risers := fun x ne => by
      rw [State.riser_modifyRiser, if_neg (Ne.symm ne)]
      exact .refl _ }

/-- R184: events reach the notices and the alert slots. -/
theorem emit (s : State) (e : Event) (r : RiserIx) : RiserRequestKept s (s.emit e) r :=
  have kept := (emit_moves s e).kept
  { refl s r with
    pending := kept.pending
    clock := kept.clock
    resetHeld := kept.resetHeld
    psw := State.emit_psw s e
    locks := kept.locks
    windows := by rw [kept.dir]; exact ⟨rfl, rfl⟩
    flats := fun i => by rw [State.flat_congr kept.dir]
    times := kept.times
    intercept := kept.intercept
    slots := fun j => by
      rw [State.slot_congr (State.emit_ccu s e)]
      exact ⟨rfl, rfl, rfl⟩
    routes := kept.routes
    ports := fun p => by
      rcases emit_port s e p with same | alert
      · rw [same]
        exact ⟨.refl _, rfl⟩
      · rw [alert]
        exact ⟨Port.takeAlert_settings e _, Port.takeAlert_lastDisplay e _⟩
    risers := fun x _ => by
      rw [State.riser_congr (State.emit_risers s e)]
      exact .refl _ }

theorem emits (es : List Event) (s : State) (r : RiserIx) :
    RiserRequestKept s (es.foldl State.emit s) r := by
  induction es generalizing s with
  | nil => exact refl s r
  | cons e es ih => exact (emit s e r).trans (ih _)

/-- R48: flats worked out again take another privacy and no other value. -/
theorem of_recomputed {l : List FlatIx} (r : RiserIx) (h : Recomputed s t l) :
    RiserRequestKept s t r := by
  obtain ⟨d, shape⟩ := h.events
  have raised := emits (l.filterMap s.flatTurn) s r
  generalize (l.filterMap s.flatTurn).foldl State.emit s = u at shape raised
  have moved : RiserRequestKept s { u with dir := d } r :=
    { raised with
      windows := by rw [← shape]; exact h.windows
      flats := fun i => by
        rw [← shape, h.flats i]
        split <;> rfl }
  rw [shape]
  exact moved

end RiserRequestKept

/-! ## Offers that a flush completes (R14, R73) -/

/-- Each offer of the call in a slot changed by a rule that knows the call's reference and answerer. -/
def Slot.marks (j : SlotIx) (F : Ref → Option Nat → Offer → Offer) (x : Slot) : Slot :=
  { x with call := x.call.map fun d =>
      { d with offers := d.offers.map (F { slot := j, gen := x.generation } d.answerer) } }

theorem Slot.marks_same {j : SlotIx} {F : Ref → Option Nat → Offer → Offer} {x : Slot}
    (h : ∀ n o, F { slot := j, gen := x.generation } n o = o) : x.marks j F = x := by
  have same : F { slot := j, gen := x.generation } = fun _ o => o := funext fun n => funext (h n)
  unfold Slot.marks
  rw [same]
  obtain ⟨g, l, c⟩ := x
  cases c <;> simp

theorem Slot.marks_marks (j : SlotIx) (F G : Ref → Option Nat → Offer → Offer) (x : Slot) :
    (x.marks j F).marks j G = x.marks j fun q n o => G q n (F q n o) := by
  obtain ⟨g, l, c⟩ := x
  cases c <;> simp [Slot.marks, Function.comp_def]

/-- Operations that each mark the offers of every slot mark them in turn. -/
theorem slot_foldl_marks {α : Type} {f : State → α → State} {F : α → Ref → Option Nat → Offer → Offer}
    (one : ∀ s b j, (f s b).slot j = (s.slot j).marks j (F b)) (l : List α) (s : State) (j : SlotIx) :
    (l.foldl f s).slot j = (s.slot j).marks j fun q n o => l.foldl (fun o b => F b q n o) o := by
  induction l generalizing s with
  | nil => exact (Slot.marks_same fun _ _ => rfl).symm
  | cons b l ih => rw [List.foldl_cons, ih, one, Slot.marks_marks]; rfl

/-- A mark that no later one names again is made by the first element that names the value. -/
theorem foldl_mark_once {α β : Type} {named : α → β → Bool} {done : β → β}
    (stops : ∀ b o, named b (done o) = false) (l : List α) (o : β) :
    l.foldl (fun o b => if named b o = true then done o else o) o =
      if (l.any fun b => named b o) = true then done o else o := by
  have stay : ∀ l : List α,
      l.foldl (fun o b => if named b o = true then done o else o) (done o) = done o := fun l => by
    induction l with
    | nil => rfl
    | cons b l ih => rw [List.foldl_cons, if_neg (by rw [stops]; decide), ih]
  induction l with
  | nil => rfl
  | cons b l ih =>
    rw [List.foldl_cons, List.any_cons]
    by_cases h : named b o = true
    · rw [if_pos h, stay, if_pos (by rw [h, Bool.true_or])]
    · rw [if_neg h, ih, Bool.eq_false_iff.2 h, Bool.false_or]

/-- R15: a completion with the fault mark, at each slot. -/
theorem completeFaulted_slot (s : State) (c : Ref) (a : Nat) (tag : Option Nat) (res : OfferStatus)
    (j : SlotIx) : (s.completeFaulted c a tag res).slot j = (s.slot j).marks j fun q n o =>
      if q = c ∧ o.isNamedBy n a tag = true then { o with status := res, tag := none } else o := by
  unfold State.completeFaulted State.modifyCall
  split
  · next d hd =>
    obtain ⟨gen, call⟩ := (s.call?_eq_some c d).1 hd
    rw [State.slot_setCall]
    split
    · next e =>
      subst e
      have here : ({ slot := c.slot, gen := (s.slot c.slot).generation } : Ref) = c := by
        rw [gen]
      rw [Slot.marks, call, here]
      simp [Call.markOffers]
    · next ne =>
      have away : ({ slot := j, gen := (s.slot j).generation } : Ref) ≠ c := fun e =>
        ne (congrArg Ref.slot e).symm
      exact (Slot.marks_same fun _ _ => if_neg fun h => away h.1).symm
  · next gone =>
    by_cases e : ({ slot := j, gen := (s.slot j).generation } : Ref) = c
    · subst e
      have call : (s.slot j).call = none := by
        simpa [State.call?] using gone
      rw [Slot.marks, call, Option.map_none, ← call]
    · exact (Slot.marks_same fun _ _ => if_neg fun h => e h.1).symm

/-- R73: the offer that an outstanding request of a riser that is cleared out completes. -/
def Outstanding.completes (p : Outstanding) (q : Ref) (n : Option Nat) (o : Offer) : Bool :=
  decide (o.status = .sent ∧ n ≠ some o.station) &&
    (p.frame.isOfferOf o.station q && decide (o.tag = some p.tag))

/-- R73: the offer that a waiting entry of its queue completes. -/
def QueueItem.completes (i : QueueItem) (q : Ref) (o : Offer) : Bool :=
  decide (o.status = .queued) && i.isWaitingOffer o.station q

/-- An offer that a flush has completed. -/
def Offer.completed (res : OfferStatus) (o : Offer) : Offer := { o with status := res, tag := none }

theorem completeOutstandingFaulted_slot (s : State) (p : Outstanding) (j : SlotIx) :
    (s.completeOutstandingFaulted p).slot j = (s.slot j).marks j fun q n o =>
      if p.completes q n o = true then o.completed .noReply else o := by
  unfold State.completeOutstandingFaulted
  split
  · next a c _ _ frame =>
    rw [completeFaulted_slot]
    congr 1
    funext q n o
    refine if_congr ?_ rfl rfl
    simp only [Offer.isNamedBy, Outstanding.completes, frame, Solicited.isOfferOf, Bool.and_eq_true,
      decide_eq_true_eq]
    constructor
    · rintro ⟨rfl, ⟨⟨rfl, tag⟩, sent⟩, other⟩
      exact ⟨⟨sent, other⟩, ⟨rfl, rfl⟩, tag⟩
    · rintro ⟨⟨sent, other⟩, ⟨rfl, rfl⟩, tag⟩
      exact ⟨rfl, ⟨⟨rfl, tag⟩, sent⟩, other⟩
  · next a frame =>
    refine (Slot.marks_same fun n o => if_neg ?_).symm
    simp [Outstanding.completes, frame, Solicited.isOfferOf]

theorem syncDone_ccu (s : State) (r : RiserIx) (n : Nat) (o : MarkerOutcome) :
    (s.syncDone r n o).ccu = s.ccu := by
  unfold State.syncDone
  dsimp only
  split <;> rfl

theorem flushEntry_slot (r : RiserIx) (s : State) (i : QueueItem) (j : SlotIx) :
    (State.flushEntry r s i).slot j = (s.slot j).marks j fun q _ o =>
      if i.completes q o = true then o.completed .noStation else o := by
  unfold State.flushEntry
  split
  · next entry =>
    refine (Slot.marks_same fun n o => if_neg ?_).symm
    simp [QueueItem.completes, QueueItem.isWaitingOffer, entry]
  · next entry =>
    rw [State.slot_congr (syncDone_ccu ..)]
    refine (Slot.marks_same fun n o => if_neg ?_).symm
    simp [QueueItem.completes, QueueItem.isWaitingOffer, entry]
  · next a c _ _ entry =>
    split
    · next sending =>
      refine (Slot.marks_same fun n o => if_neg ?_).symm
      simp [QueueItem.completes, QueueItem.isWaitingOffer, sending]
    · next waits =>
      rw [completeFaulted_slot]
      congr 1
      funext q n o
      refine if_congr ?_ rfl rfl
      simp only [Offer.isNamedBy, QueueItem.completes, QueueItem.isWaitingOffer, entry,
        Bool.eq_false_iff.2 waits, Solicited.isOfferOf, Bool.and_eq_true, decide_eq_true_eq,
        Bool.not_false, true_and]
      constructor
      · rintro ⟨rfl, rfl, queued⟩
        exact ⟨queued, rfl, rfl⟩
      · rintro ⟨queued, rfl, rfl⟩
        exact ⟨rfl, rfl, queued⟩
  · next entry =>
    refine (Slot.marks_same fun n o => if_neg ?_).symm
    simp [QueueItem.completes, QueueItem.isWaitingOffer, entry, Solicited.isOfferOf]

/-- R73: the completions of the outstanding requests, then of the queue, in one step. -/
theorem cleared_eq (x : Riser) (q : Ref) (n : Option Nat) (o : Offer) :
    x.queue.foldl (fun o i => if i.completes q o = true then o.completed .noStation else o)
      (x.outstanding.foldl (fun o p => if p.completes q n o = true then o.completed .noReply else o) o) =
      o.cleared x q n := by
  rw [foldl_mark_once (named := fun p o => Outstanding.completes p q n o)
      fun p o => by simp [Outstanding.completes, Offer.completed],
    foldl_mark_once (named := fun i o => QueueItem.completes i q o)
      fun i o => by simp [QueueItem.completes, Offer.completed]]
  have sent : (x.outstanding.any fun p => p.completes q n o) = true ↔
      o.status = .sent ∧ n ≠ some o.station ∧
        (x.outstanding.any fun p => p.frame.isOfferOf o.station q && decide (o.tag = some p.tag)) =
          true := by
    simp only [Outstanding.completes, List.any_eq_true, Bool.and_eq_true, decide_eq_true_eq]
    constructor
    · rintro ⟨p, m, ⟨sent, other⟩, named⟩
      exact ⟨sent, other, p, m, named⟩
    · rintro ⟨sent, other, p, m, named⟩
      exact ⟨p, m, ⟨sent, other⟩, named⟩
  have queued : ∀ o : Offer, (x.queue.any fun i => i.completes q o) = true ↔
      o.status = .queued ∧ (x.queue.any fun i => i.isWaitingOffer o.station q) = true := fun o => by
    simp only [QueueItem.completes, List.any_eq_true, Bool.and_eq_true, decide_eq_true_eq]
    constructor
    · rintro ⟨i, m, queued, waits⟩
      exact ⟨queued, i, m, waits⟩
    · rintro ⟨queued, i, m, waits⟩
      exact ⟨i, m, queued, waits⟩
  unfold Offer.cleared
  by_cases h : (x.outstanding.any fun p => p.completes q n o) = true
  · rw [if_pos h, if_pos (sent.1 h), if_neg fun k => by cases ((queued _).1 k).1]
    rfl
  · rw [if_neg h, if_neg (mt sent.2 h)]
    exact if_congr (queued o) rfl rfl

theorem flushRiser_slot (s : State) (r : RiserIx) (j : SlotIx) :
    (s.flushRiser r).slot j = (s.slot j).marks j fun q n o => o.cleared (s.riser r) q n := by
  have requests := fun t => slot_foldl_marks (j := j) completeOutstandingFaulted_slot
    (s.riser r).outstanding t
  have entries := fun t => slot_foldl_marks (j := j) (flushEntry_slot r) (s.riser r).queue t
  refine ((entries _).trans (congrArg _ (requests s))).trans ?_
  rw [Slot.marks_marks]
  simp only [cleared_eq]

/-! ## Markers that a flush completes (R73, R175) -/

theorem completeFaulted_hlp (s : State) (c : Ref) (a : Nat) (tag : Option Nat) (res : OfferStatus) :
    (s.completeFaulted c a tag res).hlp = s.hlp := by
  unfold State.completeFaulted State.modifyCall
  split <;> rfl

/-- R175: a marker whose request is pending is answered with its outcome. -/
theorem syncDone_pending {s : State} {r : RiserIx} {n : Nat} (o : MarkerOutcome)
    (h : { num := n, riser := r } ∈ s.hlp.syncs) :
    (s.syncDone r n o).hlp.replyLine = s.hlp.replyLine ++ [⟨0x14, n, .ok, .sync r o⟩] ∧
      (s.syncDone r n o).hlp.syncs = s.hlp.syncs.erase { num := n, riser := r } := by
  unfold State.syncDone
  dsimp only
  rw [if_pos (List.contains_iff_mem.2 h)]
  exact ⟨by simp [Hlp.replyLine], rfl⟩

/-- What a flush does with one entry, at the host link. -/
theorem flushEntry_hlp (r : RiserIx) (s : State) (i : QueueItem) : (State.flushEntry r s i).hlp =
    match i.marker? with
    | some n => (s.syncDone r n .flushed).hlp
    | none => s.hlp := by
  unfold State.flushEntry QueueItem.marker?
  obtain ⟨e, sending⟩ := i
  cases e with
  | advisory f => rfl
  | marker n => rfl
  | solicited f =>
    cases f with
    | poll a => rfl
    | offer a c k p =>
      dsimp only
      split
      · rfl
      · exact completeFaulted_hlp ..

/-- R73: the markers complete FLUSHED in queue order. -/
theorem flushEntries_replies (r : RiserIx) (l : List QueueItem) (s : State)
    (pending : ∀ m, (l.filterMap QueueItem.marker?).count m ≤
      s.hlp.syncs.count { num := m, riser := r }) :
    (l.foldl (State.flushEntry r) s).hlp.replyLine = s.hlp.replyLine ++
      (l.filterMap QueueItem.marker?).map fun m => ⟨0x14, m, .ok, .sync r .flushed⟩ := by
  induction l generalizing s with
  | nil => exact (List.append_nil _).symm
  | cons i l ih =>
    have hlp := flushEntry_hlp r s i
    rw [List.foldl_cons]
    cases marker : i.marker? with
    | none =>
      rw [marker] at hlp
      rw [List.filterMap_cons_none marker] at pending ⊢
      rw [ih _ (by rw [hlp]; exact pending), hlp]
    | some n =>
      rw [marker] at hlp
      rw [List.filterMap_cons_some marker] at pending ⊢
      have due : { num := n, riser := r } ∈ s.hlp.syncs := by
        have := pending n
        rw [List.count_cons_self] at this
        exact List.count_pos_iff.1 (by omega)
      obtain ⟨line, syncs⟩ := syncDone_pending .flushed due
      rw [ih _ fun m => ?_, hlp, line, List.append_assoc]
      · rfl
      · have here := pending m
        rw [hlp, syncs, List.count_erase]
        rw [List.count_cons] at here
        by_cases e : n = m
        · subst e
          simp only [beq_self_eq_true, if_true] at here ⊢
          omega
        · have away : ¬ (({ num := n, riser := r } : PendingSync) == { num := m, riser := r }) = true :=
            fun k => e (congrArg PendingSync.num (eq_of_beq k))
          rw [if_neg (by simpa using e)] at here
          rw [if_neg away]
          omega

/-! ## Operations of a request for a riser -/

/-- A state in which one riser has become another one and these events have been raised, with everything
kept that a request for a riser keeps. -/
structure RiserSet (s t : State) (r : RiserIx) (y : Riser) (es : List Event) : Prop where
  kept   : RiserRequestKept s t r
  riser  : t.riser r = y
  ntu    : t.ntu = (es.foldl State.emit s).ntu
  tx     : t.hlp.tx = s.hlp.tx
  buffer : t.hlp.buffer = s.hlp.buffer

namespace RiserSet
variable {s u t : State} {r : RiserIx} {x y : Riser} {ds es : List Event}

theorem refl (s : State) (r : RiserIx) : RiserSet s s r (s.riser r) [] :=
  ⟨.refl s r, rfl, rfl, rfl, rfl⟩

theorem trans (h : RiserSet s u r x es) (g : RiserSet u t r y ds) : RiserSet s t r y (es ++ ds) where
  kept := h.kept.trans g.kept
  riser := g.riser
  ntu := by rw [g.ntu, List.foldl_append]; exact emits_ntu_congr h.ntu ds
  tx := g.tx.trans h.tx
  buffer := g.buffer.trans h.buffer

/-- Operations that raise nothing, one after the other. -/
theorem next (h : RiserSet s u r x es) (g : RiserSet u t r y []) : RiserSet s t r y es := by
  have both := h.trans g
  rw [List.append_nil] at both
  exact both

theorem modify (s : State) (r : RiserIx) (f : Riser → Riser) :
    RiserSet s (s.modifyRiser r f) r (f (s.riser r)) [] :=
  ⟨.modifyRiser s r f, by rw [State.riser_modifyRiser, if_pos rfl], rfl, rfl, rfl⟩

theorem emit (s : State) (r : RiserIx) (e : Event) : RiserSet s (s.emit e) r (s.riser r) [e] :=
  ⟨.emit s e r, State.riser_congr (State.emit_risers s e) r, rfl, by rw [State.emit_hlp],
    by rw [State.emit_hlp]⟩

/-- The free lines are looked at once the reply has been made. -/
theorem settle (h : RiserSet s u r y es) (kind num : Nat) (st : Status) (b : ReplyBody) :
    let t := (u.reply kind num st b).settle
    RiserRequestKept s t r ∧ t.hlp.buffer = s.hlp.buffer ∧ Raises s t es ∧
      RiserSettled y (t.riser r) ∧
      u.hlp.replyLine ++ [⟨kind, num, st, replyBody st b⟩] <+: t.hlp.replyLine := by
  have k := settle_settled (u.reply kind num st b)
  refine ⟨h.kept.trans (.of_settled r ((reply_settled u kind num st b).trans k)),
    k.buffer.trans h.buffer, .of_settled (u := u.reply kind num st b) h.tx h.ntu k, ?_,
    reply_leads rfl kind num st b⟩
  rw [← h.riser]
  exact k.risers r

/-! ## Flushing (R73) -/

/-- R15: a completion with the fault mark changes offers alone. -/
theorem completeFaulted (s : State) (r : RiserIx) (c : Ref) (a : Nat) (tag : Option Nat)
    (res : OfferStatus) : RiserSet s (s.completeFaulted c a tag res) r (s.riser r) [] := by
  have slots := completeFaulted_slot s c a tag res
  have same : ∃ z : Ccu, s.completeFaulted c a tag res = { s with ccu := z } ∧ z.times = s.ccu.times ∧
      z.intercept = s.ccu.intercept := by
    unfold State.completeFaulted State.modifyCall
    split
    · exact ⟨_, rfl, rfl, rfl⟩
    · exact ⟨s.ccu, rfl, rfl, rfl⟩
  obtain ⟨z, eq, times, intercept⟩ := same
  rw [eq] at slots ⊢
  refine ⟨{ RiserRequestKept.refl s r with
    times := times
    intercept := intercept
    slots := fun j => ?_ }, rfl, rfl, rfl, rfl⟩
  rw [slots j]
  refine ⟨rfl, rfl, ?_⟩
  rw [Slot.marks, Option.map_map]
  rfl

theorem syncDone (s : State) (r x : RiserIx) (n : Nat) (o : MarkerOutcome) :
    RiserSet s (s.syncDone r n o) x (s.riser x) [] := by
  have kept := RiserRequestKept.of_settled x (syncDone_settled s r n o)
  unfold State.syncDone at kept ⊢
  dsimp only at kept ⊢
  split at kept
  · next h =>
    rw [if_pos h]
    exact ⟨kept, rfl, rfl, rfl, rfl⟩
  · next h =>
    rw [if_neg h]
    exact .refl s x

theorem foldl {α : Type} {f : State → α → State} (one : ∀ s b, RiserSet s (f s b) r (s.riser r) [])
    (l : List α) (s : State) : RiserSet s (l.foldl f s) r (s.riser r) [] := by
  induction l generalizing s with
  | nil => exact .refl s r
  | cons b l ih =>
    have rest := ih (f s b)
    rw [(one s b).riser] at rest
    exact (one s b).next rest

end RiserSet

/-- R73: a riser that has been flushed. -/
def Riser.flushed (x : Riser) : Riser :=
  { x with
    queue := [], outstanding := [], resends := []
    freeTags := x.freeTags ++ x.outstanding.map fun o => o.tag
    tx := none }

theorem flushRiser_set (s : State) (r : RiserIx) :
    RiserSet s (s.flushRiser r) r (s.riser r).flushed [] := by
  have request : ∀ (t : State) (p : Outstanding),
      RiserSet t (t.completeOutstandingFaulted p) r (t.riser r) [] := fun t p => by
    unfold State.completeOutstandingFaulted
    split
    · exact .completeFaulted ..
    · exact .refl t r
  have entry : ∀ (t : State) (i : QueueItem), RiserSet t (State.flushEntry r t i) r (t.riser r) [] :=
    fun t i => by
    unfold State.flushEntry
    split
    · exact .refl t r
    · exact .syncDone ..
    · split
      · exact .refl t r
      · exact .completeFaulted ..
    · exact .refl t r
  have requests := RiserSet.foldl request (s.riser r).outstanding s
  have entries := RiserSet.foldl entry (s.riser r).queue
    ((s.riser r).outstanding.foldl State.completeOutstandingFaulted s)
  rw [requests.riser] at entries
  have both := requests.next entries
  have last := both.next (.modify _ r fun y => { y with
    queue := [], outstanding := [], resends := []
    freeTags := y.freeTags ++ (s.riser r).outstanding.map fun o => o.tag
    tx := none })
  rw [both.riser] at last
  exact last

theorem flushRiser_dir (s : State) (r : RiserIx) : (s.flushRiser r).dir = s.dir := by
  have request : ∀ (t : State) (p : Outstanding), (t.completeOutstandingFaulted p).dir = t.dir :=
    fun t p => by
    unfold State.completeOutstandingFaulted
    split
    · exact (completeFaulted_moves ..).kept.dir
    · rfl
  have entry : ∀ (t : State) (i : QueueItem), (State.flushEntry r t i).dir = t.dir := fun t i => by
    unfold State.flushEntry
    split
    · rfl
    · exact (syncDone_settled ..).dir
    · split
      · rfl
      · exact (completeFaulted_moves ..).kept.dir
    · rfl
  have fold : ∀ {α : Type} {f : State → α → State}, (∀ t b, (f t b).dir = t.dir) →
      ∀ (l : List α) (t : State), (l.foldl f t).dir = t.dir := fun one l => by
    induction l with
    | nil => exact fun _ => rfl
    | cons b l ih => exact fun t => (ih _).trans (one t b)
  exact (fold entry _ _).trans (fold request _ s)

theorem flushRiser_replies (s : State) (r : RiserIx) (pending : ∀ m, (s.riser r).markers.count m ≤
    s.hlp.syncs.count { num := m, riser := r }) : (s.flushRiser r).hlp.replyLine =
      s.hlp.replyLine ++ (s.riser r).markers.map fun m => ⟨0x14, m, .ok, .sync r .flushed⟩ := by
  have request : ∀ (l : List Outstanding) (t : State),
      (l.foldl State.completeOutstandingFaulted t).hlp = t.hlp := fun l => by
    induction l with
    | nil => exact fun _ => rfl
    | cons p l ih =>
      refine fun t => (ih _).trans ?_
      unfold State.completeOutstandingFaulted
      split
      · exact completeFaulted_hlp ..
      · rfl
  have hlp := request (s.riser r).outstanding s
  have replies := flushEntries_replies r (s.riser r).queue
    ((s.riser r).outstanding.foldl State.completeOutstandingFaulted s) (by rw [hlp]; exact pending)
  rw [hlp] at replies
  exact replies

/-! ## Forgetting the stations (R73, R48) -/

theorem privacyEvents_congr {s t : State} (h : t.dir = s.dir) (r : RiserIx) :
    t.privacyEvents r = s.privacyEvents r := by
  unfold State.privacyEvents
  simp only [State.flat_congr h]

/-- No flag of a station of a riser that has been forgotten is set. -/
theorem station_forgotten (x : Riser) (a : Nat) :
    ({ x with stations := Table.fill 62 Station.cold } : Riser).station a = Station.cold := by
  unfold Riser.station
  split
  · exact Table.read_fill ..
  · rfl

theorem forgetStations_recomputed (s : State) (r : RiserIx) :
    Recomputed (s.modifyRiser r fun x => { x with stations := Table.fill 62 Station.cold })
      (s.forgetStations r)
      ((List.finRange 256).filter fun i => decide ((s.flat i).riser = r)) :=
  recompute_all _ ((List.nodup_finRange 256).filter _) _

/-- R48: with all flags of its riser clear, a flat has its host privacy. -/
theorem aggregate_forgotten {s : State} {r : RiserIx} {f : Flat} (h : f.riser = r) :
    (s.modifyRiser r fun x => { x with stations := Table.fill 62 Station.cold }).aggregate f =
      f.hostPrivacy := by
  have none : (f.stations.any fun a => ((({ s.riser r with
      stations := Table.fill 62 Station.cold } : Riser)).station a).privacy) = false :=
    List.any_eq_false.2 fun a _ => by rw [station_forgotten]; decide
  unfold State.aggregate
  rw [State.riser_modifyRiser, if_pos h.symm, none, Bool.or_false]

theorem forgetStations_flats (s : State) (r : RiserIx) (i : FlatIx) : (s.forgetStations r).flat i =
    if (s.flat i).riser = r then { s.flat i with privacy := (s.flat i).hostPrivacy } else s.flat i := by
  rw [(forgetStations_recomputed s r).flats i]
  simp only [List.mem_filter, List.mem_finRange, true_and, decide_eq_true_eq]
  split
  · next h =>
    have flat : (s.modifyRiser r fun x => { x with stations := Table.fill 62 Station.cold }).flat i =
      s.flat i := rfl
    rw [flat, aggregate_forgotten h]
  · rfl

theorem forgetStations_events (s : State) (r : RiserIx) :
    ((List.finRange 256).filter fun i => decide ((s.flat i).riser = r)).filterMap
      (s.modifyRiser r fun x => { x with stations := Table.fill 62 Station.cold }).flatTurn =
      s.privacyEvents r := by
  rw [List.filterMap_filter]
  refine List.filterMap_congr fun i _ => ?_
  have flat : (s.modifyRiser r fun x => { x with stations := Table.fill 62 Station.cold }).flat i =
    s.flat i := rfl
  by_cases h : (s.flat i).riser = r
  · rw [State.flatTurn, flat, aggregate_forgotten h]
    by_cases same : (s.flat i).hostPrivacy = (s.flat i).privacy
    · simp [h, same]
    · simp [h, same, Ne.symm same]
  · simp [h]

theorem forgetStations_set (s : State) (r : RiserIx) : RiserSet s (s.forgetStations r) r
    { s.riser r with stations := Table.fill 62 Station.cold } (s.privacyEvents r) := by
  have all := forgetStations_recomputed s r
  have put := RiserSet.modify s r fun x => { x with stations := Table.fill 62 Station.cold }
  obtain ⟨d, shape⟩ := all.events
  rw [forgetStations_events] at shape
  generalize s.privacyEvents r = es at shape ⊢
  refine put.trans (es := []) ⟨.of_recomputed r all, (State.riser_congr all.risers r).trans put.riser,
    by rw [shape], ?_, ?_⟩
  · rw [shape]
    exact congrArg Hlp.tx (emits_hlp ..)
  · rw [shape]
    exact congrArg Hlp.buffer (emits_hlp ..)

/-! ## The end of an event at a riser that may not transmit -/

/-- R78, R87: at a riser that is not ACTIVE only markers complete. -/
theorem settle_notActive {s : State} {r : RiserIx} (h : (s.riser r).link ≠ .active) :
    s.settle.riser r = { s.riser r with queue := (drainMarkers (s.riser r).queue).2 } := by
  obtain ⟨w, riser, -, turn⟩ := settle_turn s r
  have drained : (w.completeMarkers r).riser r =
      { s.riser r with queue := (drainMarkers (s.riser r).queue).2 } := by
    rw [← riser]
    exact (State.riser_congr (completeMarkers_rest w r).1 r).trans
      ((State.riser_modifyRiser ..).trans (if_pos rfl))
  have still : (w.completeMarkers r).startTransmission r = w.completeMarkers r := by
    unfold State.startTransmission
    dsimp only
    rw [if_neg fun k => h (by rw [drained] at k; exact k.1)]
  have awake : (w.completeMarkers r).goQuiet r = w.completeMarkers r := by
    unfold State.goQuiet
    dsimp only
    rw [if_neg fun k => h (by rw [drained] at k; exact k.1)]
  rw [turn, State.settleRiser, still, awake, drained]

/-- R78: with no frame in the queue no request starts, so none is outstanding that was not before. -/
theorem RiserSettled.outstanding_nil {x y : Riser} (h : RiserSettled x y) (none : x.frames = []) :
    y.outstanding = [] ↔ x.outstanding = [] := by
  rcases h.line with same | served
  · rw [same.2.1]
  · rcases served.sent with ⟨_, _, _, _, _, out, _⟩ | ⟨_, _, _, _, _, out, _⟩ | ⟨_, f, _, _, next, _⟩
    · rw [out]
    · rw [out]
    · rw [Riser.nextFrame_none none] at next
      cases next

end Sys2Proof.Machine
end

