-- ==== Sys2Proof/Proofs/SetRiser.lean ====
section
/-!
SUPPORT. SET RISER (O29): the settings, enabling, disabling, and the riser that may go QUIET.
-/

namespace Sys2Proof.Machine

/-! ## The parts of the request, on the riser -/

/-- R75: a QUIET riser that wakes. -/
def Riser.woken (x : Riser) (now : Nat) : Riser :=
  { x with
    link := if x.link = .quiet then .waking else x.link
    wakeTimer := if x.link = .quiet then some (now + 200) else x.wakeTimer }

theorem startWake_eq (s : State) (r : RiserIx) :
    s.startWake r = s.modifyRiser r fun x => x.woken s.clock := by
  unfold State.startWake
  split
  · next quiet =>
    refine State.modifyRiser_congr ?_
    unfold Riser.woken
    rw [if_pos quiet, if_pos quiet]
    rfl
  · next awake =>
    refine (State.modifyRiser_same ?_).symm
    unfold Riser.woken
    rw [if_neg awake, if_neg awake]

/-- R71: the four settings and the step timer. -/
def Riser.withSettings (x : Riser) (now : Nat) (v q : Bool) (stepMs idleS : Nat) : Riser :=
  { x with
    survey := v, quietAllowed := q, surveyStepMs := stepMs, quietIdleS := idleS
    stepTimer :=
      if x.link = .active ∧ x.survey = false ∧ v = true then some (now + stepMs)
      else if x.survey = true ∧ v = false then none
      else x.stepTimer }

/-- R71: the riser with the four settings stored, awake when it may no longer be QUIET. -/
def Riser.stored (x : Riser) (now : Nat) (v q : Bool) (stepMs idleS : Nat) : Riser :=
  if q = false then (x.withSettings now v q stepMs idleS).woken now
  else x.withSettings now v q stepMs idleS

theorem storeRiser_eq (s : State) (r : RiserIx) (v q : Bool) (a b : Nat) :
    s.storeRiser r v q a b = s.modifyRiser r fun x => x.stored s.clock v q a b := by
  have settled : s.storeRiser r v q a b =
      if q = false then (s.modifyRiser r fun x => x.withSettings s.clock v q a b).startWake r
      else s.modifyRiser r fun x => x.withSettings s.clock v q a b := by
    have woken : ∀ {u w : State}, u = w →
        (if q = false then u.startWake r else u) = if q = false then w.startWake r else w :=
      fun e => by rw [e]
    unfold State.storeRiser
    refine woken ?_
    unfold State.startStep Riser.withSettings
    rw [State.modifyRiser_modifyRiser, State.modifyRiser_modifyRiser]
    split
    · next starts => exact State.modifyRiser_congr (by rw [if_pos starts]; rfl)
    · next stays =>
      split
      · next stops => exact State.modifyRiser_congr (by rw [if_neg stays, if_pos stops])
      · next runs => exact State.modifyRiser_congr (by rw [if_neg stays, if_neg runs])
  rw [settled, startWake_eq, State.modifyRiser_modifyRiser]
  unfold Riser.stored
  cases q <;> rfl

section
variable (x : Riser) (now : Nat) (v q : Bool) (a b : Nat)

/-- What a change of settings leaves of a riser, and what it stores. -/
theorem Riser.stored_settings :
    let z := x.stored now v q a b
    z.line = x.line ∧ z.survey = v ∧ z.quietAllowed = q ∧ z.surveyStepMs = a ∧ z.quietIdleS = b ∧
      z.queue = x.queue ∧ z.outstanding = x.outstanding ∧ z.freeTags = x.freeTags ∧
      z.runOut = x.runOut ∧ z.stepTimer = (x.withSettings now v q a b).stepTimer := by
  unfold Riser.stored
  split <;> exact ⟨rfl, rfl, rfl, rfl, rfl, rfl, rfl, rfl, rfl, rfl⟩

theorem Riser.stored_link : (x.stored now v q a b).link =
    if x.link = .quiet ∧ q = false then .waking else x.link := by
  cases q with
  | true => exact (if_neg (by simp)).symm
  | false => exact if_congr (by simp [Riser.withSettings]) rfl rfl

theorem Riser.stored_wakes (quiet : x.link = .quiet) :
    (x.stored now v false a b).wakeTimer = some (now + 200) := if_pos quiet

end

/-- R72: a DISABLED riser that is enabled. -/
def Riser.enabled (x : Riser) (now : Nat) : Riser :=
  if x.line = .good then
    { x with
      link := .active, wakeTimer := none, runOut := false
      idleTimer := some (now + x.quietIdleS * 1000)
      stepTimer := if x.survey then some (now + x.surveyStepMs) else x.stepTimer }
  else { x with link := .faulted }

theorem enableRiser_set (s : State) (r : RiserIx) :
    RiserSet s (s.enableRiser r) r ((s.riser r).enabled s.clock)
      [.riserChange r (if (s.riser r).line = .good then .active else .faulted) .enabled] := by
  have change : ∀ (f : Riser → Riser) (e : Event),
      RiserSet s ((s.modifyRiser r f).emit e) r (f (s.riser r)) [e] := fun f e => by
    have raised := RiserSet.emit (s.modifyRiser r f) r e
    rw [State.riser_modifyRiser, if_pos rfl] at raised
    exact (RiserSet.modify s r f).trans raised
  unfold State.enableRiser Riser.enabled
  split
  · exact change ..
  · exact change ..

/-- R73: a riser that has been cleared out and disabled. -/
def Riser.cleared (x : Riser) : Riser :=
  { x with
    link := .disabled, idleTimer := none, stepTimer := none, wakeTimer := none, receiving := none
    queue := [], outstanding := [], resends := []
    freeTags := x.freeTags ++ x.outstanding.map fun o => o.tag
    tx := none, stations := Table.fill 62 Station.cold }

theorem Riser.cleared_emptied (x : Riser) : RiserEmptied x x.cleared where
  queue := rfl
  outstanding := rfl
  resends := rfl
  tx := rfl
  freeTags := rfl
  stations a := Table.read_fill _ a

section
variable (s : State) (r : RiserIx)

theorem disableRiser_set : RiserSet s (s.disableRiser r) r (s.riser r).cleared
    (s.privacyEvents r ++ [.riserChange r .disabled .disabled]) := by
  have stopped := RiserSet.modify s r fun x =>
    { x with idleTimer := none, stepTimer := none, wakeTimer := none, receiving := none }
  unfold State.disableRiser
  dsimp only
  generalize hu : (s.modifyRiser r fun x =>
    { x with idleTimer := none, stepTimer := none, wakeTimer := none, receiving := none }) = u
  have dir : u.dir = s.dir := by rw [← hu]; rfl
  rw [hu] at stopped
  have flushed := stopped.next (flushRiser_set u r)
  have forgotten := flushed.trans (es := []) (forgetStations_set (u.flushRiser r) r)
  rw [privacyEvents_congr ((flushRiser_dir u r).trans dir), List.nil_append] at forgotten
  generalize (u.flushRiser r).forgetStations r = w at forgotten
  have disabled := forgotten.next (.modify w r fun x => { x with link := .disabled })
  have raised := disabled.trans (.emit _ r (.riserChange r .disabled .disabled))
  rw [disabled.riser, forgotten.riser, flushed.riser, stopped.riser] at raised
  exact raised

theorem disableRiser_slot (j : SlotIx) : (s.disableRiser r).slot j =
    (s.slot j).marks j fun q n o => o.cleared (s.riser r) q n := by
  unfold State.disableRiser
  dsimp only
  rw [State.slot_congr (State.emit_ccu ..)]
  show State.slot (State.forgetStations _ r) j = _
  obtain ⟨d, shape⟩ := (forgetStations_recomputed ((s.modifyRiser r fun x =>
    { x with idleTimer := none, stepTimer := none, wakeTimer := none
             receiving := none }).flushRiser r) r).events
  have ccu := congrArg State.ccu shape
  rw [State.slot_congr (ccu.trans (emits_ccu ..))]
  show State.slot (State.flushRiser _ r) j = _
  rw [flushRiser_slot, State.riser_modifyRiser, if_pos rfl]
  rfl

theorem disableRiser_flat (i : FlatIx) : (s.disableRiser r).flat i =
    if (s.flat i).riser = r then { s.flat i with privacy := (s.flat i).hostPrivacy } else s.flat i := by
  unfold State.disableRiser
  dsimp only
  rw [State.flat_congr (State.emit_dir ..)]
  show State.flat (State.forgetStations _ r) i = _
  rw [forgetStations_flats, State.flat_congr (flushRiser_dir ..)]
  rfl

theorem disableRiser_replies (pending : ∀ m, (s.riser r).markers.count m ≤
    s.hlp.syncs.count { num := m, riser := r }) : (s.disableRiser r).hlp.replyLine =
      s.hlp.replyLine ++ (s.riser r).markers.map fun m => ⟨0x14, m, .ok, .sync r .flushed⟩ := by
  unfold State.disableRiser
  dsimp only
  rw [State.emit_hlp]
  show (State.forgetStations _ r).hlp.replyLine = _
  obtain ⟨d, shape⟩ := (forgetStations_recomputed ((s.modifyRiser r fun x =>
    { x with idleTimer := none, stepTimer := none, wakeTimer := none
             receiving := none }).flushRiser r) r).events
  have hlp := congrArg State.hlp shape
  rw [hlp.trans (emits_hlp ..)]
  have same : ((s.modifyRiser r fun x => { x with
      idleTimer := none, stepTimer := none, wakeTimer := none, receiving := none }).riser r).markers =
      (s.riser r).markers := by
    rw [State.riser_modifyRiser, if_pos rfl]
    rfl
  have flushed := flushRiser_replies (s.modifyRiser r fun x => { x with
    idleTimer := none, stepTimer := none, wakeTimer := none, receiving := none }) r (by
      rw [same]; exact pending)
  rw [same] at flushed
  exact flushed

/-! ## Going QUIET (R74) -/

/-- R74: what lets an ACTIVE riser with an empty queue go QUIET. -/
def State.mayQuiet : Prop :=
  (s.riser r).link = .active ∧ (s.riser r).runOut = true ∧ (s.riser r).quietAllowed = true ∧
    (s.riser r).queue = [] ∧ (s.riser r).outstanding = [] ∧ s.riserInUse r = false

theorem goQuiet_set : RiserSet s (s.goQuiet r) r ((s.goQuiet r).riser r) [] := by
  unfold State.goQuiet
  dsimp only
  split
  · have quiet := RiserSet.modify s r fun x =>
      { x with link := .quiet, idleTimer := none, stepTimer := none, runOut := false }
    rw [quiet.riser]
    exact quiet
  · exact .refl s r

variable {s r}

theorem goQuiet_goes (h : s.mayQuiet r) : (s.goQuiet r).riser r =
    { s.riser r with link := .quiet, idleTimer := none, stepTimer := none, runOut := false } := by
  have quiet : s.goQuiet r = s.modifyRiser r fun x =>
      { x with link := .quiet, idleTimer := none, stepTimer := none, runOut := false } := if_pos h
  rw [quiet, State.riser_modifyRiser, if_pos rfl]

theorem goQuiet_stays (h : ¬ s.mayQuiet r) : s.goQuiet r = s := if_neg h

end

/-! ## The request -/

theorem riserInUse_true {s : State} {r : RiserIx} : s.riserInUse r = true ↔
    (s.paths r).holderA ≠ none ∨ (s.paths r).holderB ≠ none ∨ (s.paths r).queue ≠ [] := by
  unfold State.riserInUse
  simp only [Bool.or_eq_true, Option.isSome_iff_ne_none, Bool.not_eq_true', List.isEmpty_eq_false_iff,
    or_assoc]

/-- R71: the riser after a SET RISER that is not refused. -/
def State.riserStored (s : State) (r : RiserIx) (e v q : Bool) (a b : Nat) : State :=
  ((s.storeRiser r v q a b).applyEnable r e).goQuiet r

theorem setRiserAct_eq {n en sv qa : Nat} {r : RiserIx} (hr : r.val = n) (he : en < 2) (hv : sv < 2)
    (hq : qa < 2) (st qi : Nat) (s : State) : s.setRiserAct n en sv qa st qi =
      if en = 0 ∧ s.riserInUse r = true then (s, .busy, .none)
      else
        let t := s.riserStored r (decide (en = 1)) (decide (sv = 1)) (decide (qa = 1))
          (max 100 (min st 5000)) (max 10 (min qi 600))
        (t, if 100 ≤ st ∧ st ≤ 5000 ∧ 10 ≤ qi ∧ qi ≤ 600 then .ok else .adjusted,
          .riser (t.riser r).settings (t.riser r).link) := by
  have off : decide (en = 1) = false ↔ en = 0 := by
    rw [decide_eq_false_iff_not]
    omega
  have given : (max 100 (min st 5000) = st ∧ max 10 (min qi 600) = qi) ↔
      100 ≤ st ∧ st ≤ 5000 ∧ 10 ≤ qi ∧ qi ≤ 600 := by omega
  unfold State.setRiserAct State.riserStored
  rw [riser?_eq_some.2 hr, yesNo?_of_lt he, yesNo?_of_lt hv, yesNo?_of_lt hq]
  dsimp only
  rw [clamp_eq (by decide), clamp_eq (by decide)]
  simp only [off, given]

theorem setRiserAct_refused {n en sv qa : Nat} (bad : 6 ≤ n ∨ 2 ≤ en ∨ 2 ≤ sv ∨ 2 ≤ qa) (st qi : Nat)
    (s : State) : s.setRiserAct n en sv qa st qi = (s, .badValue, .none) := by
  unfold State.setRiserAct
  split
  · next r e v q hr he hv hq =>
    have := r.isLt
    have := riser?_eq_some.1 hr
    have := yesNo?_lt he
    have := yesNo?_lt hv
    have := yesNo?_lt hq
    omega
  · rfl

/-- The settings are stored, and then the enable value is applied. -/
theorem storeRiser_set (s : State) (r : RiserIx) (v q : Bool) (a b : Nat) :
    RiserSet s (s.storeRiser r v q a b) r ((s.riser r).stored s.clock v q a b) [] := by
  rw [storeRiser_eq]
  exact .modify s r _

theorem riserStored_set (s : State) (r : RiserIx) (e v q : Bool) (a b : Nat) :
    ∃ y es, RiserSet s (s.riserStored r e v q a b) r y es := by
  have stored := storeRiser_set s r v q a b
  unfold State.riserStored
  generalize s.storeRiser r v q a b = u at stored ⊢
  have applied : ∃ y es, RiserSet s (u.applyEnable r e) r y es := by
    unfold State.applyEnable
    split
    · split
      · exact ⟨_, _, stored.trans (enableRiser_set u r)⟩
      · exact ⟨_, _, stored⟩
    · split
      · exact ⟨_, _, stored⟩
      · exact ⟨_, _, stored.trans (disableRiser_set u r)⟩
  obtain ⟨y, es, set⟩ := applied
  exact ⟨_, _, set.next (goQuiet_set _ r)⟩

/-- Whatever the outcome, a SET RISER keeps what a request for a riser keeps. -/
theorem setRiserAct_set (s : State) {n : Nat} {r : RiserIx} (hr : r.val = n) (en sv qa st qi : Nat) :
    ∃ y es, RiserSet s (s.setRiserAct n en sv qa st qi).1 r y es := by
  by_cases good : en < 2 ∧ sv < 2 ∧ qa < 2
  · rw [setRiserAct_eq hr good.1 good.2.1 good.2.2]
    split
    · exact ⟨_, _, .refl s r⟩
    · exact riserStored_set ..
  · rw [setRiserAct_refused (by omega)]
    exact ⟨_, _, .refl s r⟩

theorem setRiser_run {s : State} (takes : s.Takes) {n : Nat} (idle : ∀ r : RiserIx, r.val = n →
    (s.riser r).overrunDue = false) (num en sv qa st qi : Nat) :
    exec (.setRiser num n en sv qa st qi) s =
      .next (s.answer 0x07 num State.settle fun t => t.setRiserAct n en sv qa st qi) := by
  have taken := exec_taken (c := .setRiser num n en sv qa st qi) takes rfl
  rw [State.takeSetRiser, overrunFirst?_idle idle] at taken
  exact taken

/-! ## The outcomes of a request that is not refused -/

section
variable {s : State} {r : RiserIx} (v q : Bool) (a b : Nat)

theorem storeRiser_psw (s : State) (r : RiserIx) : (s.storeRiser r v q a b).psw = s.psw := by
  rw [storeRiser_eq]
  rfl

/-- R72: a DISABLED riser is enabled, and does not go QUIET at once. -/
theorem riserStored_enables (off : (s.riser r).link = .disabled) :
    RiserSet s (s.riserStored r true v q a b) r
      (((s.riser r).stored s.clock v q a b).enabled s.clock)
      [.riserChange r (if (s.riser r).line = .good then .active else .faulted) .enabled] := by
  have stored := storeRiser_set s r v q a b
  have enabled := enableRiser_set (s.storeRiser r v q a b) r
  have link := Riser.stored_link (s.riser r) s.clock v q a b
  obtain ⟨line, -⟩ := Riser.stored_settings (s.riser r) s.clock v q a b
  rw [off, if_neg (by simp), ← stored.riser] at link
  rw [stored.kept.clock, stored.riser, line] at enabled
  have both := stored.trans enabled
  have applied : (s.storeRiser r v q a b).applyEnable r true =
      (s.storeRiser r v q a b).enableRiser r := by
    unfold State.applyEnable
    rw [if_pos link, if_pos rfl]
  have stays : ¬ ((s.storeRiser r v q a b).enableRiser r).mayQuiet r := by
    unfold State.mayQuiet
    rw [enabled.riser]
    unfold Riser.enabled
    split
    · rintro ⟨-, mark, -⟩
      cases mark
    · rintro ⟨active, -⟩
      cases active
  unfold State.riserStored
  rw [applied, goQuiet_stays stays]
  exact both

/-- R71: a DISABLED riser has its settings stored. -/
theorem riserStored_off (off : (s.riser r).link = .disabled) : RiserSet s (s.riserStored r false v q a b) r
    ((s.riser r).stored s.clock v q a b) [] := by
  have stored := storeRiser_set s r v q a b
  have link := Riser.stored_link (s.riser r) s.clock v q a b
  rw [off, if_neg (by simp), ← stored.riser] at link
  have applied : (s.storeRiser r v q a b).applyEnable r false = s.storeRiser r v q a b := by
    unfold State.applyEnable
    rw [if_pos link, if_neg (by decide)]
  have stays : ¬ (s.storeRiser r v q a b).mayQuiet r := fun h => by
    cases link.symm.trans h.1
  unfold State.riserStored
  rw [applied, goQuiet_stays stays]
  exact stored

theorem stored_not_disabled (on : (s.riser r).link ≠ .disabled) :
    ((s.storeRiser r v q a b).riser r).link ≠ .disabled := by
  rw [(storeRiser_set s r v q a b).riser, Riser.stored_link]
  split
  · decide
  · exact on

/-- R71, R73: an enabled riser is disabled, with the settings stored. -/
theorem riserStored_disables (on : (s.riser r).link ≠ .disabled) :
    s.riserStored r false v q a b = (s.storeRiser r v q a b).disableRiser r := by
  have applied : (s.storeRiser r v q a b).applyEnable r false =
      (s.storeRiser r v q a b).disableRiser r := by
    unfold State.applyEnable
    rw [if_neg (stored_not_disabled v q a b on), if_neg (by decide)]
  have stays : ¬ ((s.storeRiser r v q a b).disableRiser r).mayQuiet r := fun h => by
    obtain ⟨active, -⟩ := h
    rw [(disableRiser_set ..).riser] at active
    cases active
  unfold State.riserStored
  rw [applied, goQuiet_stays stays]

/-- R71, R74: an enabled riser that stays enabled goes QUIET if it may. -/
theorem riserStored_keeps (on : (s.riser r).link ≠ .disabled) :
    s.riserStored r true v q a b = (s.storeRiser r v q a b).goQuiet r := by
  have applied : (s.storeRiser r v q a b).applyEnable r true = s.storeRiser r v q a b := by
    unfold State.applyEnable
    rw [if_neg (stored_not_disabled v q a b on), if_pos rfl]
  unfold State.riserStored
  rw [applied]

/-- R74: an ACTIVE riser with its run-out mark set, no request outstanding and no call on it, that is
allowed to be QUIET. -/
def State.idles (s : State) (r : RiserIx) (q : Bool) : Prop :=
  (s.riser r).link = .active ∧ (s.riser r).runOut = true ∧ q = true ∧ (s.riser r).outstanding = [] ∧
    s.riserInUse r = false

theorem stored_mayQuiet : (s.storeRiser r v q a b).mayQuiet r ↔ s.idles r q ∧ (s.riser r).queue = [] := by
  obtain ⟨-, -, allowed, -, -, queue, out, -, mark, -⟩ :=
    Riser.stored_settings (s.riser r) s.clock v q a b
  have link : ((s.riser r).stored s.clock v q a b).link = .active ↔ (s.riser r).link = .active := by
    rw [Riser.stored_link]
    split
    · next h => simp [h.1]
    · rfl
  have used : (s.storeRiser r v q a b).riserInUse r = s.riserInUse r := by
    unfold State.riserInUse
    rw [State.paths_congr (storeRiser_psw v q a b s r)]
  unfold State.mayQuiet State.idles
  rw [(storeRiser_set s r v q a b).riser, allowed, queue, out, mark, link, used]
  tauto

/-! ## What a settled riser keeps -/

theorem RiserSettled.hostSettings {x y : Riser} (k : RiserSettled x y) : y.survey = x.survey ∧
    y.quietAllowed = x.quietAllowed ∧ y.surveyStepMs = x.surveyStepMs ∧ y.quietIdleS = x.quietIdleS := by
  obtain ⟨-, survey, allowed, step, idle, -⟩ := k.settings
  exact ⟨survey, allowed, step, idle⟩

theorem RiserSettled.asleep {x y : Riser} (k : RiserSettled x y) (h : x.link ≠ .active) :
    y.link = x.link ∧ y.idleTimer = x.idleTimer ∧ y.stepTimer = x.stepTimer ∧ y.runOut = x.runOut :=
  k.link.resolve_right fun g => h g.1

/-- R71, R74: the riser of a request that keeps it enabled, once its act is done: what is stored, and the
link state `l`, in which it goes QUIET only with an empty queue. -/
structure KeptEnabled (s u : State) (r : RiserIx) (v q : Bool) (a b : Nat) (l : LinkState) (y : Riser) :
    Prop where
  set    : RiserSet s u r y []
  survey : y.survey = v
  quiet  : y.quietAllowed = q
  stepMs : y.surveyStepMs = a
  idleS  : y.quietIdleS = b
  link   : y.link = l
  queue  : y.queue = (s.riser r).queue
  out    : y.outstanding = (s.riser r).outstanding
  mark   : l = .active → y.runOut = (s.riser r).runOut
  wake   : (s.riser r).link = .quiet → q = false → y.wakeTimer = some (s.clock + 200)
  starts : (s.riser r).survey = false → v = true → l = .active → y.stepTimer = some (s.clock + a)
  stops  : (s.riser r).survey = true → v = false → y.stepTimer = none

/-- With the settings stored and nothing more done. -/
theorem keptEnabled_stored : KeptEnabled s (s.storeRiser r v q a b) r v q a b
    (if (s.riser r).link = .quiet ∧ q = false then .waking else (s.riser r).link)
    ((s.riser r).stored s.clock v q a b) := by
  obtain ⟨-, survey, allowed, stepMs, idleS, queue, out, -, mark, step⟩ :=
    Riser.stored_settings (s.riser r) s.clock v q a b
  refine ⟨storeRiser_set s r v q a b, survey, allowed, stepMs, idleS, Riser.stored_link .., queue, out,
    fun _ => mark, fun quiet off => ?_, fun was on active => ?_, fun was off => ?_⟩
  · rw [off]
    exact Riser.stored_wakes _ _ _ _ _ quiet
  · have now : (s.riser r).link = .active := by
      split at active
      · cases active
      · exact active
    exact step.trans (if_pos ⟨now, was, on⟩)
  · refine step.trans ((if_neg fun h => ?_).trans (if_pos ⟨was, off⟩))
    cases was.symm.trans h.2.1

/-- R74: the riser that goes QUIET with the request. -/
theorem keptEnabled_quiet (idles : s.idles r q) (empty : (s.riser r).queue = [])
    (on : (s.riser r).link ≠ .disabled) : ∃ y, KeptEnabled s (s.riserStored r true v q a b) r v q a b
      .quiet y := by
  have may := (stored_mayQuiet v q a b).2 ⟨idles, empty⟩
  have kept := keptEnabled_stored (s := s) (r := r) v q a b
  have gone := goQuiet_set (s.storeRiser r v q a b) r
  obtain ⟨active, -⟩ := idles
  rw [riserStored_keeps v q a b on]
  rw [goQuiet_goes may, kept.set.riser] at gone
  refine ⟨_, kept.set.next gone, kept.survey, kept.quiet, kept.stepMs, kept.idleS, rfl, kept.queue,
    kept.out, fun h => ?_, fun quiet _ => ?_, fun _ _ h => ?_, fun _ _ => rfl⟩
  · cases h
  · cases active.symm.trans quiet
  · cases h

theorem keptEnabled_stays (no : ¬ (s.idles r q ∧ (s.riser r).queue = []))
    (on : (s.riser r).link ≠ .disabled) : ∃ y, KeptEnabled s (s.riserStored r true v q a b) r v q a b
      (if (s.riser r).link = .quiet ∧ q = false then .waking else (s.riser r).link) y := by
  rw [riserStored_keeps v q a b on, goQuiet_stays (mt (stored_mayQuiet v q a b).1 no)]
  exact ⟨_, keptEnabled_stored v q a b⟩

/-- R71, R74, R75: the link state that the request gives an enabled riser. -/
theorem keptEnabled {P : Prop} [Decidable (P ∧ (s.riser r).queue = [])] (may : P ↔ s.idles r q)
    (on : (s.riser r).link ≠ .disabled) : ∃ y, KeptEnabled s (s.riserStored r true v q a b) r v q a b
      (if (s.riser r).link = .quiet ∧ q = false then .waking
        else if P ∧ (s.riser r).queue = [] then .quiet else (s.riser r).link) y := by
  by_cases quiets : P ∧ (s.riser r).queue = []
  · obtain ⟨goes, empty⟩ := quiets
    have awake : ¬ ((s.riser r).link = .quiet ∧ q = false) := fun h => by
      cases (may.1 goes).1.symm.trans h.1
    rw [if_neg awake, if_pos ⟨goes, empty⟩]
    exact keptEnabled_quiet v q a b (may.1 goes) empty on
  · rw [if_neg quiets]
    exact keptEnabled_stays v q a b (fun h => quiets ⟨may.2 h.1, h.2⟩) on

variable {v q a b} {u : State} {l : LinkState} {y : Riser} (kind num : Nat) (st : Status)
  (body : ReplyBody)

/-- R74: what the end of the event makes of an ACTIVE riser that a request kept so. -/
theorem KeptEnabled.settled_active (h : KeptEnabled s u r v q a b .active y)
    (was : (s.riser r).link = .active) : ((u.reply kind num st body).settle.riser r).link = .quiet ↔
      s.idles r q ∧ (s.riser r).frames = [] := by
  have settled := settle_settled (u.reply kind num st body)
  have quiet := settle_quietIf (s := u.reply kind num st body) (r := r)
    ((congrArg Riser.link h.set.riser).trans h.link)
  have riser : (u.reply kind num st body).riser r = y := h.set.riser
  have k := settled.risers r
  have psw : (u.reply kind num st body).settle.psw = s.psw := settled.psw.trans h.set.kept.psw
  rw [riser] at quiet k
  have frames : y.frames = (s.riser r).frames := by rw [Riser.frames, h.queue]; rfl
  rw [k.frames, frames, State.paths_congr psw, ← riserInUse_iff] at quiet
  have goes : (y.runOut = true ∧ y.quietAllowed = true ∧ (s.riser r).frames = [] ∧
      ((u.reply kind num st body).settle.riser r).outstanding = [] ∧ s.riserInUse r = false) ↔
      s.idles r q ∧ (s.riser r).frames = [] := by
    rw [h.mark rfl, h.quiet]
    unfold State.idles
    constructor
    · rintro ⟨mark, allowed, none, out, free⟩
      rw [k.outstanding_nil (frames.trans none), h.out] at out
      exact ⟨⟨was, mark, allowed, out, free⟩, none⟩
    · rintro ⟨⟨-, mark, allowed, out, free⟩, none⟩
      refine ⟨mark, allowed, none, ?_, free⟩
      rw [k.outstanding_nil (frames.trans none), h.out]
      exact out
  obtain ⟨sleeps, wakes⟩ := quiet
  rw [goes] at sleeps wakes
  refine ⟨fun asleep => ?_, fun g => (sleeps g).1⟩
  by_contra no
  cases asleep.symm.trans (wakes no).1

/-- What the end of the event leaves of it in any link state. -/
theorem KeptEnabled.settled (h : KeptEnabled s u r v q a b l y) :
    let z := (u.reply kind num st body).settle.riser r
    (z.link = l ∨ z.link = .quiet ∧ l = .active) ∧ z.survey = v ∧ z.quietAllowed = q ∧
      z.surveyStepMs = a ∧ z.quietIdleS = b ∧ z.frames = (s.riser r).frames ∧
      ((s.riser r).link = .quiet → q = false → z.wakeTimer = some (s.clock + 200)) ∧
      ((s.riser r).survey = false → v = true → z.link = .active → z.stepTimer = some (s.clock + a)) ∧
      ((s.riser r).survey = true → v = false → z.stepTimer = none) := by
  intro z
  have k : RiserSettled ((u.reply kind num st body).riser r) z := (settle_settled _).risers r
  have riser : (u.reply kind num st body).riser r = y := h.set.riser
  rw [riser] at k
  obtain ⟨survey, quiet, stepMs, idleS⟩ := k.hostSettings
  refine ⟨?_, survey.trans h.survey, quiet.trans h.quiet, stepMs.trans h.stepMs, idleS.trans h.idleS, ?_,
    fun q f => k.wakeTimer.trans (h.wake q f), fun was on active => ?_, fun was off => ?_⟩
  · rcases k.link with ⟨same, -⟩ | ⟨active, -, -, -, -, asleep, -⟩
    · exact .inl (same.trans h.link)
    · exact .inr ⟨asleep, h.link.symm.trans active⟩
  · rw [k.frames, Riser.frames, h.queue]
    rfl
  · rcases k.link with ⟨same, -, step, -⟩ | ⟨-, -, -, -, -, asleep, -⟩
    · exact step.trans (h.starts was on ((h.link.symm.trans same.symm).trans active))
    · cases asleep.symm.trans active
  · rcases k.link with ⟨-, -, step, -⟩ | ⟨-, -, -, -, -, -, -, stopped, -⟩
    · exact step.trans (h.stops was off)
    · exact stopped

/-- R74: its link state at the end of the event. -/
theorem KeptEnabled.settled_link (h : KeptEnabled s u r v q a b l y)
    (was : l = .active → (s.riser r).link = .active)
    (stays : s.idles r q → l = .active ∨ l = .quiet) :
    ((u.reply kind num st body).settle.riser r).link = .quiet ∧
        s.idles r q ∧ (s.riser r).frames = [] ∨
      ((u.reply kind num st body).settle.riser r).link = l ∧
        ¬ (s.idles r q ∧ (s.riser r).frames = []) := by
  obtain ⟨ends, -⟩ := h.settled kind num st body
  by_cases active : l = .active
  · subst active
    have goes := h.settled_active kind num st body (was rfl)
    rcases ends with same | ⟨asleep, -⟩
    · exact .inr ⟨same, fun k => by cases same.symm.trans (goes.2 k)⟩
    · exact .inl ⟨asleep, goes.1 asleep⟩
  · have same := ends.resolve_right fun k => active k.2
    by_cases goes : s.idles r q ∧ (s.riser r).frames = []
    · exact .inl ⟨same.trans ((stays goes.1).resolve_left active), goes⟩
    · exact .inr ⟨same, goes⟩

end

end Sys2Proof.Machine
end

