-- ==== Sys2Proof/Proofs/SetRiserSettled.lean ====
section
/-!
SUPPORT. The outcomes of SET RISER at the end of the event, and O29 from them.
-/

namespace Sys2Proof.Machine

/-! ## The four settings (R71) -/

/-- A riser with these four settings. -/
def Riser.HasSettings (y : Riser) (v q : Bool) (a b : Nat) : Prop :=
  y.survey = v ∧ y.quietAllowed = q ∧ y.surveyStepMs = a ∧ y.quietIdleS = b

theorem RiserSettled.hasSettings {y z : Riser} {v q : Bool} {a b : Nat} (k : RiserSettled y z)
    (h : y.HasSettings v q a b) : z.HasSettings v q a b := by
  obtain ⟨survey, allowed, stepMs, idleS⟩ := h
  obtain ⟨survey', allowed', stepMs', idleS'⟩ := k.hostSettings
  exact ⟨survey'.trans survey, allowed'.trans allowed, stepMs'.trans stepMs, idleS'.trans idleS⟩

theorem Riser.stored_hasSettings (x : Riser) (now : Nat) (v q : Bool) (a b : Nat) :
    (x.stored now v q a b).HasSettings v q a b := by
  obtain ⟨-, survey, allowed, stepMs, idleS, -⟩ := Riser.stored_settings x now v q a b
  exact ⟨survey, allowed, stepMs, idleS⟩

/-! ## A riser that is enabled (R72) -/

theorem Riser.enabled_settings {x : Riser} {v q : Bool} {a b : Nat} (h : x.HasSettings v q a b)
    (now : Nat) : (x.enabled now).HasSettings v q a b ∧
      (x.enabled now).link = if x.line = .good then .active else .faulted := by
  unfold Riser.enabled
  split
  · exact ⟨h, rfl⟩
  · exact ⟨h, rfl⟩

/-- R74: a riser that has just been enabled does not go QUIET. -/
theorem RiserSettled.of_enabled {x z : Riser} {now : Nat} (k : RiserSettled (x.enabled now) z) :
    (z.link = if x.line = .good then .active else .faulted) ∧
      (x.line = .good → z.idleTimer = some (now + x.quietIdleS * 1000) ∧
        (x.survey = true → z.stepTimer = some (now + x.surveyStepMs))) := by
  unfold Riser.enabled at k
  by_cases good : x.line = .good
  · rw [if_pos good] at k ⊢
    obtain ⟨link, idle, step, -⟩ := k.awake rfl
    exact ⟨link, fun _ => ⟨idle, fun on => step.trans (if_pos on)⟩⟩
  · rw [if_neg good] at k ⊢
    obtain ⟨link, -⟩ := k.asleep (by simp)
    exact ⟨link, fun h => absurd h good⟩

/-! ## A riser that is disabled (R73) -/

theorem storeRiser_onlyRiser (s : State) (r : RiserIx) (v q : Bool) (a b : Nat) :
    OnlyRiser r s (s.storeRiser r v q a b) := by
  rw [storeRiser_eq]
  exact .modify s r _

/-- What a SET RISER that disables a riser makes of the state, once its act is done. -/
structure DisabledByRequest (s u : State) (r : RiserIx) (v q : Bool) (a b : Nat) (y : Riser) : Prop where
  set     : RiserSet s u r y (s.privacyEvents r ++ [.riserChange r .disabled .disabled])
  emptied : RiserEmptied (s.riser r) y
  stored  : y.HasSettings v q a b
  link    : y.link = .disabled
  timers  : y.idleTimer = none ∧ y.stepTimer = none ∧ y.wakeTimer = none
  slots   : ∀ j, u.slot j = (s.slot j).marks j fun p n o => o.cleared (s.riser r) p n
  flats   : ∀ i, u.flat i =
    if (s.flat i).riser = r then { s.flat i with privacy := (s.flat i).hostPrivacy } else s.flat i
  replies : (∀ m, (s.riser r).markers.count m ≤ s.hlp.syncs.count { num := m, riser := r }) →
    u.hlp.replyLine =
      s.hlp.replyLine ++ (s.riser r).markers.map fun m => ⟨0x14, m, .ok, .sync r .flushed⟩

section
variable {s : State} {r : RiserIx} (v q : Bool) (a b : Nat)

theorem disabledByRequest (on : (s.riser r).link ≠ .disabled) : DisabledByRequest s
    (s.riserStored r false v q a b) r v q a b ((s.riser r).stored s.clock v q a b).cleared := by
  rw [riserStored_disables v q a b on]
  have only := storeRiser_onlyRiser s r v q a b
  have stored := storeRiser_set s r v q a b
  have set := disableRiser_set (s.storeRiser r v q a b) r
  have slots := disableRiser_slot (s.storeRiser r v q a b) r
  have flats := disableRiser_flat (s.storeRiser r v q a b) r
  have replies := disableRiser_replies (s.storeRiser r v q a b) r
  obtain ⟨-, survey, allowed, stepMs, idleS, queue, out, tags, -⟩ :=
    Riser.stored_settings (s.riser r) s.clock v q a b
  have emptied := Riser.cleared_emptied ((s.riser r).stored s.clock v q a b)
  rw [privacyEvents_congr only.dir, stored.riser] at set
  rw [stored.riser] at slots replies
  generalize (s.riser r).stored s.clock v q a b = z at *
  have cleared : ∀ (o : Offer) p n, o.cleared z p n = o.cleared (s.riser r) p n := fun o p n => by
    unfold Offer.cleared
    rw [queue, out]
  have markers : z.markers = (s.riser r).markers := by
    unfold Riser.markers
    rw [queue]
  refine ⟨stored.trans set, ?_, ⟨survey, allowed, stepMs, idleS⟩, rfl, ⟨rfl, rfl, rfl⟩, fun j => ?_,
    fun i => ?_, fun pending => ?_⟩
  · exact { emptied with freeTags := emptied.freeTags.trans (by rw [tags, out]) }
  · rw [slots, State.slot_congr only.ccu]
    simp only [cleared]
  · rw [flats, State.flat_congr only.dir]
  · rw [markers, only.hlp] at replies
    exact replies pending

/-- A riser that is not ACTIVE and has an empty queue is left as it is. -/
theorem settle_still {u : State} {y : Riser} (riser : u.riser r = y) (off : y.link ≠ .active)
    (empty : y.queue = []) : u.settle.riser r = y := by
  subst riser
  rw [settle_notActive off, empty]
  show { u.riser r with queue := [] } = _
  rw [← empty]

end

/-- An act that does not disable the riser leaves the host link. -/
theorem riserStored_hlp {s : State} {r : RiserIx} {e : Bool} (v q : Bool) (a b : Nat)
    (h : e = true ∨ (s.riser r).link = .disabled) : (s.riserStored r e v q a b).hlp = s.hlp := by
  have stored := storeRiser_onlyRiser s r v q a b
  have off : e = false → ((s.storeRiser r v q a b).riser r).link = .disabled := fun no => by
    have was := h.resolve_left (by simp [no])
    rw [(storeRiser_set s r v q a b).riser, Riser.stored_link, was]
    rfl
  have applied : ((s.storeRiser r v q a b).applyEnable r e).hlp = s.hlp := by
    unfold State.applyEnable State.enableRiser
    split
    · split
      · split
        · exact (State.emit_hlp ..).trans stored.hlp
        · exact (State.emit_hlp ..).trans stored.hlp
      · exact stored.hlp
    · next on =>
      split
      · exact stored.hlp
      · next no => exact absurd (off (Bool.eq_false_iff.2 no)) on
  have quiet : ∀ u : State, (u.goQuiet r).hlp = u.hlp := fun u => by
    unfold State.goQuiet
    dsimp only
    split <;> rfl
  exact (quiet _).trans applied

/-! ## The requests -/

/-- R169, R171: a SET RISER that is refused. -/
theorem setRiser_refused {s : State} (takes : s.Takes) {num n en sv qa st qi : Nat}
    (idle : ∀ r : RiserIx, r.val = n → (s.riser r).overrunDue = false) {x : Status}
    (none : replyBody x .none = .none) (act : s.setRiserAct n en sv qa st qi = (s, x, .none)) :
    ∃ t, exec (.setRiser num n en sv qa st qi) s = .next t ∧ Settled s t ∧ Raises s t [] ∧
      s.hlp.replyLine ++ [⟨0x07, num, x, .none⟩] <+: t.hlp.replyLine := by
  have run := setRiser_run takes idle num en sv qa st qi
  rw [State.answer, act] at run
  have k := settle_settled (s.reply 0x07 num x .none)
  have leads := reply_leads (s := s) rfl 0x07 num x .none
  rw [none] at leads
  exact ⟨_, run, (reply_settled ..).trans k, .of_settled (u := s.reply 0x07 num x .none) rfl rfl k,
    leads⟩

/-- A SET RISER with all its values in range that is taken at once, with no overrun processing due at its
riser. -/
structure GoodSetRiser (s : State) (n en sv qa : Nat) (r : RiserIx) : Prop where
  takes : s.Takes
  riser : r.val = n
  due   : (s.riser r).overrunDue = false
  en    : en < 2
  sv    : sv < 2
  qa    : qa < 2

/-- R71: the reply to a SET RISER that is not refused carries what is stored and the link state. -/
def setRiserReply (num en sv qa st qi : Nat) (l : LinkState) : Reply :=
  ⟨0x07, num, if 100 ≤ st ∧ st ≤ 5000 ∧ 10 ≤ qi ∧ qi ≤ 600 then .ok else .adjusted,
    .riser { enable := decide (en = 1), survey := decide (sv = 1), quietAllowed := decide (qa = 1)
             surveyStepMs := max 100 (min st 5000), quietIdleS := max 10 (min qi 600) } l⟩

/-- The riser has the settings that a SET RISER with these values stores. -/
def Riser.Stores (y : Riser) (sv qa st qi : Nat) : Prop :=
  y.HasSettings (decide (sv = 1)) (decide (qa = 1)) (max 100 (min st 5000)) (max 10 (min qi 600))

/-- The state once such a request that is not refused has been acted on. -/
def State.afterSetRiser (s : State) (r : RiserIx) (e : Bool) (sv qa st qi : Nat) : State :=
  s.riserStored r e (decide (sv = 1)) (decide (qa = 1)) (max 100 (min st 5000)) (max 10 (min qi 600))

section
variable {s u : State} {num n en sv qa st qi : Nat} {r : RiserIx}

theorem GoodSetRiser.calm (g : GoodSetRiser s n en sv qa r) (y : RiserIx) (hy : y.val = n) :
    (s.riser y).overrunDue = false := by
  rw [Fin.ext (hy.trans g.riser.symm)]
  exact g.due

/-- R71: a SET RISER that is not refused: its act done and its reply made, the free lines are looked at. -/
theorem GoodSetRiser.taken (g : GoodSetRiser s n en sv qa r)
    (may : ¬ (en = 0 ∧ s.riserInUse r = true)) {e : Bool} (is : decide (en = 1) = e)
    (hu : s.afterSetRiser r e sv qa st qi = u) {y : Riser} {es : List Event} {l : LinkState}
    (set : RiserSet s u r y es) (stores : y.Stores sv qa st qi) (link : y.link = l)
    (enabled : decide (l ≠ .disabled) = e) :
    ∃ st' b, let t := (u.reply 0x07 num st' b).settle
      exec (.setRiser num n en sv qa st qi) s = .next t ∧ RiserSettled y (t.riser r) ∧
        Raises s t es ∧
        u.hlp.replyLine ++ [setRiserReply num en sv qa st qi l] <+: t.hlp.replyLine := by
  obtain ⟨status, body, made⟩ : ∃ status body, setRiserReply num en sv qa st qi l =
      ⟨0x07, num, status, body⟩ := ⟨_, _, rfl⟩
  obtain ⟨-, -, rfl, rfl⟩ := Reply.mk.inj made
  have carried : ReplyBody.riser (u.riser r).settings (u.riser r).link =
      (setRiserReply num en sv qa st qi l).body := by
    obtain ⟨survey, allowed, stepMs, idleS⟩ := stores
    rw [set.riser, Riser.settings, survey, allowed, stepMs, idleS, link, enabled, ← is]
    rfl
  have run := setRiser_run g.takes g.calm num en sv qa st qi
  rw [State.answer, setRiserAct_eq g.riser g.en g.sv g.qa, if_neg may, is] at run
  unfold State.afterSetRiser at hu
  rw [hu] at run
  dsimp only at run
  rw [carried] at run
  obtain ⟨-, -, raises, k, leads⟩ := set.settle 0x07 num
    (setRiserReply num en sv qa st qi l).status (setRiserReply num en sv qa st qi l).body
  have whole : ∀ b, replyBody (setRiserReply num en sv qa st qi l).status b = b := fun b => by
    unfold setRiserReply
    dsimp only
    split <;> rfl
  rw [whole] at leads
  exact ⟨_, _, run, k, raises, leads⟩

/-- R72: the riser is enabled. -/
theorem GoodSetRiser.enables (g : GoodSetRiser s n en sv qa r) (on : en = 1)
    (was : (s.riser r).link = .disabled) :
    let x := s.riser r
    let link : LinkState := if x.line = .good then .active else .faulted
    ∃ t, exec (.setRiser num n en sv qa st qi) s = .next t ∧ (t.riser r).Stores sv qa st qi ∧
      (t.riser r).link = link ∧
      (x.line = .good → (t.riser r).idleTimer = some (s.clock + max 10 (min qi 600) * 1000) ∧
        (sv = 1 → (t.riser r).stepTimer = some (s.clock + max 100 (min st 5000)))) ∧
      Raises s t [.riserChange r link .enabled] ∧
      s.hlp.replyLine ++ [setRiserReply num en sv qa st qi link] <+: t.hlp.replyLine := by
  intro x link
  have set : RiserSet s (s.afterSetRiser r true sv qa st qi) r _ _ :=
    riserStored_enables _ _ _ _ was
  have hlp : (s.afterSetRiser r true sv qa st qi).hlp = s.hlp := riserStored_hlp _ _ _ _ (.inl rfl)
  obtain ⟨line, survey, quiet, stepMs, idleS, -⟩ := Riser.stored_settings x s.clock (decide (sv = 1))
    (decide (qa = 1)) (max 100 (min st 5000)) (max 10 (min qi 600))
  generalize (s.riser r).stored s.clock _ _ _ _ = z at set line survey quiet stepMs idleS
  obtain ⟨stores, linked⟩ := Riser.enabled_settings ⟨survey, quiet, stepMs, idleS⟩ s.clock
  rw [line] at linked
  obtain ⟨st', b, run, k, raises, leads⟩ := g.taken (num := num) (st := st) (qi := qi)
    (fun h => by omega) (decide_eq_true on) rfl set stores linked (by split <;> rfl)
  rw [hlp] at leads
  obtain ⟨settled, timed⟩ := k.of_enabled
  rw [line, idleS, survey, stepMs] at timed
  rw [line] at settled
  refine ⟨_, run, k.hasSettings stores, settled, fun good => ?_, raises, leads⟩
  obtain ⟨idles, steps⟩ := timed good
  exact ⟨idles, fun survey => steps (decide_eq_true survey)⟩

/-- R71, R74, R75: the riser stays enabled. -/
theorem GoodSetRiser.keeps (g : GoodSetRiser s n en sv qa r) (on : en = 1)
    (was : (s.riser r).link ≠ .disabled) {P : Prop} [Decidable (P ∧ (s.riser r).queue = [])]
    [Decidable (P ∧ (s.riser r).frames = [])] (may : P ↔ s.idles r (decide (qa = 1))) :
    let x := s.riser r
    let link : LinkState :=
      if x.link = .quiet ∧ qa = 0 then .waking else if P ∧ x.queue = [] then .quiet else x.link
    ∃ t, exec (.setRiser num n en sv qa st qi) s = .next t ∧ (t.riser r).Stores sv qa st qi ∧
      (t.riser r).link = (if P ∧ x.frames = [] then .quiet else link) ∧
      (link = .waking → x.link = .quiet → (t.riser r).wakeTimer = some (s.clock + 200)) ∧
      (x.survey = false → sv = 1 → (t.riser r).link = .active →
        (t.riser r).stepTimer = some (s.clock + max 100 (min st 5000))) ∧
      (x.survey = true → sv = 0 → (t.riser r).stepTimer = none) ∧
      (t.riser r).frames = x.frames ∧ Raises s t [] ∧
      s.hlp.replyLine ++ [setRiserReply num en sv qa st qi link] <+: t.hlp.replyLine := by
  intro x link
  have small := g.qa
  have off : decide (qa = 1) = false ↔ qa = 0 := by
    rw [decide_eq_false_iff_not]
    omega
  have shape : (x.link = .quiet ∧ qa = 0 ∧ link = .waking) ∨
      ((P ∧ x.queue = []) ∧ link = .quiet) ∨ (¬ (P ∧ x.queue = []) ∧ link = x.link) := by
    unfold link
    split
    · next wakes => exact .inl ⟨wakes.1, wakes.2, rfl⟩
    · split
      · next quiets => exact .inr (.inl ⟨quiets, rfl⟩)
      · next stays => exact .inr (.inr ⟨stays, rfl⟩)
  have enabled : link ≠ .disabled := by
    rcases shape with ⟨-, -, is⟩ | ⟨-, is⟩ | ⟨-, is⟩
    · simp [is]
    · simp [is]
    · rw [is]
      exact was
  have hlp : (s.afterSetRiser r true sv qa st qi).hlp = s.hlp := riserStored_hlp _ _ _ _ (.inl rfl)
  obtain ⟨y, kept⟩ := keptEnabled (decide (sv = 1)) (decide (qa = 1)) (max 100 (min st 5000))
    (max 10 (min qi 600)) may was
  simp only [off] at kept
  change KeptEnabled s (s.afterSetRiser r true sv qa st qi) r _ _ _ _ link y at kept
  obtain ⟨st', b, run, -, raises, leads⟩ := g.taken (num := num) (st := st) (qi := qi)
    (fun h => by omega) (decide_eq_true on) rfl kept.set
    ⟨kept.survey, kept.quiet, kept.stepMs, kept.idleS⟩ kept.link (decide_eq_true enabled)
  rw [hlp] at leads
  obtain ⟨-, survey, quiet, stepMs, idleS, frames, wakes, starts, stops⟩ := kept.settled 0x07 num st' b
  refine ⟨_, run, ⟨survey, quiet, stepMs, idleS⟩, ?_, fun waking asleep => ?_,
    fun was on active => starts was (decide_eq_true on) active,
    fun was no => stops was (by rw [no]; rfl), frames, raises, leads⟩
  · have ends := kept.settled_link 0x07 num st' b (fun active => ?_) fun idles => ?_
    · rw [← may] at ends
      rcases ends with ⟨asleep, goes⟩ | ⟨same, stays⟩
      · exact asleep.trans (if_pos goes).symm
      · exact same.trans (if_neg stays).symm
    · rcases shape with ⟨-, -, is⟩ | ⟨-, is⟩ | ⟨-, is⟩
      · cases is.symm.trans active
      · cases is.symm.trans active
      · exact is.symm.trans active
    · rcases shape with ⟨asleep, -⟩ | ⟨-, is⟩ | ⟨-, is⟩
      · cases idles.1.symm.trans asleep
      · exact .inr is
      · exact .inl (is.trans idles.1)
  · rcases shape with ⟨-, no, -⟩ | ⟨-, is⟩ | ⟨-, is⟩
    · exact wakes asleep (off.2 no)
    · cases is.symm.trans waking
    · cases (is.symm.trans waking).symm.trans asleep

/-- R71: the riser stays DISABLED. -/
theorem GoodSetRiser.staysOff (g : GoodSetRiser s n en sv qa r) (off : en = 0)
    (was : (s.riser r).link = .disabled) (free : ¬ s.riserInUse r = true) :
    ∃ t, exec (.setRiser num n en sv qa st qi) s = .next t ∧ (t.riser r).Stores sv qa st qi ∧
      (t.riser r).link = .disabled ∧ (t.riser r).frames = (s.riser r).frames ∧ Raises s t [] ∧
      s.hlp.replyLine ++ [setRiserReply num en sv qa st qi .disabled] <+: t.hlp.replyLine := by
  have set : RiserSet s (s.afterSetRiser r false sv qa st qi) r _ _ := riserStored_off _ _ _ _ was
  have hlp : (s.afterSetRiser r false sv qa st qi).hlp = s.hlp := riserStored_hlp _ _ _ _ (.inr was)
  obtain ⟨-, survey, quiet, stepMs, idleS, queue, -⟩ := Riser.stored_settings (s.riser r) s.clock
    (decide (sv = 1)) (decide (qa = 1)) (max 100 (min st 5000)) (max 10 (min qi 600))
  have linked := Riser.stored_link (s.riser r) s.clock (decide (sv = 1)) (decide (qa = 1))
    (max 100 (min st 5000)) (max 10 (min qi 600))
  rw [was, if_neg (by simp)] at linked
  generalize (s.riser r).stored s.clock _ _ _ _ = z at set survey quiet stepMs idleS queue linked
  have stores : z.Stores sv qa st qi := ⟨survey, quiet, stepMs, idleS⟩
  obtain ⟨st', b, run, k, raises, leads⟩ := g.taken (num := num) (st := st) (qi := qi)
    (fun h => free h.2) (by rw [off]; rfl) rfl set stores linked rfl
  rw [hlp] at leads
  obtain ⟨asleep, -⟩ := k.asleep (by rw [linked]; decide)
  refine ⟨_, run, k.hasSettings stores, asleep.trans linked, ?_, raises, leads⟩
  rw [k.frames, Riser.frames, queue]
  rfl

/-- R73: the riser is cleared out and disabled. -/
theorem GoodSetRiser.disables (g : GoodSetRiser s n en sv qa r) (off : en = 0)
    (was : (s.riser r).link ≠ .disabled) (free : ¬ s.riserInUse r = true) :
    let x := s.riser r
    ∃ t, exec (.setRiser num n en sv qa st qi) s = .next t ∧ (t.riser r).Stores sv qa st qi ∧
      (t.riser r).link = .disabled ∧ RiserEmptied x (t.riser r) ∧ (t.riser r).idleTimer = none ∧
      (t.riser r).stepTimer = none ∧ (t.riser r).wakeTimer = none ∧
      (∀ j, ((s.slot j).marks j fun p n o => o.cleared x p n).SameButSending (t.slot j)) ∧
      (∀ i, t.flat i = if (s.flat i).riser = r then
        { s.flat i with privacy := (s.flat i).hostPrivacy } else s.flat i) ∧
      Raises s t (s.privacyEvents r ++ [.riserChange r .disabled .disabled]) ∧
      ((∀ m, x.markers.count m ≤ s.hlp.syncs.count { num := m, riser := r }) →
        s.hlp.replyLine ++ x.markers.map (fun m => ⟨0x14, m, .ok, .sync r .flushed⟩) ++
          [setRiserReply num en sv qa st qi .disabled] <+: t.hlp.replyLine) := by
  intro x
  obtain ⟨y, d⟩ : ∃ y, DisabledByRequest s (s.afterSetRiser r false sv qa st qi) r _ _ _ _ y :=
    ⟨_, disabledByRequest _ _ _ _ was⟩
  generalize hu : s.afterSetRiser r false sv qa st qi = u at d
  obtain ⟨st', b, run, -, raises, leads⟩ := g.taken (num := num) (st := st) (qi := qi)
    (fun h => free h.2) (by rw [off]; rfl) hu d.set d.stored d.link rfl
  have k := settle_settled (u.reply 0x07 num st' b)
  have still := settle_still (r := r) (y := y) (u := u.reply 0x07 num st' b) d.set.riser
    (by rw [d.link]; decide) d.emptied.queue
  obtain ⟨noIdle, noStep, noWake⟩ := d.timers
  refine ⟨_, run, ?_⟩
  rw [still]
  refine ⟨d.stored, d.link, d.emptied, noIdle, noStep, noWake, fun j => ?_, fun i => ?_, raises,
    fun pending => ?_⟩
  · have sent : Slot.SameButSending (u.slot j) _ := k.slots j
    rw [d.slots j] at sent
    exact sent
  · exact (State.flat_congr k.dir i).trans (d.flats i)
  · rw [d.replies pending] at leads
    exact leads

end

/-- Settles O29: the refusals, and then the outcome of each change of enable. -/
theorem setRiserStoresAndEnables : Obligations.SetRiserStoresAndEnables := by
  intro num n en sv qa st qi s takes c refused step idle status stored answer
  refine ⟨fun big => ?_, fun r hr due => ?_⟩
  · exact setRiser_refused takes (fun r hr => absurd r.isLt (by omega)) rfl
      (setRiserAct_refused (.inl big) st qi s)
  intro x inUse
  have calm : ∀ y : RiserIx, y.val = n → (s.riser y).overrunDue = false := fun y hy => by
    rw [Fin.ext (hy.trans hr.symm)]
    exact due
  have used : s.riserInUse r = true ↔ inUse := riserInUse_true
  refine ⟨fun t ran => ?_, fun bad => ?_, fun he hv hq => ?_⟩
  · obtain ⟨y, es, set⟩ := setRiserAct_set s hr en sv qa st qi
    rw [setRiser_run takes calm, State.answer] at ran
    generalize s.setRiserAct n en sv qa st qi = act at set ran
    obtain ⟨kept, buffer, -⟩ := set.settle 0x07 num act.2.1 act.2.2
    rw [← Host.Outcome.next.inj ran]
    exact ⟨kept, buffer.trans takes.2⟩
  · exact setRiser_refused takes calm rfl (setRiserAct_refused (.inr bad) st qi s)
  have good : GoodSetRiser s n en sv qa r := ⟨takes, hr, due, he, hv, hq⟩
  refine ⟨fun off busy => ?_, fun on was => good.enables on was, fun on was => ?_,
    fun off was free => good.staysOff off was (mt used.1 free),
    fun off was free => good.disables off was (mt used.1 free)⟩
  · refine setRiser_refused takes calm rfl ?_
    rw [setRiserAct_eq hr he hv hq, if_pos ⟨off, used.2 busy⟩]
  · intro idles
    refine good.keeps on was ?_
    unfold State.idles
    rw [decide_eq_true_iff, ← Bool.not_eq_true, used]

end Sys2Proof.Machine
end

