-- ==== Sys2Proof/Proofs/DeskSteps.lean ====
section
/-!
SUPPORT. The law of the desk wait queue (R61) across the shared operations: a preorder whose steps are the
changes that make no eligible desk while a call waits for one, and each operation as a sequence of them.
-/

namespace Sys2Proof.Machine

/-- A change across which the law of the desk wait queue holds on. -/
structure DeskStep (s t : State) : Prop where
  kept : s.DeskQueueLaw → t.DeskQueueLaw

/-- What makes a desk eligible, of one port and the hold on it (R59). -/
theorem State.eligible_congr {s t : State} {p : PortIx} (settings : (s.port p).SameSettings (t.port p))
    (hold : t.hold p = s.hold p) : t.eligible p = s.eligible p := by
  obtain ⟨function, -, present, check⟩ := settings
  simp only [State.eligible, function, present, check, hold]

theorem State.ineligible_of_held {s : State} {p : PortIx} {h : Hold} (held : s.hold p = some h) :
    s.eligible p = false := by
  simp [State.eligible, held]

theorem State.noneEligible_of_lowestDesk {s : State} (h : s.lowestDesk = none) (p : PortIx) :
    s.eligible p = false := by
  have none := List.find?_eq_none.1 h p (List.mem_finRange p)
  simpa using none

namespace DeskStep
variable {s t u : State}

theorem refl (s : State) : DeskStep s s := ⟨id⟩

theorem trans (h : DeskStep s t) (k : DeskStep t u) : DeskStep s u := ⟨k.kept ∘ h.kept⟩

/-- No port becomes an eligible desk, and no call comes to wait for one. -/
theorem of_ineligible (queue : s.psw.deskQueue = [] → t.psw.deskQueue = [])
    (desks : ∀ p, s.eligible p = false → t.eligible p = false) : DeskStep s t :=
  ⟨fun law waits p => desks p (law (fun e => waits (queue e)) p)⟩

theorem of_settings (queue : t.psw = s.psw) (ports : ∀ p, (s.port p).SameSettings (t.port p)) :
    DeskStep s t :=
  of_ineligible (by rw [queue]; exact id) fun p => by
    rw [State.eligible_congr (ports p) (State.hold_congr queue p)]; exact id

/-- A change of neither the paths nor the ports. -/
theorem elsewhere (psw : t.psw = s.psw := by rfl) (ports : t.ports = s.ports := by rfl) :
    DeskStep s t :=
  of_settings psw fun p => by rw [State.port_congr ports]; exact .refl _

theorem settled (h : Settled s t) : DeskStep s t := of_settings h.psw fun p => (h.ports p).settings

theorem modifyRiser (s : State) (x : RiserIx) (f : Riser → Riser) : DeskStep s (s.modifyRiser x f) :=
  .elsewhere

theorem enterActive (s : State) (x : RiserIx) : DeskStep s (s.enterActive x) := .modifyRiser s x _

/-- A port whose settings stay. -/
theorem modifyPort (s : State) (p : PortIx) {f : Port → Port}
    (h : ∀ x : Port, x.SameSettings (f x) := by exact fun _ => ⟨rfl, rfl, rfl, rfl⟩) :
    DeskStep s (s.modifyPort p f) :=
  of_settings rfl (s.port_modifyPort_settings p h)

/-- A port that is no eligible desk afterwards. -/
theorem closePort (s : State) (p : PortIx) {f : Port → Port}
    (closed : (s.modifyPort p f).eligible p = false) : DeskStep s (s.modifyPort p f) :=
  of_ineligible id fun q free => by
    by_cases here : q = p
    · rw [here]; exact closed
    · have same : (s.port q).SameSettings ((s.modifyPort p f).port q) := by
        rw [State.port_modifyPort, if_neg (Ne.symm here)]
        exact .refl _
      rwa [State.eligible_congr same rfl]

/-- R58, R60, R61, R62, R65: one change of a call operation. -/
theorem move (m : CallMove s t) : DeskStep s t := by
  have ports := m.ports
  have same : t.psw = s.psw → DeskStep s t := fun h => of_settings h ports
  cases m
  case held p h =>
    refine of_ineligible id fun q free => ?_
    by_cases here : q = p
    · exact State.ineligible_of_held (h := h) (by rw [State.hold_setHold, if_pos here.symm])
    · rwa [State.eligible_congr (ports q)]
      rw [State.hold_setHold, if_neg (Ne.symm here)]
  case freed p freed =>
    rcases freed with empty | closed
    · exact ⟨fun _ waits => absurd empty waits⟩
    · refine of_ineligible id fun q free => ?_
      by_cases here : q = p
      · rw [here]; exact closed
      · rwa [State.eligible_congr (ports q)]
        rw [State.hold_setHold, if_neg (Ne.symm here)]
  case deskQueueShrinks q sub =>
    refine of_ineligible (fun empty => ?_) fun _ => id
    rw [empty] at sub
    exact List.sublist_nil.1 sub
  case deskQueueGrows r none => exact ⟨fun _ _ p => State.noneEligible_of_lowestDesk none p⟩
  case queuesLeft r =>
    refine of_ineligible (fun empty => ?_) fun _ => id
    show List.filter _ s.psw.deskQueue = []
    rw [empty]; rfl
  case wake x => exact same (startWake_psw s x)
  case channelHeld => exact of_ineligible id fun _ => id
  case channelFreed => exact of_ineligible id fun _ => id
  case channelQueueShrinks => exact of_ineligible id fun _ => id
  case channelQueueGrows => exact of_ineligible id fun _ => id
  case joins => exact of_ineligible id fun _ => id
  all_goals exact same rfl

theorem moves (m : CallMoves s t) : DeskStep s t := by
  induction m with
  | refl => exact .refl s
  | tail _ g ih => exact ih.trans (.move g)

theorem emit (s : State) (e : Event) : DeskStep s (s.emit e) := .moves (emit_moves s e)

theorem emitted (h : DeskStep s t) (e : Event) : DeskStep s (t.emit e) := h.trans (.emit t e)

theorem foldl {α : Type} {f : State → α → State} (hf : ∀ s a, DeskStep s (f s a)) (l : List α)
    (s : State) : DeskStep s (l.foldl f s) := by
  induction l generalizing s with
  | nil => exact .refl s
  | cons a l ih => exact (hf s a).trans (ih _)

/-! ## Flats and stations -/

theorem recomputeFlat (s : State) (i : FlatIx) : DeskStep s (s.recomputeFlat i) := by
  unfold State.recomputeFlat
  dsimp only
  split
  · exact .refl s
  · exact (elsewhere (t := s.setFlat i _)).emitted _

theorem recomputeFlats (s : State) (w : Flat → Bool) : DeskStep s (s.recomputeFlats w) :=
  .foldl recomputeFlat _ s

theorem setStationPrivacy (s : State) (x : RiserIx) (a : Nat) (v : Bool) :
    DeskStep s (s.setStationPrivacy x a v) := by
  unfold State.setStationPrivacy
  split
  · exact .refl s
  · exact (DeskStep.modifyRiser s x _).trans (.recomputeFlats ..)

theorem stationHeard (s : State) (x : RiserIx) (a : Nat) : DeskStep s (s.stationHeard x a) := by
  unfold State.stationHeard
  dsimp only
  split
  · exact (DeskStep.modifyRiser s x _).emitted _
  · exact .elsewhere

theorem stationLost (s : State) (x : RiserIx) (a : Nat) : DeskStep s (s.stationLost x a) := by
  unfold State.stationLost
  refine DeskStep.trans ?_ (.setStationPrivacy ..)
  split
  · exact (DeskStep.modifyRiser s x _).emitted _
  · exact .elsewhere

/-! ## Operations of a riser controller -/

theorem startIdle (s : State) (x : RiserIx) : DeskStep s (s.startIdle x) := by
  unfold State.startIdle
  split
  · exact .elsewhere
  · exact .refl s

theorem flushRiser (s : State) (x : RiserIx) : DeskStep s (s.flushRiser x) := by
  have request : ∀ (t : State) (o : Outstanding), DeskStep t (t.completeOutstandingFaulted o) :=
    fun t o => by
      unfold State.completeOutstandingFaulted
      split
      · exact .moves (completeFaulted_moves ..)
      · exact .refl t
  have entry : ∀ (t : State) (i : QueueItem), DeskStep t (State.flushEntry x t i) := fun t i => by
    unfold State.flushEntry
    split
    · exact .refl t
    · exact .settled (syncDone_settled ..)
    · split
      · exact .refl t
      · exact .moves (completeFaulted_moves ..)
    · exact .refl t
  unfold State.flushRiser
  exact ((DeskStep.foldl request _ s).trans (.foldl entry _ _)).trans .elsewhere

theorem forgetStations (s : State) (x : RiserIx) : DeskStep s (s.forgetStations x) := by
  unfold State.forgetStations State.riserFlagsCleared
  exact (DeskStep.modifyRiser s x _).trans (.recomputeFlats ..)

theorem failRiser (s : State) (x : RiserIx) (l : LinkState) (c : RiserCause) (why : EndReason) :
    DeskStep s (s.failRiser x l c why) :=
  ((((DeskStep.modifyRiser s x _).trans (.flushRiser ..)).emitted _).trans
    (.moves (failCalls_moves ..))).trans (.forgetStations ..)

theorem overrunFirst (s : State) (x : RiserIx) : DeskStep s (s.overrunFirst x) := by
  unfold State.overrunFirst
  split
  · exact ((DeskStep.failRiser ..).trans
      (.enterActive ..)).trans (.settled (settle_settled _))
  · exact .refl s

theorem overrunFirst? (s : State) (n : Nat) : DeskStep s (s.overrunFirst? n) := by
  unfold State.overrunFirst?
  split
  · exact .overrunFirst ..
  · exact .refl s

theorem settleLine (s : State) (x : RiserIx) : DeskStep s (s.settleLine x) :=
  .settled ((settleRiser_settled s x).trans (settleHost_settled _))

theorem badStationFrame (s : State) (x : RiserIx) : DeskStep s (s.badStationFrame x) :=
  (DeskStep.modifyRiser s x _).trans (.settleLine ..)

theorem takeStationFrame (s : State) (x : RiserIx) (a : Nat) (v : Bool) :
    DeskStep s (s.takeStationFrame x a v) := by
  have heard : ∀ t : State, DeskStep s t → DeskStep s
      (if v then (t.stationHeard x a).startIdle x else t.stationHeard x a) := fun t h => by
    split
    · exact (h.trans (.stationHeard ..)).trans (.startIdle ..)
    · exact h.trans (.stationHeard ..)
  unfold State.takeStationFrame
  refine heard _ ?_
  split <;> exact .elsewhere

theorem onStationFrame (s : State) (x : RiserIx) (a : Nat) {act : State → State}
    (h : ∀ t, DeskStep t (act t)) : DeskStep s (s.onStationFrame x a act) := by
  unfold State.onStationFrame
  dsimp only
  split
  · exact .overrunFirst ..
  · split
    · exact ((DeskStep.overrunFirst ..).trans (h _)).trans (.settled (settle_settled _))
    · exact (DeskStep.overrunFirst ..).trans (.badStationFrame ..)

theorem takeReply (s : State) (x : RiserIx) (a tag res v : Nat) :
    DeskStep s (s.takeReply x a tag res v) := by
  unfold State.takeReply
  split
  · exact .takeStationFrame ..
  · have taken : ∀ b, DeskStep s (((s.takeStationFrame x a b).setStationPrivacy x a
        (privacyLevel v)).modifyRiser x fun y => y.dropRequest tag) := fun b =>
      ((DeskStep.takeStationFrame ..).trans (.setStationPrivacy ..)).trans .elsewhere
    dsimp only
    split
    · exact (taken _).trans (.moves (complete_moves ..))
    · exact taken _

theorem endTransmission (s : State) (x : RiserIx) (tx : RiserTx) :
    DeskStep s (s.endTransmission x tx) := by
  unfold State.endTransmission
  split
  · exact (DeskStep.modifyRiser s x _).trans (.startIdle ..)
  · dsimp only
    split
    · exact .elsewhere
    · exact (DeskStep.modifyRiser s x _).trans (.startIdle ..)
  · dsimp only
    split
    · exact .elsewhere
    · exact (DeskStep.modifyRiser s x _).trans (.startIdle ..)
  · exact .elsewhere

theorem surveyPoll (s : State) (x : RiserIx) : DeskStep s (s.surveyPoll x) := by
  have polled := DeskStep.moves (solicit_moves s x (.poll (s.riser x).surveyPos))
  unfold State.surveyPoll
  split
  · split
    · next e =>
      rw [e] at polled
      exact polled.trans .elsewhere
    · next e => rw [e] at polled; exact polled
  · exact .refl s

theorem lineSense (s : State) (x : RiserIx) (c : LineCondition) : DeskStep s (s.lineSense x c) := by
  unfold State.lineSense
  dsimp only
  split
  · exact .elsewhere
  · split
    · exact ((DeskStep.modifyRiser s x _).trans (.enterActive ..)).emitted _
    · exact .elsewhere
  · split
    · exact .elsewhere
    · exact (DeskStep.modifyRiser s x _).trans (.failRiser ..)

theorem noReply (s : State) (x : RiserIx) (o : Outstanding) : DeskStep s (s.noReply x o) := by
  have dropped : DeskStep s (s.modifyRiser x fun y => y.dropRequest o.tag) := .elsewhere
  have lost : ∀ a, DeskStep s (if o.cancelPending then s.modifyRiser x (fun y => y.dropRequest o.tag)
      else (s.modifyRiser x fun y => y.dropRequest o.tag).stationLost x a) := fun a => by
    split
    · exact dropped
    · exact dropped.trans (.stationLost ..)
  unfold State.noReply
  dsimp only
  split
  · exact (lost _).trans (.moves (complete_moves ..))
  · exact lost _

theorem replyTimeout (s : State) (x : RiserIx) (tag : Nat) :
    DeskStep s (s.after (execReplyTimeout x tag s)) := by
  simp only [execReplyTimeout, State.after]
  split
  · exact .overrunFirst s x
  · split
    · exact .overrunFirst s x
    · next e _ =>
      have due : DeskStep s ((s.overrunFirst x).advanceTo e) :=
        (DeskStep.overrunFirst s x).trans .elsewhere
      refine DeskStep.trans ?_ (.settled (settle_settled _))
      split
      · refine due.trans ?_
        unfold State.secondAttempt
        split <;> exact .elsewhere
      · exact due.trans (.noReply ..)

/-! ## Doors -/

theorem releaseRequest (s : State) (r : Ref) (p : PortIx) (h : Option (FlatIx × Nat)) :
    DeskStep s (s.releaseRequest r p h).1 := by
  have shown : ∀ {t : State} d, DeskStep s t → DeskStep s (t.display p d) := fun d k =>
    k.trans (.move (.display ..))
  unfold State.releaseRequest
  split
  · exact .refl s
  · dsimp only
    split
    · exact .emit ..
    · split
      · exact shown _ ((elsewhere (t := s.openFor p r)).emitted _)
      · split
        · exact shown _ (elsewhere (t := s.openFor p r))
        · exact .refl s

theorem handsetDoor (s : State) (x : RiserIx) (a : Nat) : DeskStep s (s.handsetDoor x a) := by
  unfold State.handsetDoor
  split
  · split
    · exact (releaseRequest ..).trans (.moves (advise_moves ..))
    · exact .moves (advise_moves ..)
  · exact .moves (advise_moves ..)

theorem doorHoldAct (s : State) (lock tag : Nat) : DeskStep s (s.doorHoldAct lock tag).1 := by
  unfold State.doorHoldAct
  split
  · exact .refl s
  · split
    · exact .refl s
    · split
      · exact .refl s
      · split
        · exact (elsewhere (t := s.setLock _ _)).emitted _
        · split <;> exact .refl s

theorem doorFreeAct (s : State) (lock tag : Nat) : DeskStep s (s.doorFreeAct lock tag).1 := by
  unfold State.doorFreeAct
  split
  · exact .refl s
  · split
    · exact .refl s
    · split
      · exact (elsewhere (t := s.setLock _ _)).emitted _
      · exact .refl s

end DeskStep

end Sys2Proof.Machine
end

