-- ==== Sys2Proof/Proofs/DeskQueueLaw.lean ====
section
/-!
SUPPORT. The law of the desk wait queue (R61) across every command: ports that may have become eligible
desks are served at once (R62), and every other operation is made of desk steps (O12).
-/

namespace Sys2Proof.Machine

/-! ## Ports that may have become eligible desks (R62) -/

/-- The law of the desk wait queue, but for some ports that are yet to be served. -/
def State.DesksServedBut (s : State) (l : List PortIx) : Prop :=
  s.psw.deskQueue ≠ [] → ∀ p, p ∉ l → s.eligible p = false

theorem State.desksServedBut_nil {s : State} : s.DesksServedBut [] ↔ s.DeskQueueLaw := by
  simp [State.DesksServedBut, State.DeskQueueLaw]

theorem grantDesk_ineligible (s : State) (r : Ref) (c : Call) (p : PortIx) {q : PortIx}
    (h : q = p ∨ s.eligible q = false) : (s.grantDesk r c p).eligible q = false := by
  have hold := fun q => State.hold_congr (grantDesk_psw s r c p) q
  simp only [State.hold_setHold] at hold
  by_cases here : p = q
  · exact State.ineligible_of_held ((hold q).trans (if_pos here))
  · rw [State.eligible_congr ((grantDesk_moves s r c p).callEventKept.ports q)
      ((hold q).trans (if_neg here))]
    exact h.resolve_left (Ne.symm here)

/-- R62: after the desk grant rule has run for a port, calls wait only if they waited before and the port is
no eligible desk; no other port has become one. -/
theorem serveDeskFrom_served (p : PortIx) (q : List Ref) (s : State) (h : s.psw.deskQueue = q) :
    ((State.serveDeskFrom p q s).psw.deskQueue ≠ [] →
      q ≠ [] ∧ (State.serveDeskFrom p q s).eligible p = false) ∧
    ∀ x, s.eligible x = false → (State.serveDeskFrom p q s).eligible x = false := by
  induction q generalizing s with
  | nil => exact ⟨fun waits => absurd h waits, fun _ => id⟩
  | cons r rest ih =>
    unfold State.serveDeskFrom
    dsimp only
    split
    · exact ⟨fun _ => ⟨List.cons_ne_nil _ _, grantDesk_ineligible _ r _ p (.inl rfl)⟩,
        fun x free => grantDesk_ineligible _ r _ p (.inr free)⟩
    · obtain ⟨served, kept⟩ := ih (s.setDeskQueue rest) rfl
      exact ⟨fun waits => ⟨List.cons_ne_nil _ _, (served waits).2⟩, kept⟩

theorem State.DesksServedBut.serve {s : State} {p : PortIx} {l : List PortIx}
    (h : s.DesksServedBut (p :: l)) : (s.serveDesk p).DesksServedBut l := by
  unfold State.serveDesk
  split
  · obtain ⟨served, kept⟩ := serveDeskFrom_served p _ s rfl
    intro waits q out
    obtain ⟨waited, here⟩ := served waits
    by_cases e : q = p
    · rw [e]; exact here
    · exact kept q (h waited q (by simp [e, out]))
  · next closed =>
    intro waits q out
    by_cases e : q = p
    · rw [e]; exact Bool.eq_false_iff.2 closed
    · exact h waits q (by simp [e, out])

theorem State.DesksServedBut.serveAll {s : State} {l : List PortIx} (h : s.DesksServedBut l) :
    (l.foldl State.serveDesk s).DeskQueueLaw := by
  induction l generalizing s with
  | nil => exact State.desksServedBut_nil.1 h
  | cons p l ih => exact ih h.serve

/-- Only the ports of a list have been changed. -/
theorem State.DeskQueueLaw.but {s t : State} {l : List PortIx} (law : s.DeskQueueLaw)
    (psw : t.psw = s.psw) (ports : ∀ p, p ∉ l → t.port p = s.port p) : t.DesksServedBut l := by
  intro waits p out
  rw [psw] at waits
  rw [State.eligible_congr (s := s) (by rw [ports p out]; exact .refl _) (State.hold_congr psw p)]
  exact law waits p

theorem port_foldl_modifyPort (l : List PortIx) (f : Port → Port) (s : State) {p : PortIx}
    (out : p ∉ l) : (l.foldl (fun t q => t.modifyPort q f) s).port p = s.port p := by
  induction l generalizing s with
  | nil => rfl
  | cons q l ih =>
    rw [List.mem_cons, not_or] at out
    refine (ih _ out.2).trans ?_
    rw [State.port_modifyPort, if_neg (Ne.symm out.1)]

namespace DeskStep
variable {s t u : State}

theorem clearChecks (s : State) (set : BitVec 8) : DeskStep s (s.clearChecks set) where
  kept law := by
    have psw : ∀ (l : List PortIx) (u : State),
        (l.foldl (fun t q => t.modifyPort q Port.clearCheck) u).psw = u.psw :=
      fun l => by induction l with
        | nil => exact fun _ => rfl
        | cons q l ih => exact fun u => (ih _).trans rfl
    exact (law.but (psw _ s) fun _ out => port_foldl_modifyPort _ _ s out).serveAll

theorem storePort (s : State) (p : PortIx) (f : PortFunction) (i : Bool) (r : Nat) :
    DeskStep s (s.storePort p f i r) := by
  have stored : DeskStep s ((s.setLock p { s.lock p with releaseTime := r }).modifyPort p fun x =>
      { x with intercept := i }) := by
    refine of_ineligible id fun q free => ?_
    simp only [State.eligible, State.port_modifyPort] at free ⊢
    split
    · next e => subst e; exact free
    · exact free
  unfold State.storePort
  dsimp only
  generalize (s.setLock p { s.lock p with releaseTime := r }).modifyPort p (fun x =>
    { x with intercept := i }) = v at stored ⊢
  split
  · split
    · refine ⟨fun law => State.desksServedBut_nil.1 (State.DesksServedBut.serve ?_)⟩
      refine (stored.kept law).but (l := [p]) rfl fun q out => ?_
      rw [State.port_modifyPort, if_neg fun e => out (by rw [e]; exact List.mem_singleton_self q)]
    · next desk =>
      have function : ∀ x : Port, (x.changeFunction f).function ≠ .concierge := fun x => by
        cases f
        case off => simp [Port.changeFunction]
        case entrance =>
          unfold Port.changeFunction
          dsimp only
          split <;> simp
        case concierge => exact absurd rfl desk
      refine stored.trans (closePort v p ?_)
      simp [State.eligible, function]
  · exact stored

theorem setPortAct (s : State) (port function intercept releaseTime : Nat) :
    DeskStep s (s.setPortAct port function intercept releaseTime).1 := by
  unfold State.setPortAct
  split
  · split
    · exact .refl s
    · split
      · exact .refl s
      · exact .storePort ..
  · exact .refl s

/-! ## Requests of the host -/

theorem answer {k n : Nat} {st : State → State} {act : State → State × Status × ReplyBody}
    (settled : ∀ t, Settled t (st t)) (acted : DeskStep s (act s).1) :
    DeskStep s (s.answer k n st act) := by
  unfold State.answer
  exact (acted.trans (elsewhere (t := State.reply _ k n _ _))).trans (.settled (settled _))

theorem setFlatAct (s : State) (f v r a n d o : Nat) : DeskStep s (s.setFlatAct f v r a n d o).1 := by
  unfold State.setFlatAct
  split
  · split
    · exact .refl s
    · split
      · exact .refl s
      · split
        · exact .refl s
        · unfold State.storeFlat
          dsimp only
          split
          · exact .elsewhere
          · exact (elsewhere (t := State.noteServed _ _)).trans (.recomputeFlat ..)
  · exact .refl s

theorem storeRiser (s : State) (x : RiserIx) (v q : Bool) (a b : Nat) :
    DeskStep s (s.storeRiser x v q a b) := by
  unfold State.storeRiser
  dsimp only
  split
  · refine DeskStep.trans ?_ (.move (.wake ..))
    split
    · exact .elsewhere
    · split <;> exact .elsewhere
  · split
    · exact .elsewhere
    · split <;> exact .elsewhere

theorem applyEnable (s : State) (x : RiserIx) (e : Bool) : DeskStep s (s.applyEnable x e) := by
  unfold State.applyEnable
  split
  · split
    · unfold State.enableRiser
      split
      · exact (DeskStep.enterActive ..).emitted _
      · exact (DeskStep.modifyRiser ..).emitted _
    · exact .refl s
  · split
    · exact .refl s
    · unfold State.disableRiser
      exact ((((DeskStep.modifyRiser s x _).trans (.flushRiser ..)).trans (.forgetStations ..)).trans
        (.modifyRiser ..)).emitted _

theorem setRiserAct (s : State) (r e v q a b : Nat) : DeskStep s (s.setRiserAct r e v q a b).1 := by
  unfold State.setRiserAct
  split
  · split
    · exact .refl s
    · exact ((DeskStep.storeRiser ..).trans (.applyEnable ..)).trans (.settled (goQuiet_settled ..))
  · exact .refl s

theorem setPrivacyAct (s : State) (f v : Nat) : DeskStep s (s.setPrivacyAct f v).1 := by
  unfold State.setPrivacyAct
  split
  · exact (elsewhere (t := s.setFlat _ _)).trans (.recomputeFlat ..)
  · exact .refl s

theorem endCallAct (s : State) (slot generation : Nat) :
    DeskStep s (s.endCallAct slot generation).1 := by
  unfold State.endCallAct
  split
  · exact .refl s
  · split
    · exact .refl s
    · dsimp only
      split
      · exact .refl s
      · exact .moves (endCall_moves ..)

theorem riserSync (s : State) (riser num : Nat) : DeskStep s (s.riserSync riser num) := by
  unfold State.riserSync
  split
  · exact .elsewhere
  · split
    · exact .elsewhere
    · split
      · exact .elsewhere
      · split <;> exact .elsewhere

/-- R169: a request that is taken. -/
theorem takeRequest (s : State) (c : Instr) : DeskStep s (s.takeRequest c) := by
  have overrun : ∀ (n : Nat) {t : State}, DeskStep (s.overrunFirst? n) t → DeskStep s t :=
    fun n _ h => (DeskStep.overrunFirst? s n).trans h
  unfold State.takeRequest
  split
  case h_2 => exact .answer settleLinks_settled (.setPortAct ..)
  case h_4 => exact .answer settleLinks_settled (.setFlatAct ..)
  case h_5 =>
    refine .answer settleHost_settled ?_
    unfold State.setTimesAct
    dsimp only
    split <;> exact .elsewhere
  case h_8 => exact overrun _ (.answer settle_settled (.setRiserAct ..))
  case h_9 => exact .answer settleLinks_settled (.clearChecks ..)
  case h_10 => exact .answer settleLinks_settled (.setPrivacyAct ..)
  case h_11 => exact .answer settleLinks_settled (.doorHoldAct ..)
  case h_12 => exact .answer settleLinks_settled (.doorFreeAct ..)
  case h_13 => exact .answer settle_settled (.endCallAct ..)
  case h_19 =>
    refine overrun _ (.answer settleHost_settled ?_)
    split <;> exact .elsewhere
  case h_20 =>
    refine overrun _ (.answer settleHost_settled ?_)
    split <;> exact .elsewhere
  case h_21 => exact overrun _ ((DeskStep.riserSync ..).trans (.settled (settleHost_settled _)))
  case h_1 => exact .answer settleHost_settled (.refl s)
  case h_23 => exact .refl s
  case h_3 =>
    refine .answer settleHost_settled ?_
    unfold State.setWindowAct
    split
    · split <;> exact .elsewhere
    · exact .refl s
  case h_6 =>
    refine .answer settleHost_settled ?_
    unfold State.setRouteAct
    split <;> exact .elsewhere
  case h_7 =>
    refine .answer settleHost_settled ?_
    unfold State.setModeAct
    split <;> exact .elsewhere
  all_goals
    refine .answer settleHost_settled ?_
    split <;> exact .elsewhere

theorem takeRequests (n : Nat) (s : State) : DeskStep s (State.takeRequests n s) := by
  induction n generalizing s with
  | zero => exact .refl s
  | succ n ih =>
    unfold State.takeRequests
    split
    · split
      · exact .refl s
      · next f rest _ =>
        exact ((elsewhere (t := { s with hlp := { s.hlp with buffer := rest } })).trans
          (.takeRequest ..)).trans (ih _)
    · exact .refl s

/-- R168, R169: the command of a request, which `exec` runs as its taking. -/
theorem onRequest (s : State) (c : Instr) : DeskStep s (s.onRequest c (State.takeRequest c)) := by
  unfold State.onRequest
  split
  · exact .takeRequest ..
  · split
    · exact .refl s
    · split
      · exact .elsewhere
      · exact .refl s

theorem hostBytes (s : State) (bytes : List Byte) : DeskStep s (s.hostBytes bytes) := by
  have framed : ∀ (t : State) (f : HostFrame), DeskStep t (t.frameReceived f) := fun t f =>
    (elsewhere (t := { t with hlp := t.hlp.offerFrame f })).trans (.takeRequests ..)
  unfold State.hostBytes
  exact DeskStep.trans .elsewhere (.foldl framed ..)

/-- After a start no call waits. -/
theorem start (s : State) (k : StartKind) (cause : StartCause) : DeskStep s (s.start k cause) where
  kept _ waits := by cases k <;> exact absurd rfl waits

theorem hostTxEnd (s : State) : DeskStep s (s.after (execHostTxEnd s)) := by
  have free : DeskStep s s.hostLineFree :=
    ((elsewhere (t := { s with hlp := { s.hlp with tx := .idle } })).trans
      (.settled (settleHost_settled _))).trans (.takeRequests ..)
  simp only [execHostTxEnd, State.after]
  split
  · exact .refl s
  · exact free
  · split
    · exact (DeskStep.start ..).trans (.settled (settle_settled _))
    · exact free

/-! ## Panels -/

theorem panelFrameEnd (s : State) (p : PortIx) : DeskStep s (s.panelFrameEnd p) := .modifyPort s p

theorem onPanelFrame (s : State) (p : PortIx) (f : PortFunction) {settle act : State → State}
    (settled : ∀ t, Settled t (settle t)) (acted : ∀ t, DeskStep t (act t)) :
    DeskStep s (s.onPanelFrame p f settle act) := by
  have ended := DeskStep.panelFrameEnd s p
  unfold State.onPanelFrame
  dsimp only
  split
  · exact (ended.trans (acted _)).trans (.settled (settled _))
  · exact ended

/-- The commands that panels and desk sets give. -/
theorem takePanelCommand (s : State) (c : Instr) : DeskStep s (s.takePanelCommand c) := by
  have shown : ∀ {t u : State} p d, DeskStep t u → DeskStep t (u.display p d) := fun _ _ h =>
    h.trans (.move (.display ..))
  unfold State.takePanelCommand
  split
  · simp only [execPanelCall, State.after]
    exact .onPanelFrame s _ _ settle_settled fun t => .moves (startCall_moves ..).guarded
  · simp only [execPanelConcierge, State.after]
    exact .onPanelFrame s _ _ settleLinks_settled fun t => .moves (startCall_moves ..)
  · simp only [execPanelCancel, State.after]
    refine .onPanelFrame s _ _ settle_settled fun t => ?_
    split
    · exact .moves (endCall_moves ..)
    · exact .refl t
  · simp only [execDeskDial, State.after]
    exact .onPanelFrame s _ _ settle_settled fun t => .moves (startCall_moves ..).guarded
  · simp only [execDeskAnswer, State.after]
    refine .onPanelFrame s _ _ settleLinks_settled fun t => ?_
    split
    · exact .moves (deskAnswer_moves ..).guarded
    · exact shown _ _ (.refl t)
  · simp only [execDeskClear, State.after]
    refine .onPanelFrame s _ _ settle_settled fun t => ?_
    split
    · exact .moves (endCall_moves ..).guarded
    · exact .moves (endCall_moves ..)
    · exact .refl t
  · simp only [execDeskForward, State.after]
    refine .onPanelFrame s _ _ settle_settled fun t => ?_
    split
    · split
      · split
        · exact .moves (forward_moves ..)
        · exact shown _ _ (.refl t)
      · exact shown _ _ (.refl t)
    · exact shown _ _ (.refl t)
  · simp only [execDeskDoor, State.after]
    refine .onPanelFrame s _ _ settleLinks_settled fun t => ?_
    split
    · split
      · exact shown _ _ (.releaseRequest ..)
      · exact shown _ _ (.refl t)
    · exact shown _ _ (.refl t)
  · exact .panelFrameEnd ..
  · exact .refl s

theorem panelByte (p : PortIx) (s : State) (b : Byte) : DeskStep s (State.panelByte p s b) := by
  have ended := DeskStep.panelFrameEnd s p
  unfold State.panelByte
  split
  · split
    · exact .modifyPort s p
    · exact ended
    · exact ended.trans (.takePanelCommand ..)
  · exact .refl s

theorem panelPresent (s : State) (p : PortIx) : DeskStep s (s.after (execPanelPresent p s)) := by
  simp only [execPanelPresent, State.after]
  split
  · exact .refl s
  · refine DeskStep.trans ?_ (.settled (settleLinks_settled _))
    refine DeskStep.trans ?_ (.moves ((CallMoves.one (.display ..)).after (.ring ..)))
    exact (closePort s p (by simp [State.eligible])).emitted _

theorem panelAbsent (s : State) (p : PortIx) : DeskStep s (s.after (execPanelAbsent p s)) := by
  simp only [execPanelAbsent, State.after]
  split
  · have gone : DeskStep s ((s.modifyPort p Port.goAbsent).emit
        (.panelChange p (s.port p).function false true)) :=
      (closePort s p (by simp [State.eligible, Port.goAbsent])).emitted _
    refine DeskStep.trans ?_ (.settled (settle_settled _))
    split
    · exact gone.trans (.moves (endCall_moves ..))
    · exact gone
  · exact .refl s

/-! ## Stations -/

/-- The commands that stations give. -/
theorem takeStationCommand (s : State) (c : Instr) : DeskStep s (s.takeStationCommand c) := by
  have heard : ∀ {t u : State} (x : RiserIx) (a : Nat), DeskStep (t.takeStationFrame x a true) u →
      DeskStep t u := fun x a h => (DeskStep.takeStationFrame ..).trans h
  unfold State.takeStationCommand
  split
  · simp only [execStationReply, State.after]
    exact .onStationFrame s _ _ fun t => .takeReply ..
  · simp only [execStationLift, State.after]
    exact .onStationFrame s _ _ fun t => heard _ _ (.moves (lift_moves ..))
  · simp only [execStationHangup, State.after]
    exact .onStationFrame s _ _ fun t => heard _ _ (.moves (hangup_moves ..))
  · simp only [execStationDoor, State.after]
    exact .onStationFrame s _ _ fun t => heard _ _ (.handsetDoor ..)
  · simp only [execStationPrivacyOn, State.after]
    exact .onStationFrame s _ _ fun t => heard _ _ (.setStationPrivacy ..)
  · simp only [execStationPrivacyOff, State.after]
    exact .onStationFrame s _ _ fun t => heard _ _ (.setStationPrivacy ..)
  · simp only [execUnknownStationFrame, State.after]
    refine .onStationFrame s _ _ fun t => ?_
    split
    · exact .badStationFrame ..
    · split
      · exact heard _ _ (.moves (advise_moves ..))
      · exact .takeStationFrame ..
  · simp only [execRiserBadFrame, State.after]
    exact (DeskStep.overrunFirst ..).trans (.badStationFrame ..)
  · exact .refl s

theorem riserByte (x : RiserIx) (s : State) (b : Byte) : DeskStep s (State.riserByte x s b) := by
  have first := DeskStep.overrunFirst s x
  unfold State.riserByte
  dsimp only
  split
  · split
    · exact first.trans (.modifyRiser ..)
    · split
      · exact first
      · exact first.trans (.badStationFrame ..)
    · exact (first.trans (.modifyRiser ..)).trans (.takeStationCommand ..)
  · exact first

/-! ## Every command -/

/-- The expiry of a call timer. -/
theorem onExpiry (s : State) (r : Ref) (k : TimerKind) {act : State → Call → State}
    (acted : ∀ t c, CallMoves t (act t c)) : DeskStep s (s.onExpiry r k act) := by
  unfold State.onExpiry
  split
  · exact .refl s
  · split
    · exact .refl s
    · split
      · exact ((elsewhere (t := s.advanceTo _)).trans
          (.moves ((setCall_moves ..).trans (acted _ _)))).trans (.settled (settle_settled _))
      · exact .refl s

theorem exec (c : Instr) (s : State) : DeskStep s (s.after (exec c s)) := by
  have first := DeskStep.overrunFirst s
  have line : ∀ (x : RiserIx) {t u : State}, DeskStep t u → DeskStep t (u.settleLine x) :=
    fun x _ _ h => h.trans (.settleLine ..)
  cases c
  case powerUp => exact (start s .cold .powerUp).trans (.settled (settleHost_settled _))
  case resetPin =>
    exact ((elsewhere (t := { s with resetHeld := true })).trans (.start _ .cold .resetPin)).trans
      (.settled (settleHost_settled _))
  case hostFrameReceived b =>
    simp only [Machine.exec, execHostFrameReceived, State.after]
    split
    · exact .refl s
    · exact .hostBytes ..
  case hostRxTimeout =>
    simp only [Machine.exec, execHostRxTimeout, State.after]
    split <;> exact .elsewhere
  case hostTxEnd => exact .hostTxEnd s
  case illegalRequest k n b =>
    simp only [Machine.exec, execIllegalRequest, State.after]
    split
    · exact .refl s
    · exact .onRequest s (.illegalRequest k n b)
  case setPort a b c d e => exact .onRequest s (.setPort a b c d e)
  case setWindow a b c d e f g i => exact .onRequest s (.setWindow a b c d e f g i)
  case setFlat a b c d e f g i => exact .onRequest s (.setFlat a b c d e f g i)
  case setTimes a b c d e => exact .onRequest s (.setTimes a b c d e)
  case setRoute a b c => exact .onRequest s (.setRoute a b c)
  case setMode a b => exact .onRequest s (.setMode a b)
  case setRiser a b c d e f g => exact .onRequest s (.setRiser a b c d e f g)
  case clearCheck a b => exact .onRequest s (.clearCheck a b)
  case setPrivacy a b c => exact .onRequest s (.setPrivacy a b c)
  case doorHold a b c => exact .onRequest s (.doorHold a b c)
  case doorFree a b c => exact .onRequest s (.doorFree a b c)
  case endCall a b c => exact .onRequest s (.endCall a b c)
  case queryCall a b => exact .onRequest s (.queryCall a b)
  case queryWindow a b => exact .onRequest s (.queryWindow a b)
  case queryFlat a b => exact .onRequest s (.queryFlat a b)
  case queryPort a b => exact .onRequest s (.queryPort a b)
  case queryLock a b => exact .onRequest s (.queryLock a b)
  case queryRiser a b => exact .onRequest s (.queryRiser a b)
  case queryStation a b c => exact .onRequest s (.queryStation a b c)
  case riserSync a b => exact .onRequest s (.riserSync a b)
  case restart a b => exact .onRequest s (.restart a b)
  case panelCall p n => exact .takePanelCommand s (.panelCall p n)
  case panelConcierge p => exact .takePanelCommand s (.panelConcierge p)
  case panelCancel p => exact .takePanelCommand s (.panelCancel p)
  case deskDial p n => exact .takePanelCommand s (.deskDial p n)
  case deskAnswer p => exact .takePanelCommand s (.deskAnswer p)
  case deskClear p => exact .takePanelCommand s (.deskClear p)
  case deskForward p => exact .takePanelCommand s (.deskForward p)
  case deskDoor p => exact .takePanelCommand s (.deskDoor p)
  case panelFrameDiscard p => exact .takePanelCommand s (.panelFrameDiscard p)
  case panelRxTimeout p =>
    simp only [Machine.exec, execPanelRxTimeout, State.after]
    split
    · exact (DeskStep.panelFrameEnd s p).trans .elsewhere
    · exact .refl s
  case panelPresent p => exact .panelPresent s p
  case panelAbsent p => exact .panelAbsent s p
  case panelTxEnd p =>
    simp only [Machine.exec, execPanelTxEnd, State.after]
    split
    · exact .refl s
    · exact .modifyPort s p fun x => (Port.startTransmission_settled { x with tx := none }).settings
  case riserTxEnd x =>
    simp only [Machine.exec, execRiserTxEnd, State.after]
    split
    · exact line x ((first x).trans (.endTransmission ..))
    · exact first x
  case stationReply x a b c d => exact .takeStationCommand s (.stationReply x a b c d)
  case stationLift x a => exact .takeStationCommand s (.stationLift x a)
  case stationHangup x a => exact .takeStationCommand s (.stationHangup x a)
  case stationDoor x a => exact .takeStationCommand s (.stationDoor x a)
  case stationPrivacyOn x a => exact .takeStationCommand s (.stationPrivacyOn x a)
  case stationPrivacyOff x a => exact .takeStationCommand s (.stationPrivacyOff x a)
  case unknownStationFrame x a k => exact .takeStationCommand s (.unknownStationFrame x a k)
  case riserBadFrame x => exact .takeStationCommand s (.riserBadFrame x)
  case riserRxTimeout x =>
    simp only [Machine.exec, execRiserRxTimeout, State.after]
    split
    · exact ((first x).trans elsewhere).trans (.badStationFrame ..)
    · exact first x
  case replyTimeout x t => exact .replyTimeout s x t
  case idleTimeout x =>
    simp only [Machine.exec, execIdleTimeout, State.after]
    split
    · exact line x ((first x).trans .elsewhere)
    · exact first x
  case wakeTimeout x =>
    simp only [Machine.exec, execWakeTimeout, State.after]
    split
    · exact line x ((first x).trans .elsewhere)
    · exact first x
  case surveyStep x =>
    simp only [Machine.exec, execSurveyStep, State.after]
    split
    · exact line x (((first x).trans elsewhere).trans (.surveyPoll ..))
    · exact first x
  case lineFault x c =>
    simp only [Machine.exec, execLineFault, State.after]
    exact ((first x).trans (.lineSense ..)).trans (.settled (settle_settled _))
  case lineRestored x =>
    simp only [Machine.exec, execLineRestored, State.after]
    exact ((first x).trans (.lineSense ..)).trans (.settled (settle_settled _))
  case lineConditionChange x c =>
    simp only [Machine.exec, execLineConditionChange, State.after]
    exact ((first x).trans (.lineSense ..)).trans (.settled (settle_settled _))
  case overrun x => exact first x
  case pathWaitExpiry r =>
    simp only [Machine.exec, execPathWaitExpiry, State.after]
    exact .onExpiry s r .pathWait fun t c =>
      (CallMoves.one (.queuesLeft t r)).trans (endCall_moves ..)
  case ringExpiry r =>
    simp only [Machine.exec, execRingExpiry, State.after]
    refine .onExpiry s r .ring fun t c => ?_
    split
    · exact divert_moves ..
    · exact endCall_moves ..
  case deskRingExpiry r =>
    simp only [Machine.exec, execDeskRingExpiry, State.after]
    exact .onExpiry s r .deskRing fun t c => endCall_moves ..
  case talkExpiry r =>
    simp only [Machine.exec, execTalkExpiry, State.after]
    exact .onExpiry s r .talk fun t c => endCall_moves ..
  case releaseTimerExpiry p =>
    simp only [Machine.exec, execReleaseTimerExpiry, State.after]
    split
    · exact ((elsewhere (t := State.setLock _ p _)).emitted _).trans (.settled (settleLinks_settled _))
    · exact .refl s
  case resetPinRelease =>
    exact (elsewhere (t := { s with resetHeld := false })).trans (.settled (settleHost_settled _))
  case syncByteReceived b =>
    simp only [Machine.exec, execSyncByteReceived, State.after]
    split
    · split
      · exact .refl s
      · exact .hostBytes ..
    · exact .foldl (panelByte _) ..
    · exact .foldl (riserByte _) ..

end DeskStep

/-- Settles O12: every command is made of changes across which the law holds on. -/
theorem everyStepKeepsDeskQueueLaw : Obligations.EveryStepKeepsDeskQueueLaw := by
  intro s t law e
  have ran : ∀ (c : Instr) (u : State), u.DeskQueueLaw → exec c u = .next t → t.DeskQueueLaw :=
    fun c u h e => by
      have kept := (DeskStep.exec c u).kept h
      rwa [e] at kept
  have waiting : ∀ rest : List Instr, DeskStep s { s with pending := rest } := fun _ => .elsewhere
  have later : DeskStep s { s with clock := s.clock + Config.idleStepMs } := .elsewhere
  unfold Machine.step at e
  split at e
  · next c rest _ => exact ran c _ ((waiting rest).kept law) e
  · split at e
    · next c _ => exact ran c s law e
    · rw [← Host.Outcome.next.inj e]
      exact (later.trans (.settled (settle_settled _))).kept law

end Sys2Proof.Machine
end

