-- ==== Sys2Proof/Proofs/DeskAnswers.lean ====
section
/-!
SUPPORT. ANSWER from a desk set: the conversation it makes, and the frames that make none (O41).
-/

namespace Sys2Proof.Machine

/-- Looking at the panel and host lines touches ports, host link and notices alone. -/
theorem settleLinks_same (s : State) : s.settleLinks = { s with
    ports := s.settleLinks.ports, hlp := s.settleLinks.hlp, ntu := s.settleLinks.ntu } := by
  have moved := (settleHost_moved s.settlePanels).same
  have ports : s.settleLinks.ports = s.settlePanels.ports := by rw [State.settleLinks, moved]
  rw [ports]
  exact moved

theorem Port.Shows.place {d : Display} {p : Port} (h : p.Shows d) : (Port.place d p).Shows d := by
  unfold Port.place
  split
  · exact h
  · exact ⟨rfl, .inl rfl⟩

theorem Port.Shows.display {s : State} {q : PortIx} {d : Display} (h : (s.port q).Shows d)
    (p : PortIx) : ((s.display p d).port q).Shows d := by
  rw [State.port_display]
  split
  · next e => subst e; exact h.place
  · exact h

theorem display_shows {s : State} {p : PortIx} {d : Display} (h : (s.port p).function ≠ .off) :
    ((s.display p d).port p).Shows d := by
  rw [State.port_display, if_pos rfl]
  exact Port.place_shows h

theorem Port.Rings.display {s : State} {q : PortIx} {l : RingLevel} (h : (s.port q).Rings l)
    (p : PortIx) (d : Display) : ((s.display p d).port q).Rings l := by
  rw [State.port_display]
  split
  · next e => subst e; exact h.place d
  · exact h

/-- R141: the record of a call in conversation at a desk. -/
def Call.inTalk (c : Call) (now talk : Nat) : Call :=
  { c with state := .connected, timer := some { kind := .talk, expiry := now + talk * 1000 } }

/-- R141: the answer up to the displays: the ring stops, the record is written and the join made. -/
def State.deskJoined (s : State) (p : PortIx) (r : Ref) (c : Call) : State :=
  ((s.ring p .off).setCall r (c.inTalk s.clock s.ccu.times.talk)).makeJoin
    { call := r, origin := c.origin, other := .desk p }

theorem deskAnswer_eq (s : State) (p : PortIx) (r : Ref) (c : Call) : s.deskAnswer p r c =
    (((s.deskJoined p r c).display c.origin .speak).display p .speak).emit
      (.callAnswered r none (some p)) := rfl

/-- R63, R141: what the answer does to the calls, the paths and the ports. -/
theorem deskAnswer_connects {s : State} {p : PortIx} {r : Ref} {c : Call}
    (function : (s.port p).function = .concierge) (present : (s.port p).present = true)
    (live : s.call? r = some c) :
    let t := s.deskAnswer p r c
    t = { s with ccu := t.ccu, ports := t.ports, ntu := t.ntu
                 psw := { s.psw with joins := s.psw.joins ++
                            [{ call := r, origin := c.origin, other := .desk p }] } } ∧
      t.call? r = some (c.inTalk s.clock s.ccu.times.talk) ∧
      (∀ i, i ≠ r.slot → t.slot i = s.slot i) ∧ t.ccu.times = s.ccu.times ∧
      t.ccu.intercept = s.ccu.intercept ∧ (t.port p).Rings .off ∧ (t.port p).Shows .speak ∧
      ((s.port c.origin).function ≠ .off → (t.port c.origin).Shows .speak) ∧
      t.ntu = (s.emit (.callAnswered r none (some p))).ntu := by
  intro t
  have kept := (deskAnswer_moves s p r c).kept
  have ccu : t.ccu = (s.setCall r (c.inTalk s.clock s.ccu.times.talk)).ccu := by
    show State.ccu (State.deskAnswer ..) = _
    rw [deskAnswer_eq, State.emit_ccu]
    rfl
  have rings : ((s.deskJoined p r c).port p).Rings .off := by
    show (((s.ring p .off).port p)).Rings .off
    rw [State.port_ring, if_pos rfl]
    exact Port.placeRing_rings function present
  have settings : ∀ q, (s.port q).SameSettings ((s.deskJoined p r c).port q) := fun q =>
    (CallMove.ring s p .off).ports q
  refine ⟨?_, (State.call?_congr ccu r).trans (setCall_live live _),
    fun i ne => (State.slot_congr ccu i).trans (setCall_other _ ne), kept.times, kept.intercept,
    ((rings.display ..).display ..).emit _, (display_shows ?_).emit _,
    fun on => ((display_shows ?_).display p).emit _, ?_⟩
  · refine (emit_same _ _).trans ?_
    rw [show t.ccu = (((s.deskJoined p r c).display c.origin .speak).display p .speak).ccu from
      State.emit_ccu ..]
    rfl
  · show (((s.deskJoined p r c).display c.origin .speak).port p).function ≠ .off
    rw [State.port_display]
    split
    · next e => subst e; rw [Port.place_function, (settings _).1, function]; decide
    · rw [(settings _).1, function]; decide
  · show ((s.deskJoined p r c).port c.origin).function ≠ .off
    rw [(settings _).1]
    exact on
  · exact emit_ntu_congr (s := s)
      (t := ((s.deskJoined p r c).display c.origin .speak).display p .speak) rfl _

/-- An ANSWER that a CONCIERGE port takes. -/
theorem exec_deskAnswer {s : State} {p : PortIx} (present : (s.port p).present = true)
    (function : (s.port p).function = .concierge) :
    exec (.deskAnswer p) s = .next (State.settleLinks (match (s.panelFrameEnd p).callAt p with
      | some (.desk, r, c) =>
        if c.leg = .concierge ∧ c.state = .ringing then (s.panelFrameEnd p).deskAnswer p r c
        else s.panelFrameEnd p
      | _ => (s.panelFrameEnd p).display p .notAvailable)) :=
  congrArg Host.Outcome.next (onPanelFrame_taken present function _ _)

/-- Settles O41: the answer, the frames that are ignored or turned away, and the discarded ones. -/
theorem deskAnswerConnectsCall : Obligations.DeskAnswerConnectsCall := by
  refine ⟨fun p r c s present function held live leg rings => ?_, fun p s present function => ?_,
    fun p s h => ?_⟩
  · have run := exec_deskAnswer present function
    rw [panelFrameEnd_callAt, callAt_eq_some.2 ⟨held, live⟩] at run
    dsimp only at run
    rw [if_pos ⟨leg, rings⟩] at run
    obtain ⟨concierge, -, here, -⟩ := panelFrameEnd_settings s p p
    obtain ⟨same, record, others, times, intercept, off, shows, origin, ntu⟩ :=
      deskAnswer_connects (s := s.panelFrameEnd p) (p := p) (r := r) (c := c)
        (concierge.trans function) (here.trans present) live
    have settings : ∀ q, (s.port q).SameSettings (((s.panelFrameEnd p).deskAnswer p r c).port q) :=
      fun q => (panelFrameEnd_settings s p q).trans
        ((deskAnswer_moves (s.panelFrameEnd p) p r c).callEventKept.ports q)
    have links := settleLinks_same ((s.panelFrameEnd p).deskAnswer p r c)
    have k := settleLinks_settled ((s.panelFrameEnd p).deskAnswer p r c)
    have moved := settleHost_moved ((s.panelFrameEnd p).deskAnswer p r c).settlePanels
    refine ⟨_, run, ?_⟩
    generalize (s.panelFrameEnd p).deskAnswer p r c = u at *
    have ccu : u.settleLinks.ccu = u.ccu := by rw [links]
    have hlp : u.hlp = s.hlp := by rw [same]; rfl
    refine ⟨?_, (State.call?_congr ccu r).trans record,
      fun i ne => (State.slot_congr ccu i).trans (others i ne), k.times.trans times,
      k.intercept.trans intercept, (k.ports p).rings _ off, (k.ports p).shows _ shows,
      fun on => (k.ports _).shows _ (origin ?_), fun q => (settings q).trans (k.ports q).settings,
      moved.replies.trans (congrArg Hlp.replyLine hlp), .of_settled (by rw [hlp]) ?_ k⟩
    · refine links.trans ?_
      rw [ccu, same]
      rfl
    · rw [(panelFrameEnd_settings s p c.origin).1]
      exact on
    · exact ntu.trans (emit_ntu_congr (s := s) (t := s.panelFrameEnd p) rfl _)
  · intro clear
    refine ⟨fun r c held live silent => ?_, fun free => ?_⟩
    · refine ⟨_, exec_deskAnswer present function, ?_⟩
      rw [panelFrameEnd_callAt, callAt_eq_some.2 ⟨held, live⟩]
      dsimp only
      rw [if_neg silent]
      exact settleLinks_settled clear
    · refine ⟨_, exec_deskAnswer present function, ?_⟩
      split
      · next r c at? =>
        rw [panelFrameEnd_callAt] at at?
        obtain ⟨held, live⟩ := callAt_eq_some.1 at?
        rw [free r held] at live
        cases live
      · exact settleLinks_settled (clear.display p .notAvailable)
  · exact congrArg Host.Outcome.next (onPanelFrame_discarded h _ _)

end Sys2Proof.Machine
end

