-- ==== Sys2Proof/Proofs/DeskGrants.lean ====
section
/-!
SUPPORT. Requests whose act moves panel ports, and desks served one after the other: each new eligible desk
goes to the call at the head of the desk wait queue (R62).
-/

namespace Sys2Proof.Machine

/-! ## A request whose act moves panel ports -/

/-- R169 to R173: what is left of the state when such an act raises no event and leaves the host link. -/
theorem answer_settleLinks {s a : State} (h : s.Takes) {kind num : Nat} {st : Status} {b : ReplyBody}
    {act : State → State × Status × ReplyBody} (e : act s = (a, st, b)) (hb : replyBody st b = b)
    (hlp : a.hlp = s.hlp) (ntu : a.ntu = s.ntu) :
    let t := s.answer kind num State.settleLinks act
    t = { a with ports := t.ports, hlp := t.hlp, ntu := t.ntu } ∧
      (∀ q, t.port q = (a.port q).startTransmission) ∧ Raises s t [] ∧
      Answers s t ⟨kind, num, st, b⟩ := by
  have eq : s.answer kind num State.settleLinks act = (a.reply kind num st b).settleLinks := by
    simp only [State.answer, e]
  have ans := answers_settleLinks (k := kind) (n := num) (st := st) (b := b) h hlp
  rw [hb] at ans
  rw [eq]
  refine ⟨settleLinks_same _, settleLinks_port _, ?_, ans⟩
  refine .of_settled (u := a.reply kind num st b) ?_ ntu (settleLinks_settled _)
  show a.hlp.tx = s.hlp.tx
  rw [hlp]

/-! ## One desk, then the next -/

/-- R62: what the grant of these desks to these calls leaves, each desk to its call. -/
structure DeskGrants (s t : State) (grants : List (PortIx × Ref)) : Prop where
  same      : t = { s with ccu := t.ccu, psw := t.psw, ports := t.ports }
  times     : t.ccu.times = s.ccu.times
  intercept : t.ccu.intercept = s.ccu.intercept
  settings  : ∀ q, (s.port q).SameSettings (t.port q)
  ports     : ∀ q, (∀ g ∈ grants, g.1 ≠ q ∧ ∀ c, s.call? g.2 = some c → c.origin ≠ q) →
    t.port q = s.port q
  shows     : ∀ q, (s.port q).Shows .ringing → (t.port q).Shows .ringing
  rings     : ∀ q, (∀ g ∈ grants, g.1 ≠ q) → ∀ l, (s.port q).Rings l → (t.port q).Rings l
  granted   : ∀ g ∈ grants, ∀ c, s.call? g.2 = some c → DeskGranted s t g.1 g.2 c
  joins     : t.psw.joins = s.psw.joins
  paths     : ∀ x, t.paths x = s.paths x
  hold      : ∀ q, (∀ g ∈ grants, g.1 ≠ q) → t.hold q = s.hold q
  slots     : ∀ j, (∀ g ∈ grants, g.2.slot ≠ j) → t.slot j = s.slot j

theorem DeskGrants.nil (s : State) : DeskGrants s s [] where
  same := rfl
  times := rfl
  intercept := rfl
  settings _ := .refl _
  ports _ _ := rfl
  shows _ h := h
  rings _ _ _ h := h
  granted _ h := absurd h List.not_mem_nil
  joins := rfl
  paths _ := rfl
  hold _ _ := rfl
  slots _ _ := rfl

/-- R62, R140: one desk that is served. -/
theorem serveDesk_grant {p : PortIx} {r : Ref} {rest : List Ref} {c : Call} {s : State}
    (h : s.eligible p = true) (queue : s.psw.deskQueue = r :: rest) (live : s.call? r = some c) :
    DeskGrants s (s.serveDesk p) [(p, r)] ∧ (s.serveDesk p).psw.deskQueue = rest := by
  obtain ⟨held, holds, left, joins, paths, record, slots, ring, slot, last, origin, ports, same, times,
    intercept⟩ := serveDesk_granted h queue live
  have port : ∀ q, (s.serveDesk p).port q = _ := fun q => by
    rw [serveDesk_grants h queue live, grantDesk_port]
  refine ⟨{ same, times, intercept, joins, paths, settings := ?_, ports := ?_, shows := ?_,
            rings := ?_, granted := ?_, hold := ?_, slots := ?_ }, left⟩
  · exact fun q => (serveDesk_moves s p).callEventKept.ports q
  · intro q out
    obtain ⟨np, no⟩ := out _ (List.mem_singleton_self _)
    exact ports q np.symm (no c live).symm
  · intro q shown
    rw [port]
    split <;> split
    · exact (shown.placeRing _).place.place
    · exact shown.place
    · exact (shown.placeRing _).place
    · exact shown
  · intro q out l rung
    rw [port, if_neg (out _ (List.mem_singleton_self _))]
    split
    · exact rung.place _
    · exact rung
  · intro g hg d hd
    obtain rfl := List.mem_singleton.1 hg
    obtain rfl : c = d := Option.some.inj (live.symm.trans hd)
    exact ⟨held, record, .inl ring, ⟨last, .inl slot⟩, fun on =>
      ⟨(origin on).2, .inl (origin on).1⟩⟩
  · exact fun q out => holds q (out _ (List.mem_singleton_self _)).symm
  · exact fun j out => slots j (out _ (List.mem_singleton_self _)).symm

/-- R62: a desk granted before the free lines are looked at, and in a state with the same clock, times and
functions of ports. -/
theorem DeskGranted.settled {s u w t : State} {p : PortIx} {r : Ref} {c : Call}
    (h : DeskGranted u w p r c) (clock : u.clock = s.clock) (times : u.ccu.times = s.ccu.times)
    (on : (s.port c.origin).function ≠ .off → (u.port c.origin).function ≠ .off)
    (ccu : t.ccu = w.ccu) (psw : t.psw = w.psw) (ports : ∀ q, PortSettled (w.port q) (t.port q)) :
    DeskGranted s t p r c where
  hold := (State.hold_congr psw _).trans h.hold
  record := by rw [State.call?_congr ccu, h.record, clock, times]
  rings := (ports _).rings _ h.rings
  shows := (ports _).shows _ h.shows
  origin panel := (ports _).shows _ (h.origin (on panel))

/-- A call that waits behind the one that is granted stands as it did. -/
theorem DeskGrants.call {s t : State} {grants : List (PortIx × Ref)} (h : DeskGrants s t grants)
    {w : Ref} (out : ∀ g ∈ grants, g.2.slot ≠ w.slot) : t.call? w = s.call? w := by
  unfold State.call?
  rw [h.slots _ out]

/-- R3: two live references of one slot are the same. -/
theorem Ref.eq_of_live {s : State} {r w : Ref} (hr : s.call? r ≠ none) (hw : s.call? w ≠ none)
    (slot : r.slot = w.slot) : r = w := by
  obtain ⟨c, hc⟩ := Option.ne_none_iff_exists'.1 hr
  obtain ⟨d, hd⟩ := Option.ne_none_iff_exists'.1 hw
  have gen := ((State.call?_eq_some ..).1 hc).1
  rw [slot, ((State.call?_eq_some ..).1 hd).1] at gen
  cases r
  cases w
  exact congr (congrArg Ref.mk slot) gen.symm

/-- R62: with no call waiting for a desk nothing is granted. -/
theorem serveDesk_unwanted {s : State} (p : PortIx) (h : s.psw.deskQueue = []) : s.serveDesk p = s := by
  rcases serveDesk_dead (s := s) p (by simp [h]) with e | e
  · exact e
  · rw [e, State.setDeskQueue, ← h]

/-- One desk granted, then the others. -/
theorem DeskGrants.cons {s u t : State} {p : PortIx} {r : Ref} {grants : List (PortIx × Ref)}
    (one : DeskGrants s u [(p, r)]) (more : DeskGrants u t grants)
    (desk : ∀ g ∈ grants, g.1 ≠ p) (slot : ∀ g ∈ grants, g.2.slot ≠ r.slot) :
    DeskGrants s t ((p, r) :: grants) where
  same := by
    have k := more.same
    rw [one.same] at k
    exact k
  times := more.times.trans one.times
  intercept := more.intercept.trans one.intercept
  settings q := (one.settings q).trans (more.settings q)
  ports q out := by
    rw [List.forall_mem_cons] at out
    refine (more.ports q fun g hg => ⟨(out.2 g hg).1, fun c hc => (out.2 g hg).2 c ?_⟩).trans
      (one.ports q (by simpa using out.1))
    rw [← hc, one.call (by simpa using (slot g hg).symm)]
  shows q h := more.shows q (one.shows q h)
  rings q out l h := by
    rw [List.forall_mem_cons] at out
    exact more.rings q out.2 l (one.rings q (by simpa using out.1) l h)
  granted := by
    have clock : u.clock = s.clock := by rw [one.same]
    refine List.forall_mem_cons.2 ⟨fun c hc => ?_, fun g hg c hc => ?_⟩
    · obtain ⟨hold, record, rings, shows, origin⟩ := one.granted _ (List.mem_singleton_self _) c hc
      exact ⟨(more.hold p desk).trans hold, (more.call slot).trans record, more.rings p desk _ rings,
        more.shows p shows, fun on => more.shows _ (origin on)⟩
    · obtain ⟨hold, record, rings, shows, origin⟩ := more.granted g hg c
        ((one.call (by simpa using (slot g hg).symm)).trans hc)
      refine ⟨hold, ?_, rings, shows, fun on => origin ?_⟩
      · rw [record, clock, one.times]
      · rw [(one.settings _).1]
        exact on
  joins := more.joins.trans one.joins
  paths x := (more.paths x).trans (one.paths x)
  hold q out := by
    rw [List.forall_mem_cons] at out
    exact (more.hold q out.2).trans (one.hold q (by simpa using out.1))
  slots j out := by
    rw [List.forall_mem_cons] at out
    exact (more.slots j out.2).trans (one.slots j (by simpa using out.1))

/-- R62: the desks of a list that are eligible are granted, in its order, to the calls at the head of the
desk wait queue. -/
theorem foldl_serveDesk_grants (l : List PortIx) (nodup : l.Nodup) (s : State)
    (queue : s.psw.deskQueue.Nodup) (live : ∀ w ∈ s.psw.deskQueue, s.call? w ≠ none) :
    DeskGrants s (l.foldl State.serveDesk s) ((l.filter s.eligible).zip s.psw.deskQueue) ∧
      (l.foldl State.serveDesk s).psw.deskQueue =
        s.psw.deskQueue.drop (l.filter s.eligible).length := by
  induction l generalizing s with
  | nil => exact ⟨.nil s, rfl⟩
  | cons p l ih =>
    rw [List.nodup_cons] at nodup
    by_cases free : s.eligible p = true
    · cases waiting : s.psw.deskQueue with
      | nil =>
        have idle : (p :: l).foldl State.serveDesk s = s :=
          List.foldl_fixed' (fun q => serveDesk_unwanted q waiting) _
        rw [idle, List.zip_nil_right, waiting, List.drop_nil]
        exact ⟨.nil s, rfl⟩
      | cons r rest =>
        rw [waiting, List.nodup_cons] at queue
        rw [waiting, List.forall_mem_cons] at live
        obtain ⟨c, hc⟩ := Option.ne_none_iff_exists'.1 live.1
        obtain ⟨one, left⟩ := serveDesk_grant free waiting hc
        have apart : ∀ w ∈ rest, w.slot ≠ r.slot := fun w hw e =>
          queue.1 (Ref.eq_of_live live.1 (live.2 w hw) e.symm ▸ hw)
        have still : l.filter (s.serveDesk p).eligible = l.filter s.eligible :=
          List.filter_congr fun q hq => State.eligible_congr (one.settings q) (one.hold q (by
            simpa using fun e : p = q => nodup.1 (e ▸ hq)))
        obtain ⟨more, behind⟩ := ih nodup.2 (s.serveDesk p) (by rw [left]; exact queue.2) (by
          rw [left]
          intro w hw
          rw [one.call (by simpa using (apart w hw).symm)]
          exact live.2 w hw)
        rw [left, still] at more behind
        rw [List.filter_cons_of_pos free, List.zip_cons_cons]
        refine ⟨one.cons more (fun g hg e => ?_) (fun g hg => apart _ (List.of_mem_zip hg).2), behind⟩
        exact nodup.1 (e ▸ (List.mem_filter.1 (List.of_mem_zip hg).1).1)
    · rw [List.filter_cons_of_neg free]
      have idle : s.serveDesk p = s := if_neg free
      rw [List.foldl_cons, idle]
      exact ih nodup.2 s queue live

end Sys2Proof.Machine
end

