-- ==== Sys2Proof/Proofs/FlagsCleared.lean ====
section
/-!
SUPPORT. CLEAR CHECK: the flags of the named ports, and the desks granted with them (R125, O30).
-/

namespace Sys2Proof.Machine

theorem inPortSet_byteOf (n : Nat) (p : PortIx) : inPortSet (byteOf n) p = Nat.testBit n p.val := by
  rw [inPortSet, byteOf, BitVec.getLsbD_ofNat, decide_eq_true p.isLt, Bool.true_and]

/-- R125, steps 1 and 2: the flags of the set cleared, before a desk is granted. -/
def State.flagsCleared (s : State) (set : BitVec 8) : State :=
  (s.flaggedIn set).foldl (fun t p => t.modifyPort p Port.clearCheck) s

theorem clearChecks_eq (s : State) (set : BitVec 8) : s.clearChecks set =
    (s.flaggedIn set).foldl State.serveDesk (s.flagsCleared set) := rfl

theorem mem_flaggedIn {s : State} {set : BitVec 8} {p : PortIx} : p ∈ s.flaggedIn set ↔
    inPortSet set p = true ∧ (s.port p).check = true := by
  simp [State.flaggedIn]

theorem flaggedIn_nodup (s : State) (set : BitVec 8) : (s.flaggedIn set).Nodup :=
  (List.nodup_finRange 8).filter _

theorem foldl_modifyPort_same (l : List PortIx) (f : Port → Port) (s : State) :
    l.foldl (fun t q => t.modifyPort q f) s =
      { s with ports := (l.foldl (fun t q => t.modifyPort q f) s).ports } := by
  induction l generalizing s with
  | nil => rfl
  | cons q l ih => exact (ih _).trans rfl

theorem port_foldl_modifyPort_mem {l : List PortIx} (nodup : l.Nodup) (f : Port → Port) (s : State)
    {p : PortIx} (mem : p ∈ l) :
    (l.foldl (fun t q => t.modifyPort q f) s).port p = f (s.port p) := by
  induction l generalizing s with
  | nil => exact absurd mem List.not_mem_nil
  | cons q l ih =>
    rw [List.nodup_cons] at nodup
    rw [List.foldl_cons]
    by_cases e : q = p
    · subst e
      rw [port_foldl_modifyPort l f _ nodup.1, State.port_modifyPort, if_pos rfl]
    · rw [ih nodup.2 _ ((List.mem_cons.1 mem).resolve_left (Ne.symm e)), State.port_modifyPort, if_neg e]

theorem flagsCleared_same (s : State) (set : BitVec 8) :
    s.flagsCleared set = { s with ports := (s.flagsCleared set).ports } :=
  foldl_modifyPort_same ..

theorem flagsCleared_named {s : State} {set : BitVec 8} {p : PortIx} (h : p ∈ s.flaggedIn set) :
    (s.flagsCleared set).port p = (s.port p).clearCheck :=
  port_foldl_modifyPort_mem (flaggedIn_nodup s set) _ _ h

theorem flagsCleared_other {s : State} {set : BitVec 8} {p : PortIx} (h : p ∉ s.flaggedIn set) :
    (s.flagsCleared set).port p = s.port p :=
  port_foldl_modifyPort _ _ _ h

theorem Port.clearCheck_settings (p : Port) : p.clearCheck.function = p.function ∧
    p.clearCheck.intercept = p.intercept ∧ p.clearCheck.present = p.present ∧
    p.clearCheck.check = false := by
  unfold Port.clearCheck
  split
  · dsimp only
    split
    · exact Port.place_settings ..
    · exact ⟨rfl, rfl, rfl, rfl⟩
  · next h => exact ⟨rfl, rfl, rfl, by simpa using h⟩

/-- R125: a PRESENT panel whose flag is cleared shows READY. -/
theorem Port.clearCheck_shows {p : Port} (check : p.check = true) (present : p.present = true)
    (on : p.function ≠ .off) : p.clearCheck.Shows .ready := by
  unfold Port.clearCheck
  rw [if_pos check]
  exact (congrArg (Port.Shows · .ready) (if_pos present)).mpr (Port.place_shows on)

theorem flagsCleared_settings (s : State) (set : BitVec 8) (p : PortIx) :
    ((s.flagsCleared set).port p).function = (s.port p).function ∧
      ((s.flagsCleared set).port p).intercept = (s.port p).intercept ∧
      ((s.flagsCleared set).port p).present = (s.port p).present ∧
      (((s.flagsCleared set).port p).check = true ↔
        (s.port p).check = true ∧ inPortSet set p = false) := by
  by_cases h : p ∈ s.flaggedIn set
  · obtain ⟨function, intercept, present, check⟩ := (s.port p).clearCheck_settings
    rw [flagsCleared_named h]
    refine ⟨function, intercept, present, ?_⟩
    rw [check, (mem_flaggedIn.1 h).1]
    simp
  · rw [flagsCleared_other h]
    refine ⟨rfl, rfl, rfl, fun set => ⟨set, ?_⟩, And.left⟩
    rw [mem_flaggedIn, and_comm, not_and] at h
    simpa using h set

/-- R59, R125: the named ports that are eligible desks with their flags cleared. -/
theorem flaggedIn_filter_eligible (s : State) (ports : Nat) :
    (s.flaggedIn (byteOf ports)).filter (s.flagsCleared (byteOf ports)).eligible =
      (List.finRange 8).filter fun p =>
        Nat.testBit ports p.val && (s.port p).check && decide ((s.port p).function = .concierge) &&
          (s.port p).present && (s.hold p).isNone := by
  unfold State.flaggedIn
  rw [List.filter_filter]
  refine List.filter_congr fun p _ => ?_
  rw [inPortSet_byteOf, Bool.and_comm]
  cases named : Nat.testBit ports p.val && (s.port p).check with
  | false => simp
  | true =>
    obtain ⟨bit, check⟩ := Bool.and_eq_true_iff.1 named
    rw [← inPortSet_byteOf] at bit
    have cleared := flagsCleared_named (mem_flaggedIn.2 ⟨bit, check⟩)
    obtain ⟨function, -, present, clear⟩ := (s.port p).clearCheck_settings
    have hold : (s.flagsCleared (byteOf ports)).hold p = s.hold p := by rw [flagsCleared_same]; rfl
    rw [State.eligible, cleared, function, present, clear, hold]
    simp [Bool.and_assoc]

/-- Settles O30: the flags are cleared port by port, then the named ports are served in order. -/
theorem clearCheckClearsNamedFlags : Obligations.ClearCheckClearsNamedFlags := by
  intro num ports s takes nodup live named desks grants untouched
  have cleared := flagsCleared_same s (byteOf ports)
  have settings := flagsCleared_settings s (byteOf ports)
  have before : ∀ w, (s.flagsCleared (byteOf ports)).call? w = s.call? w := fun w => by
    rw [cleared]; rfl
  have queue : (s.flagsCleared (byteOf ports)).psw.deskQueue = s.psw.deskQueue := by rw [cleared]
  obtain ⟨grant, left⟩ := foldl_serveDesk_grants (s.flaggedIn (byteOf ports)) (flaggedIn_nodup ..)
    (s.flagsCleared (byteOf ports)) (by rwa [queue]) (by simpa only [queue, before] using live)
  rw [flaggedIn_filter_eligible, queue] at grant left
  rw [← clearChecks_eq] at grant left
  have named_iff : ∀ p, named p ↔ p ∈ s.flaggedIn (byteOf ports) := fun p => by
    rw [mem_flaggedIn, inPortSet_byteOf]
  have all := grant.same
  rw [cleared] at all
  obtain ⟨same, port, raises, answers⟩ := answer_settleLinks (a := s.clearChecks (byteOf ports))
    takes (kind := 0x08) (num := num) (act := fun t => t.clearCheckAct ports) rfl rfl
    (by rw [all]) (by rw [all])
  have kept : ∀ p, PortSettled _ _ := fun p =>
    (port p).symm ▸ ((s.clearChecks (byteOf ports)).port p).startTransmission_settled
  have checks : Table.mapEach (fun p => p.check) (s.clearChecks (byteOf ports)).ports =
      Table.mapEach (fun p => p.check) (s.answer 0x08 num State.settleLinks
        fun t => t.clearCheckAct ports).ports := Table.ext_read fun p => by
    rw [Table.read_mapEach, Table.read_mapEach]
    exact ((kept p).settings.2.2.2).symm
  refine ⟨_, exec_taken takes rfl, ?_⟩
  rw [State.takeClearCheck]
  generalize s.answer 0x08 num State.settleLinks (fun t => t.clearCheckAct ports) = t at *
  generalize s.clearChecks (byteOf ports) = u at *
  have ccu : t.ccu = u.ccu := by rw [same]
  have psw : t.psw = u.psw := by rw [same]
  have untouched' : ∀ p, untouched p → u.port p = (s.flagsCleared (byteOf ports)).port p :=
    fun p out => grant.ports p (by simpa only [before] using out)
  refine ⟨?_, raises, ?_, ?_, fun p => ?_, fun p out name present on => ?_, fun p out other => ?_,
    fun g hg c hc => ?_, ?_, ?_, fun x => ?_, fun p out => ?_, fun j out => ?_, checks ▸ answers⟩
  · refine same.trans ?_
    rw [ccu, psw, all]
  · rw [ccu, grant.times, cleared]
  · rw [ccu, grant.intercept, cleared]
  · obtain ⟨function, intercept, present, check⟩ := (grant.settings p).trans (kept p).settings
    obtain ⟨function', intercept', present', check'⟩ := settings p
    rw [inPortSet_byteOf] at check'
    exact ⟨function.trans function', intercept.trans intercept', present.trans present', check ▸ check'⟩
  · refine (kept p).shows _ ?_
    rw [untouched' p out, flagsCleared_named ((named_iff p).1 name)]
    exact Port.clearCheck_shows name.2 present on
  · rw [port, untouched' p out, flagsCleared_other fun h => other ((named_iff p).2 h)]
  · refine (grant.granted g hg c ((before _).trans hc)).settled (by rw [cleared]) (by rw [cleared])
      (fun on => ?_) ccu psw kept
    rw [(settings _).1]
    exact on
  · rw [psw, left]
  · rw [psw, grant.joins, cleared]
  · rw [State.paths_congr psw, grant.paths, cleared]
    rfl
  · rw [State.hold_congr psw, grant.hold p out, cleared]
    rfl
  · rw [State.slot_congr ccu, grant.slots j out, cleared]
    rfl

end Sys2Proof.Machine
end

