-- ==== Sys2Proof/Proofs/PortSettings.lean ====
section
/-!
SUPPORT. SET PORT: what it stores, what it refuses, and the desk it grants (R133 to R135, O24).
-/

namespace Sys2Proof.Machine

/-! ## One port record -/

theorem Port.changeFunction_settings (f : PortFunction) (p : Port) :
    ({ p with function := f } : Port).SameSettings (p.changeFunction f) := by
  cases f with
  | off => exact ⟨rfl, rfl, rfl, rfl⟩
  | entrance =>
    unfold Port.changeFunction
    dsimp only
    split
    · exact Port.place_settings _ { p with function := .entrance, alertSlot := none }
    · exact ⟨rfl, rfl, rfl, rfl⟩
  | concierge =>
    unfold Port.changeFunction
    dsimp only
    split
    · exact (Port.placeRing_settings .off { p with function := .concierge }).trans (Port.place_settings ..)
    · exact ⟨rfl, rfl, rfl, rfl⟩

/-- R135: a PRESENT port whose function has changed, but not to OFF, shows SERVICE or READY. -/
theorem Port.changeFunction_shows {f : PortFunction} {p : Port} (on : f ≠ .off)
    (present : p.present = true) :
    (p.changeFunction f).Shows (if p.check then .service else .ready) := by
  cases f with
  | off => exact absurd rfl on
  | entrance =>
    unfold Port.changeFunction
    dsimp only
    rw [if_pos present]
    exact Port.place_shows (by simp)
  | concierge =>
    unfold Port.changeFunction
    dsimp only
    rw [if_pos present]
    exact Port.place_shows (by simp)

/-- R135: a PRESENT port that becomes a desk set is told to stop ringing. -/
theorem Port.changeFunction_rings {p : Port} (present : p.present = true) :
    (p.changeFunction .concierge).Rings .off := by
  unfold Port.changeFunction
  dsimp only
  rw [if_pos present]
  exact (Port.placeRing_rings (p := { p with function := .concierge }) rfl present).place _

/-- R134, R135: the record of a port with its new function and intercept flag. -/
def Port.settingsStored (p : Port) (f : PortFunction) (i : Bool) : Port :=
  if p.function ≠ f then ({ p with intercept := i } : Port).changeFunction f else { p with intercept := i }

theorem Port.settingsStored_settings (p : Port) (f : PortFunction) (i : Bool) :
    (p.settingsStored f i).function = f ∧ (p.settingsStored f i).intercept = i ∧
      (p.settingsStored f i).present = p.present ∧ (p.settingsStored f i).check = p.check := by
  unfold Port.settingsStored
  split
  · exact Port.changeFunction_settings f { p with intercept := i }
  · next same => exact ⟨not_not.1 same, rfl, rfl, rfl⟩

theorem Port.settingsStored_changed {p : Port} {f : PortFunction} (i : Bool) (h : f ≠ p.function) :
    p.settingsStored f i = ({ p with intercept := i } : Port).changeFunction f := if_pos (Ne.symm h)

theorem Port.settingsStored_same {p : Port} {f : PortFunction} (i : Bool) (h : f = p.function) :
    p.settingsStored f i = { p with intercept := i } := if_neg (not_not.2 h.symm)

/-! ## The state -/

/-- R134, R135: SET PORT stored, before the port is granted as a desk. -/
def State.portSet (s : State) (p : PortIx) (f : PortFunction) (i : Bool) (v : Nat) : State :=
  { s with locks := s.locks.write p { s.lock p with releaseTime := v }
           ports := s.ports.write p ((s.port p).settingsStored f i) }

theorem portSet_port (s : State) (p : PortIx) (f : PortFunction) (i : Bool) (v : Nat) (q : PortIx) :
    (s.portSet p f i v).port q = if p = q then (s.port p).settingsStored f i else s.port q := by
  rw [State.portSet, State.port, Table.read_write]
  rfl

/-- R62, R134: after the settings are stored a port that has just become a desk set is served. -/
theorem storePort_eq (s : State) (p : PortIx) (f : PortFunction) (i : Bool) (v : Nat) :
    s.storePort p f i v = if f ≠ (s.port p).function ∧ f = .concierge then (s.portSet p f i v).serveDesk p
      else s.portSet p f i v := by
  unfold State.storePort
  dsimp only
  by_cases changed : f = (s.port p).function
  · rw [if_neg (by simpa using changed.symm), if_neg fun h => h.1 changed]
    simp only [State.portSet, Port.settingsStored_same i changed]
    rfl
  · have stored : ((s.setLock p { s.lock p with releaseTime := v }).modifyPort p fun x =>
        { x with intercept := i }).modifyPort p (fun x => x.changeFunction f) = s.portSet p f i v := by
      simp only [State.portSet, Port.settingsStored_changed i changed, State.modifyPort,
        Table.read_write_same, Table.write_write]
      rfl
    rw [if_pos (by simpa using Ne.symm changed), stored]
    simp only [ne_eq, changed, not_false_eq_true, true_and]

section
variable {s : State} {p : PortIx} {f : PortFunction} (i : Bool) (v : Nat)

theorem portSet_here : (s.portSet p f i v).port p = (s.port p).settingsStored f i := by
  rw [portSet_port, if_pos rfl]

theorem portSet_other {q : PortIx} (ne : q ≠ p) : (s.portSet p f i v).port q = s.port q := by
  rw [portSet_port, if_neg ne.symm]

/-- R59: a free port that has been made a desk set. -/
theorem portSet_eligible (desk : f = .concierge) (hold : s.hold p = none) :
    (s.portSet p f i v).eligible p = true ↔ (s.port p).present = true ∧ (s.port p).check = false := by
  obtain ⟨function, -, present, check⟩ := (s.port p).settingsStored_settings f i
  rw [eligible_iff, portSet_here, function, present, check]
  exact ⟨fun h => ⟨h.2.1, h.2.2.1⟩, fun h => ⟨desk, h.1, h.2, hold⟩⟩

/-- R62: a port that does not become an eligible desk, or that no call waits for, is granted to none. -/
theorem storePort_grantsNone (hold : s.hold p = none)
    (h : ¬ (f ≠ (s.port p).function ∧ f = .concierge ∧ (s.port p).present = true ∧
      (s.port p).check = false) ∨ s.psw.deskQueue = []) :
    s.storePort p f i v = s.portSet p f i v := by
  rw [storePort_eq]
  split
  · next changed =>
    obtain ⟨changed, desk⟩ := changed
    rcases h with not | empty
    · exact if_neg fun free => not ⟨changed, desk, (portSet_eligible i v desk hold).1 free⟩
    · exact serveDesk_unwanted p empty
  · rfl

/-- R62: a port that becomes an eligible desk is granted to the call at the head of the queue. -/
theorem storePort_grantsHead (hold : s.hold p = none) (changed : f ≠ (s.port p).function)
    (desk : f = .concierge) (present : (s.port p).present = true) (check : (s.port p).check = false)
    {w : Ref} {rest : List Ref} {c : Call} (queue : s.psw.deskQueue = w :: rest)
    (live : s.call? w = some c) :
    DeskGrants (s.portSet p f i v) (s.storePort p f i v) [(p, w)] ∧
      (s.storePort p f i v).psw.deskQueue = rest := by
  rw [storePort_eq, if_pos ⟨changed, desk⟩]
  exact serveDesk_grant (s := s.portSet p f i v) ((portSet_eligible i v desk hold).2 ⟨present, check⟩)
    queue live

end

/-! ## The request -/

theorem port?_val (p : PortIx) : port? p.val = some p := dif_pos p.isLt

theorem function?_of_lt {n : Nat} (h : n < 3) :
    function? n = some (if n = 0 then .off else if n = 1 then .entrance else .concierge) := by
  interval_cases n <;> rfl

theorem function?_none {n : Nat} (h : 3 ≤ n) : function? n = none := by
  unfold function?
  split <;> first | rfl | omega

/-- R133: a value out of range. -/
theorem setPortAct_outOfRange (s : State) {port fn ic : Nat} (rt : Nat)
    (h : 8 ≤ port ∨ 3 ≤ fn ∨ 2 ≤ ic) : s.setPortAct port fn ic rt = (s, .badValue, .none) := by
  unfold State.setPortAct
  rcases h with h | h | h
  · rw [show port? port = none from dif_neg (Nat.not_lt.2 h)]
  · rw [function?_none h]
    cases port? port <;> rfl
  · rw [yesNo?_none h]
    cases port? port <;> cases function? fn <;> rfl

section
variable (s : State) (p : PortIx) {fn ic : Nat} (rt : Nat)

/-- R133: a held speech port and a lock with a claim. -/
theorem setPortAct_busy (hf : fn < 3) (hi : ic < 2) (h : s.hold p ≠ none ∨ (s.lock p).claim ≠ none) :
    s.setPortAct p.val fn ic rt = (s, .busy, .none) := by
  unfold State.setPortAct
  rw [port?_val, function?_of_lt hf, yesNo?_of_lt hi]
  dsimp only
  rw [← Option.isSome_iff_ne_none, ← Option.isSome_iff_ne_none] at h
  split
  · rfl
  · next free => rw [if_pos (h.resolve_left free)]

/-- R134. -/
theorem setPortAct_stores (hf : fn < 3) (hi : ic < 2) (hold : s.hold p = none)
    (claim : (s.lock p).claim = none) :
    let f : PortFunction := if fn = 0 then .off else if fn = 1 then .entrance else .concierge
    let v := max 1 (min rt 30)
    s.setPortAct p.val fn ic rt = (s.storePort p f (decide (ic = 1)) v,
      if v = rt then .ok else .adjusted, .port f (decide (ic = 1)) v) := by
  intro f v
  unfold State.setPortAct
  rw [port?_val, function?_of_lt hf, yesNo?_of_lt hi]
  dsimp only
  rw [hold, claim, clamp_eq (by decide)]
  rfl

end

/-- R133, R172: a SET PORT that is refused changes nothing; the panel lines are looked at. -/
theorem setPort_refused {s : State} (h : s.Takes) (num : Nat) {port fn ic rt : Nat} {st : Status}
    (e : s.setPortAct port fn ic rt = (s, st, .none)) :
    ∃ t, exec (.setPort num port fn ic rt) s = .next t ∧
      t = { s with ports := Table.mapEach Port.startTransmission s.ports
                   hlp := t.hlp, ntu := t.ntu } ∧ Raises s t [] ∧
      Answers s t ⟨0x01, num, st, .none⟩ := by
  obtain ⟨same, port, raises, answers⟩ := answer_settleLinks h (kind := 0x01) (num := num)
    (act := fun t => t.setPortAct port fn ic rt) e (by cases st <;> rfl) rfl rfl
  refine ⟨_, exec_taken h rfl, ?_, raises, answers⟩
  have ports : _ = Table.mapEach Port.startTransmission s.ports := Table.ext_read fun q =>
    (port q).trans (Table.read_mapEach ..).symm
  refine same.trans ?_
  rw [ports]
  rfl

/-- Settles O24: the refusals, the settings stored, and the desk granted. -/
theorem setPortStoresSettings : Obligations.SetPortStoresSettings := by
  intro num port fn ic rt s takes
  refine ⟨fun out => setPort_refused takes num (setPortAct_outOfRange s rt out), ?_⟩
  rintro p rfl hf hi
  refine ⟨fun busy => setPort_refused takes num (setPortAct_busy s p rt hf hi busy), ?_⟩
  intro hold claim f i v locks becomesDesk settings
  have act := setPortAct_stores s p rt hf hi hold claim
  dsimp only at act
  change s.setPortAct p.val fn ic rt = (s.storePort p f i v, if v = rt then .ok else .adjusted,
    .port f i v) at act
  have body : replyBody (if v = rt then .ok else .adjusted) (.port f i v) = .port f i v := by
    split <;> rfl
  obtain ⟨function, intercept, present, check⟩ := (s.port p).settingsStored_settings f i
  refine ⟨fun quiet => ?_, fun becomes w rest c queue live => ?_⟩
  · rw [storePort_grantsNone i v hold quiet] at act
    obtain ⟨same, ports, raises, answers⟩ := answer_settleLinks takes (kind := 0x01) (num := num)
      (act := fun t => t.setPortAct p.val fn ic rt) act body rfl rfl
    refine ⟨_, exec_taken takes rfl, ?_⟩
    rw [State.takeSetPort]
    generalize s.answer 0x01 num State.settleLinks (fun t => t.setPortAct p.val fn ic rt) = t at *
    have kept := ((s.portSet p f i v).port p).startTransmission_settled
    rw [← ports p, portSet_here] at kept
    obtain ⟨function', intercept', present', check'⟩ := kept.settings
    refine ⟨same, ⟨function'.trans function, intercept'.trans intercept, present'.trans present,
      check'.trans check, raises, answers⟩, fun changed off => ?_, fun changed on here' => ?_,
      fun changed desk here' => ?_, fun unchanged => ?_, fun q ne => by rw [ports, portSet_other i v ne]⟩
    · rw [ports, portSet_here, Port.settingsStored_changed i changed, off]
      rw [Port.startTransmission, if_neg fun h => h.2.2 rfl]
      exact ⟨rfl, rfl, rfl, rfl⟩
    · refine kept.shows _ ?_
      rw [Port.settingsStored_changed i changed]
      exact Port.changeFunction_shows on here'
    · refine kept.rings _ ?_
      rw [Port.settingsStored_changed i changed, desk]
      exact Port.changeFunction_rings here'
    · rw [ports, portSet_here, Port.settingsStored_same i unchanged]
  · obtain ⟨changed, desk, here', clear⟩ := becomes
    obtain ⟨grant, left⟩ := storePort_grantsHead i v hold changed desk here' clear queue live
    have all := grant.same
    obtain ⟨same, ports, raises, answers⟩ := answer_settleLinks takes (kind := 0x01) (num := num)
      (act := fun t => t.setPortAct p.val fn ic rt) act body (by rw [all]; rfl) (by rw [all]; rfl)
    refine ⟨_, exec_taken takes rfl, ?_⟩
    rw [State.takeSetPort]
    generalize s.answer 0x01 num State.settleLinks (fun t => t.setPortAct p.val fn ic rt) = t at *
    generalize s.storePort p f i v = u at *
    have kept : ∀ q, PortSettled (u.port q) (t.port q) := fun q =>
      (ports q).symm ▸ (u.port q).startTransmission_settled
    have ccu : t.ccu = u.ccu := by rw [same]
    have psw : t.psw = u.psw := by rw [same]
    obtain ⟨function', intercept', present', check'⟩ := (grant.settings p).trans (kept p).settings
    rw [portSet_here] at function' intercept' present' check'
    refine ⟨?_, ⟨function'.trans function, intercept'.trans intercept, present'.trans present,
      check'.trans check, raises, answers⟩, ?_, ?_, ?_, fun x => ?_, fun q ne => ?_, fun j ne => ?_, ?_, ?_,
      fun q np no => ?_⟩
    · refine same.trans ?_
      rw [ccu, psw, all]
      rfl
    · refine (grant.granted _ (List.mem_singleton_self _) c live).settled rfl rfl (fun on => ?_) ccu psw kept
      by_cases e : c.origin = p
      · rw [e, portSet_here, function, desk]
        decide
      · rw [portSet_other i v e]
        exact on
    · rw [psw, left]
    · rw [psw, grant.joins]
      rfl
    · rw [State.paths_congr psw, grant.paths]
      rfl
    · rw [State.hold_congr psw, grant.hold q (by simpa using ne.symm)]
      rfl
    · rw [State.slot_congr ccu, grant.slots j (by simpa using ne.symm)]
      rfl
    · rw [ccu, grant.times]
      rfl
    · rw [ccu, grant.intercept]
      rfl
    · rw [ports, grant.ports q, portSet_other i v np]
      intro g hg
      obtain rfl := List.mem_singleton.1 hg
      exact ⟨np.symm, fun d hd => Option.some.inj (live.symm.trans hd) ▸ no.symm⟩

end Sys2Proof.Machine
end

