-- ==== Sys2Proof/Proofs/FailedCalls.lean ====
section
/-!
SUPPORT. The calls that a riser failure ends, one after the other, with nothing granted in between (R28,
R29, R57).
-/

namespace Sys2Proof.Machine

/-- R57: these calls have ended for this reason, and nothing but what they held has changed. -/
structure CallsEnded (u w : State) (rs : List Ref) (why : EndReason) : Prop where
  same      : w = { u with ccu := w.ccu, psw := w.psw, ports := w.ports, ntu := w.ntu }
  times     : w.ccu.times = u.ccu.times
  intercept : w.ccu.intercept = u.ccu.intercept
  ended     : ∀ r ∈ rs, u.call? r ≠ none →
    w.slot r.slot = { generation := r.gen, lastEnd := some why, call := none }
  others    : ∀ j, (∀ r ∈ rs, r.slot ≠ j) → w.slot j = u.slot j
  freed     : ∀ r ∈ rs, ∀ d, u.call? r = some d → w.hold d.origin = none
  emptied   : ∀ p, u.hold p = none → w.hold p = none
  holds     : ∀ p, (∀ r ∈ rs, ∀ d, u.call? r = some d → d.origin ≠ p) → w.hold p = u.hold p
  paths     : ∀ x, w.paths x =
    { holderA := (u.paths x).holderA.filter fun q => q ∉ rs
      holderB := (u.paths x).holderB.filter fun q => q ∉ rs
      queue := (u.paths x).queue.filter fun q => q ∉ rs }
  joins     : w.psw.joins = u.psw.joins.filter fun j => j.call ∉ rs
  deskQueue : w.psw.deskQueue = u.psw.deskQueue
  settings  : ∀ p, (u.port p).SameSettings (w.port p)
  shows     : ∀ r ∈ rs, ∀ d, u.call? r = some d → (u.port d.origin).function ≠ .off →
    (w.port d.origin).Shows why.display
  shown     : ∀ p, (u.port p).Shows why.display → (w.port p).Shows why.display
  ntu       : w.ntu = ((u.endEvents why rs).foldl State.emit u).ntu

namespace CallsEnded
variable {u v w : State} {rs qs : List Ref} {why : EndReason}

theorem nil (u : State) (why : EndReason) : CallsEnded u u [] why where
  same := rfl
  times := rfl
  intercept := rfl
  ended _ h := absurd h List.not_mem_nil
  others _ _ := rfl
  freed _ h := absurd h List.not_mem_nil
  emptied _ h := h
  holds _ _ := rfl
  paths x := by
    have whole : ∀ a : Option Ref, (a.filter fun q => decide (q ∉ ([] : List Ref))) = a := fun a => by
      cases a <;> rfl
    rw [whole, whole, List.filter_eq_self.2 (by simp)]
  joins := by simp
  deskQueue := rfl
  settings _ := .refl _
  shows _ h := absurd h List.not_mem_nil
  shown _ h := h
  ntu := rfl

theorem call (h : CallsEnded u w rs why) {q : Ref} (out : ∀ r ∈ rs, r.slot ≠ q.slot) :
    w.call? q = u.call? q := call?_of_slot (h.others _ out)

theorem endEvents_append (u : State) (why : EndReason) (rs qs : List Ref) :
    u.endEvents why (rs ++ qs) = u.endEvents why rs ++ u.endEvents why qs := List.filterMap_append

/-- The calls of one list, then those of another. -/
theorem trans (h : CallsEnded u v rs why) (g : CallsEnded v w qs why)
    (apart : ∀ r ∈ rs, ∀ q ∈ qs, r.slot ≠ q.slot) : CallsEnded u w (rs ++ qs) why := by
  have still : ∀ q ∈ qs, v.call? q = u.call? q := fun q hq => h.call fun r hr => apart r hr q hq
  have nowhere : ∀ p, (∀ r ∈ rs ++ qs, ∀ d, u.call? r = some d → d.origin ≠ p) →
      (∀ r ∈ rs, ∀ d, u.call? r = some d → d.origin ≠ p) ∧
        ∀ q ∈ qs, ∀ d, v.call? q = some d → d.origin ≠ p := fun p out =>
    ⟨fun r hr => out r (List.mem_append_left _ hr), fun q hq d hd =>
      out q (List.mem_append_right _ hq) d (by rw [← still q hq, hd])⟩
  have both : ∀ q : Ref, (decide (q ∉ qs) && decide (q ∉ rs)) = decide (q ∉ rs ++ qs) := fun q => by
    rw [← Bool.decide_and]
    exact decide_eq_decide.2 (by rw [List.mem_append, not_or, and_comm])
  exact {
    same := by
      have k := g.same
      rw [h.same] at k
      exact k
    times := g.times.trans h.times
    intercept := g.intercept.trans h.intercept
    ended := fun r hr live => by
      rcases List.mem_append.1 hr with hr | hr
      · exact (g.others _ fun q hq => (apart r hr q hq).symm).trans (h.ended r hr live)
      · exact g.ended r hr (by rwa [still r hr])
    others := fun j out => by
      rw [List.forall_mem_append] at out
      exact (g.others j out.2).trans (h.others j out.1)
    freed := fun r hr d hd => by
      rcases List.mem_append.1 hr with hr | hr
      · exact g.emptied _ (h.freed r hr d hd)
      · exact g.freed r hr d (by rw [still r hr, hd])
    emptied := fun p k => g.emptied p (h.emptied p k)
    holds := fun p out => (g.holds p (nowhere p out).2).trans (h.holds p (nowhere p out).1)
    paths := fun x => by
      rw [g.paths, h.paths]
      simp only [List.filter_filter, Option.filter_filter, Bool.and_comm (decide (_ ∉ rs)), both]
    joins := by
      rw [g.joins, h.joins, List.filter_filter]
      exact List.filter_congr fun j _ => both j.call
    deskQueue := g.deskQueue.trans h.deskQueue
    settings := fun p => (h.settings p).trans (g.settings p)
    shows := fun r hr d hd on => by
      rcases List.mem_append.1 hr with hr | hr
      · exact g.shown _ (h.shows r hr d hd on)
      · exact g.shows r hr d (by rw [still r hr, hd]) (by rw [(h.settings _).1]; exact on)
    shown := fun p k => g.shown p (h.shown p k)
    ntu := by
      have same : v.endEvents why qs = u.endEvents why qs :=
        List.filterMap_congr fun q hq => by rw [still q hq]
      rw [g.ntu, same, endEvents_append, List.foldl_append]
      exact emits_ntu_congr h.ntu _ }

end CallsEnded

section
variable {u : State} {r : Ref} {d : Call} {why : EndReason}

/-- R28: a riser failure queues no frame to the handsets. -/
theorem endFrames_failure (u : State) (r : Ref) (d : Call) (fails : why.isRiserFailure = true) :
    u.endFrames r d why = u := if_pos fails

theorem endedAlone_same (u : State) (r : Ref) (d : Call) (fails : why.isRiserFailure = true) :
    let w := u.endedAlone r d why
    w = { u with ccu := w.ccu, psw := w.psw, ports := w.ports, ntu := w.ntu } := by
  have raised : u.endRaised r d why = { u with
      psw := (u.endRaised r d why).psw, ports := (u.endRaised r d why).ports
      ntu := (u.endRaised r d why).ntu } := by
    unfold State.endRaised
    rw [endFrames_failure u r d fails]
    refine (emit_same ..).trans ?_
    rw [State.emit_psw]
    rfl
  unfold State.endedAlone State.clearChannel State.clearDesk
  rw [endRecord_raised, raised]
  cases d.channel <;> cases d.deskPort <;> rfl

/-- R53: the channel of a live call is the one that it holds. -/
theorem holder_filter (L : u.PathLaw) (live : u.call? r = some d) (ch : Channel) :
    (if d.channel = some ch then none else (u.paths ch.riser).holder ch.side) =
      ((u.paths ch.riser).holder ch.side).filter fun q => q ∉ [r] := by
  obtain ⟨-, ⟨held, holds⟩, -⟩ := L
  by_cases own : d.channel = some ch
  · rw [if_pos own, (holds r d ch live own).1]
    exact (if_neg (by simp)).symm
  · rw [if_neg own]
    cases holder : (u.paths ch.riser).holder ch.side with
    | none => rfl
    | some q =>
      obtain ⟨c, hc, channel⟩ := held ch q holder
      have other : q ≠ r := fun e => own (by
        rw [e, live] at hc
        rw [Option.some.inj hc, channel])
      exact (if_pos (by simpa using other)).symm

/-- R57: one call that a riser failure ends, with no call waiting for what it held. -/
theorem endCall_failed (L : u.PathLaw) (empty : u.psw.deskQueue = []) (live : u.call? r = some d)
    (desk : d.deskPort = none) (line : ∀ ch, d.channel = some ch → (u.paths ch.riser).queue = [])
    (fails : why.isRiserFailure = true) : CallsEnded u (u.endCall r why) [r] why := by
  have alone : u.endCall r why = u.endedAlone r d why := endCall_alone live
    ⟨by simp [empty], fun ch own => by simp [line ch own]⟩ why
  have kept := (endCall_moves u r why).kept
  have settings := (endCall_moves u r why).callEventKept.ports
  rw [alone] at kept settings ⊢
  have hold := endedAlone_hold u r d why
  have port : ∀ p, (u.endedAlone r d why).port p = (u.endRaised r d why).port p := fun p => by
    rw [endedAlone_port, desk, if_neg (by simp)]
  exact {
    same := endedAlone_same u r d fails
    times := kept.times
    intercept := kept.intercept
    ended := fun q hq _ => by
      obtain rfl := List.mem_singleton.1 hq
      rw [endedAlone_slot, if_pos rfl]
    others := fun j out => by
      rw [endedAlone_slot, if_neg (out r (List.mem_singleton_self r))]
    freed := fun q hq c hc => by
      obtain rfl := List.mem_singleton.1 hq
      obtain rfl : d = c := Option.some.inj (live.symm.trans hc)
      rw [hold, if_pos (.inl rfl)]
    emptied := fun p free => by
      rw [hold]
      split
      · rfl
      · exact free
    holds := fun p out => by
      rw [hold, if_neg]
      rintro (home | port)
      · exact out r (List.mem_singleton_self r) d live home
      · rw [desk] at port
        cases port
    paths := fun x => by
      rw [endedAlone_paths]
      congr 1
      · exact holder_filter L live { riser := x, side := .a }
      · exact holder_filter L live { riser := x, side := .b }
      · simp
    joins := by
      rw [(endedAlone_lists u r d why).1]
      simp
    deskQueue := by
      rw [(endedAlone_lists u r d why).2, empty, List.filter_nil]
    settings := settings
    shows := fun q hq c hc on => by
      obtain rfl := List.mem_singleton.1 hq
      obtain rfl : d = c := Option.some.inj (live.symm.trans hc)
      have placed := Port.place_shows (d := why.display) on
      rw [port]
      rcases endRaised_port u q d why d.origin with e | e <;> rw [e, if_pos rfl]
      · exact placed
      · exact placed.takeAlert _
    shown := fun p k => by
      have placed : (if d.origin = p then Port.place why.display (u.port p) else u.port p).Shows
          why.display := by
        split
        · exact k.place
        · exact k
      rw [port]
      rcases endRaised_port u r d why p with e | e <;> rw [e]
      · exact placed
      · exact placed.takeAlert _
    ntu := by
      have event : u.endEvents why [r] = [d.endEvent r why] := by
        unfold State.endEvents
        rw [List.filterMap_cons_some (by rw [live]; rfl)]
        rfl
      rw [event, endedAlone_ntu]
      rfl }

/-- R57: calls that hold no desk, and for whose channels no call waits. -/
theorem foldl_endCall_failed (fails : why.isRiserFailure = true) (rs : List Ref) (nodup : rs.Nodup)
    (L : u.PathLaw) (empty : u.psw.deskQueue = [])
    (live : ∀ r ∈ rs, ∃ d, u.call? r = some d ∧ d.deskPort = none ∧
      ∀ ch, d.channel = some ch → (u.paths ch.riser).queue = []) :
    CallsEnded u (rs.foldl (fun t r => t.endCall r why) u) rs why ∧
      (rs.foldl (fun t r => t.endCall r why) u).PathLaw := by
  induction rs generalizing u with
  | nil => exact ⟨.nil u why, L⟩
  | cons r rs ih =>
    rw [List.nodup_cons] at nodup
    rw [List.forall_mem_cons] at live
    obtain ⟨⟨d, hd, desk, line⟩, others⟩ := live
    have one := endCall_failed L empty hd desk line fails
    have apart : ∀ q ∈ rs, r.slot ≠ q.slot := fun q hq e => by
      obtain ⟨c, hc, -⟩ := others q hq
      exact nodup.1 (Ref.eq_of_live (s := u) (by simp [hd]) (by simp [hc]) e ▸ hq)
    obtain ⟨rest, law⟩ := ih (u := u.endCall r why) nodup.2 (endCall_pathLaw L r why)
      (one.deskQueue.trans empty) fun q hq => by
        obtain ⟨c, hc, desk, line⟩ := others q hq
        refine ⟨c, (one.call (by simpa using apart q hq)).trans hc, desk, fun ch own => ?_⟩
        rw [one.paths, line ch own]
        rfl
    exact ⟨one.trans rest (by simpa using apart), law⟩

end

/-! ## The calls on a riser -/

theorem Call.StateLaw.of_channel {c : Call} (h : c.StateLaw) (held : c.channel ≠ none) :
    c.deskPort = none := by
  obtain ⟨-, -, h⟩ := h
  cases state : c.state <;> cases leg : c.leg <;> rw [state, leg] at h
  case waiting.flat => exact h.2.2.1
  case waiting.concierge => exact absurd h.2.1 held
  case offering.flat => exact h.2.2.1
  case offering.concierge => exact h.elim
  case ringing.flat => exact h.2.2.1
  case ringing.concierge => exact absurd h.2.1 held
  case connected.flat => exact h.2.2.1
  case connected.concierge => exact absurd h.2.1 held

theorem Call.StateLaw.of_waiting {c : Call} (h : c.StateLaw) (waits : c.state = .waiting) :
    c.channel = none ∧ c.deskPort = none := by
  obtain ⟨-, -, h⟩ := h
  rw [waits] at h
  cases leg : c.leg <;> rw [leg] at h
  · exact ⟨h.2.1, h.2.2.1⟩
  · exact ⟨h.2.1, h.2.2.1⟩

section
variable {u : State} (L : u.PathLaw) {x : RiserIx} {r : Ref}
include L

theorem queued_call (h : r ∈ (u.paths x).queue) : ∃ d, u.call? r = some d ∧ d.deskPort = none ∧
    d.channel = none ∧ u.riserOfCall d = some x := by
  obtain ⟨calls, -, -, lines, -⟩ := L
  obtain ⟨d, hd, waits, -, home⟩ := (lines x).2 r h
  obtain ⟨channel, desk⟩ := (calls r d hd).of_waiting waits
  exact ⟨d, hd, desk, channel, home⟩

theorem holding_call {ch : Channel} (h : (u.paths ch.riser).holder ch.side = some r) :
    ∃ d, u.call? r = some d ∧ d.deskPort = none ∧ d.channel = some ch ∧
      u.riserOfCall d = some ch.riser := by
  obtain ⟨calls, ⟨held, holds⟩, -⟩ := L
  obtain ⟨d, hd, channel⟩ := held ch r h
  exact ⟨d, hd, (calls r d hd).of_channel (by simp [channel]), channel, (holds r d ch hd channel).2⟩

theorem callsOn_call (h : r ∈ u.callsOn x) : ∃ d, u.call? r = some d ∧ d.deskPort = none ∧
    (∀ ch, d.channel = some ch → ch.riser = x) ∧ u.riserOfCall d = some x := by
  rcases List.mem_append.1 h with h | hb
  · rcases List.mem_append.1 h with queued | ha
    · obtain ⟨d, hd, desk, channel, home⟩ := queued_call L queued
      exact ⟨d, hd, desk, by simp [channel], home⟩
    · obtain ⟨d, hd, desk, channel, home⟩ :=
        holding_call L (ch := { riser := x, side := .a }) (Option.mem_toList.1 ha)
      exact ⟨d, hd, desk, fun ch own => by rw [← Option.some.inj (channel.symm.trans own)], home⟩
  · obtain ⟨d, hd, desk, channel, home⟩ :=
      holding_call L (ch := { riser := x, side := .b }) (Option.mem_toList.1 hb)
    exact ⟨d, hd, desk, fun ch own => by rw [← Option.some.inj (channel.symm.trans own)], home⟩

/-- R54, R55: a call stands on one riser. -/
theorem callsOn_apart {y : RiserIx} (h : r ∈ u.callsOn x) (k : r ∈ u.callsOn y) : x = y := by
  obtain ⟨d, hd, -, -, home⟩ := callsOn_call L h
  obtain ⟨c, hc, -, -, away⟩ := callsOn_call L k
  obtain rfl : d = c := Option.some.inj (hd.symm.trans hc)
  exact Option.some.inj (home.symm.trans away)

/-- R53, R55: no call stands twice among the calls on a riser. -/
theorem callsOn_nodup (x : RiserIx) : (u.callsOn x).Nodup := by
  have waits : ∀ (q : Ref) (ch : Channel), q ∈ (u.paths x).queue →
      (u.paths ch.riser).holder ch.side ≠ some q := fun q ch queued held => by
    obtain ⟨d, hd, -, none, -⟩ := queued_call L queued
    obtain ⟨c, hc, -, channel, -⟩ := holding_call L held
    obtain rfl : d = c := Option.some.inj (hd.symm.trans hc)
    rw [none] at channel
    cases channel
  have queue : (u.paths x).queue.Nodup := by
    obtain ⟨-, -, -, lines, -⟩ := L
    exact (lines x).1
  have one : ∀ o : Option Ref, o.toList.Nodup := fun o => by cases o <;> simp
  refine List.Nodup.append (List.Nodup.append queue (one _) fun q queued ha => ?_) (one _)
    fun q h hb => ?_
  · exact waits q { riser := x, side := .a } queued (Option.mem_toList.1 ha)
  · rcases List.mem_append.1 h with queued | ha
    · exact waits q { riser := x, side := .b } queued (Option.mem_toList.1 hb)
    · obtain ⟨d, hd, -, sideA, -⟩ :=
        holding_call L (ch := { riser := x, side := .a }) (Option.mem_toList.1 ha)
      obtain ⟨c, hc, -, sideB, -⟩ :=
        holding_call L (ch := { riser := x, side := .b }) (Option.mem_toList.1 hb)
      obtain rfl : d = c := Option.some.inj (hd.symm.trans hc)
      rw [sideA] at sideB
      simp at sideB

end

/-- R57: the calls that wait for a channel of the riser end first, so that none is left to be granted a
channel when its holders end. -/
theorem failCalls_ended {u : State} {x : RiserIx} {why : EndReason} (fails : why.isRiserFailure = true)
    (h : u.callsOn x = [] ∨ u.PathLaw ∧ u.psw.deskQueue = []) :
    CallsEnded u (u.failCalls x why) (u.callsOn x) why := by
  have run : u.failCalls x why = (u.callsOn x).foldl (fun t r => t.endCall r why) u := rfl
  rcases h with none | ⟨L, empty⟩
  · rw [run, none]
    exact .nil u why
  have nodup := callsOn_nodup L x
  have calls := fun r => callsOn_call (r := r) L (x := x)
  have split : u.callsOn x = (u.paths x).queue ++
      ((u.paths x).holderA.toList ++ (u.paths x).holderB.toList) := List.append_assoc ..
  rw [run]
  generalize hq : (u.paths x).queue = queue at split
  rw [split] at nodup calls ⊢
  obtain ⟨queueNodup, holdersNodup, disjoint⟩ := List.nodup_append.1 nodup
  obtain ⟨waiters, law⟩ := foldl_endCall_failed fails queue queueNodup L empty fun r hr => by
    obtain ⟨d, hd, desk, channel, -⟩ := queued_call L (hq ▸ hr)
    exact ⟨d, hd, desk, by simp [channel]⟩
  have apart : ∀ r ∈ queue, ∀ q ∈ (u.paths x).holderA.toList ++ (u.paths x).holderB.toList,
      r.slot ≠ q.slot := fun r hr q hq e => by
    obtain ⟨d, hd, -⟩ := calls r (List.mem_append_left _ hr)
    obtain ⟨c, hc, -⟩ := calls q (List.mem_append_right _ hq)
    exact disjoint r hr q hq (Ref.eq_of_live (s := u) (by simp [hd]) (by simp [hc]) e)
  obtain ⟨holders, -⟩ := foldl_endCall_failed fails _ holdersNodup law
    (waiters.deskQueue.trans empty) fun r hr => by
      obtain ⟨d, hd, desk, home, -⟩ := calls r (List.mem_append_right _ hr)
      refine ⟨d, (waiters.call fun q hq => apart q hq r hr).trans hd, desk, fun ch own => ?_⟩
      rw [waiters.paths, home ch own, hq]
      exact List.filter_eq_nil_iff.2 fun q m => by simp [m]
  rw [List.foldl_append]
  exact waiters.trans holders apart

end Sys2Proof.Machine
end

