-- ==== Sys2Proof/Proofs/FailedRisers.lean ====
section
/-!
SUPPORT. A riser that a line fault or an overrun empties, and what stands at the end of that event (R57,
R73, R88, R90; O58, O60).
-/

namespace Sys2Proof.Machine

/-! ## Up to RISER_CHANGE -/

/-- R88: the riser that has failed, before it is flushed. -/
def Riser.stopped (y : Riser) : Riser :=
  { y with link := .faulted, idleTimer := none, stepTimer := none, wakeTimer := none, tx := none
           overrunDue := false }

/-- R88: the failure up to its event: the riser is flushed, its calls still stand. -/
def State.riserStopped (s : State) (x : RiserIx) (link : LinkState) (cause : RiserCause) : State :=
  ((s.modifyRiser x Riser.stopped).flushRiser x).emit (.riserChange x link cause)

theorem failRiser_eq (s : State) (x : RiserIx) (link : LinkState) (cause : RiserCause)
    (why : EndReason) : s.failRiser x link cause why =
      ((s.riserStopped x link cause).failCalls x why).forgetStations x := rfl

/-- R73, R88: a riser has been flushed and its event raised; the calls and their paths are as they were but
for offers, and the flats are as they were. -/
structure RiserStopped (s v : State) (x : RiserIx) (y : Riser) (e : Event) : Prop where
  set     : RiserSet s v x y [e]
  dir     : v.dir = s.dir
  view    : v.view = s.view
  replies : (∀ m, (s.riser x).markers.count m ≤ s.hlp.syncs.count { num := m, riser := x }) →
    v.hlp.replyLine =
      s.hlp.replyLine ++ (s.riser x).markers.map fun m => ⟨0x14, m, .ok, .sync x .flushed⟩

theorem riserStopped_stopped (s : State) (x : RiserIx) (link : LinkState) (cause : RiserCause) :
    RiserStopped s (s.riserStopped x link cause) x (s.riser x).stopped.flushed
      (.riserChange x link cause) := by
  have stopped := RiserSet.modify s x Riser.stopped
  have markers : ((s.modifyRiser x Riser.stopped).riser x).markers = (s.riser x).markers := by
    rw [stopped.riser]
    rfl
  have flushed := stopped.next (flushRiser_set (s.modifyRiser x Riser.stopped) x)
  have raised := flushed.trans (.emit _ x (.riserChange x link cause))
  rw [flushed.riser, stopped.riser] at raised
  refine ⟨raised, (State.emit_dir ..).trans (flushRiser_dir ..),
    (State.view_emit ..).trans ((State.view_flushRiser ..).trans (State.view_modifyRiser ..)),
    fun pending => ?_⟩
  have replies := flushRiser_replies (s.modifyRiser x Riser.stopped) x (by rw [markers]; exact pending)
  rw [markers] at replies
  exact (congrArg Hlp.replyLine (State.emit_hlp ..)).trans replies

/-- The same after a change of the riser that keeps its markers. -/
theorem RiserStopped.after {s v : State} {x : RiserIx} {y : Riser} {e : Event} {f : Riser → Riser}
    (h : RiserStopped (s.modifyRiser x f) v x y e) (markers : (f (s.riser x)).markers = (s.riser x).markers) :
    RiserStopped s v x y e := by
  have first := RiserSet.modify s x f
  refine ⟨first.trans h.set, h.dir, h.view.trans (State.view_modifyRiser ..), fun pending => ?_⟩
  have replies := h.replies
  rw [first.riser, markers] at replies
  exact replies pending

theorem call?_of_view {s v : State} (h : v.view = s.view) {r : Ref} {d : Call}
    (live : s.call? r = some d) : ∃ c, v.call? r = some c ∧ c.bare = d.bare := by
  have calls : (v.call? r).map Call.bare = (s.call? r).map Call.bare := by
    rw [← State.view_call, h, State.view_call]
  rw [live] at calls
  exact Option.map_eq_some_iff.1 calls

namespace RiserStopped
variable {s v : State} {x : RiserIx} {y : Riser} {e : Event}

theorem callsOn (h : RiserStopped s v x y e) : v.callsOn x = s.callsOn x := by
  unfold State.callsOn
  rw [State.paths_congr h.set.kept.psw]

theorem endEvents (h : RiserStopped s v x y e) (why : EndReason) (rs : List Ref) :
    v.endEvents why rs = s.endEvents why rs := by
  have bare : ∀ (t : State) (r : Ref), ((t.call? r).map fun d => d.endEvent r why) =
      ((t.call? r).map Call.bare).map fun d => d.endEvent r why := fun t r => by
    rw [Option.map_map]
    rfl
  refine List.filterMap_congr fun r _ => ?_
  refine (bare v r).trans (Eq.trans ?_ (bare s r).symm)
  rw [← State.view_call, h.view, State.view_call]

/-- R57: the calls that the failure ends. -/
theorem calls (h : RiserStopped s v x y e) {why : EndReason} (fails : why.isRiserFailure = true)
    (alone : s.callsOn x = [] ∨ s.PathLaw ∧ s.psw.deskQueue = []) :
    CallsEnded v (v.failCalls x why) (s.callsOn x) why := by
  rw [← h.callsOn]
  refine failCalls_ended fails ?_
  rw [h.callsOn, h.set.kept.psw]
  exact alone.imp id fun ⟨law, empty⟩ => ⟨law.of_view h.view, empty⟩

end RiserStopped

/-! ## The end of the event -/

theorem Port.Shows.forgetStations {s : State} {p : PortIx} {d : Display} (h : (s.port p).Shows d)
    (x : RiserIx) : ((s.forgetStations x).port p).Shows d := by
  have emits : ∀ (es : List Event) (t : State), (t.port p).Shows d →
      ((es.foldl State.emit t).port p).Shows d := fun es => by
    induction es with
    | nil => exact fun _ k => k
    | cons e es ih => exact fun t k => ih _ (k.emit e)
  obtain ⟨d, shape⟩ := (forgetStations_recomputed s x).events
  rw [shape]
  exact emits _ _ h

theorem option_filter_self {α : Type} {p : α → Bool} {o : Option α} (h : ∀ a, o = some a → p a = true) :
    o.filter p = o := by
  cases o with
  | none => rfl
  | some a => exact if_pos (h a rfl)

/-- R57: the state in which a failure has been taken, its riser then changed by `f`. -/
def State.riserFailed (v : State) (x : RiserIx) (why : EndReason) (f : Riser → Riser) : State :=
  ((v.failCalls x why).forgetStations x).modifyRiser x f

section
variable {s v : State} {x : RiserIx} {y : Riser} {e : Event} {why : EndReason} (f : Riser → Riser)
  (h : RiserStopped s v x y e) (fails : why.isRiserFailure = true)
  (alone : s.callsOn x = [] ∨ s.PathLaw ∧ s.psw.deskQueue = [])
include h fails alone

theorem riserFailed_set : RiserSet (v.failCalls x why) (v.riserFailed x why f) x
    (f { y with stations := Table.fill 62 Station.cold }) (s.privacyEvents x) := by
  have calls := h.calls fails alone
  have forgotten := forgetStations_set (v.failCalls x why) x
  have last := forgotten.next (.modify _ x f)
  have dir : (v.failCalls x why).dir = s.dir := by
    rw [calls.same]
    exact h.dir
  have riser : (v.failCalls x why).riser x = y := by
    rw [calls.same]
    exact h.set.riser
  rw [forgotten.riser, riser, privacyEvents_congr dir] at last
  exact last

theorem riserFailed_raises : Raises s (v.riserFailed x why f).settle
    (e :: (s.endEvents why (s.callsOn x) ++ s.privacyEvents x)) := by
  have calls := h.calls fails alone
  have set := riserFailed_set f h fails alone
  have tx : (v.failCalls x why).hlp.tx = v.hlp.tx := by rw [calls.same]
  refine .of_settled (set.tx.trans (tx.trans h.set.tx)) ?_ (settle_settled _)
  rw [set.ntu, List.foldl_cons, List.foldl_append, ← h.endEvents]
  exact emits_ntu_congr (calls.ntu.trans (emits_ntu_congr h.set.ntu _)) _

theorem riserFailed_replies (pending : ∀ m, (s.riser x).markers.count m ≤
    s.hlp.syncs.count { num := m, riser := x }) :
    s.hlp.replyLine ++ (s.riser x).markers.map (fun m => ⟨0x14, m, .ok, .sync x .flushed⟩) <+:
      (v.riserFailed x why f).settle.hlp.replyLine := by
  have calls := h.calls fails alone
  have hlp : (v.riserFailed x why f).hlp = v.hlp := by
    obtain ⟨d, shape⟩ := (forgetStations_recomputed (v.failCalls x why) x).events
    have all : ((v.failCalls x why).forgetStations x).hlp = (v.failCalls x why).hlp := by
      rw [shape]
      exact emits_hlp ..
    refine Eq.trans all ?_
    rw [calls.same]
  have settled := (settle_settled (v.riserFailed x why f)).replies
  rw [hlp, h.replies pending] at settled
  exact settled

/-- R57: the calls on the riser have ended, and nothing else but the riser has changed. -/
theorem riserFailed_failed (config : ConfigKept s (v.riserFailed x why f).settle) :
    RiserFailed s (v.riserFailed x why f).settle x why := by
  have calls := h.calls fails alone
  have set := riserFailed_set f h fails alone
  have k := settle_settled (v.riserFailed x why f)
  have after := set.kept.trans (.of_settled x k)
  have before := h.set.kept
  have function : ∀ p, (v.port p).function = (s.port p).function := fun p => (before.ports p).1.1
  have flats : ∀ i, (v.riserFailed x why f).settle.flat i = _ := fun i =>
    (State.flat_congr k.dir i).trans (forgetStations_flats (v.failCalls x why) x i)
  have flat : ∀ i, (v.failCalls x why).flat i = s.flat i := fun i => by
    rw [calls.same]
    exact State.flat_congr h.dir i
  have on : ∀ q ∈ s.callsOn x, ∀ y, y ≠ x → q ∉ s.callsOn y := fun q hq y ne hy => by
    rcases alone with none | ⟨L, -⟩
    · rw [none] at hq
      cases hq
    · exact ne (callsOn_apart L hy hq)
  have shows : ∀ p d, ((v.failCalls x why).port p).Shows d →
      ((v.riserFailed x why f).settle.port p).Shows d := fun p d shown =>
    (k.ports p).shows d (shown.forgetStations x)
  have paths : ∀ z, (v.riserFailed x why f).settle.paths z = _ := fun z =>
    (State.paths_congr after.psw z).trans (calls.paths z)
  simp only [State.paths_congr before.psw] at paths
  generalize (v.riserFailed x why f).settle = t at *
  generalize v.failCalls x why = w at *
  exact {
    ended := fun r hr d hd => by
      obtain ⟨c, hc, bare⟩ := call?_of_view h.view hd
      have origin : c.origin = d.origin :=
        (congrArg Call.origin bare : c.bare.origin = d.bare.origin)
      refine ⟨?_, ?_, fun panel => ?_⟩
      · obtain ⟨gen, last, call⟩ := after.slots r.slot
        rw [calls.ended r hr (by simp [hc])] at gen last call
        generalize t.slot r.slot = z at gen last call ⊢
        obtain ⟨g, l, b⟩ := z
        obtain rfl : b = none := Option.map_eq_none_iff.1 call
        subst gen last
        rfl
      · rw [State.hold_congr after.psw, ← origin]
        exact calls.freed r hr c hc
      · rw [← origin] at panel ⊢
        exact shows _ _ (calls.shows r hr c hc (by rwa [function]))
    others := fun j out => by
      obtain ⟨gen, last, call⟩ := before.slots j
      obtain ⟨gen', last', call'⟩ := after.slots j
      rw [calls.others j out] at gen' last' call'
      exact ⟨gen'.trans gen, last'.trans last, call'.trans call⟩
    paths := by
      rw [paths, Option.filter_eq_none_iff.2 fun q held => ?_, Option.filter_eq_none_iff.2 fun q held => ?_,
        List.filter_eq_nil_iff.2 fun q queued => ?_]
      · simp [State.callsOn, queued]
      · simp [State.callsOn, held]
      · simp [State.callsOn, held]
    elsewhere := fun z ne => by
      have out : ∀ q ∈ s.callsOn z, decide (q ∉ s.callsOn x) = true := fun q here =>
        decide_eq_true fun there => on q there z ne here
      rw [paths, option_filter_self fun q held => out q ?_, option_filter_self fun q held => out q ?_,
        List.filter_eq_self.2 fun q queued => out q ?_]
      · simp [State.callsOn, queued]
      · simp [State.callsOn, held]
      · simp [State.callsOn, held]
    holds := fun p out => by
      rw [State.hold_congr after.psw, calls.holds p, State.hold_congr before.psw]
      intro r hr c hc
      obtain ⟨d, hd, bare⟩ := call?_of_view h.view.symm hc
      have origin : d.origin = c.origin :=
        (congrArg Call.origin bare : d.bare.origin = c.bare.origin)
      exact origin ▸ out r hr d hd
    joins := by
      rw [after.psw, calls.joins, before.psw]
    deskQueue := by
      rw [after.psw, calls.deskQueue, before.psw]
    flats := fun i => by
      rw [flats, flat]
    config := config
    clock := by
      rw [after.clock, calls.same]
      exact before.clock
    locks := by
      rw [after.locks, calls.same]
      exact before.locks
    ports := fun p => (before.ports p).1.trans ((calls.settings p).trans (after.ports p).1)
    risers := fun y ne => by
      have same : w.riser y = v.riser y := by rw [calls.same]; rfl
      exact (before.risers y ne).trans (same ▸ after.risers y ne) }

end

/-! ## The riser at the end of the event -/

/-- R74, R78: an ACTIVE riser with nothing to send, whose idle timer runs, is left as it is. -/
theorem settle_idle {s : State} {x : RiserIx} {y : Riser} (riser : s.riser x = y) (queue : y.queue = [])
    (resends : y.resends = []) (runs : y.runOut = false) : s.settle.riser x = y := by
  subst riser
  obtain ⟨w, riser, -, turn⟩ := settle_turn s x
  have drained : (w.completeMarkers x).riser x = s.riser x := by
    refine (State.riser_congr (completeMarkers_rest w x).1 x).trans
      ((State.riser_modifyRiser ..).trans ((if_pos rfl).trans ?_))
    rw [riser, queue]
    show { s.riser x with queue := [] } = _
    rw [← queue]
  have still : (w.completeMarkers x).startTransmission x = w.completeMarkers x := by
    unfold State.startTransmission
    rw [drained]
    dsimp only
    split
    · rw [resends, queue]
      rfl
    · rfl
  have awake : (w.completeMarkers x).goQuiet x = w.completeMarkers x := by
    unfold State.goQuiet
    rw [drained]
    exact if_neg (by simp [runs])
  rw [turn, State.settleRiser, still, awake, drained]

/-- R73, R88: the riser when its calls have ended and its stations are forgotten. -/
theorem Riser.stopped_emptied (y : Riser) :
    RiserEmptied y { y.stopped.flushed with stations := Table.fill 62 Station.cold } where
  queue := rfl
  outstanding := rfl
  resends := rfl
  tx := rfl
  freeTags := rfl
  stations a := Table.read_fill _ a

/-! ## A line fault (R88) -/

/-- R88: the riser for which a fault is reported: what it was receiving is lost. -/
def Riser.reported (y : Riser) (c : LineCondition) : Riser := { y with line := c, receiving := none }

/-- R88: the report that finds the riser in working order. -/
theorem lineSense_fault {s : State} {x : RiserIx} {c : LineCondition} (bad : c ≠ .good)
    (on : (s.riser x).link.isOff = false) : s.lineSense x c = s.lineFaultNow x c := by
  unfold State.lineSense
  cases link : (s.riser x).link <;> rw [link] at on
  case disabled => cases on
  case faulted => cases on
  all_goals exact if_neg bad

/-- Settles O58: the riser is stopped and flushed, then its calls end and its stations are forgotten. -/
theorem lineFaultEmptiesTheRiser : Obligations.LineFaultEmptiesTheRiser := by
  intro x v c s bad command due on alone cause y
  have idle : s.overrunFirst x = s := if_neg (by simp [due])
  have run : exec c s = .next ((s.lineFaultNow x v).settle) := by
    have taken : exec c s = .next (((s.overrunFirst x).lineSense x v).settle) := by
      rcases command with rfl | rfl
      · rfl
      · rfl
    rw [taken, idle, lineSense_fault bad on]
  have stopped := (riserStopped_stopped (s.modifyRiser x fun y => y.reported v) x .faulted cause).after rfl
  have shape : s.lineFaultNow x v = State.riserFailed
      ((s.modifyRiser x fun y => y.reported v).riserStopped x .faulted cause) x .faultRiserFault id :=
    (State.modifyRiser_same rfl).symm
  have config : ConfigKept s (s.lineFaultNow x v).settle :=
    ((ConfigKept.modifyRiser s x).trans (.failRiser ..)).trans (.settle _)
  rw [State.riser_modifyRiser, if_pos rfl] at stopped
  rw [shape] at run config
  have set := riserFailed_set (why := .faultRiserFault) id stopped rfl alone
  have riser := settle_still set.riser nofun rfl
  refine ⟨_, run, ?_⟩
  rw [riser]
  exact ⟨rfl, rfl, { Riser.stopped_emptied y with }, rfl, rfl, rfl, rfl,
    riserFailed_failed id stopped rfl alone config, riserFailed_replies id stopped rfl alone,
    riserFailed_raises id stopped rfl alone⟩

/-! ## Overrun processing (R90) -/

/-- R90: the riser that is ACTIVE again, its timers started. -/
def Riser.restarted (y : Riser) (now : Nat) : Riser :=
  { y with
    link := .active, wakeTimer := none, idleTimer := some (now + y.quietIdleS * 1000), runOut := false
    stepTimer := if y.survey then some (now + y.surveyStepMs) else y.stepTimer }

/-- Settles O60: the failure of the riser as at a fault, then the restart. -/
theorem overrunEmptiesAndRestarts : Obligations.OverrunEmptiesAndRestarts := by
  intro x s
  refine ⟨fun calm => congrArg Host.Outcome.next (if_neg (by simp [calm])), fun due alone => ?_⟩
  have stopped := riserStopped_stopped s x .active .overrun
  have run : exec (.overrun x) s = .next (s.overrunNow x).settle :=
    congrArg Host.Outcome.next (if_pos due)
  have config : ConfigKept s (s.overrunNow x).settle :=
    ((ConfigKept.failRiser ..).trans (.enterActive ..)).trans (.settle _)
  have clock : (s.failRiser x .active .overrun .faultRiserOverrun).clock = s.clock :=
    ((forgetStations_set _ x).kept.clock.trans (failCalls_moves ..).kept.clock).trans
      stopped.set.kept.clock
  have shape : s.overrunNow x = State.riserFailed (s.riserStopped x .active .overrun) x
      .faultRiserOverrun fun y => y.restarted s.clock := by
    rw [← clock]
    rfl
  rw [shape] at run config
  have set := riserFailed_set (why := .faultRiserOverrun) (fun y => y.restarted s.clock) stopped rfl alone
  have riser := settle_idle set.riser rfl rfl rfl
  refine ⟨_, run, ?_⟩
  rw [riser]
  exact ⟨rfl, rfl, rfl, { Riser.stopped_emptied (s.riser x) with }, rfl, rfl, rfl,
    riserFailed_failed _ stopped rfl alone config, riserFailed_replies _ stopped rfl alone,
    riserFailed_raises _ stopped rfl alone⟩

end Sys2Proof.Machine
end
